-- ==== Sys2Proof/Word.lean ====
section
/-! DEFINITION. The word types of the Xanhan hart and the register-number types (R2, R155). -/

namespace Sys2Proof

/-- A scalar register, CSR or virtual address (R156, R296). -/
abbrev Word := BitVec 64

/-- One byte of memory (R3). -/
abbrev Byte := BitVec 8

/-- The contents of one vector register or one operand-latch row: 1,152 bytes (R181, R251). -/
abbrev VBits := BitVec 9216

/-- The contents of one weight register: 1,152 PW16 weights (R182, R208). -/
abbrev WBits := BitVec 18432

/-- A scalar register number, x0 to x31 (R155). -/
abbrev XReg := Fin 32

/-- A vector register number, v0 to v63 (R155). -/
abbrev VReg := Fin 64

/-- A weight register number, w0 to w15 (R155). -/
abbrev WReg := Fin 16

end Sys2Proof
end

