-- ==== Sys2Proof/Config.lean ====
section
/-! DEFINITION. What is fixed for the machine, and the values the manual leaves open. A constant without a body is a
free value: nothing can be proved of it but what holds for every value. -/

namespace Sys2Proof

namespace Config

/-- Bytes of one vector register (R181). -/
def vregBytes : Nat := 1152

/-- Bytes of one element group, which the 24 lanes process together (R31). -/
def groupBytes : Nat := 192

/-- Harts of the package (R10). -/
def harts : Nat := 512

/-- Entries of the dispatch queue (R40). -/
def queueDepth : Nat := 128

/-- Bytes of stage memory (R324). -/
def stageBytes : Nat := 294912

/-- Bytes of one HBM stack (R14). -/
def stackBytes : Nat := 68719476736

/-- The start of the far-tier range (R20). -/
def farBase : Nat := 0x100000000000

/-- The end of the far-tier range (R20). -/
def farEnd : Nat := 0x200000000000

/-- The start of the device register block (R20). -/
def devBase : Nat := 0x10000000000

/-- Where host memory lies in the model's one memory: host physical address a is key hostBase + a (log 4). -/
def hostBase : Nat := 2 ^ 55

/-- Where the nameless pool lies in the model's one memory: byte b of the slot with name n is key poolBase + n[35:0] + b
(log 4). -/
def poolBase : Nat := 2 ^ 60

/-- What a byte of device or host memory that nothing has written reads as (log 2, DESIGN CHOICE). -/
def emptyByte : Byte := 0

/-- The line size that icinv works on (log 9, PRESUMED). -/
def icacheLine : Nat := 64

/-- Free value: the farm number the scheduler tries first at the n-th placement (R166 leaves it open; log 10). -/
opaque farmNumber : Nat → BitVec 32

/-- Free value: at the n-th choice between a translation that has changed and the one before the change, whether the
access uses the old one (R410; log 8). -/
opaque oldTranslation : Nat → Bool

/-- Free value: at the n-th choice between the bytes of memory and the older bytes of the instruction cache, whether the
fetch uses the older ones (R357; log 9). -/
opaque oldParcel : Nat → Bool

/-- Free value: the pending requests of a pseudo-channel or bank at the n-th choice of a slot (R348; log 11). -/
opaque pendingRequests : Nat → Nat → Nat

/-- Free value: the signed quote of R448, of the nonce and the digest inputs (log 12). -/
opaque quote : BitVec 256 → List (BitVec 256) → BitVec 512

/-- Free value: the syndrome that a bank holds of a read of poisoned bytes (code 1) or of an access that reached nothing
(code 4) at an address (R422 gives neither; log 5). -/
opaque syndrome : Nat → Nat → BitVec 64

/-- Free value: the temperature that the management controller reads at the n-th reading (R27 gives no figures; log 46). -/
opaque temperature : Nat → BitVec 16

/-- Free value: byte n of what a save writes where its slot has no image (R397 and R398 give it no value; log 15). -/
opaque saveFill : Nat → Byte

end Config

end Sys2Proof
end

