-- ==== Sys2Proof/Syntax.lean ====
section
/-! DEFINITION. The instructions of the Ubandum instruction set and the indivisible steps of the machine that are not
fetched: one constructor of `Instr` for each row of the opcode table (R69 to R107, 95_what_each_step_holds). -/

namespace Sys2Proof

/-- The scopes of R83 and R268. -/
inductive Scope where
  | hart | circlet | package | domain | system
  deriving DecidableEq, Repr

/-- The order field of atomics (R82). -/
inductive Order where
  | rlx | acq | rel | ar
  deriving DecidableEq, Repr

/-- The rounding override of a 64-bit instruction; 6 and 7 are no instruction (R95). -/
abbrev Rm := Fin 6

/-- The second operand of a binary VA instruction: form 0b00, 0b01 or 0b10 (R91, R101). -/
inductive Src where
  | v (r : VReg)
  | x (r : XReg)
  | i (imm : BitVec 10)
  deriving DecidableEq, Repr

/-- The operands of a ternary VA instruction; in forms 0b01 and 0b10 vc is vd (R101). -/
inductive Src3 where
  | v (vb vc : VReg)
  | x (r : XReg)
  | i (imm : BitVec 10)
  deriving DecidableEq, Repr

/-- An amount or column: a scalar register (0b01) or imm10 (0b10) (R102). -/
inductive Amount where
  | x (r : XReg)
  | i (imm : BitVec 10)
  deriving DecidableEq, Repr

/-- The second operand of a compare: a vector (0b00) or a scalar register (0b01) (R106). -/
inductive CmpSrc where
  | v (r : VReg)
  | x (r : XReg)
  deriving DecidableEq, Repr

/-- The destination of a reduction: vd (0b00) or xd (0b11) (R102). -/
inductive RedDst where
  | v (r : VReg)
  | x (r : XReg)
  deriving DecidableEq, Repr

/-- A binary VA instruction (R101, form B). -/
structure VBin where
  vd : VReg
  va : VReg
  b  : Src
  ws : WReg
  rm : Rm
  deriving DecidableEq, Repr

/-- A ternary VA instruction (R101, form T). -/
structure VTern where
  vd : VReg
  va : VReg
  b  : Src3
  ws : WReg
  rm : Rm
  deriving DecidableEq, Repr

/-- A unary vector instruction vd, va (R101, form U). -/
structure VUn where
  vd : VReg
  va : VReg
  ws : WReg
  rm : Rm
  deriving DecidableEq, Repr

/-- vd, va, vb (R102). -/
structure VVV where
  vd : VReg
  va : VReg
  vb : VReg
  ws : WReg
  rm : Rm
  deriving DecidableEq, Repr

/-- vd, va, vb, vc (R101, vsel). -/
structure VSelArgs where
  vd : VReg
  va : VReg
  vb : VReg
  vc : VReg
  ws : WReg
  rm : Rm
  deriving DecidableEq, Repr

/-- The four forms of vmv (R198). -/
inductive VMvArgs where
  | copy (vd va : VReg) (ws : WReg) (rm : Rm)
  | splat (vd : VReg) (xs : XReg) (ws : WReg) (rm : Rm)
  | splatImm (vd : VReg) (imm : BitVec 10) (ws : WReg) (rm : Rm)
  | toX (xd : XReg) (va : VReg) (idx : BitVec 10) (ws : WReg) (rm : Rm)
  deriving DecidableEq, Repr

/-- vd, va and an amount or column (R201, R205). -/
structure VAmt where
  vd : VReg
  va : VReg
  s  : Amount
  ws : WReg
  rm : Rm
  deriving DecidableEq, Repr

/-- A reduction (R203). -/
structure VRed where
  dst : RedDst
  va  : VReg
  vb  : VReg
  ws  : WReg
  rm  : Rm
  deriving DecidableEq, Repr

/-- The operations of vscan (R204). -/
inductive ScanOp where
  | sum | max | min | and | or
  deriving DecidableEq, Repr

/-- vscan vd, va, op (R204). -/
structure VScanArgs where
  vd : VReg
  va : VReg
  op : ScanOp
  ws : WReg
  rm : Rm
  deriving DecidableEq, Repr

/-- vcsw vd, va, vb with the fields of imm10 (R206). -/
structure VCswArgs where
  vd  : VReg
  va  : VReg
  vb  : VReg
  inv : Bool
  k   : BitVec 4
  j   : BitVec 4
  ws  : WReg
  rm  : Rm
  deriving DecidableEq, Repr

/-- vnormk vd, va, k (R207). -/
structure VNormkArgs where
  vd : VReg
  va : VReg
  k  : BitVec 10
  ws : WReg
  rm : Rm
  deriving DecidableEq, Repr

/-- The fields common to the VM loads and stores: data register, base, offset, cache policy (R302). -/
structure VMem where
  vd     : VReg
  xs     : XReg
  imm    : BitVec 10
  stream : Bool
  ws     : WReg
  rm     : Rm
  deriving DecidableEq, Repr

/-- vst.pair vd, (xs), (xt), xc (R313). -/
structure VPairArgs where
  vd     : VReg
  xs     : XReg
  xt     : XReg
  xc     : XReg
  stream : Bool
  ws     : WReg
  rm     : Rm
  deriving DecidableEq, Repr

/-- The operations of vamo and samo (R318). -/
inductive AmoOp where
  | add | swap | max | min | and | or | maxn | minn
  deriving DecidableEq, Repr

/-- vamo vd, va, (xs), vb, op, order, scope (R318). -/
structure VAmoArgs where
  vd     : VReg
  va     : VReg
  xs     : XReg
  vb     : VReg
  op     : AmoOp
  sc     : Scope
  ord    : Order
  stream : Bool
  ws     : WReg
  rm     : Rm
  deriving DecidableEq, Repr

/-- The operations of vsred (R319). -/
inductive RedOp where
  | add | max | min | and | or
  deriving DecidableEq, Repr

/-- vsred va, (xs), vb, op, scope (R319). -/
structure VSredArgs where
  va     : VReg
  xs     : XReg
  vb     : VReg
  op     : RedOp
  sc     : Scope
  stream : Bool
  ws     : WReg
  rm     : Rm
  deriving DecidableEq, Repr

/-- vcopy (xs), (xt), xn, xc, scope (R322). -/
structure VCopyArgs where
  xs     : XReg
  xt     : XReg
  xn     : XReg
  xc     : XReg
  sc     : Scope
  stream : Bool
  ws     : WReg
  rm     : Rm
  deriving DecidableEq, Repr

/-- A stage or bead access vd, imm(xs) (R330, R335). -/
structure VStage where
  vd  : VReg
  xs  : XReg
  imm : BitVec 10
  ws  : WReg
  rm  : Rm
  deriving DecidableEq, Repr

/-- scopy xs, xt, xn, in or out (R332). -/
structure ScopyArgs where
  xs  : XReg
  xt  : XReg
  xn  : XReg
  out : Bool
  swz : Bool
  ws  : WReg
  rm  : Rm
  deriving DecidableEq, Repr

/-- samo vd, va, (xs), vb, op (R331). -/
structure SamoArgs where
  vd : VReg
  va : VReg
  xs : XReg
  vb : VReg
  op : AmoOp
  ws : WReg
  rm : Rm
  deriving DecidableEq, Repr

/-- va, vb of fcins (R337). -/
structure VVSrc where
  va : VReg
  vb : VReg
  ws : WReg
  rm : Rm
  deriving DecidableEq, Repr

/-- The operations of fcacc (R104). -/
inductive FcOp where
  | add | max | min
  deriving DecidableEq, Repr

/-- fclook vd, va, wd (R338). -/
structure FcLookArgs where
  vd : VReg
  va : VReg
  wd : WReg
  ws : WReg
  rm : Rm
  deriving DecidableEq, Repr

/-- A dense MX product: the form and ud[1] are kept, because R243 refuses their wrong values at issue. -/
structure MxArgs where
  vd   : VReg
  va   : VReg
  vb   : VReg
  l    : Bool
  r    : Bool
  form : BitVec 2
  ws   : WReg
  rm   : Rm
  deriving DecidableEq, Repr

/-- A sparse or grouped MX product with its mask or offsets vc (R245). -/
structure Mx4Args where
  vd   : VReg
  va   : VReg
  vb   : VReg
  vc   : VReg
  l    : Bool
  r    : Bool
  form : BitVec 2
  ws   : WReg
  rm   : Rm
  deriving DecidableEq, Repr

/-- mlatch vb, (xs) (R252). -/
structure MlatchArgs where
  vb   : VReg
  xs   : XReg
  form : BitVec 2
  ws   : WReg
  rm   : Rm
  deriving DecidableEq, Repr

/-- mregrow vd, va, vb; the form and ud are kept for R243. -/
structure MregrowArgs where
  vd   : VReg
  va   : VReg
  vb   : VReg
  ud   : BitVec 2
  form : BitVec 2
  ws   : WReg
  rm   : Rm
  deriving DecidableEq, Repr

/-- A compare into a weight register: wd, va, vb or xs (R226, R227). -/
structure WCmpArgs where
  wd : WReg
  va : VReg
  b  : CmpSrc
  rm : Rm
  deriving DecidableEq, Repr

/-- wd, wa (R228). -/
structure WW where
  wd : WReg
  wa : WReg
  rm : Rm
  deriving DecidableEq, Repr

/-- wd, wa, wb (R228). -/
structure WWW where
  wd : WReg
  wa : WReg
  wb : WReg
  rm : Rm
  deriving DecidableEq, Repr

/-- wblend vd, ws, va, vb (R233). -/
structure WBlendArgs where
  vd : VReg
  ws : WReg
  va : VReg
  vb : VReg
  rm : Rm
  deriving DecidableEq, Repr

/-- wgrad.b vd, va, vb, vc (R234). -/
structure WGradBArgs where
  vd : VReg
  va : VReg
  vb : VReg
  vc : VReg
  rm : Rm
  deriving DecidableEq, Repr

/-- The six slots of a clasp header (R98). -/
structure Slots where
  s1 : BitVec 3
  s2 : BitVec 3
  s3 : BitVec 3
  s4 : BitVec 3
  s5 : BitVec 3
  s6 : BitVec 3
  deriving DecidableEq, Repr

/-- Who writes a device register (R452). -/
inductive Writer where
  | host | filigree | bezel
  deriving DecidableEq, Repr

/-- What the signed configuration image sets at step 3 of a start (R13, R22, R443, R455, R457): beside the maps, the clock
limits of islands in units of 10 MHz and the en bits of links, each by number (log 35). -/
structure ConfigImage where
  avail  : BitVec 512
  hbm    : BitVec 8
  parts  : List (Nat × BitVec 10)
  pkg    : BitVec 10
  poolP  : Nat
  arenaA : Nat
  clocks : List (Nat × BitVec 8)
  scaleUpEn : BitVec 24
  farPortEn : BitVec 4
  deriving DecidableEq, Repr

/-- The outcomes of the checks of one start that the package does not decide itself (R443, R445), and the digests it
measures (R448). A missing image is one that failed its check. -/
structure StartInputs where
  pufOk      : Bool
  patchOk    : Bool
  image      : Option ConfigImage
  stack0Ok   : Bool
  filigreeOk : Bool
  mPatch     : BitVec 256
  mImage     : BitVec 256
  mFiligree  : BitVec 256
  deriving DecidableEq, Repr

/-- What a remote package or the host does with memory (R23, R266, R287). -/
inductive AgentOp where
  | read (n : Nat)
  | write (bytes : List Byte)
  | amo (op : AmoOp) (operand : BitVec 64)
  /-- A combine of an element of a posted reduction, in its element type (R319, R320). -/
  | red (op : RedOp) (et : Nat) (operand : BitVec 64)
  | cas (expected new : BitVec 64)
  deriving DecidableEq, Repr

/-- What the tray's management controller reads over the I3C sideband (R27, R440): boot status, the start count, the power, a
temperature, or the summary of a machine-check bank. -/
inductive SidebandItem where
  | bootStatus
  | startCount
  | power
  | temperature
  | bank (b : Fin 64)
  deriving DecidableEq, Repr

/-- Where an access of the host goes: an HBM offset of the package, host memory, or the device register block (R23, R452); or
what the management controller reads beside it (R27). -/
inductive HostSpace where
  | hbm | host | device
  | sideband (item : SidebandItem)
  deriving DecidableEq, Repr

/-- What is performed: of an issued write, by its number, the byte that goes first where it is performed byte by byte (R272);
or the reads that a hart's coming instructions make of one 8-byte word, by its number in memory (R269, R273). -/
inductive PerformedPart where
  | write (id byte : Nat)
  | read (h : Fin 512) (word : Nat)
  deriving DecidableEq, Repr

/-- How many element groups a hart's oldest entry still performs before a contained machine check traps, and whether the check
is tied to the instruction whose result it affected (R391, R393). -/
structure CheckPoint where
  groups : Nat
  tied   : Bool
  deriving DecidableEq, Repr

/-- A measurement register, and who asks for its extension (R447, R448). -/
structure ExtendRequest where
  writer : Writer
  reg    : Fin 8
  deriving DecidableEq, Repr

/-- A token as it travels: sender's context, source package, tag and payload (R374, R375). -/
structure TokenMsg where
  ctx : Nat
  src : Nat
  tag : BitVec 32
  payload : List Byte
  deriving DecidableEq, Repr

/-- Which link an event is about (R457). -/
inductive LinkId where
  | scaleUp (n : Fin 24)
  | farPort (m : Fin 4)
  | hostLink
  deriving DecidableEq, Repr

/-- What a trained link reports (R24, R457): lanes and peer of a scale-up link, kind and offered capacity in MiB of a
far-tier port, width and rate of the host link. -/
structure LinkInfo where
  lanes : BitVec 4
  peer  : BitVec 10
  kind  : BitVec 4
  cap   : Nat
  width : BitVec 8
  rate  : BitVec 8
  deriving DecidableEq, Repr

/-- An error as a unit reports it to its machine-check bank (R422, R423). -/
structure ErrorReport where
  bank  : Fin 64
  unit  : BitVec 8
  code  : BitVec 16
  addr  : Option (BitVec 55)
  syn   : BitVec 64
  deriving DecidableEq, Repr

/-- What a hart did in one arithmetic cycle, for the counters of R438 that depend on timing; `idle` has a bit for each
lane that held its slice and waited (R262). -/
structure CycleInfo where
  fullQueue  : Bool
  tlbMiss    : Nat
  tlb2Miss   : Nat
  walks      : Nat
  dcMiss     : Nat
  l2Miss     : Nat
  laneBarrier : Bool
  bankConflict : Bool
  idle       : BitVec 24
  deriving DecidableEq, Repr

/-- One row of the opcode table: an instruction, or an indivisible step of the machine that is not fetched. -/
inductive Instr where
  -- scalar loads and stores (R173)
  | ldb (rd ra : XReg) (imm : BitVec 11)
  | ldh (rd ra : XReg) (imm : BitVec 11)
  | ldw (rd ra : XReg) (imm : BitVec 11)
  | ldd (rd ra : XReg) (imm : BitVec 11)
  | ldbn (rd ra : XReg) (imm : BitVec 11)
  | ldhn (rd ra : XReg) (imm : BitVec 11)
  | ldwn (rd ra : XReg) (imm : BitVec 11)
  | stb (rb ra : XReg) (imm : BitVec 11)
  | sth (rb ra : XReg) (imm : BitVec 11)
  | stw (rb ra : XReg) (imm : BitVec 11)
  | std (rb ra : XReg) (imm : BitVec 11)
  -- immediate and register integer (R168), multiply and divide (R170)
  | addi (rd ra : XReg) (imm : BitVec 11)
  | andi (rd ra : XReg) (imm : BitVec 11)
  | ori (rd ra : XReg) (imm : BitVec 11)
  | xori (rd ra : XReg) (imm : BitVec 11)
  | shli (rd ra : XReg) (sh : BitVec 6)
  | shri (rd ra : XReg) (sh : BitVec 6)
  | shai (rd ra : XReg) (sh : BitVec 6)
  | slti (rd ra : XReg) (imm : BitVec 11)
  | sltni (rd ra : XReg) (imm : BitVec 11)
  | add (rd ra rb : XReg)
  | sub (rd ra rb : XReg)
  | and (rd ra rb : XReg)
  | or (rd ra rb : XReg)
  | xor (rd ra rb : XReg)
  | shl (rd ra rb : XReg)
  | shr (rd ra rb : XReg)
  | sha (rd ra rb : XReg)
  | slt (rd ra rb : XReg)
  | sltn (rd ra rb : XReg)
  | min (rd ra rb : XReg)
  | max (rd ra rb : XReg)
  | minn (rd ra rb : XReg)
  | maxn (rd ra rb : XReg)
  | mul (rd ra rb : XReg)
  | mulh (rd ra rb : XReg)
  | mulhn (rd ra rb : XReg)
  | div (rd ra rb : XReg)
  | divn (rd ra rb : XReg)
  | rem (rd ra rb : XReg)
  | remn (rd ra rb : XReg)
  -- branches and jumps (R171, R172)
  | beq (ra rb : XReg) (off : BitVec 11)
  | bne (ra rb : XReg) (off : BitVec 11)
  | blt (ra rb : XReg) (off : BitVec 11)
  | bge (ra rb : XReg) (off : BitVec 11)
  | bltn (ra rb : XReg) (off : BitVec 11)
  | bgen (ra rb : XReg) (off : BitVec 11)
  | jal (rd : XReg) (imm : BitVec 20)
  | jalr (rd ra : XReg) (imm : BitVec 11)
  | lhi (rd : XReg) (imm : BitVec 20)
  | apc (rd : XReg) (imm : BitVec 20)
  -- CSR access (R178)
  | csrr (rd : XReg) (csr : BitVec 11)
  | csrw (rd ra : XReg) (csr : BitVec 11)
  | csrs (rd ra : XReg) (csr : BitVec 11)
  | csrc (rd ra : XReg) (csr : BitVec 11)
  -- scalar atomics (R176)
  | amoadd (rd ra rb : XReg) (sc : Scope) (ord : Order)
  | amoswap (rd ra rb : XReg) (sc : Scope) (ord : Order)
  | amocas (rd ra rb : XReg) (sc : Scope) (ord : Order)
  | amomax (rd ra rb : XReg) (sc : Scope) (ord : Order)
  | amomin (rd ra rb : XReg) (sc : Scope) (ord : Order)
  | amoand (rd ra rb : XReg) (sc : Scope) (ord : Order)
  | amoor (rd ra rb : XReg) (sc : Scope) (ord : Order)
  -- fences and waits (R276 to R280, R429 to R432)
  | fence (sc : Scope)
  | fenceX (before after : BitVec 6) (sc : Scope)
  | cwait (rd ra rb : XReg) (sc : Scope)
  | cwaitWake (h : Nat)
  | fbar
  -- system (R86, R357 to R370, R389, R390, R411)
  | sys (imm : BitVec 11)
  | eret
  | idle
  | idleTimeout (h : Nat)
  | brk (imm : BitVec 11)
  | yield
  | endHart
  | trig
  | strip (rd : XReg)
  | launch (rd ra : XReg)
  | icinv (ra rb : XReg)
  | tlbinv (ra rb : XReg)
  -- experts and tokens (R87, R371 to R377, R416, R417, R420)
  | xbind (rd ra : XReg)
  | xunpin (ra : XReg)
  | xpark (ra : XReg) (v : VReg)
  | xparkResume (h : Nat)
  | xwake (rd : XReg) (v : VReg)
  | xwakeW (rd : XReg) (v : VReg)
  | xwakeWWake (h : Nat)
  | xsend (v : VReg) (ra rb : XReg)
  | xsendResume (h : Nat)
  | xrecv (rd : XReg) (v : VReg)
  | ertw (ra rb : XReg)
  -- vector configuration (R188) and the clasp (R98)
  | setvli (rd ra : XReg) (vt : BitVec 14)
  | setvl (rd ra rb : XReg)
  | clasp (count : BitVec 3) (slots : Slots)
  -- compact forms (R76)
  | cAdd (rd rs : XReg)
  | cSub (rd rs : XReg)
  | cAnd (rd rs : XReg)
  | cOr (rd rs : XReg)
  | cXor (rd rs : XReg)
  | cMv (rd : XReg)
  | cAddi (rd : XReg) (imm : BitVec 6)
  | cShli (rd : XReg) (imm : BitVec 6)
  | cLd (rd : XReg) (imm : BitVec 6)
  | cSt (rs : XReg) (imm : BitVec 6)
  | cBeqz (off : BitVec 11)
  | cBnez (off : BitVec 11)
  | cJ (off : BitVec 11)
  | dispatchQueueResume (h : Nat)
  -- unit VA (R101)
  | vadd (a : VBin)
  | vsub (a : VBin)
  | vrsub (a : VBin)
  | vmul (a : VBin)
  | vmulh (a : VBin)
  | vdiv (a : VBin)
  | vrem (a : VBin)
  | vmin (a : VBin)
  | vmax (a : VBin)
  | vand (a : VBin)
  | vor (a : VBin)
  | vxor (a : VBin)
  | vshl (a : VBin)
  | vshr (a : VBin)
  | vsha (a : VBin)
  | vsadd (a : VBin)
  | vssub (a : VBin)
  | vfma (a : VTern)
  | vfms (a : VTern)
  | vfnma (a : VTern)
  | vfdiv (a : VBin)
  | vfsqrt (a : VUn)
  | vfrsqrt (a : VUn)
  | vfexp2 (a : VUn)
  | vflog2 (a : VUn)
  | vwadd (a : VBin)
  | vwmul (a : VBin)
  | vwfma (a : VTern)
  | vcvt (a : VUn)
  | vwcvt (a : VUn)
  | vncvt (a : VUn)
  | vquant (a : VUn)
  | vdequant (a : VUn)
  | vsel (a : VSelArgs)
  | vmv (a : VMvArgs)
  -- unit VX (R102)
  | vgath (a : VVV)
  | vslideup (a : VAmt)
  | vslidedn (a : VAmt)
  | vcompress (a : VVV)
  | vexpand (a : VVV)
  | vfperm (a : VVV)
  | vredsumO (a : VRed)
  | vredsumT (a : VRed)
  | vredmax (a : VRed)
  | vredmin (a : VRed)
  | vredand (a : VRed)
  | vredor (a : VRed)
  | vscan (a : VScanArgs)
  | vmovc (a : VAmt)
  | vmovr (a : VAmt)
  | vcsw (a : VCswArgs)
  | vnormk (a : VNormkArgs)
  -- unit VM (R103)
  | vld (m : VMem)
  | vlds (m : VMem) (xt : XReg)
  | vldx (m : VMem) (vb : VReg)
  | vldseg (m : VMem) (n : BitVec 6)
  | vst (m : VMem) (u : Bool)
  | vsts (m : VMem) (xt : XReg) (u : Bool)
  | vstx (m : VMem) (vb : VReg) (u : Bool)
  | vstPair (a : VPairArgs)
  | vgl (m : VMem) (vb : VReg)
  | vsc (m : VMem) (vb : VReg) (wd : WReg)
  | vamo (a : VAmoArgs)
  | vsred (a : VSredArgs)
  | vsredElementPerform (n : Nat)
  | vcopy (a : VCopyArgs)
  | vcopyCounterIncrement (n : Nat)
  -- unit VS (R104)
  | sld (m : VStage)
  | sst (m : VStage)
  | sldx (m : VStage) (vb : VReg)
  | sstx (m : VStage) (vb : VReg)
  | scopy (a : ScopyArgs)
  | scopyX (a : ScopyArgs) (vb : VReg)
  | samo (a : SamoArgs)
  | bld (m : VStage)
  | bst (m : VStage)
  | fcins (a : VVSrc)
  | fclook (a : FcLookArgs)
  | fcacc (a : VVSrc) (op : FcOp)
  | fcdrain (a : VUn)
  | fcclr (ws : WReg) (rm : Rm)
  -- unit MX (R105)
  | mmulO (a : MxArgs)
  | mmulR (a : MxArgs)
  | mmulSp (a : Mx4Args)
  | mmulGrp (a : Mx4Args)
  | mlatch (a : MlatchArgs)
  | mlatchStage (a : MlatchArgs)
  | mregrow (a : MregrowArgs)
  -- unit WG (R106)
  | wcmpEq (a : WCmpArgs)
  | wcmpNe (a : WCmpArgs)
  | wcmpLt (a : WCmpArgs)
  | wcmpLe (a : WCmpArgs)
  | wcmpGt (a : WCmpArgs)
  | wcmpGe (a : WCmpArgs)
  | wsoftGt (a : WCmpArgs)
  | wsoftLt (a : WCmpArgs)
  | wcomp (a : WW)
  | wmul (a : WWW)
  | wmin (a : WWW)
  | wmax (a : WWW)
  | wmv (a : WW)
  | wfromv (wd : WReg) (va : VReg) (rm : Rm)
  | wtov (vd : VReg) (wa : WReg) (rm : Rm)
  | wbr (wa : WReg) (off : BitVec 22) (rm : Rm)
  | wsel (wa : WReg) (rm : Rm)
  | wloop (wd wa : WReg) (off : BitVec 22) (rm : Rm)
  | wloopDecide (h : Nat)
  | wblend (a : WBlendArgs)
  | wgradB (a : WGradBArgs)
  | wgradS (vd va : VReg) (ws : WReg) (rm : Rm)
  | wmaxr (xd : XReg) (wa : WReg) (rm : Rm)
  | wpop (xd : XReg) (wa : WReg) (rm : Rm)
  -- unit NX (R107)
  | vstN (xd : XReg) (va : VReg) (ws : WReg) (rm : Rm)
  | nrel (xs : XReg) (ws : WReg) (rm : Rm)
  | nrelV (vb : VReg) (ws : WReg) (rm : Rm)
  -- the machine's own steps (95_what_each_step_holds)
  | illegalInstruction (bits : BitVec 64)
  | instructionFetchFault (cause : Nat) (addr : BitVec 64)
  | schedulerDecision (part : Nat)
  | decisionTimer (part : Nat)
  | accessPerformed (part : PerformedPart) (sc : Scope)
  | preemptionSave (h : Nat) (groups : Nat)
  | asyncMachineCheck (h : Nat) (point : CheckPoint) (e : ErrorReport)
  | cmcFarmEndTimeout (farm : Nat)
  | fetchComplete (entry : Nat)
  | tokenArrival (t : TokenMsg)
  | tokenAck (h : Nat) (n : Nat)
  | tokenBusy (h : Nat) (n : Nat)
  | tokenRefuse (h : Nat) (n : Nat)
  | tokenTimeout (h : Nat) (n : Nat)
  | remoteAccess (pkg : Nat) (pa : Nat) (op : AgentOp)
  | hostAccess (sp : HostSpace) (addr : Nat) (op : AgentOp)
  | packageReset (i : StartInputs)
  | registerWrite (w : Writer) (off : Nat) (size : Nat) (v : BitVec 64)
  | contextTableWrite (w : Writer) (ctx : Nat) (image : List Byte)
  | partitionWrite (w : Writer) (h : Fin 512) (v : BitVec 16)
  | launchDoorbell (v : BitVec 64)
  | arithmeticCycle (h : Nat) (c : CycleInfo)
  | hbmContainedError (e : ErrorReport) (lines slots : List Nat)
  | poolConfiguration (v : BitVec 64)
  | expertArena (v : BitVec 64)
  | contextSwitchHold (ctx : BitVec 16)
  | contextSwitchRelease (ctx : BitVec 16)
  | linkTrained (l : LinkId) (info : LinkInfo)
  | tokenRetransmit (h : Nat) (n : Nat)
  | unreachableTimeout (n : Nat)
  | linkFailure (l : LinkId)
  | linkDisable (l : LinkId)
  | linkRetrain (l : LinkId)
  | powerWindow (watts : Nat)
  | fatalError (e : ErrorReport)
  | correctedError (e : ErrorReport)
  | stackTrained (s : Fin 8) (ok : Bool)
  | selfTestComplete (h : Nat) (pass : Bool) (item : BitVec 64)
  | clockChangeComplete (h : Nat) (act : BitVec 8)
  | islandRequest (w : Writer) (h : Nat) (req : BitVec 8)
  | poolSweep (v : BitVec 64)
  | refusalClear (v : BitVec 64)
  | idleWake (h : BitVec 9)
  | attestationDoorbell (nonce : BitVec 256)
  | measurementExtend (r : ExtendRequest) (d : BitVec 256)
  | bankStatusWrite (w : Writer) (bank : Fin 64) (status : Option (BitVec 64)) (count : Option (BitVec 64))
  | ethPortEnable (w : Writer) (p : Fin 8)
  | ethPortDisable (w : Writer) (p : Fin 8)
  | ethTxTail (w : Writer) (p : Fin 8) (v : BitVec 32)
  | ethRxTail (w : Writer) (p : Fin 8) (v : BitVec 32)
  | ethTxComplete (p : Fin 8) (ok : Bool)
  | ethFrameReceived (p : Fin 8) (src : BitVec 48) (flow : BitVec 16) (data : List Byte)
  | ethReceiveTimeout (p : Fin 8)
  | ethLinkChange (p : Fin 8) (up : Bool)
  | fetchAdmit
  | thermalTrip
  | powerOn
  | startTimeout
  | fullService
  | i3cResetRequest
  | sweepComplete
  | quoteReady
  | referenceTick
  deriving DecidableEq, Repr

end Sys2Proof
end

