-- ==== Sys2Proof/WellFormed.lean ====
section
/-! DEFINITION. The well-formed instructions: those whose operands have an encoding (R73, R85, R103), and the steps
whose data name something the machine has. Register numbers, scopes, orders and operation codes are well formed by
their types. -/

namespace Sys2Proof

/-- The checks on an instruction's operands that its type does not make. -/
def Instr.wellFormed : Instr → Bool
  | .fenceX b a _ => b != 0 && a != 0
  | .cwaitWake h => h < Config.harts
  | .idleTimeout h => h < Config.harts
  | .xparkResume h => h < Config.harts
  | .xwakeWWake h => h < Config.harts
  | .xsendResume h => h < Config.harts
  | .cAdd rd rs => rd.val != 0 || rs.val != 0
  | .dispatchQueueResume h => h < Config.harts
  | .vldseg _ n => 2 ≤ n.toNat && n.toNat ≤ 8
  | .wloopDecide h => h < Config.harts
  | .asyncMachineCheck h _ _ => h < Config.harts
  | .schedulerDecision p => 1 ≤ p && p < 1024
  | .decisionTimer p => 1 ≤ p && p < 1024
  | .preemptionSave h _ => h < Config.harts
  | .fetchComplete e => e < 8192
  | .tokenArrival t => t.ctx < 1024 && t.src < 640 && 64 ≤ t.payload.length && t.payload.length ≤ 4096 && t.payload.length % 64 == 0
  | .tokenAck h _ => h < Config.harts
  | .tokenBusy h _ => h < Config.harts
  | .tokenRefuse h _ => h < Config.harts
  | .tokenRetransmit h _ => h < Config.harts
  | .tokenTimeout h _ => h < Config.harts
  | .remoteAccess p a _ => p < 640 && a < 2 ^ 55
  | .selfTestComplete h _ _ => h < Config.harts
  | .clockChangeComplete h _ => h < Config.harts
  | .islandRequest _ h _ => h < Config.harts
  | .contextTableWrite _ c im => c < 1024 && im.length == 64
  | .registerWrite _ _ n _ => n == 1 || n == 2 || n == 4 || n == 8
  | .instructionFetchFault c _ => 1 ≤ c && c ≤ 17
  | .arithmeticCycle h _ => h < Config.harts
  | .ldb _ _ _ | .ldh _ _ _ | .ldw _ _ _ | .ldd _ _ _ | .ldbn _ _ _ | .ldhn _ _ _ | .ldwn _ _ _ | .stb _ _ _
  | .sth _ _ _ | .stw _ _ _ | .std _ _ _ | .addi _ _ _ | .andi _ _ _ | .ori _ _ _ | .xori _ _ _ | .shli _ _ _
  | .shri _ _ _ | .shai _ _ _ | .slti _ _ _ | .sltni _ _ _ | .add _ _ _ | .sub _ _ _ | .and _ _ _ | .or _ _ _
  | .xor _ _ _ | .shl _ _ _ | .shr _ _ _ | .sha _ _ _ | .slt _ _ _ | .sltn _ _ _ | .min _ _ _ | .max _ _ _
  | .minn _ _ _ | .maxn _ _ _ | .mul _ _ _ | .mulh _ _ _ | .mulhn _ _ _ | .div _ _ _ | .divn _ _ _
  | .rem _ _ _ | .remn _ _ _ | .beq _ _ _ | .bne _ _ _ | .blt _ _ _ | .bge _ _ _ | .bltn _ _ _ | .bgen _ _ _
  | .jal _ _ | .jalr _ _ _ | .lhi _ _ | .apc _ _ | .csrr _ _ | .csrw _ _ _ | .csrs _ _ _ | .csrc _ _ _
  | .amoadd _ _ _ _ _ | .amoswap _ _ _ _ _ | .amocas _ _ _ _ _ | .amomax _ _ _ _ _ | .amomin _ _ _ _ _
  | .amoand _ _ _ _ _ | .amoor _ _ _ _ _ | .fence _ | .cwait _ _ _ _ | .fbar | .sys _ | .eret | .idle
  | .brk _ | .yield | .endHart | .trig | .strip _ | .launch _ _ | .icinv _ _ | .tlbinv _ _ | .xbind _ _
  | .xunpin _ | .xpark _ _ | .xwake _ _ | .xwakeW _ _ | .xsend _ _ _ | .xrecv _ _ | .ertw _ _ | .setvli _ _ _
  | .setvl _ _ _ | .clasp _ _ | .cSub _ _ | .cAnd _ _ | .cOr _ _ | .cXor _ _ | .cMv _ | .cAddi _ _
  | .cShli _ _ | .cLd _ _ | .cSt _ _ | .cBeqz _ | .cBnez _ | .cJ _ | .vadd _ | .vsub _ | .vrsub _ | .vmul _
  | .vmulh _ | .vdiv _ | .vrem _ | .vmin _ | .vmax _ | .vand _ | .vor _ | .vxor _ | .vshl _ | .vshr _
  | .vsha _ | .vsadd _ | .vssub _ | .vfma _ | .vfms _ | .vfnma _ | .vfdiv _ | .vfsqrt _ | .vfrsqrt _
  | .vfexp2 _ | .vflog2 _ | .vwadd _ | .vwmul _ | .vwfma _ | .vcvt _ | .vwcvt _ | .vncvt _ | .vquant _
  | .vdequant _ | .vsel _ | .vmv _ | .vgath _ | .vslideup _ | .vslidedn _ | .vcompress _ | .vexpand _
  | .vfperm _ | .vredsumO _ | .vredsumT _ | .vredmax _ | .vredmin _ | .vredand _ | .vredor _ | .vscan _
  | .vmovc _ | .vmovr _ | .vcsw _ | .vnormk _ | .vld _ | .vlds _ _ | .vldx _ _ | .vst _ _ | .vsts _ _ _
  | .vstx _ _ _ | .vstPair _ | .vgl _ _ | .vsc _ _ _ | .vamo _ | .vsred _ | .vsredElementPerform _ | .vcopy _
  | .vcopyCounterIncrement _ | .sld _ | .sst _ | .sldx _ _ | .sstx _ _ | .scopy _ | .scopyX _ _ | .samo _
  | .bld _ | .bst _ | .fcins _ | .fclook _ | .fcacc _ _ | .fcdrain _ | .fcclr _ _ | .mmulO _ | .mmulR _
  | .mmulSp _ | .mmulGrp _ | .mlatch _ | .mlatchStage _ | .mregrow _ | .wcmpEq _ | .wcmpNe _ | .wcmpLt _
  | .wcmpLe _ | .wcmpGt _ | .wcmpGe _ | .wsoftGt _ | .wsoftLt _ | .wcomp _ | .wmul _ | .wmin _ | .wmax _
  | .wmv _ | .wfromv _ _ _ | .wtov _ _ _ | .wbr _ _ _ | .wsel _ _ | .wloop _ _ _ _ | .wblend _ | .wgradB _
  | .wgradS _ _ _ _ | .wmaxr _ _ _ | .wpop _ _ _ | .vstN _ _ _ _ | .nrel _ _ _ | .nrelV _ _ _
  | .cmcFarmEndTimeout _ | .fetchAdmit | .hostAccess _ _ _ | .unreachableTimeout _ | .linkFailure _
  | .linkTrained _ _ | .linkDisable _ | .linkRetrain _ | .powerWindow _ | .thermalTrip | .fatalError _
  | .correctedError _ | .hbmContainedError _ _ _ | .powerOn | .packageReset _ | .startTimeout
  | .stackTrained _ _ | .fullService | .i3cResetRequest | .poolConfiguration _ | .poolSweep _
  | .sweepComplete | .expertArena _ | .refusalClear _ | .launchDoorbell _ | .contextSwitchHold _
  | .contextSwitchRelease _ | .idleWake _ | .attestationDoorbell _ | .quoteReady | .measurementExtend _ _
  | .partitionWrite _ _ _ | .bankStatusWrite _ _ _ _ | .ethPortEnable _ _ | .ethPortDisable _ _
  | .ethTxTail _ _ _ | .ethRxTail _ _ _ | .ethTxComplete _ _ | .ethFrameReceived _ _ _ _
  | .ethReceiveTimeout _ | .illegalInstruction _ | .accessPerformed _ _ | .referenceTick | .ethLinkChange _ _ => true

end Sys2Proof
end

