-- ==== Sys2Proof/Decode.lean ====
section
/-! DEFINITION. The decoder of chapter 03_encoding, total on any bytes and rejecting by name, and the encoder written
from the same tables. A word is a natural number whose bit 0 is bit 0 of the first parcel (R69). -/

namespace Sys2Proof

/-- Why a bit pattern is no instruction; every one of these raises illegal-instruction (R73). Short bytes are no
pattern at all: they say that the list ends inside the instruction. -/
inductive Reject where
  | shortBytes
  | zeroParcel
  | reservedQuadrant
  | reservedMajor
  | reservedFunction
  | nonzeroField
  | reservedScope
  | emptyMask
  | reservedUnit
  | reservedOp8
  | reservedForm
  | reservedRm
  | reservedPolicy
  | reservedCode
  | unorderedBit
  deriving DecidableEq, Repr

/-- Bits [lo + len - 1 : lo] of a word (R2). -/
def fld (w lo len : Nat) : Nat := w / 2 ^ lo % 2 ^ len

/-- A five-bit field as a scalar register. -/
def xr (n : Nat) : XReg := ⟨n % 32, Nat.mod_lt _ (by decide)⟩

/-- A six-bit field as a vector register. -/
def vr (n : Nat) : VReg := ⟨n % 64, Nat.mod_lt _ (by decide)⟩

/-- A four-bit field as a weight register. -/
def wr (n : Nat) : WReg := ⟨n % 16, Nat.mod_lt _ (by decide)⟩

/-- A rounding field of 0 to 5 (R95). -/
def rmOf (n : Nat) : Rm := ⟨n % 6, Nat.mod_lt _ (by decide)⟩

/-- Goes on when the condition holds, and rejects by name otherwise. -/
def need (c : Bool) (r : Reject) (k : Except Reject Instr) : Except Reject Instr :=
  if c then k else .error r

/-- The length in bytes that the first parcel gives (R69). -/
def lengthOf (p : Nat) : Nat :=
  if p % 4 != 3 then 2 else if p / 4 % 32 != 31 then 4 else 8

/-! ## Scopes, orders and operation codes -/

/-- The scope of a code (R83). -/
def scopeOf : Nat → Option Scope
  | 0 => some .hart
  | 1 => some .circlet
  | 2 => some .package
  | 3 => some .domain
  | 4 => some .system
  | _ => none

/-- The code of a scope (R83). -/
def Scope.code : Scope → Nat
  | .hart => 0
  | .circlet => 1
  | .package => 2
  | .domain => 3
  | .system => 4

/-- The order of a two-bit code (R82). -/
def orderOf (n : Nat) : Order :=
  match n % 4 with
  | 0 => .rlx
  | 1 => .acq
  | 2 => .rel
  | _ => .ar

/-- The code of an order (R82). -/
def Order.code : Order → Nat
  | .rlx => 0
  | .acq => 1
  | .rel => 2
  | .ar => 3

/-- The operation of vamo and samo (R103). -/
def amoOpOf : Nat → Option AmoOp
  | 0 => some .add
  | 1 => some .swap
  | 2 => some .max
  | 3 => some .min
  | 4 => some .and
  | 5 => some .or
  | 6 => some .maxn
  | 7 => some .minn
  | _ => none

/-- The code of an element atomic's operation (R103). -/
def AmoOp.code : AmoOp → Nat
  | .add => 0
  | .swap => 1
  | .max => 2
  | .min => 3
  | .and => 4
  | .or => 5
  | .maxn => 6
  | .minn => 7

/-- The operation of vsred (R103). -/
def redOpOf : Nat → Option RedOp
  | 0 => some .add
  | 1 => some .max
  | 2 => some .min
  | 3 => some .and
  | 4 => some .or
  | _ => none

/-- The code of vsred's operation (R103). -/
def RedOp.code : RedOp → Nat
  | .add => 0
  | .max => 1
  | .min => 2
  | .and => 3
  | .or => 4

/-- The operation of vscan (R102). -/
def scanOpOf : Nat → Option ScanOp
  | 0 => some .sum
  | 1 => some .max
  | 2 => some .min
  | 3 => some .and
  | 4 => some .or
  | _ => none

/-- The code of vscan's operation (R102). -/
def ScanOp.code : ScanOp → Nat
  | .sum => 0
  | .max => 1
  | .min => 2
  | .and => 3
  | .or => 4

/-- The operation of fcacc (R104). -/
def fcOpOf : Nat → Option FcOp
  | 0 => some .add
  | 1 => some .max
  | 2 => some .min
  | _ => none

/-- The code of fcacc's operation (R104). -/
def FcOp.code : FcOp → Nat
  | .add => 0
  | .max => 1
  | .min => 2

/-! ## Compact forms (R74 to R76) -/

/-- A 16-bit parcel. -/
def decode16 (p : Nat) : Except Reject Instr :=
  let reg := xr (fld p 5 5)
  let xs := xr (fld p 10 5)
  let imm := BitVec.ofNat 6 (fld p 10 6)
  let off := BitVec.ofNat 11 (fld p 5 11)
  let top := fld p 15 1
  if p = 0 then .error .zeroParcel
  else match fld p 0 2, fld p 2 3 with
  | 0, 0 => need (top == 0) .nonzeroField (.ok (.cAdd reg xs))
  | 0, 1 => need (top == 0) .nonzeroField (.ok (.cSub reg xs))
  | 0, 2 => need (top == 0) .nonzeroField (.ok (.cAnd reg xs))
  | 0, 3 => need (top == 0) .nonzeroField (.ok (.cOr reg xs))
  | 0, 4 => need (top == 0) .nonzeroField (.ok (.cXor reg xs))
  | 0, 5 => need (fld p 10 6 == 0) .nonzeroField (.ok (.cMv reg))
  | 1, 0 => .ok (.cAddi reg imm)
  | 1, 1 => .ok (.cShli reg imm)
  | 1, 2 => .ok (.cLd reg imm)
  | 1, 3 => .ok (.cSt reg imm)
  | 1, 4 => .ok (.cBeqz off)
  | 1, 5 => .ok (.cBnez off)
  | 1, 6 => .ok (.cJ off)
  | _, _ => .error .reservedQuadrant

/-! ## 32-bit scalar formats (R77 to R90, R98) -/

/-- A 32-bit instruction other than a clasp. -/
def decode32 (w : Nat) : Except Reject Instr :=
  let f4 := fld w 7 4
  let rd := xr (fld w 11 5)
  let ra := xr (fld w 16 5)
  let rb := xr (fld w 21 5)
  let f6 := fld w 26 6
  let imm := BitVec.ofNat 11 (fld w 21 11)
  let imm20 := BitVec.ofNat 20 (fld w 16 16 * 16 + f4)
  let zd := fld w 11 5 == 0
  let za := fld w 16 5 == 0
  let zb := fld w 21 5 == 0
  let zf := f6 == 0
  let vn := vr f6
  let amo (mk : XReg → XReg → XReg → Scope → Order → Instr) : Except Reject Instr :=
    match scopeOf (f6 % 8) with
    | some sc => need (f4 % 4 == 0) .nonzeroField (.ok (mk rd ra rb sc (orderOf (f4 / 4))))
    | none => .error .reservedScope
  let sr (mk : XReg → XReg → XReg → Instr) : Except Reject Instr :=
    need zf .nonzeroField (.ok (mk rd ra rb))
  let shift (mk : XReg → XReg → BitVec 6 → Instr) : Except Reject Instr :=
    need (fld w 27 5 == 0) .nonzeroField (.ok (mk rd ra (BitVec.ofNat 6 (fld w 21 6))))
  match fld w 2 5 with
  | 0 => match f4 with
    | 0 => .ok (.ldb rd ra imm)
    | 1 => .ok (.ldh rd ra imm)
    | 2 => .ok (.ldw rd ra imm)
    | 3 => .ok (.ldd rd ra imm)
    | 4 => .ok (.ldbn rd ra imm)
    | 5 => .ok (.ldhn rd ra imm)
    | 6 => .ok (.ldwn rd ra imm)
    | _ => .error .reservedFunction
  | 1 => match f4 with
    | 0 => .ok (.stb rd ra imm)
    | 1 => .ok (.sth rd ra imm)
    | 2 => .ok (.stw rd ra imm)
    | 3 => .ok (.std rd ra imm)
    | _ => .error .reservedFunction
  | 2 => match f4 with
    | 0 => .ok (.addi rd ra imm)
    | 1 => .ok (.andi rd ra imm)
    | 2 => .ok (.ori rd ra imm)
    | 3 => .ok (.xori rd ra imm)
    | 4 => shift .shli
    | 5 => shift .shri
    | 6 => shift .shai
    | 7 => .ok (.slti rd ra imm)
    | 8 => .ok (.sltni rd ra imm)
    | _ => .error .reservedFunction
  | 3 => match f4 with
    | 0 => sr .add
    | 1 => sr .sub
    | 2 => sr .and
    | 3 => sr .or
    | 4 => sr .xor
    | 5 => sr .shl
    | 6 => sr .shr
    | 7 => sr .sha
    | 8 => sr .slt
    | 9 => sr .sltn
    | 10 => sr .min
    | 11 => sr .max
    | 12 => sr .minn
    | 13 => sr .maxn
    | _ => .error .reservedFunction
  | 5 => match f4 with
    | 0 => sr .mul
    | 1 => sr .mulh
    | 2 => sr .mulhn
    | 3 => sr .div
    | 4 => sr .divn
    | 5 => sr .rem
    | 6 => sr .remn
    | _ => .error .reservedFunction
  | 6 => match f4 with
    | 0 => .ok (.beq rd ra imm)
    | 1 => .ok (.bne rd ra imm)
    | 2 => .ok (.blt rd ra imm)
    | 3 => .ok (.bge rd ra imm)
    | 4 => .ok (.bltn rd ra imm)
    | 5 => .ok (.bgen rd ra imm)
    | _ => .error .reservedFunction
  | 7 => .ok (.jal rd imm20)
  | 8 => need (f4 == 0) .reservedFunction (.ok (.jalr rd ra imm))
  | 9 => .ok (.lhi rd imm20)
  | 10 => .ok (.apc rd imm20)
  | 11 => match f4 with
    | 0 => need za .nonzeroField (.ok (.csrr rd imm))
    | 1 => .ok (.csrw rd ra imm)
    | 2 => .ok (.csrs rd ra imm)
    | 3 => .ok (.csrc rd ra imm)
    | _ => .error .reservedFunction
  | 12 => match f6 / 8 with
    | 0 => amo .amoadd
    | 1 => amo .amoswap
    | 2 => amo .amocas
    | 3 => amo .amomax
    | 4 => amo .amomin
    | 5 => amo .amoand
    | 6 => amo .amoor
    | _ => .error .reservedFunction
  | 13 => match f4 with
    | 0 => match scopeOf (f6 % 8) with
      | some sc => need (f6 / 8 == 0 && zd && za && zb) .nonzeroField (.ok (.fence sc))
      | none => .error .reservedScope
    | 1 => match scopeOf (fld w 17 3) with
      | some sc =>
        need (fld w 11 6 == 0) .nonzeroField <|
        need (fld w 26 6 != 0 && fld w 20 6 != 0) .emptyMask <|
        .ok (.fenceX (BitVec.ofNat 6 (fld w 26 6)) (BitVec.ofNat 6 (fld w 20 6)) sc)
      | none => .error .reservedScope
    | 2 => match scopeOf (f6 % 8) with
      | some sc => need (f6 / 8 == 0) .nonzeroField (.ok (.cwait rd ra rb sc))
      | none => .error .reservedScope
    | 3 => need (zf && zd && za && zb) .nonzeroField (.ok .fbar)
    | _ => .error .reservedFunction
  | 14 => match f4 with
    | 0 => need (zd && za) .nonzeroField (.ok (.sys imm))
    | 1 => need (zf && zd && za && zb) .nonzeroField (.ok .eret)
    | 2 => need (zf && zd && za && zb) .nonzeroField (.ok .idle)
    | 3 => need (zd && za) .nonzeroField (.ok (.brk imm))
    | 4 => need (zf && zd && za && zb) .nonzeroField (.ok .yield)
    | 5 => need (zf && zd && za && zb) .nonzeroField (.ok .endHart)
    | 6 => need (zf && zd && za && zb) .nonzeroField (.ok .trig)
    | 7 => need (zf && za && zb) .nonzeroField (.ok (.strip rd))
    | 8 => need (zf && zb) .nonzeroField (.ok (.launch rd ra))
    | 9 => need (zf && zd) .nonzeroField (.ok (.icinv ra rb))
    | 10 => need (zf && zd) .nonzeroField (.ok (.tlbinv ra rb))
    | _ => .error .reservedFunction
  | 15 => match f4 with
    | 0 => need (zf && zb) .nonzeroField (.ok (.xbind rd ra))
    | 1 => need (zf && zb && zd) .nonzeroField (.ok (.xunpin ra))
    | 2 => need (zb && zd) .nonzeroField (.ok (.xpark ra vn))
    | 3 => need (zb && za) .nonzeroField (.ok (.xwake rd vn))
    | 4 => need (zb && za) .nonzeroField (.ok (.xwakeW rd vn))
    | 5 => need zd .nonzeroField (.ok (.xsend vn ra rb))
    | 6 => need (zb && za) .nonzeroField (.ok (.xrecv rd vn))
    | 7 => need (zf && zd) .nonzeroField (.ok (.ertw ra rb))
    | _ => .error .reservedFunction
  | 16 =>
    if fld w 7 1 = 0 then
      .ok (.setvli rd ra (BitVec.ofNat 14 (fld w 21 11 + 2048 * fld w 8 3)))
    else need (zf && fld w 8 3 == 0) .nonzeroField (.ok (.setvl rd ra rb))
  | 30 =>
    let s (k : Nat) : BitVec 3 := BitVec.ofNat 3 (fld w (10 + 3 * k) 3)
    need (fld w 28 4 == 0) .nonzeroField
      (.ok (.clasp (BitVec.ofNat 3 (fld w 7 3)) ⟨s 0, s 1, s 2, s 3, s 4, s 5⟩))
  | _ => .error .reservedMajor

/-! ## 64-bit vector format (R91 to R107) -/

/-- The fields of R91, as numbers. -/
structure VFields where
  op8  : Nat
  unit : Nat
  vd   : Nat
  va   : Nat
  vb   : Nat
  vc   : Nat
  ws   : Nat
  form : Nat
  rm   : Nat
  u    : Nat
  ud   : Nat
  imm  : Nat
  deriving DecidableEq, Repr

/-- The fields of a 64-bit word (R91). -/
def vfields (w : Nat) : VFields :=
  { op8 := fld w 10 8, unit := fld w 7 3, vd := fld w 18 6, va := fld w 24 6, vb := fld w 30 6, vc := fld w 36 6,
    ws := fld w 42 4, form := fld w 46 2, rm := fld w 48 3, u := fld w 51 1, ud := fld w 52 2, imm := fld w 54 10 }

/-- The 64-bit word of the fields (R91). -/
def word64 (f : VFields) : Nat :=
  127 + f.unit * 2 ^ 7 + f.op8 * 2 ^ 10 + f.vd * 2 ^ 18 + f.va * 2 ^ 24 + f.vb * 2 ^ 30 + f.vc * 2 ^ 36 + f.ws * 2 ^ 42
    + f.form * 2 ^ 46 + f.rm * 2 ^ 48 + f.u * 2 ^ 51 + f.ud * 2 ^ 52 + f.imm * 2 ^ 54

/-- A 64-bit word of a unit and operation whose other fields are zero. -/
def zeroFields (unit op8 : Nat) : VFields :=
  { op8, unit, vd := 0, va := 0, vb := 0, vc := 0, ws := 0, form := 0, rm := 0, u := 0, ud := 0, imm := 0 }

/-- A binary VA instruction (R101, form B). -/
def decVBin (mk : VBin → Instr) (f : VFields) : Except Reject Instr :=
  let go (b : Src) : Except Reject Instr := .ok (mk ⟨vr f.vd, vr f.va, b, wr f.ws, rmOf f.rm⟩)
  need (f.ud == 0) .nonzeroField <|
  match f.form with
  | 0 => need (f.vc == 0 && f.imm == 0) .nonzeroField (go (.v (vr f.vb)))
  | 1 => need (f.vb == 0 && f.imm == 0 && f.vc < 32) .nonzeroField (go (.x (xr f.vc)))
  | 2 => need (f.vb == 0 && f.vc == 0) .nonzeroField (go (.i (BitVec.ofNat 10 f.imm)))
  | _ => .error .reservedForm

/-- A ternary VA instruction (R101, form T). -/
def decVTern (mk : VTern → Instr) (f : VFields) : Except Reject Instr :=
  let go (b : Src3) : Except Reject Instr := .ok (mk ⟨vr f.vd, vr f.va, b, wr f.ws, rmOf f.rm⟩)
  need (f.ud == 0) .nonzeroField <|
  match f.form with
  | 0 => need (f.imm == 0) .nonzeroField (go (.v (vr f.vb) (vr f.vc)))
  | 1 => need (f.vb == 0 && f.imm == 0 && f.vc < 32) .nonzeroField (go (.x (xr f.vc)))
  | 2 => need (f.vb == 0 && f.vc == 0) .nonzeroField (go (.i (BitVec.ofNat 10 f.imm)))
  | _ => .error .reservedForm

/-- A unary VA instruction (R101, form U). -/
def decVUn (mk : VUn → Instr) (f : VFields) : Except Reject Instr :=
  need (f.form == 0) .reservedForm <|
  need (f.ud == 0 && f.vb == 0 && f.vc == 0 && f.imm == 0) .nonzeroField <|
  .ok (mk ⟨vr f.vd, vr f.va, wr f.ws, rmOf f.rm⟩)

/-- vmv in its four forms (R101, R198). -/
def decVMv (f : VFields) : Except Reject Instr :=
  need (f.ud == 0 && f.vb == 0) .nonzeroField <|
  match f.form with
  | 0 => need (f.vc == 0 && f.imm == 0) .nonzeroField (.ok (.vmv (.copy (vr f.vd) (vr f.va) (wr f.ws) (rmOf f.rm))))
  | 1 => need (f.va == 0 && f.imm == 0 && f.vc < 32) .nonzeroField
      (.ok (.vmv (.splat (vr f.vd) (xr f.vc) (wr f.ws) (rmOf f.rm))))
  | 2 => need (f.va == 0 && f.vc == 0) .nonzeroField
      (.ok (.vmv (.splatImm (vr f.vd) (BitVec.ofNat 10 f.imm) (wr f.ws) (rmOf f.rm))))
  | _ => need (f.vd == 0 && f.vc < 32) .nonzeroField
      (.ok (.vmv (.toX (xr f.vc) (vr f.va) (BitVec.ofNat 10 f.imm) (wr f.ws) (rmOf f.rm))))

/-- Unit VA (R101). -/
def decodeVA (f : VFields) : Except Reject Instr :=
  match f.op8 with
  | 0x00 => decVBin .vadd f
  | 0x01 => decVBin .vsub f
  | 0x02 => decVBin .vrsub f
  | 0x03 => decVBin .vmul f
  | 0x04 => decVBin .vmulh f
  | 0x05 => decVBin .vdiv f
  | 0x06 => decVBin .vrem f
  | 0x07 => decVBin .vmin f
  | 0x08 => decVBin .vmax f
  | 0x09 => decVBin .vand f
  | 0x0A => decVBin .vor f
  | 0x0B => decVBin .vxor f
  | 0x0C => decVBin .vshl f
  | 0x0D => decVBin .vshr f
  | 0x0E => decVBin .vsha f
  | 0x0F => decVBin .vsadd f
  | 0x10 => decVBin .vssub f
  | 0x11 => decVTern .vfma f
  | 0x12 => decVTern .vfms f
  | 0x13 => decVTern .vfnma f
  | 0x14 => decVBin .vfdiv f
  | 0x15 => decVUn .vfsqrt f
  | 0x16 => decVUn .vfrsqrt f
  | 0x17 => decVUn .vfexp2 f
  | 0x18 => decVUn .vflog2 f
  | 0x19 => decVBin .vwadd f
  | 0x1A => decVBin .vwmul f
  | 0x1B => decVTern .vwfma f
  | 0x1C => decVUn .vcvt f
  | 0x1D => decVUn .vwcvt f
  | 0x1E => decVUn .vncvt f
  | 0x1F => decVUn .vquant f
  | 0x20 => decVUn .vdequant f
  | 0x21 =>
    need (f.form == 0) .reservedForm <|
    need (f.ud == 0 && f.imm == 0) .nonzeroField <|
    .ok (.vsel ⟨vr f.vd, vr f.va, vr f.vb, vr f.vc, wr f.ws, rmOf f.rm⟩)
  | 0x22 => decVMv f
  | _ => .error .reservedOp8

/-- vd, va, vb in form 0b00 (R102). -/
def decVVV (mk : VVV → Instr) (f : VFields) : Except Reject Instr :=
  need (f.form == 0) .reservedForm <|
  need (f.ud == 0 && f.vc == 0 && f.imm == 0) .nonzeroField <|
  .ok (mk ⟨vr f.vd, vr f.va, vr f.vb, wr f.ws, rmOf f.rm⟩)

/-- vd, va and a selector in vc, form 0b00 (R102). -/
def decVVC (mk : VVV → Instr) (f : VFields) : Except Reject Instr :=
  need (f.form == 0) .reservedForm <|
  need (f.ud == 0 && f.vb == 0 && f.imm == 0) .nonzeroField <|
  .ok (mk ⟨vr f.vd, vr f.va, vr f.vc, wr f.ws, rmOf f.rm⟩)

/-- vd, va and an amount in xs or imm10 (R102). -/
def decVAmt (mk : VAmt → Instr) (f : VFields) : Except Reject Instr :=
  need (f.ud == 0 && f.vb == 0) .nonzeroField <|
  match f.form with
  | 1 => need (f.imm == 0 && f.vc < 32) .nonzeroField
      (.ok (mk ⟨vr f.vd, vr f.va, .x (xr f.vc), wr f.ws, rmOf f.rm⟩))
  | 2 => need (f.vc == 0) .nonzeroField
      (.ok (mk ⟨vr f.vd, vr f.va, .i (BitVec.ofNat 10 f.imm), wr f.ws, rmOf f.rm⟩))
  | _ => .error .reservedForm

/-- A reduction (R102). -/
def decVRed (mk : VRed → Instr) (f : VFields) : Except Reject Instr :=
  need (f.ud == 0 && f.imm == 0) .nonzeroField <|
  match f.form with
  | 0 => need (f.vc == 0) .nonzeroField
      (.ok (mk ⟨.v (vr f.vd), vr f.va, vr f.vb, wr f.ws, rmOf f.rm⟩))
  | 3 => need (f.vd == 0 && f.vc < 32) .nonzeroField
      (.ok (mk ⟨.x (xr f.vc), vr f.va, vr f.vb, wr f.ws, rmOf f.rm⟩))
  | _ => .error .reservedForm

/-- Unit VX (R102). -/
def decodeVX (f : VFields) : Except Reject Instr :=
  match f.op8 with
  | 0x00 => decVVV .vgath f
  | 0x01 => decVAmt .vslideup f
  | 0x02 => decVAmt .vslidedn f
  | 0x03 => decVVC .vcompress f
  | 0x04 => decVVC .vexpand f
  | 0x05 => decVVV .vfperm f
  | 0x06 => decVRed .vredsumO f
  | 0x07 => decVRed .vredsumT f
  | 0x08 => decVRed .vredmax f
  | 0x09 => decVRed .vredmin f
  | 0x0A => decVRed .vredand f
  | 0x0B => decVRed .vredor f
  | 0x0C =>
    need (f.form == 0) .reservedForm <|
    need (f.ud == 0 && f.vb == 0 && f.vc == 0) .nonzeroField <|
    match scanOpOf f.imm with
    | some op => .ok (.vscan ⟨vr f.vd, vr f.va, op, wr f.ws, rmOf f.rm⟩)
    | none => .error .reservedCode
  | 0x0D => decVAmt .vmovc f
  | 0x0E => decVAmt .vmovr f
  | 0x0F =>
    need (f.form == 0) .reservedForm <|
    need (f.ud == 0 && f.vc == 0 && f.imm < 512) .nonzeroField <|
    .ok (.vcsw ⟨vr f.vd, vr f.va, vr f.vb, f.imm / 256 == 1, BitVec.ofNat 4 (f.imm / 16), BitVec.ofNat 4 f.imm,
      wr f.ws, rmOf f.rm⟩)
  | 0x10 =>
    need (f.form == 2) .reservedForm <|
    need (f.ud == 0 && f.vb == 0 && f.vc == 0) .nonzeroField <|
    .ok (.vnormk ⟨vr f.vd, vr f.va, BitVec.ofNat 10 f.imm, wr f.ws, rmOf f.rm⟩)
  | _ => .error .reservedOp8

/-- The fields common to the VM loads and stores (R103). -/
def vmemOf (f : VFields) : VMem :=
  ⟨vr f.vd, xr f.vc, BitVec.ofNat 10 f.imm, f.ud == 1, wr f.ws, rmOf f.rm⟩

/-- Unit VM (R103); the form, the policy and bit 41 are checked for every operation. -/
def decodeVM (f : VFields) : Except Reject Instr :=
  need (f.form == 3) .reservedForm <|
  need (f.ud < 2) .reservedPolicy <|
  need (f.vc < 32) .nonzeroField <|
  match f.op8 with
  | 0x00 => need (f.va == 0 && f.vb == 0) .nonzeroField (.ok (.vld (vmemOf f)))
  | 0x01 => need (f.va == 0 && f.vb < 32) .nonzeroField (.ok (.vlds (vmemOf f) (xr f.vb)))
  | 0x02 => need (f.va == 0) .nonzeroField (.ok (.vldx (vmemOf f) (vr f.vb)))
  | 0x03 =>
    need (f.va == 0) .nonzeroField <|
    need (2 ≤ f.vb && f.vb ≤ 8) .reservedCode (.ok (.vldseg (vmemOf f) (BitVec.ofNat 6 f.vb)))
  | 0x08 => need (f.va == 0 && f.vb == 0) .nonzeroField (.ok (.vst (vmemOf f) (f.u == 1)))
  | 0x09 => need (f.va == 0 && f.vb < 32) .nonzeroField (.ok (.vsts (vmemOf f) (xr f.vb) (f.u == 1)))
  | 0x0A => need (f.va == 0) .nonzeroField (.ok (.vstx (vmemOf f) (vr f.vb) (f.u == 1)))
  | 0x0B =>
    need (f.imm == 0 && f.vb < 32 && f.va < 32) .nonzeroField
      (.ok (.vstPair ⟨vr f.vd, xr f.vc, xr f.vb, xr f.va, f.ud == 1, wr f.ws, rmOf f.rm⟩))
  | 0x10 => need (f.va == 0) .nonzeroField (.ok (.vgl (vmemOf f) (vr f.vb)))
  | 0x11 => need (f.va < 16) .nonzeroField (.ok (.vsc (vmemOf f) (vr f.vb) (wr f.va)))
  | 0x12 =>
    need (f.imm < 512) .reservedCode <|
    match amoOpOf (f.imm % 16), scopeOf (f.imm / 16 % 8) with
    | some op, some sc =>
      .ok (.vamo ⟨vr f.vd, vr f.va, xr f.vc, vr f.vb, op, sc, orderOf (f.imm / 128), f.ud == 1, wr f.ws, rmOf f.rm⟩)
    | _, _ => .error .reservedCode
  | 0x13 =>
    need (f.vd == 0 && f.imm < 128) .nonzeroField <|
    match redOpOf (f.imm % 16), scopeOf (f.imm / 16 % 8) with
    | some op, some sc => .ok (.vsred ⟨vr f.va, xr f.vc, vr f.vb, op, sc, f.ud == 1, wr f.ws, rmOf f.rm⟩)
    | _, _ => .error .reservedCode
  | 0x18 =>
    need (f.vb < 32 && f.va < 32 && f.vd < 32 && f.imm < 8) .nonzeroField <|
    match scopeOf f.imm with
    | some sc => .ok (.vcopy ⟨xr f.vc, xr f.vb, xr f.va, xr f.vd, sc, f.ud == 1, wr f.ws, rmOf f.rm⟩)
    | none => .error .reservedScope
  | _ => .error .reservedOp8

/-- The fields common to the stage and bead accesses (R104). -/
def vstageOf (f : VFields) : VStage := ⟨vr f.vd, xr f.vc, BitVec.ofNat 10 f.imm, wr f.ws, rmOf f.rm⟩

/-- The operands of a row copy (R104). -/
def scopyOf (f : VFields) : ScopyArgs :=
  ⟨xr f.vc, xr f.vb, xr f.va, f.imm == 1, f.ud == 1, wr f.ws, rmOf f.rm⟩

/-- Unit VS (R104, R329). -/
def decodeVS (f : VFields) : Except Reject Instr :=
  need (f.form == 3) .reservedForm <|
  need (f.vc < 32) .nonzeroField <|
  match f.op8 with
  | 0x00 => need (f.ud == 0 && f.va == 0 && f.vb == 0) .nonzeroField (.ok (.sld (vstageOf f)))
  | 0x01 => need (f.ud == 0 && f.va == 0 && f.vb == 0) .nonzeroField (.ok (.sst (vstageOf f)))
  | 0x02 => need (f.ud == 0 && f.va == 0) .nonzeroField (.ok (.sldx (vstageOf f) (vr f.vb)))
  | 0x03 => need (f.ud == 0 && f.va == 0) .nonzeroField (.ok (.sstx (vstageOf f) (vr f.vb)))
  | 0x04 =>
    need (f.ud < 2) .reservedPolicy <|
    need (f.vd == 0 && f.vb < 32 && f.va < 32 && f.imm < 2) .nonzeroField (.ok (.scopy (scopyOf f)))
  | 0x05 =>
    need (f.ud < 2) .reservedPolicy <|
    need (f.vb < 32 && f.va < 32 && f.imm < 2) .nonzeroField (.ok (.scopyX (scopyOf f) (vr f.vd)))
  | 0x06 =>
    need (f.ud == 0 && f.imm < 16) .nonzeroField <|
    match amoOpOf f.imm with
    | some op => .ok (.samo ⟨vr f.vd, vr f.va, xr f.vc, vr f.vb, op, wr f.ws, rmOf f.rm⟩)
    | none => .error .reservedCode
  | 0x08 => need (f.ud == 0 && f.va == 0 && f.vb == 0) .nonzeroField (.ok (.bld (vstageOf f)))
  | 0x09 => need (f.ud == 0 && f.va == 0 && f.vb == 0) .nonzeroField (.ok (.bst (vstageOf f)))
  | 0x10 =>
    need (f.ud == 0 && f.vc == 0 && f.vd == 0 && f.imm == 0) .nonzeroField
      (.ok (.fcins ⟨vr f.va, vr f.vb, wr f.ws, rmOf f.rm⟩))
  | 0x11 =>
    need (f.ud == 0 && f.vc == 0 && f.vb % 4 == 0 && f.imm == 0) .nonzeroField
      (.ok (.fclook ⟨vr f.vd, vr f.va, wr (f.vb / 4), wr f.ws, rmOf f.rm⟩))
  | 0x12 =>
    need (f.ud == 0 && f.vc == 0 && f.vd == 0 && f.imm < 16) .nonzeroField <|
    match fcOpOf f.imm with
    | some op => .ok (.fcacc ⟨vr f.va, vr f.vb, wr f.ws, rmOf f.rm⟩ op)
    | none => .error .reservedCode
  | 0x13 =>
    need (f.ud == 0 && f.vc == 0 && f.vb == 0 && f.imm == 0) .nonzeroField
      (.ok (.fcdrain ⟨vr f.vd, vr f.va, wr f.ws, rmOf f.rm⟩))
  | 0x14 =>
    need (f.ud == 0 && f.vc == 0 && f.vb == 0 && f.va == 0 && f.vd == 0 && f.imm == 0) .nonzeroField
      (.ok (.fcclr (wr f.ws) (rmOf f.rm)))
  | _ => .error .reservedOp8

/-- Unit MX (R105); the form and the ud bits that R243 checks at issue are kept. -/
def decodeMX (f : VFields) : Except Reject Instr :=
  let l := f.ud % 2 == 1
  let r := f.ud / 2 == 1
  let form := BitVec.ofNat 2 f.form
  need (f.imm == 0) .nonzeroField <|
  match f.op8 with
  | 0x00 => need (f.vc == 0) .nonzeroField (.ok (.mmulO ⟨vr f.vd, vr f.va, vr f.vb, l, r, form, wr f.ws, rmOf f.rm⟩))
  | 0x01 => need (f.vc == 0) .nonzeroField (.ok (.mmulR ⟨vr f.vd, vr f.va, vr f.vb, l, r, form, wr f.ws, rmOf f.rm⟩))
  | 0x02 => .ok (.mmulSp ⟨vr f.vd, vr f.va, vr f.vb, vr f.vc, l, r, form, wr f.ws, rmOf f.rm⟩)
  | 0x03 => .ok (.mmulGrp ⟨vr f.vd, vr f.va, vr f.vb, vr f.vc, l, r, form, wr f.ws, rmOf f.rm⟩)
  | 0x08 =>
    need (f.vd == 0 && f.va == 0 && f.vc < 32) .nonzeroField <|
    match f.ud with
    | 0 => .ok (.mlatch ⟨vr f.vb, xr f.vc, form, wr f.ws, rmOf f.rm⟩)
    | 1 => .ok (.mlatchStage ⟨vr f.vb, xr f.vc, form, wr f.ws, rmOf f.rm⟩)
    | _ => .error .reservedPolicy
  | 0x09 =>
    need (f.vc == 0) .nonzeroField
      (.ok (.mregrow ⟨vr f.vd, vr f.va, vr f.vb, BitVec.ofNat 2 f.ud, form, wr f.ws, rmOf f.rm⟩))
  | _ => .error .reservedOp8

/-- A compare into a weight register (R106). -/
def decWCmp (mk : WCmpArgs → Instr) (f : VFields) : Except Reject Instr :=
  need (f.ws == 0 && f.imm == 0 && f.vd < 16) .nonzeroField <|
  match f.form with
  | 0 => need (f.vc == 0) .nonzeroField (.ok (mk ⟨wr f.vd, vr f.va, .v (vr f.vb), rmOf f.rm⟩))
  | 1 => need (f.vb == 0 && f.vc < 32) .nonzeroField (.ok (mk ⟨wr f.vd, vr f.va, .x (xr f.vc), rmOf f.rm⟩))
  | _ => .error .reservedForm

/-- The signed 22-bit halfword offset of wbr and wloop: imm10 above bits [41:30] (R106). -/
def woffOf (f : VFields) : BitVec 22 := BitVec.ofNat 22 (f.imm * 4096 + f.vc * 64 + f.vb)

/-- Unit WG (R106, R224). -/
def decodeWG (f : VFields) : Except Reject Instr :=
  let rm := rmOf f.rm
  let plain := f.form == 0
  let z (c : Bool) (i : Instr) : Except Reject Instr :=
    need plain .reservedForm (need c .nonzeroField (.ok i))
  need (f.ud == 0) .nonzeroField <|
  match f.op8 with
  | 0x00 => decWCmp .wcmpEq f
  | 0x01 => decWCmp .wcmpNe f
  | 0x02 => decWCmp .wcmpLt f
  | 0x03 => decWCmp .wcmpLe f
  | 0x04 => decWCmp .wcmpGt f
  | 0x05 => decWCmp .wcmpGe f
  | 0x06 => decWCmp .wsoftGt f
  | 0x07 => decWCmp .wsoftLt f
  | 0x08 => z (f.ws == 0 && f.imm == 0 && f.vd < 16 && f.va < 16 && f.vb == 0 && f.vc == 0)
      (.wcomp ⟨wr f.vd, wr f.va, rm⟩)
  | 0x09 => z (f.ws == 0 && f.imm == 0 && f.vd < 16 && f.va < 16 && f.vb < 16 && f.vc == 0)
      (.wmul ⟨wr f.vd, wr f.va, wr f.vb, rm⟩)
  | 0x0A => z (f.ws == 0 && f.imm == 0 && f.vd < 16 && f.va < 16 && f.vb < 16 && f.vc == 0)
      (.wmin ⟨wr f.vd, wr f.va, wr f.vb, rm⟩)
  | 0x0B => z (f.ws == 0 && f.imm == 0 && f.vd < 16 && f.va < 16 && f.vb < 16 && f.vc == 0)
      (.wmax ⟨wr f.vd, wr f.va, wr f.vb, rm⟩)
  | 0x0C => z (f.ws == 0 && f.imm == 0 && f.vd < 16 && f.va < 16 && f.vb == 0 && f.vc == 0)
      (.wmv ⟨wr f.vd, wr f.va, rm⟩)
  | 0x0D => z (f.ws == 0 && f.imm == 0 && f.vd < 16 && f.vb == 0 && f.vc == 0) (.wfromv (wr f.vd) (vr f.va) rm)
  | 0x0E => z (f.ws == 0 && f.imm == 0 && f.va < 16 && f.vb == 0 && f.vc == 0) (.wtov (vr f.vd) (wr f.va) rm)
  | 0x10 => z (f.ws == 0 && f.vd == 0 && f.va < 16) (.wbr (wr f.va) (woffOf f) rm)
  | 0x11 => z (f.ws == 0 && f.imm == 0 && f.vd == 0 && f.va < 16 && f.vb == 0 && f.vc == 0) (.wsel (wr f.va) rm)
  | 0x12 => z (f.ws == 0 && f.vd < 16 && f.va < 16) (.wloop (wr f.vd) (wr f.va) (woffOf f) rm)
  | 0x13 => z (f.imm == 0 && f.vc == 0) (.wblend ⟨vr f.vd, wr f.ws, vr f.va, vr f.vb, rm⟩)
  | 0x14 => z (f.ws == 0 && f.imm == 0) (.wgradB ⟨vr f.vd, vr f.va, vr f.vb, vr f.vc, rm⟩)
  | 0x15 => z (f.imm == 0 && f.vb == 0 && f.vc == 0) (.wgradS (vr f.vd) (vr f.va) (wr f.ws) rm)
  | 0x16 => z (f.ws == 0 && f.imm == 0 && f.vd == 0 && f.va < 16 && f.vb == 0 && f.vc < 32)
      (.wmaxr (xr f.vc) (wr f.va) rm)
  | 0x17 => z (f.ws == 0 && f.imm == 0 && f.vd == 0 && f.va < 16 && f.vb == 0 && f.vc < 32)
      (.wpop (xr f.vc) (wr f.va) rm)
  | _ => .error .reservedOp8

/-- Unit NX (R107). -/
def decodeNX (f : VFields) : Except Reject Instr :=
  need (f.form == 3) .reservedForm <|
  need (f.ud == 0 && f.imm == 0 && f.vd == 0) .nonzeroField <|
  match f.op8 with
  | 0x00 => need (f.vb == 0 && f.vc < 32) .nonzeroField (.ok (.vstN (xr f.vc) (vr f.va) (wr f.ws) (rmOf f.rm)))
  | 0x01 => need (f.va == 0 && f.vb == 0 && f.vc < 32) .nonzeroField (.ok (.nrel (xr f.vc) (wr f.ws) (rmOf f.rm)))
  | 0x02 => need (f.va == 0 && f.vc == 0) .nonzeroField (.ok (.nrelV (vr f.vb) (wr f.ws) (rmOf f.rm)))
  | _ => .error .reservedOp8

/-- The instruction of some fields (R92, R95, R96). -/
def decodeFields (f : VFields) : Except Reject Instr :=
  need (f.rm < 6) .reservedRm <|
  need (f.u == 0 || (f.unit == 2 && (f.op8 == 0x08 || f.op8 == 0x09 || f.op8 == 0x0A))) .unorderedBit <|
  match f.unit with
  | 0 => decodeVA f
  | 1 => decodeVX f
  | 2 => decodeVM f
  | 3 => decodeVS f
  | 4 => decodeMX f
  | 5 => decodeWG f
  | 6 => decodeNX f
  | _ => .error .reservedUnit

/-- A 64-bit vector instruction. -/
def decode64 (w : Nat) : Except Reject Instr := decodeFields (vfields w)

/-- The instruction of `len` bytes with word w. -/
def decodeWord (len w : Nat) : Except Reject Instr :=
  if len = 2 then decode16 w else if len = 4 then decode32 w else decode64 w

/-- The little-endian value of bytes (R3). -/
def leValue : List Byte → Nat
  | [] => 0
  | b :: bs => b.toNat + 256 * leValue bs

/-- The n bytes of a value, least significant first (R3). -/
def leBytes : Nat → Nat → List Byte
  | 0, _ => []
  | n + 1, w => BitVec.ofNat 8 w :: leBytes n (w / 256)

/-- The instruction at the head of a list of bytes, with its length and the bytes after it (R69). -/
def decodeBytes (bs : List Byte) : Except Reject (Instr × Nat × List Byte) :=
  if bs.length < 2 then .error .shortBytes
  else
    let len := lengthOf (leValue (bs.take 2))
    if bs.length < len then .error .shortBytes
    else match decodeWord len (leValue (bs.take len)) with
      | .ok i => .ok (i, len, bs.drop len)
      | .error r => .error r

/-- The instruction the decoder reads from a word numbered as the opcode table numbers it: the word laid out as the
hardware stores it, zero above its bits, and given to the decoder. -/
def decodeTableWord (nbits w : Nat) : Option Instr :=
  match decodeBytes (leBytes 8 (w % 2 ^ nbits)) with
  | .ok (i, _, _) => some i
  | .error _ => none

/-! ## The encoder, from the same tables -/

/-- The SR layout of R77. -/
def wordSR (major f4 : Nat) (rd ra rb : XReg) (f6 : Nat) : Nat :=
  3 + major * 2 ^ 2 + f4 * 2 ^ 7 + rd.val * 2 ^ 11 + ra.val * 2 ^ 16 + rb.val * 2 ^ 21 + f6 * 2 ^ 26

/-- The SI, SM and SB layouts of R77: an 11-bit field above two registers. -/
def wordSI (major f4 : Nat) (rd ra : XReg) (imm : BitVec 11) : Nat :=
  3 + major * 2 ^ 2 + f4 * 2 ^ 7 + rd.val * 2 ^ 11 + ra.val * 2 ^ 16 + imm.toNat * 2 ^ 21

/-- The SU and SJ layouts of R77. -/
def wordSU (major : Nat) (rd : XReg) (imm : BitVec 20) : Nat :=
  3 + major * 2 ^ 2 + imm.toNat % 16 * 2 ^ 7 + rd.val * 2 ^ 11 + imm.toNat / 16 * 2 ^ 16

/-- A scalar atomic (R82). -/
def wordAmo (op : Nat) (rd ra rb : XReg) (sc : Scope) (ord : Order) : Nat :=
  wordSR 12 (ord.code * 4) rd ra rb (op * 8 + sc.code)

/-- A compact form with a register and a six-bit field (R74). -/
def wordC (quadrant op3 : Nat) (reg : XReg) (hi : Nat) : Nat :=
  quadrant + op3 * 2 ^ 2 + reg.val * 2 ^ 5 + hi * 2 ^ 10

/-- A compact branch (R76). -/
def wordCB (op3 : Nat) (off : BitVec 11) : Nat := 1 + op3 * 2 ^ 2 + off.toNat * 2 ^ 5

/-- A binary VA instruction (R101). -/
def wordVBin (op8 : Nat) (a : VBin) : Nat :=
  let f := { zeroFields 0 op8 with vd := a.vd.val, va := a.va.val, ws := a.ws.val, rm := a.rm.val }
  match a.b with
  | .v r => word64 { f with vb := r.val }
  | .x r => word64 { f with form := 1, vc := r.val }
  | .i imm => word64 { f with form := 2, imm := imm.toNat }

/-- A ternary VA instruction (R101). -/
def wordVTern (op8 : Nat) (a : VTern) : Nat :=
  let f := { zeroFields 0 op8 with vd := a.vd.val, va := a.va.val, ws := a.ws.val, rm := a.rm.val }
  match a.b with
  | .v vb vc => word64 { f with vb := vb.val, vc := vc.val }
  | .x r => word64 { f with form := 1, vc := r.val }
  | .i imm => word64 { f with form := 2, imm := imm.toNat }

/-- A unary vector instruction of unit VA. -/
def wordVUn (op8 : Nat) (a : VUn) : Nat :=
  word64 { zeroFields 0 op8 with vd := a.vd.val, va := a.va.val, ws := a.ws.val, rm := a.rm.val }

/-- vmv in its four forms (R101). -/
def wordVMv : VMvArgs → Nat
  | .copy vd va ws rm => word64 { zeroFields 0 0x22 with vd := vd.val, va := va.val, ws := ws.val, rm := rm.val }
  | .splat vd xs ws rm =>
    word64 { zeroFields 0 0x22 with form := 1, vd := vd.val, vc := xs.val, ws := ws.val, rm := rm.val }
  | .splatImm vd imm ws rm =>
    word64 { zeroFields 0 0x22 with form := 2, vd := vd.val, imm := imm.toNat, ws := ws.val, rm := rm.val }
  | .toX xd va idx ws rm =>
    word64 { zeroFields 0 0x22 with form := 3, va := va.val, vc := xd.val, imm := idx.toNat, ws := ws.val, rm := rm.val }

/-- vd, va, vb of unit VX (R102). -/
def wordVVV (op8 : Nat) (a : VVV) : Nat :=
  word64 { zeroFields 1 op8 with vd := a.vd.val, va := a.va.val, vb := a.vb.val, ws := a.ws.val, rm := a.rm.val }

/-- vd, va and a selector in vc (R102). -/
def wordVVC (op8 : Nat) (a : VVV) : Nat :=
  word64 { zeroFields 1 op8 with vd := a.vd.val, va := a.va.val, vc := a.vb.val, ws := a.ws.val, rm := a.rm.val }

/-- vd, va and an amount (R102). -/
def wordVAmt (op8 : Nat) (a : VAmt) : Nat :=
  let f := { zeroFields 1 op8 with vd := a.vd.val, va := a.va.val, ws := a.ws.val, rm := a.rm.val }
  match a.s with
  | .x r => word64 { f with form := 1, vc := r.val }
  | .i imm => word64 { f with form := 2, imm := imm.toNat }

/-- A reduction (R102). -/
def wordVRed (op8 : Nat) (a : VRed) : Nat :=
  let f := { zeroFields 1 op8 with va := a.va.val, vb := a.vb.val, ws := a.ws.val, rm := a.rm.val }
  match a.dst with
  | .v r => word64 { f with vd := r.val }
  | .x r => word64 { f with form := 3, vc := r.val }

/-- The fields of a VM load or store (R103). -/
def vmemFields (op8 : Nat) (m : VMem) : VFields :=
  { zeroFields 2 op8 with form := 3, vd := m.vd.val, vc := m.xs.val, imm := m.imm.toNat, ud := m.stream.toNat,
                          ws := m.ws.val, rm := m.rm.val }

/-- The fields of a stage or bead access (R104). -/
def vstageFields (op8 : Nat) (m : VStage) : VFields :=
  { zeroFields 3 op8 with form := 3, vd := m.vd.val, vc := m.xs.val, imm := m.imm.toNat, ws := m.ws.val, rm := m.rm.val }

/-- The fields of a row copy (R104). -/
def scopyFields (op8 : Nat) (a : ScopyArgs) : VFields :=
  { zeroFields 3 op8 with form := 3, vc := a.xs.val, vb := a.xt.val, va := a.xn.val, imm := a.out.toNat,
                          ud := a.swz.toNat, ws := a.ws.val, rm := a.rm.val }

/-- A dense MX product (R105). -/
def wordMx (op8 : Nat) (a : MxArgs) : Nat :=
  word64 { zeroFields 4 op8 with form := a.form.toNat, vd := a.vd.val, va := a.va.val, vb := a.vb.val,
                                 ud := a.l.toNat + 2 * a.r.toNat, ws := a.ws.val, rm := a.rm.val }

/-- A sparse or grouped MX product (R105). -/
def wordMx4 (op8 : Nat) (a : Mx4Args) : Nat :=
  word64 { zeroFields 4 op8 with form := a.form.toNat, vd := a.vd.val, va := a.va.val, vb := a.vb.val, vc := a.vc.val,
                                 ud := a.l.toNat + 2 * a.r.toNat, ws := a.ws.val, rm := a.rm.val }

/-- mlatch from device (0) or stage (1) memory (R105). -/
def wordMlatch (ud : Nat) (a : MlatchArgs) : Nat :=
  word64 { zeroFields 4 0x08 with form := a.form.toNat, vb := a.vb.val, vc := a.xs.val, ud, ws := a.ws.val, rm := a.rm.val }

/-- A compare into a weight register (R106). -/
def wordWCmp (op8 : Nat) (a : WCmpArgs) : Nat :=
  let f := { zeroFields 5 op8 with vd := a.wd.val, va := a.va.val, rm := a.rm.val }
  match a.b with
  | .v r => word64 { f with vb := r.val }
  | .x r => word64 { f with form := 1, vc := r.val }

/-- wd, wa (R106). -/
def wordWW (op8 : Nat) (a : WW) : Nat :=
  word64 { zeroFields 5 op8 with vd := a.wd.val, va := a.wa.val, rm := a.rm.val }

/-- wd, wa, wb (R106). -/
def wordWWW (op8 : Nat) (a : WWW) : Nat :=
  word64 { zeroFields 5 op8 with vd := a.wd.val, va := a.wa.val, vb := a.wb.val, rm := a.rm.val }

/-- The offset fields of wbr and wloop (R106). -/
def withOffset (f : VFields) (off : BitVec 22) : VFields :=
  { f with imm := off.toNat / 4096, vc := off.toNat / 64 % 64, vb := off.toNat % 64 }

/-- The length in bytes and the word of an instruction; none for the steps of the machine that are not fetched. -/
def encode : Instr → Option (Nat × Nat)
  | .ldb rd ra imm => some (4, wordSI 0 0 rd ra imm)
  | .ldh rd ra imm => some (4, wordSI 0 1 rd ra imm)
  | .ldw rd ra imm => some (4, wordSI 0 2 rd ra imm)
  | .ldd rd ra imm => some (4, wordSI 0 3 rd ra imm)
  | .ldbn rd ra imm => some (4, wordSI 0 4 rd ra imm)
  | .ldhn rd ra imm => some (4, wordSI 0 5 rd ra imm)
  | .ldwn rd ra imm => some (4, wordSI 0 6 rd ra imm)
  | .stb rb ra imm => some (4, wordSI 1 0 rb ra imm)
  | .sth rb ra imm => some (4, wordSI 1 1 rb ra imm)
  | .stw rb ra imm => some (4, wordSI 1 2 rb ra imm)
  | .std rb ra imm => some (4, wordSI 1 3 rb ra imm)
  | .addi rd ra imm => some (4, wordSI 2 0 rd ra imm)
  | .andi rd ra imm => some (4, wordSI 2 1 rd ra imm)
  | .ori rd ra imm => some (4, wordSI 2 2 rd ra imm)
  | .xori rd ra imm => some (4, wordSI 2 3 rd ra imm)
  | .shli rd ra sh => some (4, wordSI 2 4 rd ra (sh.setWidth 11))
  | .shri rd ra sh => some (4, wordSI 2 5 rd ra (sh.setWidth 11))
  | .shai rd ra sh => some (4, wordSI 2 6 rd ra (sh.setWidth 11))
  | .slti rd ra imm => some (4, wordSI 2 7 rd ra imm)
  | .sltni rd ra imm => some (4, wordSI 2 8 rd ra imm)
  | .add rd ra rb => some (4, wordSR 3 0 rd ra rb 0)
  | .sub rd ra rb => some (4, wordSR 3 1 rd ra rb 0)
  | .and rd ra rb => some (4, wordSR 3 2 rd ra rb 0)
  | .or rd ra rb => some (4, wordSR 3 3 rd ra rb 0)
  | .xor rd ra rb => some (4, wordSR 3 4 rd ra rb 0)
  | .shl rd ra rb => some (4, wordSR 3 5 rd ra rb 0)
  | .shr rd ra rb => some (4, wordSR 3 6 rd ra rb 0)
  | .sha rd ra rb => some (4, wordSR 3 7 rd ra rb 0)
  | .slt rd ra rb => some (4, wordSR 3 8 rd ra rb 0)
  | .sltn rd ra rb => some (4, wordSR 3 9 rd ra rb 0)
  | .min rd ra rb => some (4, wordSR 3 10 rd ra rb 0)
  | .max rd ra rb => some (4, wordSR 3 11 rd ra rb 0)
  | .minn rd ra rb => some (4, wordSR 3 12 rd ra rb 0)
  | .maxn rd ra rb => some (4, wordSR 3 13 rd ra rb 0)
  | .mul rd ra rb => some (4, wordSR 5 0 rd ra rb 0)
  | .mulh rd ra rb => some (4, wordSR 5 1 rd ra rb 0)
  | .mulhn rd ra rb => some (4, wordSR 5 2 rd ra rb 0)
  | .div rd ra rb => some (4, wordSR 5 3 rd ra rb 0)
  | .divn rd ra rb => some (4, wordSR 5 4 rd ra rb 0)
  | .rem rd ra rb => some (4, wordSR 5 5 rd ra rb 0)
  | .remn rd ra rb => some (4, wordSR 5 6 rd ra rb 0)
  | .beq ra rb off => some (4, wordSI 6 0 ra rb off)
  | .bne ra rb off => some (4, wordSI 6 1 ra rb off)
  | .blt ra rb off => some (4, wordSI 6 2 ra rb off)
  | .bge ra rb off => some (4, wordSI 6 3 ra rb off)
  | .bltn ra rb off => some (4, wordSI 6 4 ra rb off)
  | .bgen ra rb off => some (4, wordSI 6 5 ra rb off)
  | .jal rd imm => some (4, wordSU 7 rd imm)
  | .jalr rd ra imm => some (4, wordSI 8 0 rd ra imm)
  | .lhi rd imm => some (4, wordSU 9 rd imm)
  | .apc rd imm => some (4, wordSU 10 rd imm)
  | .csrr rd csr => some (4, wordSI 11 0 rd 0 csr)
  | .csrw rd ra csr => some (4, wordSI 11 1 rd ra csr)
  | .csrs rd ra csr => some (4, wordSI 11 2 rd ra csr)
  | .csrc rd ra csr => some (4, wordSI 11 3 rd ra csr)
  | .amoadd rd ra rb sc ord => some (4, wordAmo 0 rd ra rb sc ord)
  | .amoswap rd ra rb sc ord => some (4, wordAmo 1 rd ra rb sc ord)
  | .amocas rd ra rb sc ord => some (4, wordAmo 2 rd ra rb sc ord)
  | .amomax rd ra rb sc ord => some (4, wordAmo 3 rd ra rb sc ord)
  | .amomin rd ra rb sc ord => some (4, wordAmo 4 rd ra rb sc ord)
  | .amoand rd ra rb sc ord => some (4, wordAmo 5 rd ra rb sc ord)
  | .amoor rd ra rb sc ord => some (4, wordAmo 6 rd ra rb sc ord)
  | .fence sc => some (4, wordSR 13 0 0 0 0 sc.code)
  | .fenceX b a sc => some (4, 3 + 13 * 2 ^ 2 + 1 * 2 ^ 7 + sc.code * 2 ^ 17 + a.toNat * 2 ^ 20 + b.toNat * 2 ^ 26)
  | .cwait rd ra rb sc => some (4, wordSR 13 2 rd ra rb sc.code)
  | .fbar => some (4, wordSR 13 3 0 0 0 0)
  | .sys imm => some (4, wordSI 14 0 0 0 imm)
  | .eret => some (4, wordSR 14 1 0 0 0 0)
  | .idle => some (4, wordSR 14 2 0 0 0 0)
  | .brk imm => some (4, wordSI 14 3 0 0 imm)
  | .yield => some (4, wordSR 14 4 0 0 0 0)
  | .endHart => some (4, wordSR 14 5 0 0 0 0)
  | .trig => some (4, wordSR 14 6 0 0 0 0)
  | .strip rd => some (4, wordSR 14 7 rd 0 0 0)
  | .launch rd ra => some (4, wordSR 14 8 rd ra 0 0)
  | .icinv ra rb => some (4, wordSR 14 9 0 ra rb 0)
  | .tlbinv ra rb => some (4, wordSR 14 10 0 ra rb 0)
  | .xbind rd ra => some (4, wordSR 15 0 rd ra 0 0)
  | .xunpin ra => some (4, wordSR 15 1 0 ra 0 0)
  | .xpark ra v => some (4, wordSR 15 2 0 ra 0 v.val)
  | .xwake rd v => some (4, wordSR 15 3 rd 0 0 v.val)
  | .xwakeW rd v => some (4, wordSR 15 4 rd 0 0 v.val)
  | .xsend v ra rb => some (4, wordSR 15 5 0 ra rb v.val)
  | .xrecv rd v => some (4, wordSR 15 6 rd 0 0 v.val)
  | .ertw ra rb => some (4, wordSR 15 7 0 ra rb 0)
  | .setvli rd ra vt =>
    some (4, 3 + 16 * 2 ^ 2 + vt.toNat / 2048 * 2 ^ 8 + rd.val * 2 ^ 11 + ra.val * 2 ^ 16 + vt.toNat % 2048 * 2 ^ 21)
  | .setvl rd ra rb => some (4, wordSR 16 1 rd ra rb 0)
  | .clasp n s =>
    some (4, 3 + 30 * 2 ^ 2 + n.toNat * 2 ^ 7 + s.s1.toNat * 2 ^ 10 + s.s2.toNat * 2 ^ 13 + s.s3.toNat * 2 ^ 16
      + s.s4.toNat * 2 ^ 19 + s.s5.toNat * 2 ^ 22 + s.s6.toNat * 2 ^ 25)
  | .cAdd rd rs => some (2, wordC 0 0 rd rs.val)
  | .cSub rd rs => some (2, wordC 0 1 rd rs.val)
  | .cAnd rd rs => some (2, wordC 0 2 rd rs.val)
  | .cOr rd rs => some (2, wordC 0 3 rd rs.val)
  | .cXor rd rs => some (2, wordC 0 4 rd rs.val)
  | .cMv rd => some (2, wordC 0 5 rd 0)
  | .cAddi rd imm => some (2, wordC 1 0 rd imm.toNat)
  | .cShli rd imm => some (2, wordC 1 1 rd imm.toNat)
  | .cLd rd imm => some (2, wordC 1 2 rd imm.toNat)
  | .cSt rs imm => some (2, wordC 1 3 rs imm.toNat)
  | .cBeqz off => some (2, wordCB 4 off)
  | .cBnez off => some (2, wordCB 5 off)
  | .cJ off => some (2, wordCB 6 off)
  | .vadd a => some (8, wordVBin 0x00 a)
  | .vsub a => some (8, wordVBin 0x01 a)
  | .vrsub a => some (8, wordVBin 0x02 a)
  | .vmul a => some (8, wordVBin 0x03 a)
  | .vmulh a => some (8, wordVBin 0x04 a)
  | .vdiv a => some (8, wordVBin 0x05 a)
  | .vrem a => some (8, wordVBin 0x06 a)
  | .vmin a => some (8, wordVBin 0x07 a)
  | .vmax a => some (8, wordVBin 0x08 a)
  | .vand a => some (8, wordVBin 0x09 a)
  | .vor a => some (8, wordVBin 0x0A a)
  | .vxor a => some (8, wordVBin 0x0B a)
  | .vshl a => some (8, wordVBin 0x0C a)
  | .vshr a => some (8, wordVBin 0x0D a)
  | .vsha a => some (8, wordVBin 0x0E a)
  | .vsadd a => some (8, wordVBin 0x0F a)
  | .vssub a => some (8, wordVBin 0x10 a)
  | .vfma a => some (8, wordVTern 0x11 a)
  | .vfms a => some (8, wordVTern 0x12 a)
  | .vfnma a => some (8, wordVTern 0x13 a)
  | .vfdiv a => some (8, wordVBin 0x14 a)
  | .vfsqrt a => some (8, wordVUn 0x15 a)
  | .vfrsqrt a => some (8, wordVUn 0x16 a)
  | .vfexp2 a => some (8, wordVUn 0x17 a)
  | .vflog2 a => some (8, wordVUn 0x18 a)
  | .vwadd a => some (8, wordVBin 0x19 a)
  | .vwmul a => some (8, wordVBin 0x1A a)
  | .vwfma a => some (8, wordVTern 0x1B a)
  | .vcvt a => some (8, wordVUn 0x1C a)
  | .vwcvt a => some (8, wordVUn 0x1D a)
  | .vncvt a => some (8, wordVUn 0x1E a)
  | .vquant a => some (8, wordVUn 0x1F a)
  | .vdequant a => some (8, wordVUn 0x20 a)
  | .vsel a => some (8, word64 { zeroFields 0 0x21 with vd := a.vd.val, va := a.va.val, vb := a.vb.val, vc := a.vc.val,
                                                        ws := a.ws.val, rm := a.rm.val })
  | .vmv a => some (8, wordVMv a)
  | .vgath a => some (8, wordVVV 0x00 a)
  | .vslideup a => some (8, wordVAmt 0x01 a)
  | .vslidedn a => some (8, wordVAmt 0x02 a)
  | .vcompress a => some (8, wordVVC 0x03 a)
  | .vexpand a => some (8, wordVVC 0x04 a)
  | .vfperm a => some (8, wordVVV 0x05 a)
  | .vredsumO a => some (8, wordVRed 0x06 a)
  | .vredsumT a => some (8, wordVRed 0x07 a)
  | .vredmax a => some (8, wordVRed 0x08 a)
  | .vredmin a => some (8, wordVRed 0x09 a)
  | .vredand a => some (8, wordVRed 0x0A a)
  | .vredor a => some (8, wordVRed 0x0B a)
  | .vscan a => some (8, word64 { zeroFields 1 0x0C with vd := a.vd.val, va := a.va.val, imm := a.op.code,
                                                         ws := a.ws.val, rm := a.rm.val })
  | .vmovc a => some (8, wordVAmt 0x0D a)
  | .vmovr a => some (8, wordVAmt 0x0E a)
  | .vcsw a => some (8, word64 { zeroFields 1 0x0F with
      vd := a.vd.val, va := a.va.val, vb := a.vb.val,
      imm := a.j.toNat + 16 * a.k.toNat + 256 * a.inv.toNat, ws := a.ws.val, rm := a.rm.val })
  | .vnormk a => some (8, word64 { zeroFields 1 0x10 with form := 2, vd := a.vd.val, va := a.va.val, imm := a.k.toNat,
                                                          ws := a.ws.val, rm := a.rm.val })
  | .vld m => some (8, word64 (vmemFields 0x00 m))
  | .vlds m xt => some (8, word64 { vmemFields 0x01 m with vb := xt.val })
  | .vldx m vb => some (8, word64 { vmemFields 0x02 m with vb := vb.val })
  | .vldseg m n => some (8, word64 { vmemFields 0x03 m with vb := n.toNat })
  | .vst m u => some (8, word64 { vmemFields 0x08 m with u := u.toNat })
  | .vsts m xt u => some (8, word64 { vmemFields 0x09 m with vb := xt.val, u := u.toNat })
  | .vstx m vb u => some (8, word64 { vmemFields 0x0A m with vb := vb.val, u := u.toNat })
  | .vstPair a => some (8, word64 { zeroFields 2 0x0B with
      form := 3, vd := a.vd.val, vc := a.xs.val, vb := a.xt.val,
      va := a.xc.val, ud := a.stream.toNat, ws := a.ws.val, rm := a.rm.val })
  | .vgl m vb => some (8, word64 { vmemFields 0x10 m with vb := vb.val })
  | .vsc m vb wd => some (8, word64 { vmemFields 0x11 m with vb := vb.val, va := wd.val })
  | .vamo a => some (8, word64 { zeroFields 2 0x12 with
      form := 3, vd := a.vd.val, va := a.va.val, vc := a.xs.val,
      vb := a.vb.val, imm := a.op.code + 16 * a.sc.code + 128 * a.ord.code, ud := a.stream.toNat, ws := a.ws.val,
      rm := a.rm.val })
  | .vsred a => some (8, word64 { zeroFields 2 0x13 with
      form := 3, va := a.va.val, vc := a.xs.val, vb := a.vb.val,
      imm := a.op.code + 16 * a.sc.code, ud := a.stream.toNat, ws := a.ws.val, rm := a.rm.val })
  | .vcopy a => some (8, word64 { zeroFields 2 0x18 with
      form := 3, vc := a.xs.val, vb := a.xt.val, va := a.xn.val,
      vd := a.xc.val, imm := a.sc.code, ud := a.stream.toNat, ws := a.ws.val, rm := a.rm.val })
  | .sld m => some (8, word64 (vstageFields 0x00 m))
  | .sst m => some (8, word64 (vstageFields 0x01 m))
  | .sldx m vb => some (8, word64 { vstageFields 0x02 m with vb := vb.val })
  | .sstx m vb => some (8, word64 { vstageFields 0x03 m with vb := vb.val })
  | .scopy a => some (8, word64 (scopyFields 0x04 a))
  | .scopyX a vb => some (8, word64 { scopyFields 0x05 a with vd := vb.val })
  | .samo a => some (8, word64 { zeroFields 3 0x06 with
      form := 3, vd := a.vd.val, va := a.va.val, vc := a.xs.val,
      vb := a.vb.val, imm := a.op.code, ws := a.ws.val, rm := a.rm.val })
  | .bld m => some (8, word64 (vstageFields 0x08 m))
  | .bst m => some (8, word64 (vstageFields 0x09 m))
  | .fcins a => some (8, word64 { zeroFields 3 0x10 with form := 3, va := a.va.val, vb := a.vb.val, ws := a.ws.val,
                                                         rm := a.rm.val })
  | .fclook a => some (8, word64 { zeroFields 3 0x11 with
      form := 3, vd := a.vd.val, va := a.va.val,
      vb := 4 * a.wd.val, ws := a.ws.val, rm := a.rm.val })
  | .fcacc a op => some (8, word64 { zeroFields 3 0x12 with form := 3, va := a.va.val, vb := a.vb.val, imm := op.code,
                                                            ws := a.ws.val, rm := a.rm.val })
  | .fcdrain a => some (8, word64 { zeroFields 3 0x13 with form := 3, vd := a.vd.val, va := a.va.val, ws := a.ws.val,
                                                           rm := a.rm.val })
  | .fcclr ws rm => some (8, word64 { zeroFields 3 0x14 with form := 3, ws := ws.val, rm := rm.val })
  | .mmulO a => some (8, wordMx 0x00 a)
  | .mmulR a => some (8, wordMx 0x01 a)
  | .mmulSp a => some (8, wordMx4 0x02 a)
  | .mmulGrp a => some (8, wordMx4 0x03 a)
  | .mlatch a => some (8, wordMlatch 0 a)
  | .mlatchStage a => some (8, wordMlatch 1 a)
  | .mregrow a => some (8, word64 { zeroFields 4 0x09 with
      form := a.form.toNat, vd := a.vd.val, va := a.va.val,
      vb := a.vb.val, ud := a.ud.toNat, ws := a.ws.val, rm := a.rm.val })
  | .wcmpEq a => some (8, wordWCmp 0x00 a)
  | .wcmpNe a => some (8, wordWCmp 0x01 a)
  | .wcmpLt a => some (8, wordWCmp 0x02 a)
  | .wcmpLe a => some (8, wordWCmp 0x03 a)
  | .wcmpGt a => some (8, wordWCmp 0x04 a)
  | .wcmpGe a => some (8, wordWCmp 0x05 a)
  | .wsoftGt a => some (8, wordWCmp 0x06 a)
  | .wsoftLt a => some (8, wordWCmp 0x07 a)
  | .wcomp a => some (8, wordWW 0x08 a)
  | .wmul a => some (8, wordWWW 0x09 a)
  | .wmin a => some (8, wordWWW 0x0A a)
  | .wmax a => some (8, wordWWW 0x0B a)
  | .wmv a => some (8, wordWW 0x0C a)
  | .wfromv wd va rm => some (8, word64 { zeroFields 5 0x0D with vd := wd.val, va := va.val, rm := rm.val })
  | .wtov vd wa rm => some (8, word64 { zeroFields 5 0x0E with vd := vd.val, va := wa.val, rm := rm.val })
  | .wbr wa off rm => some (8, word64 (withOffset { zeroFields 5 0x10 with va := wa.val, rm := rm.val } off))
  | .wsel wa rm => some (8, word64 { zeroFields 5 0x11 with va := wa.val, rm := rm.val })
  | .wloop wd wa off rm =>
    some (8, word64 (withOffset { zeroFields 5 0x12 with vd := wd.val, va := wa.val, rm := rm.val } off))
  | .wblend a => some (8, word64 { zeroFields 5 0x13 with vd := a.vd.val, va := a.va.val, vb := a.vb.val, ws := a.ws.val,
                                                          rm := a.rm.val })
  | .wgradB a => some (8, word64 { zeroFields 5 0x14 with vd := a.vd.val, va := a.va.val, vb := a.vb.val, vc := a.vc.val,
                                                          rm := a.rm.val })
  | .wgradS vd va ws rm =>
    some (8, word64 { zeroFields 5 0x15 with vd := vd.val, va := va.val, ws := ws.val, rm := rm.val })
  | .wmaxr xd wa rm => some (8, word64 { zeroFields 5 0x16 with vc := xd.val, va := wa.val, rm := rm.val })
  | .wpop xd wa rm => some (8, word64 { zeroFields 5 0x17 with vc := xd.val, va := wa.val, rm := rm.val })
  | .vstN xd va ws rm =>
    some (8, word64 { zeroFields 6 0x00 with form := 3, vc := xd.val, va := va.val, ws := ws.val, rm := rm.val })
  | .nrel xs ws rm => some (8, word64 { zeroFields 6 0x01 with form := 3, vc := xs.val, ws := ws.val, rm := rm.val })
  | .nrelV vb ws rm => some (8, word64 { zeroFields 6 0x02 with form := 3, vb := vb.val, ws := ws.val, rm := rm.val })
  | _ => none

end Sys2Proof
end

