-- ==== Sys2Proof/Machine/State.lean ====
section
/-! DEFINITION. The state of one package (R155, R341, R355, R378, R400, R424, R440, R452), its reset, and the reasons a
step can stop. Everything is plain data. -/

namespace Sys2Proof

namespace Machine

/-- A hart of the package (R11). -/
abbrev HartId := Fin 512

/-- The one fault of the model. -/
inductive Fault where
  /-- Raised by `step` when it is a hart's turn and the package has been stopped by a fatal error (R395) or halted in
  phase 2 (R445): nothing runs until a package reset. Safe: the hardware runs nothing either. -/
  | packageStopped
  deriving DecidableEq, Repr

/-- Why an instruction has no meaning. -/
inductive Refusal where
  /-- Raised by an arm of `exec` whose instruction has no meaning yet. Safe: the model stops. -/
  | notModelled (mnemonic : String)
  deriving DecidableEq, Repr

/-- The path an access travels on (R266). -/
inductive Path where
  | V | C | N | F | L | H
  deriving DecidableEq, Repr

/-- One posted entry of the dispatch queue with what it captured (R41, R387). -/
structure Entry where
  /-- The instruction. -/
  instr  : Instr
  /-- Its 64 bits. -/
  bits   : BitVec 64
  /-- Its PC. -/
  pc     : Word
  /-- The scalar registers named in [40:36], [34:30], [28:24] and [22:18]. -/
  op0    : Word
  op1    : Word
  op2    : Word
  op3    : Word
  vtype  : Word
  /-- The element, unit or byte at which it starts (R185, R387). -/
  start  : Nat
  vl     : Nat
  vrc    : Nat
  vslip  : BitVec 8
  wthr   : BitVec 16
  fthr   : BitVec 16
  wtemp  : BitVec 32
  wctl   : BitVec 8
  mshape : BitVec 24
  nhint  : BitVec 9
  /-- The group of the restart point of mmul.grp (R256). -/
  group  : Nat
  /-- Whether it belongs to the convoy of the entry before it in the queue. -/
  joined : Bool
  /-- The model's count of configuration changes at posting, for R308. -/
  epoch  : Nat
  deriving DecidableEq, Repr

/-- What a hart waits for (R58, R40, R232, R372, R374, R390). -/
inductive Wait where
  | cwait (rd ra rb : XReg) (sc : Scope)
  | fbar
  | xwakeW (rd : XReg) (v : VReg)
  | yield
  | idle
  | xpark (ra : XReg) (v : VReg)
  | xsend (v : VReg) (ra rb : XReg)
  | queueFull
  | wloop
  deriving DecidableEq, Repr

/-- What a hart is doing. -/
inductive Run where
  /-- No farm is placed on it. -/
  | free
  | running
  | waiting (w : Wait)
  /-- Its farm is ending by a contained machine check on another hart (R393). -/
  | stopped
  deriving DecidableEq, Repr

/-- A hart's trigger (R63, R369); while it is pending it waits for everything that an instruction numbered below the bound
has issued. -/
inductive Trigger where
  | no
  | pending (tags : Nat)
  | done
  deriving DecidableEq, Repr

/-- A cached translation of a hart (R409): the pages it covers, its leaf entry and where that leaf lies. -/
structure TlbEntry where
  ctx    : BitVec 16
  part   : BitVec 10
  /-- First virtual address and number of bytes. -/
  va     : Nat
  size   : Nat
  pte    : Word
  /-- The physical address that va maps to. -/
  pa     : Nat
  deriving DecidableEq, Repr

/-- A pointer entry that a circlet's walk cache holds (R409): the context, the first of the addresses below it, and the table
that it names, with that table's level. -/
structure WalkEntry where
  ctx   : BitVec 16
  va    : Nat
  level : Nat
  table : Nat
  deriving DecidableEq, Repr

/-- A token in a send queue (R374, R375). -/
structure SendToken where
  dest  : Nat
  msg   : TokenMsg
  /-- The xsend's PC, its x[xa] and the token's index, for the record of R377. -/
  pc    : Word
  xa    : Word
  index : Nat
  /-- The destination has answered busy (R377). -/
  busy  : Bool
  deriving DecidableEq, Repr

/-- The vector, weight, matrix and identity-free CSRs of R162, each as the 64 bits that a read returns. -/
structure Csrs where
  vl      : Word
  vtype   : Word
  vstart  : Word
  vrc     : Word
  vhwm    : Word
  vdirty  : Word
  vdirtyw : Word
  vslip   : Word
  vctl    : Word
  vflags  : Word
  wthr    : Word
  fthr    : Word
  wtemp   : Word
  wctl    : Word
  wstat   : Word
  mshape  : Word
  nhint   : Word
  xlast   : Word
  deriving DecidableEq, Repr

/-- The trap CSRs (R380). -/
structure TrapRegs where
  epc      : Word
  ecause   : Word
  evalue   : Word
  evstart  : Word
  estatus  : Word
  evec     : Word
  escratch : Word
  deriving DecidableEq, Repr

/-- The counters of a hart (R166, R436, R437). -/
structure Perf where
  cycle   : Word
  instret : Word
  pcnt    : Vector Word 16
  pevt    : Vector Word 16
  idle    : Vector Word 24
  deriving DecidableEq, Repr

/-- One hart. -/
structure Hart where
  x       : Vector Word 32
  pc      : Word
  /-- Privileged mode (R161). -/
  priv    : Bool
  csr     : Csrs
  trap    : TrapRegs
  perf    : Perf
  /-- The placement (R166). -/
  farmid  : BitVec 32
  ctxid   : BitVec 16
  v       : Vector VBits 64
  w       : Vector WBits 16
  latch   : Vector VBits 16
  /-- Stage memory, an unlisted byte being zero (R324). -/
  stage   : List (Nat × Byte)
  /-- The 4 KiB stage blocks written since farm start (R67). -/
  blocks  : BitVec 72
  /-- The Facet store, by ascending key (R336). -/
  facet   : List (Nat × Option (BitVec 32))
  /-- The entry of the most recent completed mlatch (R254). -/
  lastMlatch : Option Entry
  /-- The dispatch queue, oldest first (R40). -/
  queue   : List Entry
  /-- The model's count of configuration changes (R308). -/
  epoch   : Nat
  /-- The model's timing choice: how many posted entries the sequencer may leave in the queue (log 7). -/
  lag     : Nat
  /-- The TLB slices of the eight lane clusters, and the second-level TLB, newest entry first (R400, R409). -/
  tlb     : Vector (List TlbEntry) 8
  tlb2    : List TlbEntry
  /-- The bytes the instruction cache holds, by virtual address. -/
  icache  : List (Nat × Option Byte)
  run     : Run
  trigger : Trigger
  /-- The gathered posted-op cause (R392). -/
  cause   : BitVec 8
  sends   : List SendToken
  /-- The ring slots its last xrecv returned (R376). -/
  slots   : List Nat
  /-- The pending-trap latch: an asynchronous machine check not yet taken (R383, R391). -/
  pendingTrap : Option ErrorReport
  /-- A wloop at pc has been posted and not yet decided (R232). -/
  wloopPending : Bool
  deriving DecidableEq, Repr

/-- The fields of a launch record (R358). -/
structure LaunchRecord where
  entry  : Word
  args   : Word
  dep    : Word
  bound  : Word
  done   : Word
  strips : BitVec 32
  farm   : BitVec 16
  prio   : BitVec 8
  ctx    : BitVec 16
  deriving DecidableEq, Repr

/-- An accepted launch: its record, its context, and the addresses fixed at acceptance (R361). -/
structure Launch where
  record  : LaunchRecord
  ctx     : BitVec 16
  part    : BitVec 10
  /-- Where the completion word and the dependence word lie. -/
  done    : Nat
  dep     : Option Nat
  /-- The dependence word lies in the expert window (R300). -/
  depExpert : Bool
  /-- The acceptance order (R361). -/
  order   : Nat
  /-- The effective priority and the passed-over count (R363). -/
  eff     : Nat
  passed  : Nat
  /-- The test of R36 has been made. -/
  sized   : Bool
  deriving DecidableEq, Repr

/-- One hart's place in a farm; its index in the farm is x5 (R37). -/
structure Member where
  /-- The hart it is placed on; none while suspended and after end. -/
  hart    : Option HartId
  /-- The save slot reserved or in use (R396). -/
  slot    : Option Nat
  ended   : Bool
  triggered : Bool
  /-- Arrived at the barrier under way (R432). -/
  arrived : Bool
  /-- It was waiting at fbar when it was suspended (R433). -/
  barred  : Bool
  /-- While it is suspended: its tokens that no destination has answered, the ring slots of its last xrecv, and its latched
  trap (R391). -/
  sends   : List SendToken
  slots   : List Nat
  pending : Option ErrorReport
  deriving DecidableEq, Repr

/-- A farm that is placed, running or suspended. -/
structure Farm where
  number  : BitVec 32
  launch  : Launch
  members : List Member
  /-- The next strip index (R434). -/
  next    : Nat
  /-- The barrier instance number and its arrivals (R432). -/
  barrier : Nat
  arrivals : Nat
  triggered : Bool
  /-- Flags and cause gathered at end (R360). -/
  flags   : BitVec 12
  cause   : BitVec 8
  /-- A yield is outstanding (R368). -/
  yielded : Bool
  /-- A pre-emption has been ordered (R365). -/
  preempt : Bool
  suspended : Bool
  /-- The placement order (R365). -/
  placed  : Nat
  /-- Pins by key (R417). -/
  pins    : List (Nat × Nat)
  /-- A contained machine check is ending the farm (R393). -/
  ending  : Bool
  deriving DecidableEq, Repr

/-- The states of an expert (R413). -/
inductive Residency where
  | absent | fetching | resident | evicting
  deriving DecidableEq, Repr

/-- An entry of the expert residency table (R413). -/
structure ErtEntry where
  key    : BitVec 32
  state  : Residency
  ctx    : BitVec 16
  far    : Word
  size   : BitVec 32
  pins   : BitVec 32
  base   : Word
  /-- The arena frames that hold it; their number is the field frames. -/
  frames : List Nat
  gen    : BitVec 32
  last   : Word
  deriving DecidableEq, Repr

/-- A parked token (R372). -/
structure Parked where
  /-- The circlet whose wait queue holds it. -/
  circlet : Nat
  farm   : BitVec 32
  ticket : Word
  token  : BitVec 32
  deriving DecidableEq, Repr

/-- A receive ring (R376, R377). -/
structure Ring where
  /-- The next slot to fill. -/
  fill    : Nat
  /-- Slots filled and not yet taken, in arrival order. -/
  arrived : List Nat
  /-- Slots taken by an xrecv and not yet freed. -/
  held    : List Nat
  deriving DecidableEq, Repr

/-- The order in which the writes of one instruction are performed. -/
inductive ElemOrder where
  /-- In the order of its units (R274). -/
  | ascending
  /-- In any order, but the writes of one byte in the order of its units (R271, R273). -/
  | bytes
  /-- In any order (R275). -/
  | free
  deriving DecidableEq, Repr

/-- One issued write that is not yet performed at system scope (R269). -/
structure Access where
  id    : Nat
  /-- The hart that issued it, itself or by its engines. -/
  hart  : HartId
  path  : Path
  /-- The bytes it writes, by key. -/
  cells : List Host.Cell
  /-- 0 issued; 1 hart, 2 circlet, 3 package, 4 domain: the scope at which it is performed. -/
  level : Nat
  /-- The instruction it belongs to, as the model numbers them in program order, the unit of it that it writes, and the
  order of its units. -/
  tag   : Nat
  unit  : Nat
  order : ElemOrder
  /-- A reader sees all of its bytes or none; another access is performed byte by byte (R272). -/
  whole : Bool
  deriving DecidableEq, Repr

/-- The reads of one 8-byte word of memory by a hart's coming instructions, performed before them (R269, R273): the bytes that
its own accesses read, and those that its copies read. -/
structure EarlyRead where
  hart   : HartId
  /-- The key of its first byte, over 8. -/
  word   : Nat
  own    : List Byte
  copied : List Byte
  deriving DecidableEq, Repr

/-- One element of a posted reduction (R321); its address is exact (R296). -/
structure RedElem where
  index : Nat
  addr  : Int
  value : BitVec 64
  deriving DecidableEq, Repr

/-- A vsred whose elements are not all acknowledged (R319 to R321). -/
structure Posted where
  tag   : Nat
  hart  : HartId
  farm  : BitVec 32
  ctx   : BitVec 16
  priv  : Bool
  pc    : Word
  op    : RedOp
  /-- The element type code of vtype. -/
  et    : Nat
  scope : Scope
  /-- vctl.ftz as it was when the entry issued its elements (R134). -/
  ftz   : Bool
  elems : List RedElem
  /-- The lowest failing element so far, with its cause and address. -/
  failed : Option (Nat × Nat × Word)
  deriving DecidableEq, Repr

/-- A vcopy whose counter increment is to come (R322). -/
structure CopyCounter where
  hart  : HartId
  tag   : Nat
  addr  : Nat
  scope : Scope
  deriving DecidableEq, Repr

/-- A machine-check bank (R422). -/
structure Bank where
  status : BitVec 64
  addr   : BitVec 64
  syn    : BitVec 64
  count  : BitVec 64
  deriving DecidableEq, Repr

/-- An Ethernet port: its registers (R458), what it read when it was enabled, and the messages that wait for a
receive descriptor (R459), each with its source, flow and bytes. -/
structure EthPort where
  txbase : Word
  rxbase : Word
  txsize : BitVec 32
  rxsize : BitVec 32
  txtail : BitVec 32
  txhead : BitVec 32
  rxtail : BitVec 32
  rxhead : BitVec 32
  ctl    : Word
  status : Word
  /-- The values read when en rose. -/
  live   : Option (Word × Word × BitVec 32 × BitVec 32 × Bool)
  waiting : List (BitVec 48 × BitVec 16 × List Byte)
  deriving DecidableEq, Repr

/-- An island register (R450) and the hart's self-test (R451). -/
structure Island where
  stn   : BitVec 32
  stres : BitVec 2
  act   : BitVec 8
  req   : BitVec 8
  /-- A self-test item is under way. -/
  testing : Bool
  /-- The value of time at the last completed item. -/
  tested : Word
  deriving DecidableEq, Repr

/-- The device register block (R452) and what Bezel keeps beside it. -/
structure Device where
  boot     : BitVec 64
  starts   : BitVec 64
  powerLimit : BitVec 64
  telemetry : BitVec 64
  interval : BitVec 64
  avail    : BitVec 512
  measure  : Vector (BitVec 256) 8
  mailbox  : BitVec 512
  /-- The nonce of a quote being formed, and a nonce that waits for the next quote (R448). -/
  nonce    : Option (BitVec 256)
  nextNonce : Option (BitVec 256)
  pool     : BitVec 64
  sweep    : BitVec 64
  arena    : BitVec 64
  refusal  : BitVec 64
  launch   : BitVec 64
  switch   : BitVec 64
  pkg      : BitVec 10
  parts    : Vector (BitVec 10) 512
  scaleUp  : Vector Word 24
  farPorts : Vector Word 4
  hostLink : Word
  eth      : Vector EthPort 8
  banks    : Vector Bank 64
  /-- The context table: the 64-byte image of each context (R401), an unlisted one being zero. -/
  contexts : List (Nat × BitVec 512)
  islands  : Vector Island 512
  /-- The interleave set of this start (R22), and the stacks that failed training in it (R445). -/
  interleave : BitVec 8
  failedStacks : BitVec 8
  /-- The clock limit of each hart's island from the configuration image, in units of 10 MHz (R443). -/
  clockMax : Vector (BitVec 8) 512
  /-- The capacities that the far-tier ports accepted at start-up, kept while a link is down (R24). -/
  farCaps  : Vector Nat 4
  deriving DecidableEq, Repr

/-- Memory as agents see it (R269): what is performed at system scope, and the writes on their way. -/
structure Mem where
  /-- Bytes by key, in ascending order, no byte equal to `Config.emptyByte`: device memory by physical address, host
  memory from `Config.hostBase` and the nameless pool from `Config.poolBase` (logs 2 and 4). -/
  cells  : List Host.Cell
  /-- Writes not yet performed at system scope: those performed beyond their hart first, in coherence order, then the
  others in issue order. -/
  flight : List Access
  /-- Poisoned 64-byte lines, by line address; of the bytes on them, each with the instruction that has written it, those
  that are performed at package scope or have been overwritten since (R394). -/
  poison : List Nat
  healing : List (Nat × Nat)
  /-- Owner of each pool slot, by bits [35:10] of its name; 0 is free (R341). -/
  owners : List (Nat × BitVec 16)
  /-- Pool slots that a map error has poisoned (16_tables). -/
  badSlots : List Nat
  /-- The link set of each hart: its 64-byte lines, and whether each is intact (R315). -/
  links  : List (Nat × List (Nat × Bool))
  posted : List Posted
  counters : List CopyCounter
  /-- Reads performed before their instructions (R273). -/
  early  : List EarlyRead
  /-- Numbers given to accesses and to the instructions that issue them. -/
  nextId : Nat
  nextTag : Nat
  deriving DecidableEq, Repr

/-- What the scheduler, the experts and the tokens keep (R355, R400, R424). -/
structure Sched where
  farms    : List Farm
  /-- Launches waiting, in acceptance order; each names its partition (R355). -/
  launches : List Launch
  /-- The next acceptance order, and the next placement order. -/
  accepted : Nat
  placed   : Nat
  /-- Contexts under a hold (R456). -/
  holds    : List (BitVec 16)
  ert      : List (Nat × Option ErtEntry)
  /-- Fetches queued and fetches running, by ERT entry (R418). -/
  fetchQueue : List Nat
  fetching : List Nat
  /-- The tokens in the wait queues of all circlets, in the order in which they were parked (R355, R373). -/
  parked   : List Parked
  /-- Ready tickets in order of readiness, and tickets that hold a pin (R372, R373, R415). -/
  ready    : List (BitVec 16 × Word)
  ticketPins : List (BitVec 16 × Word)
  /-- Receive rings by context; an unlisted one is empty. -/
  rings    : List (Nat × Option Ring)
  /-- The tags last accepted from each source package, newest first (R375). -/
  tags     : List (Nat × List (BitVec 32))
  deriving DecidableEq, Repr

/-- One turn of an agent: a hart fetches and runs one instruction, or one of the machine's own steps happens. -/
inductive Turn where
  | hart (h : HartId)
  | event (i : Instr)
  deriving DecidableEq, Repr

/-- One package. -/
structure State where
  /-- The hart whose instruction `exec` runs. -/
  cur    : HartId
  /-- The turns that come next (the model's own field; log 6). -/
  agenda : List Turn
  harts  : Vector Hart 512
  mem    : Mem
  sched  : Sched
  dev    : Device
  /-- The walk cache of each circlet (R400, R409). -/
  walks  : Vector (List WalkEntry) 32
  /-- The 100 MHz reference (R166). -/
  time   : Word
  /-- A fatal error or a halt has stopped the package (R395, R445). -/
  stopped : Bool
  /-- The model's count of free values taken. -/
  fresh  : Nat
  /-- What the last access by the host or another package returned; for a token that arrived, 1 acknowledged, 2 busy or
  3 refused (R377). -/
  answer : List Byte
  deriving DecidableEq, Repr

/-! ## Reset -/

/-- The CSRs of a hart at farm start (R37, R162). -/
def resetCsrs : Csrs :=
  { vl := 0, vtype := 0x8000000000000000, vstart := 0, vrc := 1, vhwm := 0, vdirty := 0, vdirtyw := 0, vslip := 0,
    vctl := 0, vflags := 0, wthr := 0, fthr := 0x2000, wtemp := 0x3F800000, wctl := 0, wstat := 0, mshape := 0x1010,
    nhint := 0, xlast := 0 }

/-- The trap CSRs at farm start, but for evec (R380). -/
def resetTrap : TrapRegs :=
  { epc := 0, ecause := 0, evalue := 0, evstart := 0, estatus := 0, evec := 0, escratch := 0 }

/-- The counters at farm start (R166, R436, R439). -/
def resetPerf : Perf :=
  { cycle := 0, instret := 0, pcnt := Vector.replicate 16 0, pevt := Vector.replicate 16 0,
    idle := Vector.replicate 24 0 }

/-- The weights of w0, 1.0 everywhere: 1,152 times 0x8000 (R208). -/
def onesW : WBits := BitVec.ofNat 18432 (0x8000 * ((2 ^ 18432 - 1) / (2 ^ 16 - 1)))

/-- A hart on which nothing is placed. The values of R37 stand before the first farm too; for the registers that have no
stated value at package reset that is the model's choice (log 1). -/
def resetHart : Hart :=
  { x := Vector.replicate 32 0, pc := 0, priv := false, csr := resetCsrs, trap := resetTrap, perf := resetPerf,
    farmid := 0, ctxid := 0, v := Vector.replicate 64 0, w := (Vector.replicate 16 0).set 0 onesW,
    latch := Vector.replicate 16 0, stage := [], blocks := 0, facet := [], lastMlatch := none, queue := [],
    epoch := 0, lag := 0, tlb := Vector.replicate 8 [], tlb2 := [], icache := [], run := .free, trigger := .no,
    cause := 0, sends := [], slots := [], pendingTrap := none, wloopPending := false }

/-- A bank at package reset (R422). -/
def resetBank : Bank := { status := 0, addr := 0, syn := 0, count := 0 }

/-- An Ethernet port before anything is written to it (log 3). -/
def resetEth : EthPort :=
  { txbase := 0, rxbase := 0, txsize := 0, rxsize := 0, txtail := 0, txhead := 0, rxtail := 0, rxhead := 0, ctl := 0,
    status := 0, live := none, waiting := [] }

/-- An island at package reset (R450); no item has been completed. -/
def resetIsland : Island := { stn := 0, stres := 0, act := 47, req := 0, testing := false, tested := 0 }

/-- The device register block at package reset (R441, R448, R450, R453 to R458; log 3 where no value is stated). No stack
has failed, and no limit lies below the highest clock (log 35). -/
def resetDevice : Device :=
  { boot := 0, starts := 0, powerLimit := 0, telemetry := 0, interval := 0, avail := 0, measure := Vector.replicate 8 0,
    mailbox := 0, nonce := none, nextNonce := none, pool := 0, sweep := 0, arena := 0, refusal := 0, launch := 0,
    switch := 0, pkg := 0, parts := Vector.replicate 512 1, scaleUp := Vector.replicate 24 0x4000000000000000,
    farPorts := Vector.replicate 4 0x4000000000000000, hostLink := 0, eth := Vector.replicate 8 resetEth,
    banks := Vector.replicate 64 resetBank, contexts := [], islands := Vector.replicate 512 resetIsland, interleave := 0,
    failedStacks := 0, clockMax := Vector.replicate 512 94, farCaps := Vector.replicate 4 0 }

/-- Memory with nothing listed (log 2) and nothing outstanding. -/
def resetMem : Mem :=
  { cells := [], flight := [], poison := [], healing := [], owners := [], badSlots := [], links := [], posted := [],
    counters := [], early := [], nextId := 0, nextTag := 0 }

/-- Every queue and table empty (R355, R400). -/
def resetSched : Sched :=
  { farms := [], launches := [], accepted := 0, placed := 0, holds := [], ert := [], fetchQueue := [], fetching := [],
    parked := [], ready := [], ticketPins := [], rings := [], tags := [] }

/-- The package right after power-on, before its first start (R441, R442). -/
def State.reset : State :=
  { cur := 0, agenda := [], harts := Vector.replicate 512 resetHart, mem := resetMem, sched := resetSched,
    dev := resetDevice, walks := Vector.replicate 32 [], time := 0, stopped := false, fresh := 0, answer := [] }

end Machine

end Sys2Proof
end

