-- ==== Sys2Proof/Machine/Bits.lean ====
section
/-! DEFINITION. Bit fields, signed values, and the sorted tables that hold sparse data: a table lists its keys in
ascending order and no entry equal to what an unlisted key reads as, so equal contents are equal lists. -/

namespace Sys2Proof

namespace Machine

/-! ## Tables -/

/-- The value at a key, d where the key is not listed. -/
def tget {α : Type} (d : α) : List (Nat × α) → Nat → α
  | [], _ => d
  | (k', v) :: t, k => if k = k' then v else if k < k' then d else tget d t k

/-- The table with a value at a key; writing d removes the entry. -/
def tset {α : Type} [DecidableEq α] (d : α) : List (Nat × α) → Nat → α → List (Nat × α)
  | [], k, v => if v = d then [] else [(k, v)]
  | (k', v') :: t, k, v =>
    if k < k' then (if v = d then (k', v') :: t else (k, v) :: (k', v') :: t)
    else if k = k' then (if v = d then t else (k, v) :: t)
    else (k', v') :: tset d t k v

/-- Keys ascend and no entry is the default. -/
def tableWf {α : Type} [DecidableEq α] (d : α) : List (Nat × α) → Bool
  | [] => true
  | (k, v) :: t => v ≠ d && t.all (fun p => k < p.1) && tableWf d t

/-- The values at n keys from a key on. -/
def tgets {α : Type} (d : α) (t : List (Nat × α)) (k : Nat) : Nat → List α
  | 0 => []
  | n + 1 => tget d t k :: tgets d t (k + 1) n

/-- The table with values written from a key on. -/
def tsets {α : Type} [DecidableEq α] (d : α) (t : List (Nat × α)) (k : Nat) : List α → List (Nat × α)
  | [] => t
  | v :: vs => tsets d (tset d t k v) (k + 1) vs

/-! ## Ascending sets of numbers -/

/-- The set with a member added. -/
def sinsert : List Nat → Nat → List Nat
  | [], k => [k]
  | k' :: t, k => if k < k' then k :: k' :: t else if k = k' then k' :: t else k' :: sinsert t k

/-- The least member of a list of numbers. -/
def minOf : List Nat → Option Nat
  | [] => none
  | a :: as => match minOf as with
    | none => some a
    | some b => some (if a ≤ b then a else b)

/-- A list without the element at a position. -/
def dropAt {α : Type} : List α → Nat → List α
  | [], _ => []
  | _ :: as, 0 => as
  | a :: as, n + 1 => a :: dropAt as n

/-- A list with the element at a position changed. -/
def modAt {α : Type} : List α → Nat → (α → α) → List α
  | [], _, _ => []
  | a :: as, 0, f => f a :: as
  | a :: as, n + 1, f => a :: modAt as n f

/-- The first position at which a test holds. -/
def findPos {α : Type} (p : α → Bool) : List α → Option Nat
  | [] => none
  | a :: as => if p a then some 0 else (findPos p as).map (· + 1)

/-! ## Bit fields -/

/-- Bits [lo + len - 1 : lo] as a number. -/
def getBits {n : Nat} (v : BitVec n) (lo len : Nat) : Nat := v.toNat >>> lo % 2 ^ len

/-- A bit vector with bits [lo + len - 1 : lo] replaced. -/
def putBits {n : Nat} (v : BitVec n) (lo len x : Nat) : BitVec n :=
  (v &&& ~~~(BitVec.ofNat n (2 ^ len - 1) <<< lo)) ||| (BitVec.ofNat n (x % 2 ^ len) <<< lo)

/-- One bit. -/
def bit {n : Nat} (v : BitVec n) (i : Nat) : Bool := v.getLsbD i

/-- A number of w bits read as a two's complement number. -/
def toSigned (w x : Nat) : Int := if x < 2 ^ (w - 1) then (x : Int) else (x : Int) - 2 ^ w

/-- An integer modulo 2^w. -/
def wrap (w : Nat) (i : Int) : Nat := (i % (2 ^ w : Int)).toNat

/-- A number rounded up to a whole quotient. -/
def ceilDiv (a b : Nat) : Nat := (a + b - 1) / b

/-- 1 for true. -/
def ofBool (b : Bool) : Nat := if b then 1 else 0

/-- A 64-bit word of a number. -/
def word (n : Nat) : Word := BitVec.ofNat 64 n

/-- The n low bytes of a bit vector from a byte position, least significant first. -/
def vecBytes {n : Nat} (v : BitVec n) (pos len : Nat) : List Byte := leBytes len (getBits v (8 * pos) (8 * len))

/-- A bit vector with bytes written from a byte position. -/
def putBytes {n : Nat} (v : BitVec n) (pos : Nat) (bs : List Byte) : BitVec n :=
  putBits v (8 * pos) (8 * bs.length) (leValue bs)

end Machine

end Sys2Proof
end

