-- ==== Sys2Proof/Machine/Operands.lean ====
section
/-! DEFINITION. Element types, register groups, weight groups and the operand forms (R93, R126, R127, R143, R148, R182,
R208 to R210), as functions of the register files. -/

namespace Sys2Proof

namespace Machine

/-! ## Element types (R143), by code -/

/-- The width in bits of an et code. -/
def etWidth (et : Nat) : Nat :=
  match et with
  | 0 | 4 | 12 | 13 | 20 => 8
  | 1 | 5 | 8 | 9 | 21 => 16
  | 2 | 6 | 10 => 32
  | 3 | 7 | 11 => 64
  | 14 | 15 | 18 => 4
  | 16 | 17 | 19 => 6
  | _ => 8

/-- Signed integer types. -/
def etSigned (et : Nat) : Bool := et < 4 || et == 14 || et == 16

/-- Integer types, class I with those of eight bits or wider and class S with the packed ones (R126). -/
def etInt (et : Nat) : Bool := et < 8 || (14 ≤ et && et ≤ 17)

/-- Integer types of eight bits or wider. -/
def etWide (et : Nat) : Bool := et < 8

/-- Packed integer types of four and six bits. -/
def etPacked (et : Nat) : Bool := 14 ≤ et && et ≤ 17

/-- f16, bf16, f32 and f64. -/
def etFloat (et : Nat) : Bool := 8 ≤ et && et ≤ 11

/-- f8e4 and f8e5. -/
def etF8 (et : Nat) : Bool := et == 12 || et == 13

/-- The block types d4, d6 and d8. -/
def etBlock (et : Nat) : Bool := 18 ≤ et && et ≤ 20

/-- pw16. -/
def etPw (et : Nat) : Bool := et == 21

/-- The codes that the et table assigns. -/
def etLegal (et : Nat) : Bool := et < 22

/-- The index types of R303. -/
def etIndex (et : Nat) : Bool := et == 1 || et == 2 || et == 3 || et == 5 || et == 6 || et == 7

/-- The bytes of one element of eight bits or wider. -/
def etBytes (et : Nat) : Nat := etWidth et / 8

/-! ## vtype (R183) -/

/-- The element type of a vtype. -/
def vtEt (vt : Word) : Nat := getBits vt 0 5

/-- The registers per group. -/
def vtGrp (vt : Word) : Nat := 2 ^ getBits vt 5 2

/-- The block length. -/
def vtBl (vt : Word) : Nat := if bit vt 7 then 24 else 32

/-- The tail policy: agnostic. -/
def vtTa (vt : Word) : Bool := bit vt 8

/-- The alternate type. -/
def vtEt2 (vt : Word) : Nat := getBits vt 9 5

/-- The configuration is illegal. -/
def vtIll (vt : Word) : Bool := bit vt 63

/-- The vtype that vill stands for. -/
def vill : Word := 0x8000000000000000

/-- What a write of a value to vtype stores (R183, R188). -/
def vtypeOf (v : Word) : Word :=
  if bit v 63 || getBits v 14 49 != 0 || !etLegal (vtEt v) || !etLegal (vtEt2 v) then vill else v

/-- The bytes of a frame of a block type (R148). -/
def frameBytes (et bl : Nat) : Nat := 2 + bl * etWidth et / 8

/-- VLMAX of a type over grp registers (R182). -/
def vlmaxOf (et grp bl : Nat) : Nat :=
  if etBlock et then bl * (1152 * grp / frameBytes et bl) else 9216 * grp / etWidth et

/-- VLMAX of a vtype. -/
def vlmax (vt : Word) : Nat := vlmaxOf (vtEt vt) (vtGrp vt) (vtBl vt)

/-- The grain of a grant: whole 6-bit groups, 4-bit sextets and blocks (R188). -/
def vlGrain (vt : Word) : Nat :=
  match etWidth (vtEt vt), etBlock (vtEt vt) with
  | _, true => vtBl vt
  | 6, _ => 4
  | 4, _ => 6
  | _, _ => 1

/-- The grant of setvl for an AVL under a legal vtype (R188), and of a write of vl (R164). -/
def vlGrant (vt : Word) (avl : Nat) : Nat :=
  if vtIll vt then 0
  else if avl = 0 then 0
  else if avl < vlGrain vt then vlGrain vt
  else min avl (vlmax vt) / vlGrain vt * vlGrain vt

/-- The registers of a weight group under a type and group size; none when eight are not enough (R209). -/
def weightRegs (et grp bl : Nat) : Option Nat :=
  let n := vlmaxOf et grp bl
  if n ≤ 1152 then some 1 else if n ≤ 2304 then some 2 else if n ≤ 4608 then some 4
  else if n ≤ 9216 then some 8 else none

/-- The registers of an index group: the smallest of 1, 2, 4 and 8 that holds n elements of et2 (R303). -/
def indexRegs (n et2 : Nat) : Option Nat :=
  let bits := n * etWidth et2
  if bits ≤ 9216 then some 1 else if bits ≤ 18432 then some 2 else if bits ≤ 36864 then some 4
  else if bits ≤ 73728 then some 8 else none

/-! ## Register files -/

/-- Vector register n. -/
def vregAt (v : Vector VBits 64) (n : Nat) : VBits := v[n % 64]'(Nat.mod_lt _ (by decide))

/-- Weight register n. -/
def wregAt (w : Vector WBits 16) (n : Nat) : WBits := w[n % 16]'(Nat.mod_lt _ (by decide))

/-- len bits from a bit position of the register group that begins at a register; a field may straddle two registers. -/
def groupGet (v : Vector VBits 64) (base pos len : Nat) : Nat :=
  let r := base + pos / 9216
  let o := pos % 9216
  if o + len ≤ 9216 then getBits (vregAt v r) o len
  else getBits (vregAt v r) o (9216 - o) + getBits (vregAt v (r + 1)) 0 (o + len - 9216) * 2 ^ (9216 - o)

/-- The register file with len bits written at a bit position of a group. -/
def groupPut (v : Vector VBits 64) (base pos len x : Nat) : Vector VBits 64 :=
  let r := (base + pos / 9216) % 64
  let o := pos % 9216
  have h : r < 64 := Nat.mod_lt _ (by decide)
  if o + len ≤ 9216 then v.set r (putBits v[r] o len x)
  else
    let v := v.set r (putBits v[r] o (9216 - o) x)
    let r' := (r + 1) % 64
    have h' : r' < 64 := Nat.mod_lt _ (by decide)
    v.set r' (putBits v[r'] 0 (o + len - 9216) (x / 2 ^ (9216 - o)))

/-- The bit position of element i of a type in its group (R127, R148, R182). -/
def elemPos (et bl i : Nat) : Nat :=
  if etBlock et then
    let f := i / bl
    let k := i % bl
    f * frameBytes et bl * 8 + 16 + k * etWidth et
  else i * etWidth et

/-- Element i of a group, as its bit pattern. -/
def elemGet (v : Vector VBits 64) (et bl base i : Nat) : Nat := groupGet v base (elemPos et bl i) (etWidth et)

/-- Weight j of the weight group that begins at a register: 1.0 in w0, and a code above 0x8000 reads as 0x8000
(R140, R208, R210). -/
def weightGet (w : Vector WBits 16) (base j : Nat) : Nat :=
  if base = 0 then 0x8000 else min 0x8000 (getBits (wregAt w (base + j / 1152)) (16 * (j % 1152)) 16)

/-- The weight file with code c stored as weight j of a group; w0 discards writes (R210). -/
def weightPut (w : Vector WBits 16) (base j c : Nat) : Vector WBits 16 :=
  if base = 0 then w
  else
    let r := (base + j / 1152) % 16
    have h : r < 16 := Nat.mod_lt _ (by decide)
    w.set r (putBits w[r] (16 * (j % 1152)) 16 c)

/-! ## Scalar operands of a 64-bit instruction -/

/-- A scalar operand as the bit pattern of an element: the low bits of the register (R93). -/
def scalarElem (et : Nat) (x : Word) : Nat := x.toNat % 2 ^ etWidth et

/-- imm10 sign-extended to the element type (R93); of a type narrower than ten bits, for which the spec says no more, its low
bits (log 48, DESIGN CHOICE). -/
def immElem (et : Nat) (imm : BitVec 10) : Nat := wrap (etWidth et) imm.toInt

/-- imm10 as a signed byte offset (R302). -/
def immOffset (imm : BitVec 10) : Int := imm.toInt

/-! ## Checks on operands (R97) -/

/-- A group of n registers at a base: aligned to its size and within v63, over rows rows (R32, R97, R182). -/
def groupOk (base n rows : Nat) : Bool := base % n == 0 && base + n * rows ≤ 64

/-- Two ranges of registers share a register (R190). -/
def overlaps (a n b m : Nat) : Bool := a < b + m && b < a + n

/-- A weight group's base is a multiple of its size and its last register is at most w15 (R210). -/
def weightOk (base n : Nat) : Bool := base % n == 0 && base + n ≤ 16

end Machine

end Sys2Proof
end

