-- ==== Sys2Proof/Machine/Flags.lean ====
section
/-! DEFINITION. The sticky flags of vflags (R139, R183), as sets of bits that an operation returns. -/

namespace Sys2Proof

namespace Machine

/-- A set of flags, in the bit order of vflags. -/
abbrev FlagSet := BitVec 12

/-- Invalid operation. -/
def flagNV : FlagSet := 0x001
/-- Divide by zero. -/
def flagDZ : FlagSet := 0x002
/-- Overflow. -/
def flagOF : FlagSet := 0x004
/-- Underflow. -/
def flagUF : FlagSet := 0x008
/-- Inexact. -/
def flagNX : FlagSet := 0x010
/-- Saturation. -/
def flagSAT : FlagSet := 0x020
/-- Scale overflow. -/
def flagOVF : FlagSet := 0x040
/-- Group anomaly. -/
def flagGRP : FlagSet := 0x080
/-- Zero gate sum. -/
def flagZSUM : FlagSet := 0x100
/-- Index out of range. -/
def flagOOR : FlagSet := 0x200
/-- Dampened fault. -/
def flagDF : FlagSet := 0x400
/-- Pool empty. -/
def flagNPOOL : FlagSet := 0x800

/-- A flag when a condition holds. -/
def flagIf (c : Bool) (f : FlagSet) : FlagSet := if c then f else 0

/-- A sticky flag word with flags added (R139). -/
def raiseFlags (vflags : Word) (f : FlagSet) : Word := vflags ||| f.setWidth 64

/-! ## Flags of integer arithmetic (R128, R129) -/

/-- The least value of an integer type. -/
def intMin (et : Nat) : Int := if etSigned et then -(2 ^ (etWidth et - 1) : Int) else 0

/-- The greatest value of an integer type. -/
def intMax (et : Nat) : Int := if etSigned et then (2 ^ (etWidth et - 1) : Int) - 1 else (2 ^ etWidth et : Int) - 1

/-- An element read as an integer of its type. -/
def intVal (et x : Nat) : Int := if etSigned et then toSigned (etWidth et) x else x

/-- The sat helper of R7: the value clamped to the type, and SAT when clamping changes it. -/
def saturate (et : Nat) (v : Int) : Nat × FlagSet :=
  if v < intMin et then (wrap (etWidth et) (intMin et), flagSAT)
  else if intMax et < v then (wrap (etWidth et) (intMax et), flagSAT)
  else (wrap (etWidth et) v, 0)

end Machine

end Sys2Proof
end

