-- ==== Sys2Proof/Machine/Float.lean ====
section
/-! DEFINITION. Floating-point arithmetic (R130 to R138) and PW16 (R140, R141) on bit patterns: operands are unpacked to
exact values, the exact result is formed as a rational number, and it is rounded once. -/

namespace Sys2Proof

namespace Machine

/-- A floating-point format (R130): exponent bits, fraction bits, and whether it has infinities and signalling NaNs. -/
structure Fmt where
  ebits : Nat
  mbits : Nat
  full  : Bool
  deriving DecidableEq, Repr

/-- The format of a floating et code (R130, R143). -/
def fmtOf (et : Nat) : Fmt :=
  match et with
  | 8 => ⟨5, 10, true⟩
  | 9 => ⟨8, 7, true⟩
  | 10 => ⟨8, 23, true⟩
  | 11 => ⟨11, 52, true⟩
  | 12 => ⟨4, 3, false⟩
  | _ => ⟨5, 2, true⟩

/-- The exponent bias. -/
def fmtBias (f : Fmt) : Nat := 2 ^ (f.ebits - 1) - 1

/-- An exact value: NaN (signalling or not), an infinity, or ± n / d with d positive. -/
inductive FVal where
  | nan (signalling : Bool)
  | inf (neg : Bool)
  | num (neg : Bool) (n d : Nat)
  deriving DecidableEq, Repr

/-- A value n × 2^e as a quotient. -/
def scaled (neg : Bool) (n : Nat) (e : Int) : FVal :=
  if 0 ≤ e then .num neg (n * 2 ^ e.toNat) 1 else .num neg n (2 ^ (-e).toNat)

/-- A value is a NaN. -/
def FVal.isNan : FVal → Bool
  | .nan _ => true
  | _ => false

/-- NV when a value is a signalling NaN (R133). -/
def FVal.nvFlag : FVal → FlagSet
  | .nan true => flagNV
  | _ => 0

/-- A value is a zero. -/
def FVal.isZero : FVal → Bool
  | .num _ n _ => n == 0
  | _ => false

/-- A value is an infinity. -/
def FVal.isInf : FVal → Bool
  | .inf _ => true
  | _ => false

/-- The sign of a value. -/
def FVal.neg? : FVal → Bool
  | .nan _ => false
  | .inf s => s
  | .num s _ _ => s

/-- A value with its sign changed. -/
def FVal.negate : FVal → FVal
  | .nan q => .nan q
  | .inf s => .inf (!s)
  | .num s n d => .num (!s) n d

/-- A value with a given sign. -/
def FVal.withSign (s : Bool) : FVal → FVal
  | .nan q => .nan q
  | .inf _ => .inf s
  | .num _ n d => .num s n d

/-- The exact value of a code; with ftz a subnormal reads as a zero of its sign (R130, R132, R134). -/
def unpack (f : Fmt) (ftz : Bool) (c : Nat) : FVal :=
  let m := c % 2 ^ f.mbits
  let e := c / 2 ^ f.mbits % 2 ^ f.ebits
  let s := c / 2 ^ (f.mbits + f.ebits) % 2 == 1
  if e = 2 ^ f.ebits - 1 && f.full then
    if m = 0 then .inf s else .nan (m < 2 ^ (f.mbits - 1))
  else if e = 2 ^ f.ebits - 1 && m = 2 ^ f.mbits - 1 then .nan false
  else if e = 0 then
    if ftz then .num s 0 1 else scaled s m (1 - (fmtBias f : Int) - f.mbits)
  else scaled s (2 ^ f.mbits + m) ((e : Int) - fmtBias f - f.mbits)

/-- A code from its parts. -/
def pack (f : Fmt) (s : Bool) (e m : Nat) : Nat := ofBool s * 2 ^ (f.mbits + f.ebits) + e * 2 ^ f.mbits + m

/-- The canonical NaN (R133). -/
def canonNan (f : Fmt) : Nat :=
  if f.full then pack f false (2 ^ f.ebits - 1) (2 ^ (f.mbits - 1)) else pack f false (2 ^ f.ebits - 1) (2 ^ f.mbits - 1)

/-- The largest finite value of a sign. -/
def maxFinite (f : Fmt) (s : Bool) : Nat :=
  if f.full then pack f s (2 ^ f.ebits - 2) (2 ^ f.mbits - 1) else pack f s (2 ^ f.ebits - 1) (2 ^ f.mbits - 2)

/-- An infinite result: ±448 with OF in f8e4 (R132). -/
def infinite (f : Fmt) (s : Bool) : Nat × FlagSet :=
  if f.full then (pack f s (2 ^ f.ebits - 1) 0, 0) else (maxFinite f s, flagOF)

/-! ## Rounding (R134, R135) -/

/-- n / d rounded to a whole number in a mode, and whether it is inexact; the sign matters in modes 3 and 4. -/
def roundInt (mode : Nat) (neg : Bool) (n d : Nat) : Nat × Bool :=
  let k := n / d
  let r := n % d
  if r = 0 then (k, false)
  else
    let up := match mode with
      | 2 => false
      | 3 => neg
      | 4 => !neg
      | 5 => d ≤ 2 * r
      | _ => d < 2 * r || (2 * r = d && k % 2 = 1)
    (if up then k + 1 else k, true)

/-- n / d divided by 2^q, as a quotient. -/
def scaleBy (n d : Nat) (q : Int) : Nat × Nat :=
  if 0 ≤ q then (n, d * 2 ^ q.toNat) else (n * 2 ^ (-q).toNat, d)

/-- The exponent e with 2^e ≤ n / d < 2^(e + 1), for positive n. -/
def floorLog (n d : Nat) : Int :=
  let l : Int := (Nat.log2 n : Int) - Nat.log2 d
  let (a, b) := scaleBy n d l
  if b ≤ a then l else l - 1

/-- ± n / d rounded to a format (R131, R134, R135). -/
def roundTo (f : Fmt) (mode : Nat) (ftz : Bool) (neg : Bool) (n d : Nat) : Nat × FlagSet :=
  if n = 0 then (pack f neg 0 0, 0)
  else
    let emin : Int := 1 - (fmtBias f : Int)
    let e := floorLog n d
    -- rounded as though the exponent had no bounds
    let q := e - f.mbits
    let (a, b) := scaleBy n d q
    let (k, inx) := roundInt mode neg a b
    let eu := if k = 2 ^ (f.mbits + 1) then e + 1 else e
    let ovf := if f.full then decide ((fmtBias f : Int) < eu)
      else decide ((fmtBias f + 1 : Int) < eu) || (eu = fmtBias f + 1 && k = 2 ^ (f.mbits + 1) - 1)
    if ovf then
      let r := if !f.full then maxFinite f neg
        else if mode = 2 || (mode = 3 && !neg) || (mode = 4 && neg) then maxFinite f neg
        else (infinite f neg).1
      (r, flagOF ||| flagNX)
    else
      let tiny := decide (eu < emin)
      let q' := max q (emin - f.mbits)
      let (a, b) := scaleBy n d q'
      let (k, inx) := if q' = q then (k, inx) else roundInt mode neg a b
      if k < 2 ^ f.mbits then
        if ftz then (pack f neg 0 0, flagUF ||| flagNX)
        else (pack f neg 0 k, flagIf inx flagNX ||| flagIf (inx && tiny) flagUF)
      else
        let (k, q') := if k = 2 ^ (f.mbits + 1) then (2 ^ f.mbits, q' + 1) else (k, q')
        (pack f neg (q' + f.mbits + fmtBias f).toNat (k - 2 ^ f.mbits),
          flagIf inx flagNX ||| flagIf (inx && tiny) flagUF)

/-- An exact value delivered in a format, with the flags of rounding (R131 to R135). -/
def deliver (f : Fmt) (mode : Nat) (ftz : Bool) : FVal → Nat × FlagSet
  | .nan _ => (canonNan f, 0)
  | .inf s => infinite f s
  | .num s n d => roundTo f mode ftz s n d

/-- The same with the flags of the operation added. -/
def deliverWith (f : Fmt) (mode : Nat) (ftz : Bool) (r : FVal × FlagSet) : Nat × FlagSet :=
  let (c, fl) := deliver f mode ftz r.1
  (c, fl ||| r.2)

/-! ## Exact operations (R131, R133) -/

/-- The NaN result of operands, when one of them is a NaN. -/
def nanOf (a b : FVal) : FVal × FlagSet := (.nan false, a.nvFlag ||| b.nvFlag)

/-- The sign of an exact zero sum of values of opposite signs: minus only when rounding down (IEEE 754-2019). -/
def zeroSign (mode : Nat) : Bool := mode == 3

/-- ± na / da plus ± nb / db; the sign of a zero sum as IEEE 754-2019 gives. -/
def addNum (mode : Nat) (sa : Bool) (na da : Nat) (sb : Bool) (nb db : Nat) : FVal :=
  let a := na * db
  let b := nb * da
  if sa = sb then .num sa (a + b) (da * db)
  else if a = b then .num (zeroSign mode) 0 1
  else if b < a then .num sa (a - b) (da * db)
  else .num sb (b - a) (da * db)

/-- a + b. -/
def exactAdd (mode : Nat) (a b : FVal) : FVal × FlagSet :=
  match a, b with
  | .nan _, _ => nanOf a b
  | _, .nan _ => nanOf a b
  | .inf s, .inf t => if s = t then (.inf s, 0) else (.nan false, flagNV)
  | .inf s, _ => (.inf s, 0)
  | _, .inf t => (.inf t, 0)
  | .num sa na da, .num sb nb db => (addNum mode sa na da sb nb db, 0)

/-- a × b (R131). -/
def exactMul (a b : FVal) : FVal × FlagSet :=
  match a, b with
  | .nan _, _ => nanOf a b
  | _, .nan _ => nanOf a b
  | .inf s, .inf t => (.inf (s != t), 0)
  | .inf s, .num t n _ => if n = 0 then (.nan false, flagNV) else (.inf (s != t), 0)
  | .num s n _, .inf t => if n = 0 then (.nan false, flagNV) else (.inf (s != t), 0)
  | .num s n d, .num t n' d' => (.num (s != t) (n * n') (d * d'), 0)

/-- a × b + c: the product of a zero and an infinity is invalid whatever c is (R131). -/
def exactFma (mode : Nat) (a b c : FVal) : FVal × FlagSet :=
  let zeroInf := (a.isZero && b.isInf) || (a.isInf && b.isZero)
  if zeroInf then (.nan false, flagNV)
  else
    let (p, f) := exactMul a b
    let (r, g) := exactAdd mode p c
    if p.isNan || c.isNan then (.nan false, f ||| c.nvFlag) else (r, f ||| g)

/-- a ÷ b. -/
def exactDiv (a b : FVal) : FVal × FlagSet :=
  match a, b with
  | .nan _, _ => nanOf a b
  | _, .nan _ => nanOf a b
  | .inf _, .inf _ => (.nan false, flagNV)
  | .inf s, .num t _ _ => (.inf (s != t), 0)
  | .num s _ _, .inf t => (.num (s != t) 0 1, 0)
  | .num s n d, .num t n' d' =>
    if n' = 0 then (if n = 0 then (.nan false, flagNV) else (.inf (s != t), flagDZ))
    else (.num (s != t) (n * d') (d * n'), 0)

/-- Whether ± na / da < ± nb / db, with -0 below +0 when `zeros` holds. -/
def numLt (zeros : Bool) (sa : Bool) (na da : Nat) (sb : Bool) (nb db : Nat) : Bool :=
  if na = 0 && nb = 0 then zeros && sa && !sb
  else if na = 0 then !sb
  else if nb = 0 then sa
  else match sa, sb with
    | true, false => true
    | false, true => false
    | false, false => na * db < nb * da
    | true, true => nb * da < na * db

/-- a < b for values that are not NaNs. -/
def valLt (zeros : Bool) (a b : FVal) : Bool :=
  match a, b with
  | .inf s, .inf t => s && !t
  | .inf s, _ => s
  | _, .inf t => !t
  | .num sa na da, .num sb nb db => numLt zeros sa na da sb nb db
  | _, _ => false

/-- a = b for values that are not NaNs; zeros are equal. -/
def valEq (a b : FVal) : Bool := !valLt false a b && !valLt false b a

/-- The minimum or maximum of R137. -/
def exactMinMax (isMax : Bool) (a b : FVal) : FVal × FlagSet :=
  if a.nvFlag != 0 || b.nvFlag != 0 then (.nan false, flagNV)
  else match a.isNan, b.isNan with
    | true, true => (.nan false, 0)
    | true, false => (b, 0)
    | false, true => (a, 0)
    | false, false => (if valLt true a b = isMax then b else a, 0)

/-! ## Roots, powers and logarithms (R138) -/

/-- The whole square root by one bit at a time from 2^k down. -/
def isqrtFrom : Nat → Nat → Nat → Nat
  | 0, r, n => if (r + 1) * (r + 1) ≤ n then r + 1 else r
  | k + 1, r, n =>
    let r' := r + 2 ^ (k + 1)
    isqrtFrom k (if r' * r' ≤ n then r' else r) n

/-- The whole square root. -/
def isqrt (n : Nat) : Nat := isqrtFrom (Nat.log2 n / 2 + 1) 0 n

/-- The square root of n / d as a value that rounds as the root does: the exact quotient when n × d is a square, and
otherwise a value that lies with the root strictly between two neighbours of a grid finer than any format's. -/
def sqrtVal (n d : Nat) : FVal :=
  -- sqrt(n / d) = sqrt(n × d) / d
  let s := 2 ^ 160
  let big := n * d * s * s
  let r := isqrt big
  if r * r = big then .num false r (d * s) else .num false (2 * r + 1) (2 * d * s)

/-- vfsqrt. -/
def exactSqrt : FVal → FVal × FlagSet
  | .nan q => (.nan false, if q then flagNV else 0)
  | .inf s => if s then (.nan false, flagNV) else (.inf false, 0)
  | .num s n d =>
    if n = 0 then (.num s 0 1, 0) else if s then (.nan false, flagNV) else (sqrtVal n d, 0)

/-- vfrsqrt: the root of d / n. -/
def exactRsqrt : FVal → FVal × FlagSet
  | .nan q => (.nan false, if q then flagNV else 0)
  | .inf s => if s then (.nan false, flagNV) else (.num false 0 1, 0)
  | .num s n d =>
    if n = 0 then (.inf s, flagDZ) else if s then (.nan false, flagNV) else (sqrtVal d n, 0)

/-- The fraction bits of the fixed-point functions below (log 13). -/
def fixBits : Nat := 320

/-- One in that fixed point. -/
def fixOne : Nat := 2 ^ fixBits

/-- The sum of z^(2k+1) / (2k+1) from a power p = z^(2k+1) on, over a number of terms. -/
def atanhSum (zz : Nat) : Nat → Nat → Nat → Nat
  | 0, _, _ => 0
  | t + 1, p, k => p / (2 * k + 1) + atanhSum zz t (p * zz / fixOne) (k + 1)

/-- The natural logarithm of a / b for 1 ≤ a / b ≤ 2, as twice atanh((a - b) / (a + b)). -/
def lnFix (a b : Nat) : Nat :=
  let z := (a - b) * fixOne / (a + b)
  2 * atanhSum (z * z / fixOne) 110 z 0

/-- The natural logarithm of 2. -/
def ln2Fix : Nat := lnFix 2 1

/-- The sum of y^k / k! from a term on, over a number of terms. -/
def expSum (y : Nat) : Nat → Nat → Nat → Nat
  | 0, _, _ => 0
  | t + 1, term, k => term + expSum y t (term * y / fixOne / (k + 1)) (k + 1)

/-- e^y for 0 ≤ y < 1. -/
def expFix (y : Nat) : Nat := expSum y 90 fixOne 0

/-- 2^x for a value that is not a whole number lies strictly between the grid points of its fixed-point floor. -/
def exp2Val (neg : Bool) (n d : Nat) : FVal :=
  if 2 ^ 13 * d ≤ n then (if neg then .num false 3 (2 ^ 8194) else .num false (3 * 2 ^ 8192) 2)
  else if n % d = 0 then (if neg then .num false 1 (2 ^ (n / d)) else .num false (2 ^ (n / d)) 1)
  else
    let i := n / d
    -- the fraction of the value, counted up from the whole number below it
    let r := if neg then d - n % d else n % d
    let f := r * fixOne / d
    let e := expFix (f * ln2Fix / fixOne)
    if neg then .num false (2 * e + 1) (2 * fixOne * 2 ^ (i + 1)) else .num false ((2 * e + 1) * 2 ^ i) (2 * fixOne)

/-- vfexp2. -/
def exactExp2 : FVal → FVal × FlagSet
  | .nan q => (.nan false, if q then flagNV else 0)
  | .inf s => (if s then .num false 0 1 else .inf false, 0)
  | .num s n d => (if n = 0 then .num false 1 1 else exp2Val s n d, 0)

/-- The base-2 logarithm of n / d: a whole number for a power of two. -/
def log2Val (n d : Nat) : FVal :=
  let e := floorLog n d
  let (a, b) := scaleBy n d e
  if a = b then .num (decide (e < 0)) e.natAbs 1
  else
    let l := lnFix a b * fixOne / ln2Fix
    if 0 ≤ e then .num false (2 * (e.toNat * fixOne + l) + 1) (2 * fixOne)
    else .num true (2 * (e.natAbs * fixOne - l) - 1) (2 * fixOne)

/-- vflog2. -/
def exactLog2 : FVal → FVal × FlagSet
  | .nan q => (.nan false, if q then flagNV else 0)
  | .inf s => if s then (.nan false, flagNV) else (.inf false, 0)
  | .num s n d =>
    if n = 0 then (.inf true, flagDZ) else if s then (.nan false, flagNV) else (log2Val n d, 0)

/-! ## Conversions (R136) -/

/-- A float converted to another format. -/
def floatToFloat (src dst : Fmt) (mode : Nat) (ftz : Bool) (c : Nat) : Nat × FlagSet :=
  let v := unpack src ftz c
  deliverWith dst mode ftz (v, v.nvFlag)

/-- An integer converted to a format. -/
def intToFloat (dst : Fmt) (mode : Nat) (ftz : Bool) (i : Int) : Nat × FlagSet :=
  roundTo dst mode ftz (i < 0) i.natAbs 1

/-- A float converted to an integer type: rounded, then clamped; a NaN gives 0 (R136). -/
def floatToInt (src : Fmt) (et : Nat) (mode : Nat) (ftz : Bool) (c : Nat) : Nat × FlagSet :=
  match unpack src ftz c with
  | .nan _ => (0, flagNV)
  | .inf s => (wrap (etWidth et) (if s then intMin et else intMax et), flagNV)
  | .num s n d =>
    let (k, inx) := roundInt mode s n d
    let v : Int := if s then -(k : Int) else k
    if v < intMin et then (wrap (etWidth et) (intMin et), flagNV)
    else if intMax et < v then (wrap (etWidth et) (intMax et), flagNV)
    else (wrap (etWidth et) v, flagIf inx flagNX)

/-! ## PW16 (R140, R141) -/

/-- The pw16 helper of R7 on ± n / d. -/
def pw16 (neg : Bool) (n d : Nat) : Nat :=
  if neg then 0 else min 0x8000 (roundInt 1 false (n * 0x8000) d).1

/-- A float converted to PW16; no flag (R141). -/
def floatToPw (src : Fmt) (ftz : Bool) (c : Nat) : Nat :=
  match unpack src ftz c with
  | .nan _ => 0
  | .inf s => if s then 0 else 0x8000
  | .num s n d => pw16 s n d

/-- A PW16 code converted to a float, to nearest, with gradual underflow and no flag (R141). -/
def pwToFloat (dst : Fmt) (c : Nat) : Nat := (roundTo dst 1 false false (min c 0x8000) 0x8000).1

/-! ## The sigmoid of the soft compares -/

/-- The logistic function of ± n / d as a PW16 code. For n positive it is irrational, and its fixed-point value lies on
the same side of every rounding boundary. -/
def sigmoidPw (neg : Bool) (n d : Nat) : Nat :=
  if n = 0 then 0x4000
  else if 64 * d ≤ n then (if neg then 0 else 0x8000)
  else
    -- e^-y = 2^-(y / ln 2)
    let t := n * fixOne / d * fixOne / ln2Fix
    let i := t / fixOne
    let e := expFix (t % fixOne * ln2Fix / fixOne)
    -- q = e^y; sigmoid(y) = q / (1 + q), sigmoid(-y) = 1 / (1 + q)
    let q := e * 2 ^ i
    if neg then pw16 false fixOne (fixOne + q) else pw16 false q (fixOne + q)

end Machine

end Sys2Proof
end

