-- ==== Sys2Proof/Machine/Regs.lean ====
section
/-! DEFINITION. The registers of a hart: x0 to x31 (R156, R158, R160), the CSR file with its access codes and field rules
(R162 to R164, R183, R211, R212, R237, R238, R346, R380, R437), commit (R167) and the counters (R439). -/

namespace Sys2Proof

namespace Machine

/-! ## Harts of a state -/

/-- A hart of a state. -/
def hartOf (s : State) (h : HartId) : Hart := s.harts[h]

/-- A state with one hart changed. -/
def modHart (s : State) (h : HartId) (f : Hart → Hart) : State := { s with harts := s.harts.set h (f s.harts[h]) }

/-! ## Scalar registers -/

/-- x[r]; x0 reads as zero (R156). -/
def readX (hd : Hart) (r : XReg) : Word := if r = 0 then 0 else hd.x[r]

/-- x[r] written without a change of xlast; a write to x0 is discarded (R156). -/
def putX (hd : Hart) (r : XReg) (v : Word) : Hart := if r = 0 then hd else { hd with x := hd.x.set r v }

/-- The hart with xlast naming r, when r is not x0 (R75, R160). -/
def nameLast (hd : Hart) (r : XReg) : Hart :=
  if r = 0 then hd else { hd with csr := { hd.csr with xlast := word r.val } }

/-- x[r] written by an instruction that commits (R75, R156, R160). -/
def setX (hd : Hart) (r : XReg) (v : Word) : Hart := nameLast (putX hd r v) r

/-- The implied register of a compact form (R75). -/
def implied (hd : Hart) : XReg := xr hd.csr.xlast.toNat

/-! ## Counters (R437 to R439) -/

/-- One performance counter after n occurrences of an event. -/
def countOne (priv : Bool) (pevt pcnt : Word) (code n : Nat) : Word :=
  if bit pevt 16 && getBits pevt 0 8 == code && (!priv || bit pevt 17) then pcnt + word n else pcnt

/-- n occurrences of an event at a hart (R439). -/
def countPerf (p : Perf) (priv : Bool) (code n : Nat) : Perf :=
  { p with pcnt := Vector.ofFn fun i => countOne priv p.pevt[i] p.pcnt[i] code n }

/-- n occurrences of an event at a hart (R438). -/
def count (hd : Hart) (code n : Nat) : Hart := { hd with perf := countPerf hd.perf hd.priv code n }

/-- The hart after one committed instruction whose next one is at a PC (R167, R438). -/
def commitAt (hd : Hart) (pc : Word) : Hart :=
  { hd with pc := pc, perf := countPerf { hd.perf with instret := hd.perf.instret + 1 } hd.priv 2 1 }

/-- The hart after committing an instruction of len bytes. -/
def commit (hd : Hart) (len : Nat) : Hart := commitAt hd (hd.pc + word len)

/-! ## CSRs -/

/-- The access codes of R162. -/
inductive CsrAccess where
  | rw | ro | up | p
  deriving DecidableEq, Repr

/-- The access of a CSR number; none for a reserved number (R162). -/
def csrAccess (n : Nat) : Option CsrAccess :=
  if n = 0 then some .up
  else if n ≤ 9 then some .rw
  else if 0x010 ≤ n && n ≤ 0x014 then some .rw
  else if n = 0x018 || n = 0x01C || n = 0x01F then some .rw
  else if 0x020 ≤ n && n ≤ 0x022 then some .ro
  else if n = 0x028 || n = 0x02A then some .up
  else if n = 0x029 then some .ro
  else if 0x030 ≤ n && n < 0x040 then some .up
  else if 0x040 ≤ n && n < 0x050 then some .p
  else if 0x050 ≤ n && n < 0x068 then some .up
  else if 0x100 ≤ n && n < 0x107 then some .p
  else none

/-- The CSRs that are not RO, in number order (R397). -/
def savedCsrs : List Nat := (List.range 0x107).filter fun n =>
  match csrAccess n with
  | none => false
  | some .ro => false
  | _ => true

/-- The value of a CSR that the hart holds itself. -/
def csrGet (hd : Hart) (n : Nat) : Word :=
  match n with
  | 0x000 => hd.csr.vl
  | 0x001 => hd.csr.vtype
  | 0x002 => hd.csr.vstart
  | 0x003 => hd.csr.vrc
  | 0x004 => hd.csr.vhwm
  | 0x005 => hd.csr.vdirty
  | 0x006 => hd.csr.vdirtyw
  | 0x007 => hd.csr.vslip
  | 0x008 => hd.csr.vctl
  | 0x009 => hd.csr.vflags
  | 0x010 => hd.csr.wthr
  | 0x011 => hd.csr.fthr
  | 0x012 => hd.csr.wtemp
  | 0x013 => hd.csr.wctl
  | 0x014 => hd.csr.wstat
  | 0x018 => hd.csr.mshape
  | 0x01C => hd.csr.nhint
  | 0x01F => hd.csr.xlast
  | 0x021 => hd.farmid.setWidth 64
  | 0x022 => hd.ctxid.setWidth 64
  | 0x028 => hd.perf.cycle
  | 0x02A => hd.perf.instret
  | 0x100 => hd.trap.epc
  | 0x101 => hd.trap.ecause
  | 0x102 => hd.trap.evalue
  | 0x103 => hd.trap.evstart
  | 0x104 => hd.trap.estatus
  | 0x105 => hd.trap.evec
  | 0x106 => hd.trap.escratch
  | n =>
    if 0x030 ≤ n && n < 0x040 then hd.perf.pcnt[(n - 0x030) % 16]'(Nat.mod_lt _ (by decide))
    else if 0x040 ≤ n && n < 0x050 then hd.perf.pevt[(n - 0x040) % 16]'(Nat.mod_lt _ (by decide))
    else if 0x050 ≤ n && n < 0x068 then hd.perf.idle[(n - 0x050) % 24]'(Nat.mod_lt _ (by decide))
    else 0

/-- The hart with the value of a CSR replaced as it stands. -/
def csrPut (hd : Hart) (n : Nat) (v : Word) : Hart :=
  match n with
  | 0x000 => { hd with csr := { hd.csr with vl := v } }
  | 0x001 => { hd with csr := { hd.csr with vtype := v } }
  | 0x002 => { hd with csr := { hd.csr with vstart := v } }
  | 0x003 => { hd with csr := { hd.csr with vrc := v } }
  | 0x004 => { hd with csr := { hd.csr with vhwm := v } }
  | 0x005 => { hd with csr := { hd.csr with vdirty := v } }
  | 0x006 => { hd with csr := { hd.csr with vdirtyw := v } }
  | 0x007 => { hd with csr := { hd.csr with vslip := v } }
  | 0x008 => { hd with csr := { hd.csr with vctl := v } }
  | 0x009 => { hd with csr := { hd.csr with vflags := v } }
  | 0x010 => { hd with csr := { hd.csr with wthr := v } }
  | 0x011 => { hd with csr := { hd.csr with fthr := v } }
  | 0x012 => { hd with csr := { hd.csr with wtemp := v } }
  | 0x013 => { hd with csr := { hd.csr with wctl := v } }
  | 0x014 => { hd with csr := { hd.csr with wstat := v } }
  | 0x018 => { hd with csr := { hd.csr with mshape := v } }
  | 0x01C => { hd with csr := { hd.csr with nhint := v } }
  | 0x01F => { hd with csr := { hd.csr with xlast := v } }
  | 0x028 => { hd with perf := { hd.perf with cycle := v } }
  | 0x02A => { hd with perf := { hd.perf with instret := v } }
  | 0x100 => { hd with trap := { hd.trap with epc := v } }
  | 0x101 => { hd with trap := { hd.trap with ecause := v } }
  | 0x102 => { hd with trap := { hd.trap with evalue := v } }
  | 0x103 => { hd with trap := { hd.trap with evstart := v } }
  | 0x104 => { hd with trap := { hd.trap with estatus := v } }
  | 0x105 => { hd with trap := { hd.trap with evec := v } }
  | 0x106 => { hd with trap := { hd.trap with escratch := v } }
  | n =>
    if 0x030 ≤ n && n < 0x040 then
      { hd with perf := { hd.perf with pcnt := hd.perf.pcnt.set ((n - 0x030) % 16) v (Nat.mod_lt _ (by decide)) } }
    else if 0x040 ≤ n && n < 0x050 then
      { hd with perf := { hd.perf with pevt := hd.perf.pevt.set ((n - 0x040) % 16) v (Nat.mod_lt _ (by decide)) } }
    else if 0x050 ≤ n && n < 0x068 then
      { hd with perf := { hd.perf with idle := hd.perf.idle.set ((n - 0x050) % 24) v (Nat.mod_lt _ (by decide)) } }
    else hd

/-- The low n bits of a written value (R5). -/
def lowBits (v : Word) (n : Nat) : Word := word (getBits v 0 n)

/-- The clamp of a PW16 CSR (R212). -/
def clampPw (v : Word) : Word := word (min (getBits v 0 16) 0x8000)

/-- The value that a write of wtemp stores: a positive normal finite f32, or 1.0 (R212). -/
def wtempOf (v : Word) : Word :=
  let e := getBits v 23 8
  if !bit v 31 && 0 < e && e < 255 then lowBits v 32 else 0x3F800000

/-- The value that a write of mshape stores (R238). -/
def mshapeOf (v : Word) : Word :=
  let dim (n : Nat) : Nat := if n = 0 then 1 else min n 16
  let sp := getBits v 16 8
  let sp := if sp = 6 || sp = 8 || sp = 12 || sp = 16 then sp else 0
  word (dim (getBits v 0 8) + 2 ^ 8 * dim (getBits v 8 8) + 2 ^ 16 * sp)

/-- The value that a CSR stores for a written value (R5, R164, R183, R188, R212, R238, R346, R380, R437). A write of vl takes all
64 bits of the value as its AVL: R164 takes the written value, though R5 ignores a reserved field on a write, and bits [63:16]
of vl are reserved (log 54, DESIGN CHOICE). -/
def csrRule (hd : Hart) (n : Nat) (v : Word) : Word :=
  match n with
  | 0x000 => word (vlGrant hd.csr.vtype v.toNat)
  | 0x001 => vtypeOf v
  | 0x002 => lowBits v 32
  | 0x003 => if getBits v 0 6 = 0 then 1 else word (min (getBits v 0 6) 32)
  | 0x004 => word (min (getBits v 0 3) 6)
  | 0x006 => lowBits v 16 &&& 0xFFFE
  | 0x007 => lowBits v 4
  | 0x008 => lowBits v 6
  | 0x009 => lowBits v 12
  | 0x010 => clampPw v
  | 0x011 => clampPw v
  | 0x012 => wtempOf v
  | 0x013 => lowBits v 5
  | 0x014 => lowBits v 40
  | 0x018 => mshapeOf v
  | 0x01C => lowBits v 9
  | 0x01F => lowBits v 5
  | 0x101 => lowBits v 8
  | 0x103 => v &&& 0xC000001FFFFFFFFF
  | 0x104 => lowBits v 17
  | 0x105 => v &&& 0xFFFFFFFFFFFFFFFE
  | n =>
    if 0x040 ≤ n && n < 0x050 then
      (v &&& 0x30000) ||| (if getBits v 0 8 < 24 then word (getBits v 0 8) else 0)
    else v

/-- The hart after a write of a CSR: the field rules, and for vtype a vl of 0 (R164). Writes of vl and vtype count as
configuration changes for R308. -/
def csrWrite (hd : Hart) (n : Nat) (v : Word) : Hart :=
  let hd' := csrPut hd n (csrRule hd n v)
  if n = 1 then { hd' with csr := { hd'.csr with vl := 0 }, epoch := hd'.epoch + 1 }
  else if n = 0 then { hd' with epoch := hd'.epoch + 1 }
  else hd'

/-- The value that a read of a CSR returns (R162, R166). -/
def csrRead (s : State) (h : HartId) (n : Nat) : Word :=
  if n = 0x020 then word h.val else if n = 0x029 then s.time else csrGet (hartOf s h) n

/-- Whether an access is legal: the number is assigned, and the mode and kind fit its access code (R163). -/
def csrLegal (priv write : Bool) (n : Nat) : Bool :=
  match csrAccess n with
  | none => false
  | some .rw => true
  | some .ro => !write
  | some .up => !write || priv
  | some .p => priv

/-! ## Vector and weight registers -/

/-- A high-water mark after a write that reaches element group e (R184). -/
def raiseHwm (vhwm : Word) (e : Nat) : Word := if vhwm.toNat < e + 1 then word (min (e + 1) 6) else vhwm

/-- Marks every register of a group that a write of len bits at a position touches, with its element groups of g bytes
(R184). -/
def markDirty (dirty : Word) (base regBits pos len : Nat) : Word :=
  if len = 0 then dirty
  else
    let r := base + pos / regBits
    let r' := base + (pos + len - 1) / regBits
    let d := dirty ||| (1 <<< (r % 64))
    if r = r' then d else d ||| (1 <<< (r' % 64))

/-- The highest element group, within one register, that a write of len bits at a position reaches. -/
def topGroup (regBits groupBits pos len : Nat) : Nat :=
  if len = 0 then 0
  else if pos / regBits = (pos + len - 1) / regBits then (pos + len - 1) % regBits / groupBits
  else regBits / groupBits - 1

/-- A vector register group written at a bit position (R184). -/
def putV (hd : Hart) (base pos len x : Nat) : Hart :=
  if len = 0 then hd
  else
    { hd with
      v := groupPut hd.v base pos len x
      csr := { hd.csr with
        vdirty := markDirty hd.csr.vdirty base 9216 pos len
        vhwm := raiseHwm hd.csr.vhwm (topGroup 9216 1536 pos len) } }

/-- Weight j of a weight group written; w0 discards the write (R184, R208, R210). -/
def putW (hd : Hart) (base j c : Nat) : Hart :=
  if base = 0 then hd
  else
    { hd with
      w := weightPut hd.w base j c
      csr := { hd.csr with
        vdirtyw := markDirty hd.csr.vdirtyw base 18432 (16 * j) 16
        vhwm := raiseHwm hd.csr.vhwm (topGroup 18432 3072 (16 * j) 16) } }

/-- Ones written from a byte of a group to the end of the group, register by register (R189). -/
def fillOnes (hd : Hart) (base fromByte : Nat) : Nat → Hart
  | 0 => hd
  | n + 1 =>
    -- registers base + n, base + n - 1, …, those that hold a byte at or beyond fromByte
    let hd := if fromByte < 1152 * (n + 1) then
        let lo := max fromByte (1152 * n)
        putV hd base (8 * lo) (8 * (1152 * (n + 1) - lo)) (2 ^ (8 * (1152 * (n + 1) - lo)) - 1)
      else hd
    fillOnes hd base fromByte n

/-- Flags made sticky (R139). -/
def addFlags (hd : Hart) (f : FlagSet) : Hart := { hd with csr := { hd.csr with vflags := raiseFlags hd.csr.vflags f } }

end Machine

end Sys2Proof
end

