-- ==== Sys2Proof/Machine/Memory.lean ====
section
/-! DEFINITION. Memory as agents see it (R265 to R295): what a reader sees, how a write is issued and later performed at
growing scopes, atomics, and what reaches memory at all (R20 to R24). -/

namespace Sys2Proof

namespace Machine

/-! ## Physical places -/

/-- The circlet of a hart (R11). -/
def circletOf (h : HartId) : Nat := h.val / 16

/-- The package number in a key (R20). -/
def pkgOf (k : Nat) : Nat := k / 2 ^ 45

/-- The package-local offset of a key (R20). -/
def offOf (k : Nat) : Nat := k % 2 ^ 45

/-- The members of a set of bits, ascending. -/
def membersOf {n : Nat} (v : BitVec n) : List Nat := (List.range n).filter (fun i => bit v i)

/-- The stacks of the interleave set, ascending (R22). -/
def stacksOf (d : Device) : List Nat := membersOf d.interleave

/-- The number K of stacks in the interleave set. -/
def stackCount (d : Device) : Nat := (stacksOf d).length

/-- The stacks trained and in service (R441). -/
def inService (d : Device) (stack : Nat) : Bool := bit d.boot (24 + stack)

/-- The number P of pool rows per bank (R453). -/
def poolRows (d : Device) : Nat := getBits d.pool 0 13

/-- The number A of arena frames (R453). -/
def arenaFrames (d : Device) : Nat := getBits d.arena 0 17

/-- Where the expert arena begins: A × 2 MiB below the pool's reserve (R343, R412). -/
def arenaBase (d : Device) : Nat :=
  let k := stackCount d
  k * Config.stackBytes - k * poolRows d * (2 ^ 21 + 2 ^ 12) - arenaFrames d * 2 ^ 21

/-- Where the pool's reserve begins (R343). -/
def reserveBase (d : Device) : Nat :=
  let k := stackCount d
  k * Config.stackBytes - k * poolRows d * (2 ^ 21 + 2 ^ 12)

/-- The stack on which an HBM offset lies (R22). -/
def stackAt (d : Device) (off : Nat) : Nat :=
  let st := stacksOf d
  st.getD (off / 4096 % max st.length 1) 0

/-- An HBM offset whose stack is in service (R22). -/
def hbmServed (d : Device) (off : Nat) : Bool := stackCount d != 0 && inService d (stackAt d off)

/-- The sum of the accepted far-tier capacities of the first m ports, in MiB (R24). -/
def capSum (caps : List Nat) (m : Nat) : Nat := (caps.take m).foldl (· + ·) 0

/-- A far-tier offset that some port with a trained link holds (R24). -/
def farServed (d : Device) (off : Nat) : Bool :=
  let caps := d.farCaps.toList
  let o := (off - Config.farBase) / 2 ^ 20
  Config.farBase ≤ off && off < Config.farEnd && (List.range 4).any fun m =>
    capSum caps m ≤ o && o < capSum caps (m + 1) && bit (d.farPorts.toList.getD m 0) 63

/-- Whether some trained scale-up link leads to a package (R21, R457). -/
def routed (d : Device) (pkg : Nat) : Bool := d.scaleUp.toList.any fun l => bit l 63 && getBits l 48 10 == pkg

/-- The package is in early service (R441). -/
def earlyBoot (d : Device) : Bool := bit d.boot 1

/-- Whether an access to a key reaches memory (R21); `expert` for a page of the expert window, which lies in the arena.
Early service reaches neither another package nor the far tier (R446). The spec does not say what this package knows of
another package's stacks and far capacity, or of the host's while the host link is down: the model takes the 512 GiB of
HBM and the 16 TiB of the far tier of another package as present, and host memory as reached (log 47, DESIGN CHOICE). -/
def reaches (d : Device) (expert : Bool) (k : Nat) : Bool :=
  if Config.hostBase ≤ k then true
  else
    let off := offOf k
    pkgOf k < 640 &&
      if pkgOf k = d.pkg.toNat then
        if off < Config.farBase then
          (if expert then arenaBase d ≤ off && off < reserveBase d else off < arenaBase d) && hbmServed d off
        else !earlyBoot d && farServed d off
      else
        !earlyBoot d && routed d (pkgOf k) &&
          (off < 8 * Config.stackBytes || (Config.farBase ≤ off && off < Config.farEnd))

/-- The path of a hart's access to a key (R266, R301). -/
def pathOf (d : Device) (copy : Bool) (k : Nat) : Path :=
  if copy then .C
  else if Config.poolBase ≤ k then .V
  else if Config.hostBase ≤ k then .H
  else if pkgOf k = d.pkg.toNat then .V else .L

/-! ## Reading -/

/-- Who reads: a hart on a path, a walker or another engine of the package, an agent of another package, the host. -/
inductive Reader where
  | hart (h : HartId) (p : Path)
  | package
  | remote
  | host
  deriving DecidableEq, Repr

/-- Whether a reader sees an issued write (R266, R268, R269, R271). -/
def sees (r : Reader) (a : Access) : Bool :=
  match r with
  | .hart h p =>
    if a.hart = h then a.path == p || 1 ≤ a.level
    else if circletOf a.hart = circletOf h then 2 ≤ a.level
    else 3 ≤ a.level
  | .package => 3 ≤ a.level
  | .remote => 4 ≤ a.level
  | .host => false

/-- The byte that a list of cells gives a key. -/
def cellAt (k : Nat) : List Host.Cell → Option Byte
  | [] => none
  | (k', b) :: t => if k' = k then some b else cellAt k t

/-- The byte of the newest issued write that passes a test, in coherence order. -/
def flightByte (p : Access → Bool) (k : Nat) : List Access → Option Byte
  | [] => none
  | a :: t => match flightByte p k t with
    | some b => some b
    | none => if p a then cellAt k a.cells else none

/-- The byte a reader reads at a key (R271). -/
def readByte (m : Mem) (r : Reader) (k : Nat) : Byte :=
  (flightByte (sees r) k m.flight).getD (tget Config.emptyByte m.cells k)

/-- The canonical form of memory: keys ascend, and no listed byte is what an unlisted key reads as (log 2). -/
def Memory.wf (m : Mem) : Bool := tableWf Config.emptyByte m.cells

/-- n bytes from a key. -/
def readBytes (m : Mem) (r : Reader) (k : Nat) : Nat → List Byte
  | 0 => []
  | n + 1 => readByte m r k :: readBytes m r (k + 1) n

/-! ## Reads performed before their instructions (R269, R273)

The spec lets the plain accesses of one agent be performed in any order. A read of a word may be performed ahead of its
instruction: until a fence, an acquire or another rule orders the hart's reads, its instructions read there what was fixed
then, with its own later writes on top (log 19). -/

/-- What a hart has read ahead of the word that holds a key. -/
def earlyOf (m : Mem) (h : HartId) (k : Nat) : Option EarlyRead := m.early.find? fun e => e.hart == h && e.word == k / 8

/-- The byte that an instruction of a hart reads at a key on a path. -/
def hartByte (m : Mem) (h : HartId) (p : Path) (k : Nat) : Byte :=
  match earlyOf m h k with
  | some e => (if p = .C then e.copied else e.own).getD (k % 8) 0
  | none => readByte m (.hart h p) k

/-- n such bytes from a key. -/
def hartBytes (m : Mem) (h : HartId) (p : Path) (k : Nat) : Nat → List Byte
  | 0 => []
  | n + 1 => hartByte m h p k :: hartBytes m h p (k + 1) n

/-- Some bytes of a word with those that cells give it. -/
def patched (cells : List Host.Cell) (word : Nat) (bs : List Byte) : List Byte :=
  (List.range 8).map fun i => (cellAt (8 * word + i) cells).getD (bs.getD i 0)

/-- Early reads of a hart after a write of its own, which is read back on the paths that see it. -/
def overwrite (early : List EarlyRead) (h : HartId) (own copied : Bool) (cells : List Host.Cell) : List EarlyRead :=
  early.map fun e =>
    if e.hart = h then
      { e with own := if own then patched cells e.word e.own else e.own
               copied := if copied then patched cells e.word e.copied else e.copied }
    else e

/-- The early reads of a hart at some keys given up: its coming instructions read those words anew. -/
def forget (m : Mem) (h : HartId) (p : Nat → Bool) : Mem :=
  { m with early := m.early.filter fun e => !(e.hart == h && p (8 * e.word)) }

/-- The newest byte in coherence order, which an atomic reads (R176, R272). -/
def coherentByte (m : Mem) (k : Nat) : Byte :=
  (flightByte (fun a => 2 ≤ a.level) k m.flight).getD (tget Config.emptyByte m.cells k)

/-- n such bytes. -/
def coherentBytes (m : Mem) (k : Nat) : Nat → List Byte
  | 0 => []
  | n + 1 => coherentByte m k :: coherentBytes m (k + 1) n

/-! ## Links (R315, R316) -/

/-- The line of a key. -/
def lineOf (k : Nat) : Nat := k / 64

/-- Every linked line of other harts that a write touches, broken (R316). -/
def breakLinks (m : Mem) (writer : Option HartId) (cells : List Host.Cell) : Mem :=
  if m.links.isEmpty then m
  else
    { m with links := m.links.map fun p =>
        if writer.any (fun h => h.val == p.1) then p
        else (p.1, p.2.map fun l => if cells.any (fun c => lineOf c.1 == l.1) then (l.1, false) else l) }

/-- The link set of a hart with every line broken (R316): a broken line never becomes intact again, so the set is
emptied. -/
def dropLinks (m : Mem) (h : HartId) : Mem := { m with links := tset [] m.links h.val [] }

/-- The line of a key is linked by a hart and intact (R317). -/
def linked (m : Mem) (h : HartId) (k : Nat) : Bool := (tget [] m.links h.val).any fun l => l.1 == lineOf k && l.2

/-- The link set of a hart with the line of a key added, when it has room for it (R315). -/
def link (m : Mem) (h : HartId) (k : Nat) : Mem :=
  let set := tget [] m.links h.val
  if set.any (fun l => l.1 == lineOf k) || 256 ≤ set.length then m
  else { m with links := tset [] m.links h.val (set ++ [(lineOf k, true)]) }

/-! ## Writing and performing (R269 to R275) -/

/-- Bytes at consecutive keys. -/
def cellsAt (k : Nat) : List Byte → List Host.Cell
  | [] => []
  | b :: bs => (k, b) :: cellsAt (k + 1) bs

/-- Cells stored in a table of bytes. -/
def storeCells (t : List Host.Cell) : List Host.Cell → List Host.Cell
  | [] => t
  | (k, b) :: cs => storeCells (tset Config.emptyByte t k b) cs

/-- An access without the bytes that a later write in coherence order has taken over. -/
def strip (cells : List Host.Cell) (a : Access) : Access :=
  { a with cells := a.cells.filter fun c => (cellAt c.1 cells).isNone }

/-- Whether two accesses share a byte. -/
def shares (a b : List Host.Cell) : Bool := a.any fun c => (cellAt c.1 b).isSome

/-- A write by a hart put in flight (R266, R271): the unit `u` of the instruction `tag`. -/
def issueCells (m : Mem) (h : HartId) (p : Path) (cells : List Host.Cell) (tag u : Nat) (order : ElemOrder) (whole : Bool) :
    Mem :=
  { m with
    flight := m.flight ++ [{ id := m.nextId, hart := h, path := p, cells, level := 0, tag, unit := u, order, whole }]
    early := overwrite m.early h (p != .C) (p == .C) cells
    nextId := m.nextId + 1 }

/-! ## Poison (R394) -/

/-- Bytes that an instruction has written, performed at package scope or overwritten since: a poisoned line that they
complete is clean. -/
def heal (m : Mem) (tag : Nat) (cells : List Host.Cell) : Mem :=
  if m.poison.isEmpty then m
  else
    let healing := m.healing ++ (cells.filter fun c => m.poison.contains (lineOf c.1)).map fun c => (tag, c.1)
    let clean (l : Nat) : Bool :=
      healing.any fun p => lineOf p.2 == l && (List.range 64).all fun i => healing.contains (p.1, 64 * l + i)
    { m with poison := m.poison.filter fun l => !clean l, healing := healing.filter fun p => !clean (lineOf p.2) }

/-- The bytes of some writes that later cells overwrite count as written (R394). -/
def healUnder (m : Mem) (cells : List Host.Cell) : List Access → Mem
  | [] => m
  | a :: t => healUnder (if 2 ≤ a.level then heal m a.tag (a.cells.filter fun c => (cellAt c.1 cells).isSome) else m) cells t

/-- Poison cleared from the lines that the cells of one write cover whole (R394). -/
def clearPoisonAt (m : Mem) (cells : List Host.Cell) : Mem :=
  if m.poison.isEmpty then m
  else { m with poison := m.poison.filter fun l => !((List.range 64).all fun i => (cellAt (64 * l + i) cells).isSome) }

/-- A line is poisoned for a reader: no instruction has covered it whole as the reader sees it. -/
def poisonedFor (m : Mem) (r : Reader) (l : Nat) : Bool :=
  m.poison.contains l &&
    !(m.flight.filter fun a => sees r a && a.cells.any fun c => lineOf c.1 == l).any fun a =>
      (List.range 64).all fun i => m.healing.contains (a.tag, 64 * l + i) ||
        m.flight.any fun b => b.tag == a.tag && sees r b && (cellAt (64 * l + i) b.cells).isSome

/-- The first poisoned byte that a reader meets among n bytes from a key. -/
def firstPoison (m : Mem) (r : Reader) (k n : Nat) : Option Nat :=
  minOf ((m.poison.filter fun l => 64 * l < k + n && k < 64 * l + 64 && poisonedFor m r l).map fun l => max k (64 * l))

/-! ## Coherence order -/

/-- Cells that become the last in coherence order and are performed at system scope: every write already performed
beyond its hart lies before them. -/
def commitCells (m : Mem) (writer : Option HartId) (cells : List Host.Cell) : Mem :=
  let m := healUnder m cells m.flight
  breakLinks
    { m with
      cells := storeCells m.cells cells
      flight := m.flight.map fun a => if 2 ≤ a.level then strip cells a else a }
    writer cells

/-- The level of a scope. -/
def scopeLevel : Scope → Nat
  | .hart => 1
  | .circlet => 2
  | .package => 3
  | .domain => 4
  | .system => 5

/-- The least level at which an access on a path acts (R285). -/
def levelOn (p : Path) (level : Nat) : Nat :=
  match p with
  | .L => max level 4
  | .H => 5
  | _ => level

/-- The level of a scope for an access on a path (R269, R285). -/
def levelFor (sc : Scope) (p : Path) : Nat := levelOn p (scopeLevel sc)

/-- An issued write performed at a level (R269). On leaving its hart it goes to the end of the coherence order of the
writes performed so far; at system scope it reaches the cells and takes over the bytes of the writes before it. -/
def raiseTo (m : Mem) (id level : Nat) : Mem :=
  match m.flight.find? (fun a => a.id == id) with
  | none => m
  | some a =>
    if level ≤ a.level then m
    else if level < 2 then { m with flight := m.flight.map fun b => if b.id = id then { b with level } else b }
    else
      let m := if a.level < 3 && 3 ≤ level then heal m a.tag a.cells else m
      let m :=
        if a.level < 2 then
          let others := m.flight.filter fun b => b.id != id
          if level < 5 then
            { m with flight := others.filter (fun b => 2 ≤ b.level) ++ { a with level } :: others.filter (fun b => b.level < 2) }
          else commitCells { m with flight := others } (some a.hart) a.cells
        else
          let before := m.flight.takeWhile fun b => b.id != id
          let after := (m.flight.dropWhile fun b => b.id != id).drop 1
          if level < 5 then { m with flight := before ++ { a with level } :: after }
          else
            let m := healUnder m a.cells before
            { m with cells := storeCells m.cells a.cells, flight := before.map (strip a.cells) ++ after }
      if a.level < 3 && 3 ≤ level then breakLinks m (some a.hart) a.cells else m

/-! ## What must be performed first (R271, R274) -/

/-- Whether a write of a hart is performed before another of that hart: the units of one instruction in its order; older
instructions' writes of the same bytes, where they are on the same path, a fence has ordered them, or the younger is
performed for the hart itself, which then reads it after the older. -/
def precedes (b a : Access) : Bool :=
  b.hart == a.hart &&
    if b.tag = a.tag then
      match a.order with
      | .ascending => b.unit < a.unit
      | .bytes => b.unit < a.unit && shares b.cells a.cells
      | .free => false
    else b.tag < a.tag && b.level < 2 && (b.path == a.path || b.level == 1 || a.level == 1) && shares b.cells a.cells

/-- A write in flight that no longer reaches memory; it is never performed (R21, R270). -/
def lost (d : Device) (a : Access) : Bool :=
  a.cells.head?.any fun c => c.1 < Config.poolBase && !reaches d false c.1

/-- A hart has a lost write that passes a test. -/
def anyLost (d : Device) (m : Mem) (h : HartId) (p : Access → Bool) : Bool :=
  m.flight.any fun a => a.hart == h && p a && lost d a

/-- The issued writes, each with the level at which it is to be performed: the level asked for, or a higher one at which
a write that comes after it is to be performed. -/
def demands (d : Device) (want : Access → Nat) : List Access → List (Access × Nat)
  | [] => []
  | a :: t =>
    let later := demands d want t
    let level := later.foldl (fun l p => if l < p.2 && precedes a p.1 then p.2 else l) (want a)
    if level = 0 || lost d a then later else (a, levelOn a.path level) :: later

/-- Some issued writes performed at their levels, in order. -/
def raiseAll (m : Mem) : List (Access × Nat) → Mem
  | [] => m
  | p :: t => raiseAll (raiseTo m p.1.id p.2) t

/-- Issued writes performed at the levels asked for (0 for none), and before each the writes that must come first. -/
def performWant (d : Device) (m : Mem) (want : Access → Nat) : Mem := raiseAll m (demands d want m.flight)

/-- Whether an issued write may be performed at a level now: it still reaches memory, and the writes that must come first
have been performed (R271, R274). -/
def mayRaise (d : Device) (m : Mem) (a : Access) (level : Nat) : Bool :=
  !lost d a && m.flight.all fun b => !precedes b a || level ≤ b.level

/-- The writes of a hart that pass a test, performed at a scope (R277, R278, R285). -/
def performAt (d : Device) (m : Mem) (h : HartId) (p : Access → Bool) (sc : Scope) : Mem :=
  performWant d m fun a => if a.hart == h && p a then scopeLevel sc else 0

/-- A release of a hart at a level (R282, R283, R285): its own writes that pass a test, and the writes of other harts that it
sees. -/
def releaseAt (d : Device) (m : Mem) (h : HartId) (p : Access → Bool) (level : Nat) : Mem :=
  performWant d m fun a => if (if a.hart = h then p a else sees (.hart h .V) a) then level else 0

/-- The writes of some bytes that come before an update of them in coherence order, performed everywhere: those performed
beyond their hart, and those of the hart that makes the update on its path or ordered by a fence (R176, R271). -/
def settleBytes (d : Device) (m : Mem) (own : Option (HartId × Path)) (cells : List Host.Cell) : Mem :=
  performWant d m fun a =>
    if (2 ≤ a.level || own.any fun o => a.hart == o.1 && (a.path == o.2 || a.level == 1)) && shares a.cells cells then 5
    else 0

/-- Bytes that a hart now reads, whatever it has read ahead of them. -/
def seenBy (m : Mem) (own : Option (HartId × Path)) (cells : List Host.Cell) : Mem :=
  match own with
  | none => m
  | some o => { m with early := overwrite m.early o.1 true true cells }

/-- An atomic update of n bytes by a hart on a path, or by another agent (R176): the new value is performed at once at
every scope. -/
def updateBytes (d : Device) (m : Mem) (own : Option (HartId × Path)) (k n : Nat) (f : Nat → Option Nat) : Nat × Mem :=
  let m := settleBytes d m own (cellsAt k (List.replicate n 0))
  let old := leValue (coherentBytes m k n)
  match f old with
  | none => (old, seenBy m own (cellsAt k (leBytes n old)))
  | some v =>
    let cells := cellsAt k (leBytes n v)
    (old, seenBy (commitCells m (own.map (·.1)) cells) own cells)

/-- An atomic update by a hart on a path. -/
def atomicUpdate (d : Device) (m : Mem) (h : HartId) (p : Path) (k n : Nat) (f : Nat → Option Nat) : Nat × Mem :=
  updateBytes d m (some (h, p)) k n f

/-- One byte of an issued write made a write of its own (R272); a write that is seen whole stays as it is. -/
def splitByte (m : Mem) (a : Access) (i : Nat) : Mem × Access :=
  if a.whole || a.cells.length ≤ 1 then (m, a)
  else match a.cells[i]? with
    | none => (m, a)
    | some c =>
      let one := { a with id := m.nextId, cells := [c] }
      let rest := { a with cells := dropAt a.cells i }
      ({ m with flight := m.flight.flatMap fun b => if b.id = a.id then [one, rest] else [b], nextId := m.nextId + 1 }, one)

/-- A number for the accesses of one instruction. -/
def newTag (m : Mem) : Nat × Mem := (m.nextTag, { m with nextTag := m.nextTag + 1 })

/-! ## The nameless pool (R341 to R345) -/

/-- The name of a pool slot, given by bits [35:10] (R344). -/
def nameOf (slot : Nat) : Word := word (0xFE000000000000 + slot * 1024)

/-- The slot number of a nameless-window address. -/
def slotOf (va : Nat) : Nat := va / 1024 % 2 ^ 26

/-- The fields of a slot number: stack, pseudo-channel, bank and row (R344). -/
def slotStack (slot : Nat) : Nat := slot / 2 ^ 23
/-- The pool row of a slot. -/
def slotRow (slot : Nat) : Nat := slot % 2 ^ 12

/-- A slot that exists: row below P and a stack of the interleave set (R345). -/
def slotExists (d : Device) (slot : Nat) : Bool := slotRow slot < poolRows d && bit d.interleave (slotStack slot)

/-- The owner of a slot; 0 when it is free. -/
def ownerOf (m : Mem) (slot : Nat) : BitVec 16 := tget 0 m.owners slot

/-- A slot live for a context (R345). -/
def slotLive (d : Device) (m : Mem) (ctx : BitVec 16) (slot : Nat) : Bool :=
  slotExists d slot && ownerOf m slot == ctx && ctx != 0

/-- The memory key of a nameless-window address. -/
def poolKey (va : Nat) : Nat := Config.poolBase + va % 2 ^ 36

end Machine

end Sys2Proof
end

