-- ==== Sys2Proof/Machine/Translate.lean ====
section
/-! DEFINITION. Virtual addresses: the windows (R296 to R300), the context table (R401), the page walk (R402 to R408), the
TLBs (R409, R410) and the checks of an access in their order (R174, R301, R305). -/

namespace Sys2Proof

namespace Machine

/-! ## The context table (R401) -/

/-- The image of a context's entry. -/
def ctxImage (s : State) (c : Nat) : BitVec 512 := tget 0 s.dev.contexts c

/-- The PPN of the level-5 table. -/
def ctxRoot (img : BitVec 512) : Nat := getBits img 12 43
/-- The handler address. -/
def ctxEvec (img : BitVec 512) : Word := word (getBits img 64 64)
/-- The log base. -/
def ctxLog (img : BitVec 512) : Nat := getBits img 128 64
/-- The save base. -/
def ctxSave (img : BitVec 512) : Nat := getBits img 192 64
/-- The save slot count N. -/
def ctxSlots (img : BitVec 512) : Nat := getBits img 256 32
/-- The partition; 0, which holds no hart, for a number that no partition has (R455). -/
def ctxPart (img : BitVec 512) : BitVec 10 := if getBits img 288 16 < 1024 then BitVec.ofNat 10 (getBits img 288 16) else 0
/-- The entry is valid. -/
def ctxValid (img : BitVec 512) : Bool := bit img 304
/-- The base of the receive ring. -/
def ctxRing (img : BitVec 512) : Nat := getBits img 320 64
/-- The slot payload in units of 64 bytes. -/
def ctxPay (img : BitVec 512) : Nat := getBits img 384 16

/-! ## Windows (R296 to R300) -/

/-- The windows of R297. -/
inductive Window where
  | ordinary | nameless | expert | reserved | upper
  deriving DecidableEq, Repr

/-- The window of a canonical address. -/
def windowOf (va : Nat) : Window :=
  if va < 0xFE000000000000 then .ordinary
  else if va < 0xFE001000000000 then .nameless
  else if va < 0xFF000000000000 then .reserved
  else if va < 0xFF100000000000 then .expert
  else if va < 0x100000000000000 then .reserved
  else .upper

/-- The kinds of access that the checks tell apart (R222, R404, R405). -/
inductive Kind where
  | load | store | blend | fetch
  /-- A load by the copy engine, on path C (R266). -/
  | copy
  /-- The translation of a word that is to be read later, as a load (R361). -/
  | locate
  deriving DecidableEq, Repr

/-- Whether a kind is a load for the windows and the permissions. -/
def Kind.loads : Kind → Bool
  | .load => true
  | .copy => true
  | .locate => true
  | _ => false

/-- Whether a kind writes. -/
def Kind.writes : Kind → Bool
  | .store => true
  | .blend => true
  | _ => false

/-- The translation fault of a kind (R404). -/
def Kind.translation (k : Kind) : Nat := if k.writes then 5 else 4

/-- What a machine-check bank records of an access that failed: the code of R422 and the physical address. -/
structure BankNote where
  code : Nat
  addr : Option Nat
  deriving DecidableEq, Repr

/-- A fault of an access: its cause (R379), the first failing byte, and what a machine-check bank records of it (R21,
R423). -/
structure Fail where
  cause : Nat
  value : Nat
  bank  : Option BankNote
  deriving DecidableEq, Repr

/-- The frame offset at which a page of the expert window lies for a context (R300, R413). -/
def expertKey (s : State) (ctx : BitVec 16) (va : Nat) : Option Nat :=
  let covers (p : Nat × Option ErtEntry) : Bool := match p.2 with
    | some e => e.ctx == ctx && e.state == .resident && e.base.toNat ≤ va && va < e.base.toNat + e.size.toNat * 4096
    | none => false
  match s.sched.ert.find? covers with
  | some (_, some e) =>
    let o := va - e.base.toNat
    some (s.dev.pkg.toNat * 2 ^ 45 + arenaBase s.dev + e.frames.getD (o / 2 ^ 21) 0 * 2 ^ 21 + o % 2 ^ 21)
  | _ => none

/-- The window check of one run of bytes (R298 to R300, R345). -/
def windowFault (s : State) (ctx : BitVec 16) (priv : Bool) (k : Kind) (va : Nat) : Option Nat :=
  match windowOf va with
  | .ordinary => none
  | .reserved => some k.translation
  | .upper => if priv then none else some 6
  | .nameless =>
    if k.loads then (if slotLive s.dev s.mem ctx (slotOf va) then none else some 11) else some 6
  | .expert => if k.loads then (if (expertKey s ctx va).isSome then none else some 4) else some 6

/-! ## The page walk (R402 to R408) -/

/-- A translation: its leaf entry, where that entry lies, the first address it covers, how many bytes, the physical
address of the first, and the tables that the walk went through, each with its level. -/
structure Leaf where
  pte   : Word
  place : Option Nat
  va    : Nat
  size  : Nat
  pa    : Nat
  via   : List (Nat × Nat) := []
  deriving DecidableEq, Repr

/-- The ppn of an entry (R403). -/
def ptePpn (e : Word) : Nat := getBits e 12 43

/-- R, W or X is set. -/
def pteLeaf (e : Word) : Bool := bit e 1 || bit e 2 || bit e 3

/-- The fields of an entry other than ppn and V. -/
def pteRest (e : Word) : Word := e &&& 0xFF80000000000FFE

/-- Whether a place lies in the package's own HBM: its offset is below K × 64 GiB and the pool's reserve, which leaves the
range (R20, R22, R343). -/
def ownHbm (d : Device) (k : Nat) : Bool := k < Config.hostBase && pkgOf k == d.pkg.toNat && offOf k < reserveBase d

/-- A table's page lies in the issuing package's HBM (R404). -/
def tableOk (s : State) (ppn : Nat) : Bool := ownHbm s.dev (ppn * 4096)

/-- Whether a leaf at a level is well formed (R404); the levels are numbered from 1. -/
def leafOk (level : Nat) (e : Word) : Bool :=
  level ≤ 3 && getBits e 60 4 == 0 && getBits e 8 4 == 0 && ptePpn e % 2 ^ (9 * (level - 1)) == 0
    && !(bit e 2 && !bit e 1) && !bit e 59

/-- Entry i of a table as the walker reads it; an error names a poisoned entry (R394, R408). -/
def readPte (s : State) (table i : Nat) : Except (Option BankNote) Word :=
  let key := table * 4096 + 8 * i
  if (firstPoison s.mem .package key 8).isSome then .error (some ⟨1, some key⟩)
  else .ok (word (leValue (readBytes s.mem .package key 8)))

/-- The walk from the table of a level down (R402, R404, R406). An error without a note is a translation fault of the
access's kind; one with a note is a table that cannot be read. -/
def walk (s : State) (va : Nat) : Nat → Nat → Except (Option BankNote) Leaf
  | 0, _ => .error none
  | n + 1, table =>
    let idx := va / 2 ^ (12 + 9 * n) % 512
    let key := table * 4096
    let first := idx / 16 * 16
    let own : Except (Option BankNote) Leaf :=
      match readPte s table idx with
      | .error b => .error b
      | .ok e =>
        if !bit e 0 then .error none
        else if pteLeaf e then
          if leafOk (n + 1) e then
            let size := 2 ^ (12 + 9 * n)
            .ok { pte := e, place := some (key + 8 * idx), va := va / size * size, size, pa := ptePpn e * 4096 }
          else .error none
        else if n = 0 || pteRest e != 0 || !tableOk s (ptePpn e) then .error none
        else match walk s va n (ptePpn e) with
          | .ok l => .ok { l with via := (n, ptePpn e) :: l.via }
          | .error b => .error b
    if !reaches s.dev false key then .error (some ⟨4, some (key + 8 * idx)⟩)
    else if n ≠ 0 then own
    else match readPte s table first with
      | .error b => .error b
      | .ok e0 =>
        if bit e0 0 && pteLeaf e0 && bit e0 58 then
          if leafOk 1 e0 && ptePpn e0 % 16 == 0 then
            .ok { pte := e0, place := some (key + 8 * first), va := va / 2 ^ 16 * 2 ^ 16, size := 2 ^ 16,
                  pa := ptePpn e0 * 4096 }
          else .error none
        else own

/-- A leaf entry with A set, and D for a write. -/
def usedPte (k : Kind) (l : Leaf) : Word := l.pte ||| (if k.writes then 0xC0 else 0x40)

/-- The place of a leaf that needs A or D for an access of a kind and holds another value than the walk read (R408). -/
def changedLeaf (s : State) (k : Kind) (l : Leaf) : Option Nat :=
  l.place.filter fun key => usedPte k l != l.pte && coherentBytes s.mem key 8 != leBytes 8 l.pte.toNat

/-- The writes of an entry's bytes performed at package scope, where the walker reads them. -/
def settleEntry (s : State) (key : Nat) : State :=
  let here := cellsAt key (List.replicate 8 0)
  { s with mem := performWant s.dev s.mem fun a => if 2 ≤ a.level && shares a.cells here then 3 else 0 }

/-- A way to find a leaf, begun again while the leaf that it finds has changed (R408). -/
def findLeaf (k : Kind) (find : State → Except (Option BankNote) Leaf × State) :
    Nat → State → Except (Option BankNote) Leaf × State
  | 0, s => find s
  | n + 1, s => match find s with
    | (.error b, s) => (.error b, s)
    | (.ok l, s) => match changedLeaf s k l with
      | none => (.ok l, s)
      | some key => findLeaf k find n (settleEntry s key)

/-- The walk of a context's page table to an address. -/
def walkTable (s : State) (ctx : BitVec 16) (va : Nat) : Except (Option BankNote) Leaf :=
  walk s (va % 2 ^ 57) 5 (ctxRoot (ctxImage s ctx.toNat))

/-- The walk of a context's page table for an access of a kind to an address. -/
def walkOf (s : State) (ctx : BitVec 16) (k : Kind) (va : Nat) : Except (Option BankNote) Leaf × State :=
  findLeaf k (fun s => (walkTable s ctx va, s)) 6 s

/-! ## TLBs and the walk cache (R400, R409, R410) -/

/-- The bits of an entry on which translations are compared: all but A and D. -/
def pteKey (e : Word) : Word := e &&& 0xFFFFFFFFFFFFFF3F

/-- A cached translation that serves an address for a context (R409). -/
def tlbHit (ctx : BitVec 16) (part : BitVec 10) (va : Nat) (e : TlbEntry) : Bool :=
  (e.ctx == ctx || (bit e.pte 5 && e.part == part)) && e.va ≤ va && va < e.va + e.size

/-- The TLB slice of an address: that of lane cluster VA[14:12] (R409). -/
def sliceOf (va : Nat) : Fin 8 := ⟨va / 4096 % 8, Nat.mod_lt _ (by decide)⟩

/-- The cached translations that a lookup of an address by a hart can find: its slice's, then the second level's. -/
def tlbHits (s : State) (h : HartId) (ctx : BitVec 16) (va : Nat) : List TlbEntry :=
  ((hartOf s h).tlb[sliceOf va] ++ (hartOf s h).tlb2).filter (tlbHit ctx (ctxPart (ctxImage s ctx.toNat)) va)

/-- The pointer entries that the circlet's walk cache holds for an address. -/
def walkHits (s : State) (h : HartId) (ctx : BitVec 16) (va : Nat) : List WalkEntry :=
  (s.walks[circletOf h]?.getD []).filter fun w =>
    w.ctx == ctx && w.va ≤ va && va < w.va + 2 ^ (12 + 9 * w.level)

/-- Whether two translations say the same about an address. -/
def sameLeaf (va : Nat) (a b : Leaf) : Bool := pteKey a.pte == pteKey b.pte && a.pa + (va - a.va) == b.pa + (va - b.va)

/-- The translations that caches hold for an access of a kind: the TLBs', of which one with D = 0 serves no store (R408),
and those of walks from cached pointers, but for the pointers that the walk itself went through. -/
def cachedLeaves (s : State) (h : HartId) (ctx : BitVec 16) (k : Kind) (va : Nat) (via : List (Nat × Nat)) : List Leaf :=
  ((tlbHits s h ctx va).filter fun e => !(k.writes && !bit e.pte 7)).map
      (fun e => { pte := e.pte, place := none, va := e.va, size := e.size, pa := e.pa })
    ++ ((walkHits s h ctx va).filter fun w => !via.contains (w.level, w.table)).filterMap
      fun w => (walk s va w.level w.table).toOption

/-- The first of some cached translations that differs from the walk's and is chosen freely, or the walk's (R410, log 8). -/
def chooseLeaf (s : State) (va : Nat) (now : Except (Option BankNote) Leaf) :
    List Leaf → Except (Option BankNote) Leaf × State
  | [] => (now, s)
  | l :: t =>
    if now.toOption.any (sameLeaf va l) then chooseLeaf s va now t
    else
      let s' := { s with fresh := s.fresh + 1 }
      if Config.oldTranslation s.fresh then (.ok l, s') else chooseLeaf s' va now t

/-- The walk's translation of an address by a hart, or one that a cache still holds (R409, R410). -/
def anyLeaf (h : HartId) (ctx : BitVec 16) (k : Kind) (va : Nat) (s : State) : Except (Option BankNote) Leaf × State :=
  let now := walkTable s ctx va
  let va := va % 2 ^ 57
  chooseLeaf s va now (cachedLeaves s h ctx k va ((now.toOption.map (·.via)).getD []))

/-- The translation of an address by a hart; a leaf found by a walk from a cached pointer is compared too (R408). -/
def translate (s : State) (h : HartId) (ctx : BitVec 16) (k : Kind) (va : Nat) :
    Except (Option BankNote) Leaf × State := findLeaf k (anyLeaf h ctx k va) 6 s

/-- A used leaf entry stored where it lies (R408). -/
def touch (s : State) (k : Kind) (l : Leaf) : State :=
  match l.place with
  | none => s
  | some key =>
    if usedPte k l = l.pte then s
    else { s with mem := commitCells s.mem none (cellsAt key (leBytes 8 (usedPte k l).toNat)) }

/-- A TLB of some size with an entry added in front; the entry for the same page goes, and so does the oldest one when the
TLB is full. -/
def tlbAdd (size : Nat) (e : TlbEntry) (t : List TlbEntry) : List TlbEntry :=
  (e :: t.filter fun o => !(o.ctx == e.ctx && o.va == e.va && o.size == e.size)).take size

/-- The pointer entries of a walk added to a walk cache. -/
def walksAdd (ctx : BitVec 16) (va : Nat) (via : List (Nat × Nat)) (t : List WalkEntry) : List WalkEntry :=
  via.foldl (fun t p =>
    let w : WalkEntry := { ctx, va := va / 2 ^ (12 + 9 * p.1) * 2 ^ (12 + 9 * p.1), level := p.1, table := p.2 }
    if t.contains w then t else w :: t) t

/-- A hart whose TLBs hold one more translation of an address. -/
def cacheHart (hd : Hart) (va : Nat) (e : TlbEntry) : Hart :=
  { hd with tlb := hd.tlb.set (sliceOf va) (tlbAdd 32 e hd.tlb[sliceOf va]), tlb2 := tlbAdd 1024 e hd.tlb2 }

/-- A translation of an address remembered by the hart's TLBs and its circlet's walk cache, with A set in its entry, and D
for a write (R408, R409). -/
def remember (s : State) (h : HartId) (ctx : BitVec 16) (k : Kind) (va : Nat) (l : Leaf) : State :=
  match l.place with
  | none => s
  | some _ =>
    let s := touch s k l
    let e : TlbEntry :=
      { ctx, part := ctxPart (ctxImage s ctx.toNat), va := l.va, size := l.size, pte := usedPte k l, pa := l.pa }
    let s := modHart s h (cacheHart · va e)
    if hc : circletOf h < 32 then
      { s with walks := s.walks.set (circletOf h) (walksAdd ctx (va % 2 ^ 57) l.via s.walks[circletOf h]) }
    else s

/-! ## The checks of an access (R174, R301, R305) -/

/-- A run of bytes of one page whose place is known. -/
structure Piece where
  va     : Nat
  len    : Nat
  key    : Nat
  nospec : Bool
  /-- The first address of the page; a contiguity group has 16 of them (R406). -/
  page   : Nat
  deriving DecidableEq, Repr

/-- A byte range cut at multiples of 1 KiB. -/
def runsOf : Nat → Nat → Nat → List (Nat × Nat)
  | 0, _, _ => []
  | fuel + 1, a, n =>
    if n = 0 then []
    else
      let k := min n (1024 - a % 1024)
      (a, k) :: runsOf fuel (a + k) (n - k)

/-- The runs of n bytes from an address. -/
def runs (a n : Nat) : List (Nat × Nat) := runsOf (n / 1024 + 2) a n

/-- The canonical check (R296); the value is the first failing byte that has a 64-bit address. Where the start itself has none,
being below 0 or at or above 2^64, the value is the start modulo 2^64, here and in `checkAs`: R296 says what evalue reports of
the other bytes, and evalue has 64 bits (log 52, DESIGN CHOICE). -/
def canonicalFault (a n : Nat) : Option Fail :=
  if a < 2 ^ 56 then (if a + n ≤ 2 ^ 56 then none else some ⟨7, 2 ^ 56, none⟩)
  else if 2 ^ 64 - 2 ^ 56 ≤ a && a < 2 ^ 64 then (if a + n ≤ 2 ^ 64 then none else some ⟨7, a, none⟩)
  else some ⟨7, a % 2 ^ 64, none⟩

/-- The first failing window check over runs. -/
def windowFaults (s : State) (ctx : BitVec 16) (priv : Bool) (k : Kind) : List (Nat × Nat) → Option Fail
  | [] => none
  | (a, _) :: t => match windowFault s ctx priv k a with
    | some c => some ⟨c, a, none⟩
    | none => windowFaults s ctx priv k t

/-- A run with its translation; none in the nameless and expert windows. -/
abbrev Mapped := (Nat × Nat) × Option Leaf

/-- The runs translated in order, or the first translation fault. -/
def translateRuns (s : State) (h : HartId) (ctx : BitVec 16) (k : Kind) :
    List (Nat × Nat) → Except Fail (List Mapped) × State
  | [] => (.ok [], s)
  | r :: t =>
    let w := windowOf r.1
    if w = .nameless || w = .expert then
      match translateRuns s h ctx k t with
      | (.ok ms, s) => (.ok ((r, none) :: ms), s)
      | (.error f, s) => (.error f, s)
    else
      match translate s h ctx k r.1 with
      | (.error c, s) => (.error ⟨if c.isSome then 15 else k.translation, r.1, c⟩, s)
      | (.ok l, s) =>
        match translateRuns s h ctx k t with
        | (.ok ms, s) => (.ok ((r, some l) :: ms), s)
        | (.error f, s) => (.error f, s)

/-- Whether a leaf permits an access (R405, R222). -/
def permits (priv : Bool) (k : Kind) (e : Word) : Bool :=
  (priv || bit e 4) && match k with
    | .load => bit e 1
    | .copy => bit e 1
    | .locate => bit e 1
    | .store => bit e 2
    | .blend => bit e 1 && bit e 2
    | .fetch => bit e 3

/-- The first failing permission check. -/
def permissionFaults (priv : Bool) (k : Kind) : List Mapped → Option Fail
  | [] => none
  | ((a, _), some l) :: t => if permits priv k l.pte then permissionFaults priv k t else some ⟨6, a, none⟩
  | (_, none) :: t => permissionFaults priv k t

/-- The place of a run (R300, R301, R344). -/
def pieceOf (s : State) (ctx : BitVec 16) : Mapped → Piece
  | ((a, n), some l) =>
    let pa := l.pa + (a % 2 ^ 57 - l.va)
    { va := a, len := n, key := if getBits l.pte 56 2 = 3 then Config.hostBase + pa else pa, nospec := bit l.pte 55,
      page := if l.size = 2 ^ 16 then a / 4096 * 4096 else a - (a % 2 ^ 57 - l.va) }
  | ((a, n), none) =>
    match windowOf a with
    | .nameless => { va := a, len := n, key := poolKey a, nospec := false, page := a / 1024 * 1024 }
    | _ => { va := a, len := n, key := (expertKey s ctx a).getD 0, nospec := false, page := a / 4096 * 4096 }

/-- The first byte whose target cannot be reached or, for a read, is poisoned (R21, R394, and the pool slots of
16_tables that an error has poisoned). -/
def targetFaults (s : State) (h : HartId) (k : Kind) : List Piece → Option Fail
  | [] => none
  | p :: t =>
    let expert := windowOf p.va == .expert
    if !(Config.poolBase ≤ p.key) && !reaches s.dev expert p.key then some ⟨15, p.va, some ⟨4, some p.key⟩⟩
    else if k = .store || k = .locate then targetFaults s h k t
    else if Config.poolBase ≤ p.key && s.mem.badSlots.contains (slotOf p.va) then some ⟨15, p.va, some ⟨1, none⟩⟩
    else match firstPoison s.mem (.hart h (pathOf s.dev (k = .copy) p.key)) p.key p.len with
      | some b => some ⟨15, p.va + (b - p.key), some ⟨1, if Config.poolBase ≤ p.key then none else some b⟩⟩
      | none => targetFaults s h k t

/-- The translations of an access that passed its checks, remembered. -/
def rememberAll (s : State) (h : HartId) (ctx : BitVec 16) (k : Kind) : List Mapped → State
  | [] => s
  | ((a, _), some l) :: t => rememberAll (remember s h ctx k a l) h ctx k t
  | (_, none) :: t => rememberAll s h ctx k t

/-- The checks of n bytes at an address in the order of R174, but for alignment, by a hart on behalf of a context in a
mode; the address is exact, and one below 0 is not canonical. On success the places of the bytes. -/
def checkAs (s : State) (h : HartId) (ctx : BitVec 16) (priv : Bool) (k : Kind) (a : Int) (n : Nat) :
    Except Fail (List Piece) × State :=
  if a < 0 then (.error ⟨7, wrap 64 a, none⟩, s)
  else match canonicalFault a.toNat n with
  | some f => (.error f, s)
  | none =>
    let rs := runs a.toNat n
    match windowFaults s ctx priv k rs with
    | some f => (.error f, s)
    | none =>
      match translateRuns s h ctx k rs with
      | (.error f, s) => (.error f, s)
      | (.ok ms, s) =>
        match permissionFaults priv k ms with
        | some f => (.error f, s)
        | none =>
          let ps := ms.map (pieceOf s ctx)
          match targetFaults s h k ps with
          | some f => (.error f, s)
          | none => (.ok ps, rememberAll s h ctx k ms)

/-! ## Access through pieces -/

/-- Two pieces share a byte. -/
def touching (p q : Piece) : Bool := p.key < q.key + q.len && q.key < p.key + p.len

/-- The path of an access to a piece. -/
def piecePath (s : State) (copy : Bool) (p : Piece) : Path := pathOf s.dev copy p.key

/-- The bytes that an instruction of the hart loads at checked places. -/
def loadPieces (s : State) (h : HartId) (copy : Bool) (ps : List Piece) : List Byte :=
  ps.flatMap fun p => hartBytes s.mem h (piecePath s copy p) p.key p.len

/-- The bytes at checked places as the hart reads them now. -/
def readPieces (s : State) (h : HartId) (ps : List Piece) : List Byte :=
  ps.flatMap fun p => readBytes s.mem (.hart h (piecePath s false p)) p.key p.len

/-- The early reads of a hart at some pieces given up. -/
def forgetPieces (s : State) (h : HartId) (ps : List Piece) : State :=
  { s with mem := forget s.mem h fun k => ps.any fun p => p.key < k + 8 && k < p.key + p.len }

/-- The early reads of a hart on a path given up: an acquire on it has been performed, and younger accesses begin after it
(R282). -/
def acquireOn (s : State) (h : HartId) (p : Path) : State :=
  { s with mem := forget s.mem h fun k => pathOf s.dev false k == p }

/-- The same for the path of some pieces. -/
def acquirePieces (s : State) (h : HartId) (ps : List Piece) : State :=
  { s with mem := forget s.mem h fun k => ps.any fun p => pathOf s.dev false k == piecePath s false p }

/-- The early reads of a hart given up where its own accesses, or its copies, are on some paths: the younger accesses on them
begin after a fence. -/
def forgetPaths (s : State) (h : HartId) (p : Path → Bool) : State :=
  { s with mem := forget s.mem h fun k => p (pathOf s.dev false k) || p .C }

/-- Every early read of a hart given up. -/
def forgetAll (s : State) (h : HartId) : State := { s with mem := forget s.mem h fun _ => true }

/-- Bytes issued to checked places as one unit of an instruction, one access for each piece; `whole` when readers see all
of them or none (R272). -/
def storePieces (s : State) (h : HartId) (copy : Bool) (tag u : Nat) (order : ElemOrder) (whole : Bool) :
    List Piece → List Byte → State
  | [], _ => s
  | p :: t, bs =>
    let m := issueCells s.mem h (piecePath s copy p) (cellsAt p.key (bs.take p.len)) tag u order whole
    storePieces { s with mem := m } h copy tag u order whole t (bs.drop p.len)

/-- Bytes issued to checked places one by one, each as a unit of its own (R274). -/
def storeBytes (s : State) (h : HartId) (copy : Bool) (tag u : Nat) (order : ElemOrder) (ps : List Piece) (bs : List Byte) :
    State :=
  let singles := ps.flatMap fun p => (List.range p.len).map fun i => { p with va := p.va + i, key := p.key + i, len := 1 }
  ((singles.zip bs).zip (List.range bs.length)).foldl
    (fun s x => storePieces s h copy tag (u + x.2) order true [x.1.1] [x.1.2]) s

/-- Whether any piece lies in another package. -/
def anyRemote (s : State) (ps : List Piece) : Bool := ps.any fun p => piecePath s false p == .L

/-- An access on path L counted (R438). -/
def countRemote (s : State) (h : HartId) (ps : List Piece) : State :=
  if anyRemote s ps then modHart s h (count · 22 1) else s

end Machine

end Sys2Proof
end

