-- ==== Sys2Proof/Machine/Ops.lean ====
section
/-! DEFINITION. The shared operations on the package: machine-check banks (R421 to R423), farms and their end (R360, R370,
R393), posted reductions (R319 to R321), the log slot (R385 to R388, R392), taking a trap (R382, R383) and returning from
one (R389). -/

namespace Sys2Proof

namespace Machine

/-! ## Machine-check banks -/

/-- The banks of R421 that stand for no unit read zero. -/
def bankExists (b : Nat) : Bool := b < 62

/-- A status word (R422). -/
def bankStatus (ovf : Bool) (cls : Nat) (addrv poison : Bool) (unit cause code : Nat) : BitVec 64 :=
  BitVec.ofNat 64 (2 ^ 63 + ofBool ovf * 2 ^ 62 + cls % 4 * 2 ^ 60 + ofBool addrv * 2 ^ 59 + ofBool poison * 2 ^ 58
    + unit % 2 ^ 8 * 2 ^ 40 + cause % 2 ^ 8 * 2 ^ 32 + code % 2 ^ 16)

/-- An error as a bank records it (R422). -/
structure BankError where
  cls    : Nat
  unit   : Nat
  cause  : Nat
  code   : Nat
  addr   : Option Nat
  syn    : BitVec 64
  poison : Bool
  deriving DecidableEq, Repr

/-- A bank after an error (R423). -/
def bankAfter (b : Bank) (e : BankError) : Bank :=
  let valid := bit b.status 63
  let b := if e.cls = 1 then { b with count := BitVec.ofNat 64 (min (getBits b.count 0 32 + 1) 0xFFFFFFFF) } else b
  if !valid || getBits b.status 60 2 < e.cls then
    { b with
      status := bankStatus (bit b.status 62) e.cls e.addr.isSome e.poison e.unit e.cause e.code
      addr := BitVec.ofNat 64 (e.addr.getD 0 % 2 ^ 55)
      syn := e.syn }
  else { b with status := b.status ||| BitVec.ofNat 64 (2 ^ 62) }

/-- An error recorded in a bank (R421, R423). -/
def recordError (s : State) (b : Nat) (e : BankError) : State :=
  if h : b < 64 then
    if bankExists b then { s with dev := { s.dev with banks := s.dev.banks.set b (bankAfter s.dev.banks[b] e) } } else s
  else s

/-- The record of an access that reached nothing, in the bank of the unit that made it (R21, R421). -/
def recordUnreachable (s : State) (bank unit cause addr : Nat) : State :=
  recordError s bank
    { cls := 2, unit, cause, code := 4, addr := some addr, syn := Config.syndrome 4 addr, poison := false }

/-- The record of a read of poisoned bytes, in the bank of the unit that read them (R394, R421, R423). -/
def recordPoison (s : State) (bank unit cause : Nat) (addr : Option Nat) : State :=
  recordError s bank { cls := 2, unit, cause, code := 1, addr, syn := Config.syndrome 1 (addr.getD 0), poison := false }

/-- The record of an access of a hart that failed, in the bank of its circlet (R421, R422). One that follows another
contained error in the bank leaves no more than the overflow bit there (R423). -/
def recordNote (s : State) (h : HartId) (n : Option BankNote) : State :=
  match n with
  | none => s
  | some ⟨4, some a⟩ => recordUnreachable s (circletOf h) (h.val % 16) 15 a
  | some n => recordPoison s (circletOf h) (h.val % 16) 15 n.addr

/-! ## Farms -/

/-- The farm with a number. -/
def farmOf (s : State) (n : BitVec 32) : Option Farm := s.sched.farms.find? (fun f => f.number == n)

/-- The farm with a number changed. -/
def modFarm (s : State) (n : BitVec 32) (g : Farm → Farm) : State :=
  { s with sched := { s.sched with farms := s.sched.farms.map fun f => if f.number == n then g f else f } }

/-- The farm-relative index of a hart (R37). -/
def indexOf (f : Farm) (h : HartId) : Nat := (findPos (fun m => m.hart == some h) f.members).getD 0

/-- A hart's member of its farm changed. -/
def modMember (s : State) (h : HartId) (g : Member → Member) : State :=
  modFarm s (hartOf s h).farmid fun f =>
    { f with members := f.members.map fun m => if m.hart == some h then g m else m }

/-- The harts on which a farm is placed. -/
def farmHarts (f : Farm) : List HartId := f.members.filterMap (·.hart)

/-- A decision of a partition's scheduler is due (R362). -/
def decide! (s : State) (part : BitVec 10) : State :=
  { s with agenda := s.agenda ++ [.event (.schedulerDecision part.toNat)] }

/-- The scheduler's write of a completion word, performed at system scope; a word that cannot be reached is recorded in
bank 61 and the write dropped (R360, R421). -/
def writeDone (s : State) (l : Launch) (w : Nat) : State :=
  if reaches s.dev false l.done then { s with mem := commitCells s.mem none (cellsAt l.done (leBytes 8 w)) }
  else recordUnreachable s 61 0 0 l.done

/-- A completion word (R359). -/
def doneWord (flags : BitVec 12) (cause : BitVec 8) (size : Bool) (count : Nat) : Nat :=
  flags.toNat * 2 ^ 32 + cause.toNat * 2 ^ 24 + ofBool size * 2 ^ 16 + count

/-! ## Experts and tickets (R413 to R415) -/

/-- An ERT entry by index. -/
def ertAt (s : State) (i : Nat) : Option ErtEntry := tget none s.sched.ert i

/-- An ERT entry changed. -/
def setErt (s : State) (i : Nat) (e : Option ErtEntry) : State :=
  { s with sched := { s.sched with ert := tset none s.sched.ert i e } }

/-- The entry of a context with a key (R416). -/
def ertFind (s : State) (ctx : BitVec 16) (key : BitVec 32) : Option (Nat × ErtEntry) :=
  let here (p : Nat × Option ErtEntry) : Bool := match p.2 with
    | some e => e.ctx == ctx && e.key == key && ctx != 0
    | none => false
  match s.sched.ert.find? here with
  | some (i, some e) => some (i, e)
  | _ => none

/-- n pins dropped; a saturated count stays (R417). -/
def lowerPins (pins : BitVec 32) (n : Nat) : BitVec 32 :=
  if pins.toNat = 0xFFFFFFFF then pins else BitVec.ofNat 32 (pins.toNat - n)

/-- One pin added, saturating (R413). -/
def raisePins (pins : BitVec 32) : BitVec 32 := BitVec.ofNat 32 (min (pins.toNat + 1) 0xFFFFFFFF)

/-- The entry index in a ticket (R414). -/
def ticketIndex (t : Word) : Nat := getBits t 1 13

/-- The ticket of an entry's generation (R414). -/
def ticketOf (i : Nat) (gen : BitVec 32) : Word := word (gen.toNat * 2 ^ 32 + i * 2 + 1)

/-- Tokens parked under a ticket, in all wait queues. -/
def parkedUnder (s : State) (ctx : BitVec 16) (t : Word) : Bool :=
  s.sched.parked.any fun p => p.ticket == t && (farmOf s p.farm).any (fun f => f.launch.ctx == ctx)

/-- The pin of a ticket dropped when no token is parked under it any more (R415). -/
def settleTicket (s : State) (ctx : BitVec 16) (t : Word) : State :=
  if parkedUnder s ctx t then s
  else
    let held := s.sched.ticketPins.contains (ctx, t)
    let s := { s with sched := { s.sched with
      ready := s.sched.ready.filter (· != (ctx, t)), ticketPins := s.sched.ticketPins.filter (· != (ctx, t)) } }
    if held then
      match ertAt s (ticketIndex t) with
      | some e => setErt s (ticketIndex t) (some { e with pins := lowerPins e.pins 1 })
      | none => s
    else s

/-- Each of some tickets settled. -/
def settleTickets (s : State) (ctx : BitVec 16) : List Word → State
  | [] => s
  | t :: ts => settleTickets (settleTicket s ctx t) ctx ts

/-- The tickets under which a farm has tokens parked. -/
def farmTickets (s : State) (n : BitVec 32) : List Word :=
  ((s.sched.parked.filter fun p => p.farm == n).map (·.ticket)).eraseDups

/-- The parked tokens of a farm discarded (R370). -/
def discardTokens (s : State) (f : Farm) : State :=
  let ts := farmTickets s f.number
  let parked := s.sched.parked.filter fun p => p.farm != f.number
  settleTickets { s with sched := { s.sched with parked } } f.launch.ctx ts

/-- The pins that a farm holds dropped (R370, R417). -/
def dropPins (s : State) (ctx : BitVec 16) : List (Nat × Nat) → State
  | [] => s
  | (key, n) :: t =>
    let s := match ertFind s ctx (BitVec.ofNat 32 key) with
      | some (i, e) => setErt s i (some { e with pins := lowerPins e.pins n })
      | none => s
    dropPins s ctx t

/-- The receive ring of a context (R376, R377). -/
def ringOf (s : State) (c : Nat) : Ring := (tget none s.sched.rings c).getD ⟨0, [], []⟩

/-- A receive ring replaced. -/
def setRing (s : State) (c : Nat) (r : Ring) : State :=
  { s with sched := { s.sched with rings := tset none s.sched.rings c (some r) } }

/-- The ring slots that a hart's last xrecv returned, freed (R376). -/
def freeSlots (s : State) (h : HartId) : State :=
  let hd := hartOf s h
  if hd.slots.isEmpty then s
  else
    let r := ringOf s hd.ctxid.toNat
    let r := { r with held := r.held.filter fun k => !hd.slots.contains k }
    modHart (setRing s hd.ctxid.toNat r) h fun hd => { hd with slots := [] }

/-! ## The log slot (R385 to R388) -/

/-- Bytes written for a hart into checked pieces and performed at once, behind the hart's own older writes of them. -/
def storeSystem (s : State) (h : HartId) (ps : List Piece) (bs : List Byte) : State :=
  let cells := ps.foldl (fun (acc : List Host.Cell × List Byte) p =>
    (acc.1 ++ cellsAt p.key (acc.2.take p.len), acc.2.drop p.len)) ([], bs)
  let m := performWant s.dev s.mem fun a => if (a.hart == h || 2 ≤ a.level) && shares a.cells cells.1 then 5 else 0
  { s with mem := seenBy (clearPoisonAt (commitCells m (some h) cells.1) cells.1) (some (h, .V)) cells.1 }

/-- The pieces of several privileged writes of a hart; the cause of the first that fails its checks. -/
def placeSystems (s : State) (h : HartId) (ctx : BitVec 16) :
    List (Nat × List Byte) → Except Fail (List (List Piece × List Byte)) × State
  | [] => (.ok [], s)
  | (a, bs) :: t => match checkAs s h ctx true .store a bs.length with
    | (.error f, s) => (.error f, s)
    | (.ok ps, s) => match placeSystems s h ctx t with
      | (.ok r, s) => (.ok ((ps, bs) :: r), s)
      | r => r

/-- Bytes written for a hart at virtual addresses, privileged, once all of them have passed their checks; when one fails,
nothing is written, and its cause is given (log 22). -/
def writeSystems (s : State) (h : HartId) (ctx : BitVec 16) (ws : List (Nat × List Byte)) : Option Fail × State :=
  match placeSystems s h ctx ws with
  | (.error f, s) => (some f, s)
  | (.ok ps, s) => (none, ps.foldl (fun s p => storeSystem s h p.1 p.2) s)

/-- n bytes read for a hart at a virtual address, privileged. -/
def readSystem (s : State) (h : HartId) (ctx : BitVec 16) (va n : Nat) : Except Fail (List Byte) × State :=
  match checkAs s h ctx true .load va n with
  | (.error f, s) => (.error f, s)
  | (.ok ps, s) => (.ok (readPieces s h ps), s)

/-- The log slot of a hart (R385). -/
def logSlot (s : State) (h : HartId) (ctx : BitVec 16) : Nat := ctxLog (ctxImage s ctx.toNat) + h.val * 32768

/-- The 128-byte image of a queue entry (R387). -/
def imageOf (e : Entry) : List Byte :=
  leBytes 8 e.bits.toNat ++ leBytes 8 e.pc.toNat ++ leBytes 8 e.op0.toNat ++ leBytes 8 e.op1.toNat
    ++ leBytes 8 e.op2.toNat ++ leBytes 8 e.op3.toNat ++ leBytes 8 e.vtype.toNat ++ leBytes 4 e.start ++ leBytes 2 e.vl
    ++ leBytes 1 e.vrc ++ leBytes 1 e.vslip.toNat ++ leBytes 2 e.wthr.toNat ++ leBytes 2 e.fthr.toNat
    ++ leBytes 4 e.wtemp.toNat ++ leBytes 1 e.wctl.toNat ++ leBytes 3 e.mshape.toNat ++ leBytes 2 e.nhint.toNat
    ++ leBytes 2 (ofBool e.joined) ++ leBytes 1 e.group ++ List.replicate 47 0

/-- The instruction of an image: what its bits decode to, or the illegal instruction that they are (R389). -/
def imageInstr (bits : Nat) : Instr :=
  match decodeBytes (leBytes 8 bits) with
  | .ok (i, 8, _) => i
  | _ => .illegalInstruction (BitVec.ofNat 64 bits)

/-- A field of an image or record. -/
def fieldAt (bs : List Byte) (pos n : Nat) : Nat := leValue ((bs.drop pos).take n)

/-- The queue entry of an image, to be replayed unclasped (R389). An image holds no count of the setvl and setvli before its
entry, which R308 compares at a trim: every replayed entry takes the count that the hart has when it is replayed, so that no
setvl committed between two of them separates them any more (log 53, DESIGN CHOICE). -/
def entryOf (bs : List Byte) (epoch : Nat) : Entry :=
  { instr := imageInstr (fieldAt bs 0 8), bits := BitVec.ofNat 64 (fieldAt bs 0 8), pc := word (fieldAt bs 8 8),
    op0 := word (fieldAt bs 16 8), op1 := word (fieldAt bs 24 8), op2 := word (fieldAt bs 32 8),
    op3 := word (fieldAt bs 40 8), vtype := word (fieldAt bs 48 8), start := fieldAt bs 56 4, vl := fieldAt bs 60 2,
    vrc := fieldAt bs 62 1, vslip := BitVec.ofNat 8 (fieldAt bs 63 1), wthr := BitVec.ofNat 16 (fieldAt bs 64 2),
    fthr := BitVec.ofNat 16 (fieldAt bs 66 2), wtemp := BitVec.ofNat 32 (fieldAt bs 68 4),
    wctl := BitVec.ofNat 8 (fieldAt bs 72 1), mshape := BitVec.ofNat 24 (fieldAt bs 73 3),
    nhint := BitVec.ofNat 9 (fieldAt bs 76 2), group := fieldAt bs 80 1, joined := false, epoch }

/-- The images of some entries, from an address on. -/
def imageWrites (base : Nat) : List Entry → List (Nat × List Byte)
  | [] => []
  | e :: es => (base, imageOf e) :: imageWrites (base + 128) es

/-- The header layout of R386. -/
def headerOf (seq cause inner kind : Nat) (epc resume evalue evstart estatus : Word) (farm : BitVec 32) (x5 : Nat)
    (h : HartId) (nq tseq : Nat) : List Byte :=
  leBytes 4 seq ++ leBytes 1 cause ++ leBytes 1 inner ++ leBytes 2 kind ++ leBytes 8 epc.toNat ++ leBytes 8 resume.toNat
    ++ leBytes 8 evalue.toNat ++ leBytes 8 evstart.toNat ++ leBytes 8 estatus.toNat ++ leBytes 4 farm.toNat
    ++ leBytes 2 x5 ++ leBytes 2 h.val ++ leBytes 2 0 ++ leBytes 2 nq ++ leBytes 4 tseq

/-! ## Posted operations (R319 to R321, R392) -/

/-- One posted-op record in a hart's log slot (R392). -/
def postedRecord (s : State) (h : HartId) (ctx : BitVec 16) (farm : BitVec 32) (inner : Nat) (epc evalue : Word)
    (elem : Nat) : Option Fail × State :=
  let base := logSlot s h ctx
  let s := modHart s h fun hd => { hd with cause := 14 }
  match readSystem s h ctx base 4 with
  | (.error f, s) => (some f, s)
  | (.ok old, s) =>
    let seq := (leValue old + 1) % 2 ^ 32
    let x5 := ((farmOf s farm).map (indexOf · h)).getD 0
    let head := (headerOf seq 14 inner 1 epc 0 evalue (word elem) 0 farm x5 h 0 0).take 56 ++ List.replicate 8 0
    writeSystems s h ctx [(base, leBytes 4 seq), (base + 0x7E00 + 64 * (seq % 8), head)]

/-- The new value of one combine of a posted reduction (R134, R137, R319, R320). -/
def combineRed (op : RedOp) (et : Nat) (ftz : Bool) (old new : Nat) : Nat :=
  if et = 10 then
    let f := fmtOf 10
    let a := unpack f ftz old
    let b := unpack f ftz new
    match op with
    | .add => (deliverWith f 1 ftz (exactAdd 1 a b)).1
    | .max => (deliverWith f 1 ftz (exactMinMax true a b)).1
    | _ => (deliverWith f 1 ftz (exactMinMax false a b)).1
  else match op with
    | .add => (old + new) % 2 ^ etWidth et
    | .max => if intVal et old < intVal et new then new else old
    | .min => if intVal et new < intVal et old then new else old
    | .and => old &&& new
    | .or => old ||| new

/-- The checks of an atomic update of n bytes, treated as a store that also reads (R177, R305, R394). -/
def checkAtomicAs (s : State) (h : HartId) (ctx : BitVec 16) (priv : Bool) (a : Int) (n : Nat) :
    Except Fail (List Piece) × State :=
  if a % n ≠ 0 then (.error ⟨3, wrap 64 a, none⟩, s)
  else match checkAs s h ctx priv .store a n with
    | (.ok (p :: ps), s) => match firstPoison s.mem (.hart h (piecePath s false p)) p.key p.len with
      | some b => (.error ⟨15, p.va + (b - p.key), some ⟨1, some b⟩⟩, s)
      | none => (.ok (p :: ps), s)
    | r => r

/-- One element of a posted reduction performed, or dropped with its cause and address (R321). -/
def performRed (s : State) (p : Posted) (e : RedElem) : Option (Nat × Word) × State :=
  let n := etBytes p.et
  match checkAtomicAs s p.hart p.ctx p.priv e.addr n with
    | (.error f, s) =>
      (some (f.cause, word f.value), recordNote s p.hart f.bank)
    | (.ok ps, s) => match ps with
      | q :: _ =>
        let r := atomicUpdate s.dev s.mem p.hart (piecePath s false q) q.key n
          fun old => some (combineRed p.op p.et p.ftz old e.value.toNat)
        (none, countRemote { s with mem := r.2 } p.hart [q])
      | [] => (none, s)

/-- A posted reduction without an element, with the lowest failing element kept. -/
def acked (p : Posted) (e : RedElem) (fail : Option (Nat × Word)) : Posted :=
  let failed := match fail, p.failed with
    | none, old => old
    | some (c, a), none => some (e.index, c, a)
    | some (c, a), some (i, c', a') => if e.index < i then some (e.index, c, a) else some (i, c', a')
  { p with elems := p.elems.filter fun o => o.index != e.index, failed }

/-- The elements of a posted reduction performed in order, and its record written when one failed. -/
def finishRed (s : State) (p : Posted) : List RedElem → Posted × State
  | [] => (p, s)
  | e :: es =>
    let r := performRed s p e
    finishRed r.2 (acked p e r.1) es

/-! ### The accesses of an instruction behind its hart's posted reductions (R43, R271)

A posted reduction updates memory after its entry has completed, on the path of the hart's own loads and stores. An access
that follows it in program order to the same bytes is performed after it. -/

/-- Whether an element of a posted reduction lies on bytes of some pieces. -/
def redOn (s : State) (ps : List Piece) (p : Posted) (e : RedElem) : Bool :=
  let n := etBytes p.et
  e.addr % n == 0 && match (checkAs s p.hart p.ctx p.priv .store e.addr n).1 with
    | .ok qs => qs.any fun q => ps.any (touching q)
    | .error _ => false

/-- The elements of a posted reduction that lie on some bytes performed, in order. The last one acknowledged takes the
reduction away unless it has a failure to report. -/
def settleRed (ps : List Piece) (s : State) (p : Posted) : State :=
  let els := p.elems.filter (redOn s ps p)
  if els.isEmpty then s
  else
    let r := finishRed s p els
    let left (q : Posted) : Option Posted :=
      if q.tag ≠ p.tag then some q else if r.1.elems.isEmpty && r.1.failed.isNone then none else some r.1
    { r.2 with mem := { r.2.mem with posted := r.2.mem.posted.filterMap left } }

/-- The posted reductions of a hart performed where they lie on some bytes. -/
def settleReds (s : State) (h : HartId) (ps : List Piece) : State :=
  (s.mem.posted.filter fun p => p.hart == h).foldl (settleRed ps) s

/-- An access of a hart whose checks have passed follows the hart's posted reductions to its bytes. -/
def behindReds (h : HartId) : Except Fail (List Piece) × State → Except Fail (List Piece) × State
  | (.ok ps, s) => (.ok ps, settleReds s h ps)
  | r => r

/-- The checks of an access by an instruction of a hart in its own context and mode; then it is the access's turn. -/
def check (s : State) (h : HartId) (k : Kind) (a : Int) (n : Nat) : Except Fail (List Piece) × State :=
  behindReds h (checkAs s h (hartOf s h).ctxid (hartOf s h).priv k a n)

/-- The same for an atomic update of n bytes. -/
def checkAtomic (s : State) (h : HartId) (ctx : BitVec 16) (priv : Bool) (a : Int) (n : Nat) :
    Except Fail (List Piece) × State := behindReds h (checkAtomicAs s h ctx priv a n)

/-! ### What is reported of posted operations -/

/-- The record of a posted reduction that has a failing element; the cause when it cannot be written. -/
def reportRed (s : State) (p : Posted) : Option Fail × State :=
  match p.failed with
  | none => (none, s)
  | some (i, c, a) => postedRecord s p.hart p.ctx p.farm c p.pc a i

/-- Every posted reduction in a list finished: each element in order, then its record. The first record that cannot be
written is returned. -/
def finishPosted (s : State) : List Posted → Option (HartId × BitVec 32 × Fail) × State
  | [] => (none, s)
  | p :: ps =>
    let r := finishRed s p p.elems
    let s := { r.2 with mem := { r.2.mem with posted := r.2.mem.posted.filter fun q => q.tag != p.tag } }
    let w := reportRed s r.1
    let rest := finishPosted w.2 ps
    match w.1 with
    | some f => (some (p.hart, p.farm, f), rest.2)
    | none => rest

/-- A copy whose counter cannot be raised: the counter, or a byte of the copy, no longer reaches memory (R21, R270). -/
def copyLost (d : Device) (m : Mem) (c : CopyCounter) : Bool :=
  (c.addr < Config.poolBase && !reaches d false c.addr) || anyLost d m c.hart (·.tag == c.tag)

/-- The poison that the counter increment of a copy, which reads the word, meets there (R394). -/
def counterPoison (s : State) (c : CopyCounter) : Option BankNote :=
  let pool := decide (Config.poolBase ≤ c.addr)
  if pool && s.mem.badSlots.contains ((c.addr - Config.poolBase) / 1024) then some ⟨1, none⟩
  else (firstPoison s.mem (.hart c.hart .C) c.addr 8).map fun b => ⟨1, if pool then none else some b⟩

/-- The report of an access of a hart, as its bank has it, for a trap of its own (R391, R422). -/
def reportAt (h : HartId) (n : BankNote) : ErrorReport :=
  { bank := ⟨circletOf h % 64, Nat.mod_lt _ (by decide)⟩, unit := BitVec.ofNat 8 (h.val % 16), code := BitVec.ofNat 16 n.code,
    addr := n.addr.map (BitVec.ofNat 55), syn := 0 }

/-- An asynchronous trap latched on a hart; one that is latched already takes it in (R383). -/
def latch (s : State) (h : HartId) (e : ErrorReport) : State :=
  modHart s h fun hd => { hd with pendingTrap := some (hd.pendingTrap.getD e) }

/-- A copy that meets a poisoned counter word: the word stays, and the error is recorded. -/
def dropCounterWord (s : State) (c : CopyCounter) (n : BankNote) : State :=
  let m := { s.mem with counters := s.mem.counters.filter fun d => d.tag != c.tag }
  recordNote { s with mem := m } c.hart (some n)

/-- The same with the machine check latched on the hart, which has gone on (R391, R394). -/
def poisonCopy (s : State) (c : CopyCounter) (n : BankNote) : State :=
  latch (dropCounterWord s c n) c.hart (reportAt c.hart n)

/-- The counter increment of a copy, an atomic add with release of the copy's bytes (R322, R323). -/
def finishCopy (s : State) (c : CopyCounter) : State :=
  if copyLost s.dev s.mem c then s
  else match counterPoison s c with
  | some n => poisonCopy s c n
  | none =>
    let m := performAt s.dev s.mem c.hart (fun a => a.tag == c.tag) c.scope
    let m := { m with counters := m.counters.filter fun d => d.tag != c.tag }
    { s with mem := (atomicUpdate s.dev m c.hart .C c.addr 8 fun v => some (v + 1)).2 }

/-- Every copy counter in a list incremented. -/
def finishCopies (s : State) : List CopyCounter → State
  | [] => s
  | c :: cs => finishCopies (finishCopy s c) cs

/-- A write that no longer reaches memory dropped, with its contained report in the bank of its hart (R21, R270). A copy of
which a byte is dropped never raises its counter, since not every byte of it is performed (R323). -/
def dropWrite (s : State) (a : Access) : State :=
  let m := { s.mem with flight := s.mem.flight.filter fun b => b.id != a.id
                        counters := s.mem.counters.filter fun c => c.tag != a.tag }
  recordUnreachable { s with mem := m } (circletOf a.hart) (a.hart.val % 16) 15 ((a.cells.head?.map (·.1)).getD 0)

/-- Several such writes dropped. -/
def dropWrites (s : State) : List Access → State
  | [] => s
  | a :: t => dropWrites (dropWrite s a) t

/-- A counter increment that no longer reaches memory dropped, with its report. -/
def dropCounter (s : State) (c : CopyCounter) : State :=
  let m := { s.mem with counters := s.mem.counters.filter fun d => d.tag != c.tag }
  recordUnreachable { s with mem := m } (circletOf c.hart) (c.hart.val % 16) 15 c.addr

/-- Several such increments dropped. -/
def dropCounters (s : State) : List CopyCounter → State
  | [] => s
  | c :: t => dropCounters (dropCounter s c) t

/-- Everything a hart has issued performed at system scope or dropped, and the record that could not be written. -/
def flushHart (s : State) (h : HartId) : Option (HartId × BitVec 32 × Fail) × State :=
  let s := dropWrites s (s.mem.flight.filter fun a => a.hart == h && lost s.dev a)
  let s := dropCounters s (s.mem.counters.filter fun c => c.hart == h && copyLost s.dev s.mem c)
  let r := finishPosted s (s.mem.posted.filter fun p => p.hart == h)
  let s := finishCopies r.2 (r.2.mem.counters.filter fun c => c.hart == h)
  (r.1, { s with mem := performAt s.dev s.mem h (fun _ => true) .system })

/-- The same for several harts; a record that cannot be written is passed over, since their farm is ending. -/
def flushHarts (s : State) : List HartId → State
  | [] => s
  | h :: hs => flushHarts (flushHart s h).2 hs

/-! ## The end of a farm -/

/-- A hart given back (R370, R393). -/
def releaseHart (s : State) (h : HartId) : State :=
  let s := freeSlots s h
  modHart (forgetAll { s with mem := dropLinks s.mem h } h) h fun hd =>
    { hd with run := .free, queue := [], sends := [], pendingTrap := none,
              wloopPending := false, trigger := .no }

/-- Several harts given back. -/
def releaseHarts (s : State) : List HartId → State
  | [] => s
  | h :: hs => releaseHarts (releaseHart s h) hs

/-- After pins have been dropped, a fetch that waits may be admitted (R418). -/
def pinsDropped (s : State) : State :=
  if s.sched.fetchQueue.isEmpty then s else { s with agenda := s.agenda ++ [.event .fetchAdmit] }

/-- A farm removed with its parked tokens and pins, its completion word written, and a decision due (R360, R370). -/
def retireFarm (s : State) (f : Farm) (w : Nat) : State :=
  let s := discardTokens s f
  let s := pinsDropped (dropPins s f.launch.ctx f.pins)
  let s := writeDone s f.launch w
  let s := releaseHarts s (farmHarts f)
  decide! { s with sched := { s.sched with farms := s.sched.farms.filter fun g => g.number != f.number } } f.launch.part

/-- A farm whose pre-emption was ordered is suspended once each of its harts has been saved or has ended; a decision is
due then (R365). -/
def settlePreempt (s : State) (n : BitVec 32) : State :=
  match farmOf s n with
  | none => s
  | some f =>
    if f.preempt && f.members.all (fun m => m.hart.isNone) then
      decide! (modFarm s n fun f => { f with preempt := false, suspended := true }) f.launch.part
    else s

/-- A farm ended by a contained machine check (R360, R393): what its harts issued is performed, and the completion word
receives count 2, cause 15 and the flags of the harts that had ended, a count of 0 being raised to 1 first. -/
def endFarm (s : State) (n : BitVec 32) : State :=
  match farmOf s n with
  | none => s
  | some f =>
    let s := flushHarts s (farmHarts f)
    let s := if f.triggered then s else writeDone s f.launch (doneWord 0 0 false 1)
    retireFarm s f (doneWord f.flags 15 false 2)

/-- A failure on the trap path of a hart recorded: its bank names the trap path, with the cause in the syndrome (R383). -/
def recordTrapPath (s : State) (h : HartId) (cause : Nat) : State :=
  recordError s (circletOf h)
    { cls := 2, unit := h.val % 16, cause, code := 8, addr := none, syn := BitVec.ofNat 64 cause, poison := false }

/-- A farm ended by a failure on the trap path of a hart (R383): what the failed access itself reports follows in the bank. -/
def failTrapPath (s : State) (h : HartId) (farm : BitVec 32) (cause : Nat) (note : Option BankNote) : State :=
  endFarm (recordNote (recordTrapPath s h cause) h note) farm

/-- The posted reductions of a hart finished; a record that cannot be written ends the farm (R392). -/
def settlePosted (s : State) (h : HartId) : State :=
  match finishPosted s (s.mem.posted.filter fun p => p.hart == h) with
  | (some (g, farm, f), s) => failTrapPath s g farm f.cause f.bank
  | (none, s) => s

/-- Whether an order holds a release (R82). -/
def releases (ord : Order) : Bool := ord == .rel || ord == .ar

/-- Whether an order holds an acquire (R82). -/
def acquires (ord : Order) : Bool := ord == .acq || ord == .ar

/-- The order of a release before an access of a hart on a path (R281 to R283, R285, R295). -/
def releaseBefore (s : State) (h : HartId) (ord : Order) (p : Path) (sc : Scope) : State :=
  if releases ord then
    let s := settlePosted s h
    { s with mem := releaseAt s.dev s.mem h (fun a => a.path == p) (levelFor sc p) }
  else s

/-- A hart's farm stopped by a contained machine check on it: no other hart of it issues any more (R393). -/
def stopFarm (s : State) (h : HartId) : State :=
  let n := (hartOf s h).farmid
  match farmOf s n with
  | none => s
  | some f =>
    let stop (s : State) (g : HartId) : State :=
      if g = h then s else modHart s g fun hd => { hd with run := .stopped }
    modFarm ((farmHarts f).foldl stop s) n fun f => { f with ending := true }

/-! ## Taking a trap (R382, R383) -/

/-- What a trap records (R380, R386). -/
structure TrapInfo where
  cause   : Nat
  value   : Word
  epc     : Word
  resume  : Word
  /-- The fields of evstart: phase, group and element. -/
  phase   : Nat
  group   : Nat
  elem    : Nat
  /-- The vstart it leaves. -/
  vstart  : Nat
  vec     : Bool
  fetch   : Bool
  async   : Bool
  /-- The younger members of the faulting entry's convoy. -/
  rem     : Nat
  /-- The entries to be replayed. -/
  images  : List Entry
  /-- What the machine-check bank records (R21, R423). -/
  bank    : Option BankNote
  deriving DecidableEq, Repr

/-- A trap of a scalar instruction at the hart's PC, which returns to it (R382, R386). -/
def scalarTrap (hd : Hart) (cause : Nat) (value : Word) : TrapInfo :=
  { cause, value, epc := hd.pc, resume := hd.pc, phase := 0, group := 0, elem := 0, vstart := 0, vec := false,
    fetch := false, async := false, rem := 0, images := [], bank := none }

/-- A fetch fault (R72). The fetch has recorded what its target reports, but for a hart in privileged mode, whose record
follows that of the trap path; there every note leaves the same. -/
def fetchTrap (hd : Hart) (cause : Nat) (addr : Word) : TrapInfo :=
  { scalarTrap hd cause addr with fetch := true, bank := if hd.priv && cause == 15 then some ⟨1, none⟩ else none }

/-- The evstart of a trap (R380). -/
def trapEvstart (t : TrapInfo) : Word := word (t.phase * 2 ^ 62 + t.group % 32 * 2 ^ 32 + t.elem % 2 ^ 32)

/-- The estatus of a trap (R380). -/
def trapEstatus (t : TrapInfo) (wp priv : Bool) : Word :=
  word (ofBool wp * 2 ^ 16 + t.images.length * 2 ^ 8 + ofBool (t.cause == 15) * 2 ^ 7 + t.rem * 2 ^ 4
    + ofBool t.vec * 2 ^ 3 + ofBool t.fetch * 2 ^ 2 + ofBool t.async * 2 + ofBool priv)

/-- The hart as a trap leaves it (R382). -/
def trapHart (hd : Hart) (t : TrapInfo) : Hart :=
  { hd with
    trap := { hd.trap with
      epc := t.epc, ecause := word t.cause, evalue := t.value, evstart := trapEvstart t,
      estatus := trapEstatus t hd.wloopPending hd.priv }
    csr := { hd.csr with vstart := word t.vstart }
    queue := [], priv := true, pc := hd.trap.evec, run := .running, wloopPending := false }

/-- The writes of a trap record and its images with a sequence number (R386, R387). -/
def trapRecord (s : State) (h : HartId) (t : TrapInfo) (seq : Nat) : List (Nat × List Byte) :=
  let hd := hartOf s h
  let base := logSlot s h hd.ctxid
  let x5 := ((farmOf s hd.farmid).map (indexOf · h)).getD 0
  (base, headerOf seq t.cause 0 0 t.epc t.resume t.value (trapEvstart t) (trapEstatus t hd.wloopPending hd.priv) hd.farmid
      x5 h t.images.length seq) :: imageWrites (base + 0x100) t.images

/-- A trap taken by a hart in user mode writes its record and enters the handler; a fault in privileged mode, or a record
that cannot be written, ends the farm (R382, R383). A contained machine check also stops the farm's other harts
(R393). -/
def takeTrap (s : State) (h : HartId) (t : TrapInfo) : State :=
  let hd := hartOf s h
  if hd.priv then failTrapPath s h hd.farmid t.cause t.bank
  else
    let s := recordNote s h t.bank
    match readSystem s h hd.ctxid (logSlot s h hd.ctxid) 4 with
    | (.error f, s) => failTrapPath s h hd.farmid f.cause f.bank
    | (.ok old, s) =>
      match writeSystems s h hd.ctxid (trapRecord s h t ((leValue old + 1) % 2 ^ 32)) with
      | (some f, s) => failTrapPath s h hd.farmid f.cause f.bank
      | (none, s) =>
        let s := modHart { s with mem := dropLinks s.mem h } h (trapHart · t)
        if t.cause = 15 then stopFarm s h else s

/-! ## Returning from a trap (R389) -/

/-- The images of a record, in order, or the fault of reading one. -/
def readImages (s : State) (h : HartId) (ctx : BitVec 16) (base epoch : Nat) : Nat → Except Fail (List Entry) × State
  | 0 => (.ok [], s)
  | n + 1 => match readSystem s h ctx base 128 with
    | (.error f, s) => (.error f, s)
    | (.ok bs, s) => match readImages s h ctx (base + 128) epoch n with
      | (.ok es, s) => (.ok (entryOf bs epoch :: es), s)
      | r => r

/-- The hart as eret leaves it, its images posted (R389). -/
def eretHart (hd : Hart) (resume : Word) (es : List Entry) : Hart :=
  { hd with queue := hd.queue ++ es, pc := resume, priv := bit hd.trap.estatus 0, wloopPending := bit hd.trap.estatus 16 }

/-- eret once the dispatch queue is empty: it ends the farm after a machine check, and otherwise posts the images of the
record as it stands in memory and returns (R389). The link set is broken (R316). The resume PC is loaded as it stands: R70
says that every PC is even and names neither a mask nor a fault for an odd one in an edited record (log 24, DESIGN
CHOICE). -/
def returnFromTrap (s : State) (h : HartId) : State :=
  let hd := hartOf s h
  if bit hd.trap.estatus 7 then endFarm s hd.farmid
  else
    let base := logSlot s h hd.ctxid
    match readSystem s h hd.ctxid base 64 with
    | (.error f, s) => failTrapPath s h hd.farmid f.cause f.bank
    | (.ok r, s) =>
      let first := fieldAt r 56 2
      let nq := fieldAt r 58 2
      if 128 < nq || nq < first then failTrapPath s h hd.farmid 0 none
      else match readImages s h hd.ctxid (base + 0x100 + 128 * first) hd.epoch (nq - first) with
        | (.error f, s) => failTrapPath s h hd.farmid f.cause f.bank
        | (.ok es, s) =>
          modHart { s with mem := dropLinks s.mem h } h fun hd => eretHart hd (word (fieldAt r 16 8)) es

end Machine

end Sys2Proof
end

