-- ==== Sys2Proof/Machine/Fetch.lean ====
section
/-! DEFINITION. Fetching an instruction (R69 to R72) through the instruction cache (R357). -/

namespace Sys2Proof

namespace Machine

/-- What a fetch gives: an instruction with its length and bits, a fetch fault with its cause and address (R72), or a
pattern that is no instruction, with the evalue of its trap (R70, R73). -/
inductive Fetched where
  | instr (i : Instr) (len bits : Nat)
  | fault (cause : Nat) (addr : Word)
  | illegal (bits : BitVec 64)
  deriving DecidableEq, Repr

/-- The bytes of a checked piece's 64-byte line, cached by virtual address: a line is filled whole. -/
def fillLine (s : State) (h : HartId) (p : Piece) : State :=
  let o := p.va % Config.icacheLine
  let bs := readBytes s.mem (.hart h (piecePath s false p)) (p.key - o) Config.icacheLine
  modHart s h fun hd => { hd with icache := tsets none hd.icache (p.va - o) (bs.map some) }

/-- The two bytes of a parcel: memory's, or the instruction cache's where they differ, by a free choice (R357, log 9). What
a target that cannot be read reports is recorded, in privileged mode by the trap path (`fetchTrap`). -/
def fetchParcel (s : State) (h : HartId) (va : Nat) : Except Fail (List Byte) × State :=
  match checkAs s h (hartOf s h).ctxid (hartOf s h).priv .fetch va 2 with
  | (.error f, s) => (.error f, if (hartOf s h).priv then s else recordNote s h f.bank)
  | (.ok ps, s) =>
    let now := readPieces s h ps
    match ps with
    | [] => (.ok now, s)
    | p :: _ =>
      let old := tgets none (hartOf s h).icache va 2
      if old = now.map some then (.ok now, s)
      else if old.all (·.isSome) then
        let s' := { s with fresh := s.fresh + 1 }
        if Config.oldParcel s.fresh then (.ok (old.map (·.getD 0)), s') else (.ok now, fillLine s' h p)
      else (.ok now, fillLine s h p)

/-- n parcels from an address, in order; the address of the first that fails. -/
def fetchParcels (s : State) (h : HartId) (va : Nat) : Nat → Except (Nat × Nat) (List Byte) × State
  | 0 => (.ok [], s)
  | n + 1 => match fetchParcel s h va with
    | (.error f, s) => (.error (f.cause, va), s)
    | (.ok bs, s) => match fetchParcels s h (va + 2) n with
      | (.ok cs, s) => (.ok (bs ++ cs), s)
      | r => r

/-- The instruction at an address (R69, R70, R72, R73). -/
def fetchAt (s : State) (h : HartId) (pc : Nat) : Fetched × State :=
  match fetchParcels s h pc 1 with
  | (.error (c, a), s) => (.fault c (word a), s)
  | (.ok first, s) =>
    let p := leValue first
    let len := lengthOf p
    if len = 8 && pc % 4 ≠ 0 then
      match fetchParcels s h (pc + 2) 1 with
      | (.ok second, s) => (.illegal (BitVec.ofNat 64 (p + leValue second * 2 ^ 16)), s)
      | (.error _, s) => (.illegal (BitVec.ofNat 64 p), s)
    else
      match fetchParcels s h (pc + 2) (len / 2 - 1) with
      | (.error (c, a), s) => (.fault c (word a), s)
      | (.ok rest, s) =>
        let bs := first ++ rest
        match decodeBytes bs with
        | .ok (i, _, _) => (.instr i len (leValue bs), s)
        | .error _ => (.illegal (BitVec.ofNat 64 (leValue bs)), s)

/-- The instruction at a hart's PC. -/
def fetch (s : State) (h : HartId) : Fetched × State := fetchAt s h (hartOf s h).pc.toNat

end Machine

end Sys2Proof
end

