-- ==== Sys2Proof/Machine/Plan.lean ====
section
/-! DEFINITION. How a posted entry is performed (R30 to R34, R44 to R49, R54, R185, R189, R216 to R219): a plan gives its
units in order and what each does. The sequencer runs plans; each family of instructions gives its own. -/

namespace Sys2Proof

namespace Machine

/-- A fault of one unit of an entry: cause and value (R379), what evstart records (R384), the vstart it leaves, the start
its image records, and what a machine-check bank records. -/
structure UnitFault where
  cause  : Nat
  value  : Word
  phase  : Nat
  group  : Nat
  elem   : Nat
  vstart : Nat
  start  : Nat
  bank   : Option BankNote
  deriving DecidableEq, Repr

/-- A fault at an element that is its own place (R384). -/
def faultAt (t cause : Nat) (value : Word) (bank : Option BankNote) : UnitFault :=
  { cause, value, phase := 0, group := 0, elem := t, vstart := t, start := t, bank }

/-- What performing one unit gives: the next unit, a fault that leaves the unit unperformed, or the end of a load that
trims vl to a count (R307). -/
inductive UnitEnd where
  | next (s : State)
  | fault (f : UnitFault) (s : State)
  | trim (n : Nat) (s : State)

/-- A plan: units u from the start to below `total`, each followed by `after u`; `group` gives the element group of a
unit; a lock-step plan acts on element groups of equal numbers at its source and its destination, so it can have
performed its lower element groups when an older member of its convoy faults, and every other has not begun by then
(R45, R46, R49, R52). `finish` runs when the last unit is done. -/
structure Plan where
  total    : Nat
  after    : Nat → Nat
  group    : Nat → Nat
  lockstep : Bool
  /-- Whether `finish` runs although there was no unit to perform. -/
  always   : Bool
  perform  : State → Nat → UnitEnd
  finish   : State → State := id
  /-- Whether it reaches device memory. -/
  memory   : Bool := false
  /-- The first unit, when it is not the starting element, and the group and start that stand for a unit in an image
  (R256, R387). -/
  first    : Option Nat := none
  place    : Nat → Nat × Nat := fun u => (0, u)
  /-- The element groups that a unit completes when the next unit lies in another group, and those that a load has written
  besides when it trims vl at a unit (R438). -/
  written  : Nat → Nat := fun _ => 1
  trimmed  : Nat → Nat := fun _ => 0
  /-- The first registers of the operands of vector registers that it reads or writes, the one that it writes, and how many
  registers each operand takes; group 6k + g is element group g of the k-th of them. `needs` says which groups of the
  destination it writes at all. -/
  regs     : List Nat := []
  dest     : Option Nat := none
  span     : Nat := 0
  /-- The registers of one group, where the destination is several groups written alike. -/
  fold     : Nat := 0
  needs    : Nat → Bool := fun _ => true
  /-- The first weight register that it writes, with their number; the group of a unit counts their element groups. -/
  wdest    : Option (Nat × Nat) := none
  /-- The registers whose index is 0 until it completes: the registers of C, and the governing weight registers of an entry that
  can dampen (R218, R250). -/
  heldV    : List Nat := []
  heldW    : List Nat := []

/-! ## Progress indices (R44, R424 to R426) -/

/-- A register that has a progress index. -/
inductive IndexedReg where
  | v (n : Fin 64)
  | w (n : Fin 16)
  deriving DecidableEq, Repr

/-- The progress index of the n-th register from base of a span of registers whose groups below `upTo` are written: the first of
its six element groups that is still to be written, or 6 (R425). A register outside the span has no pending producer there. -/
def progressIndex (base span upTo : Nat) (needs : Nat → Bool) (n : Nat) : Nat :=
  if base ≤ n && n < base + span then
    ((List.range 6).find? fun g => upTo ≤ 6 * (n - base) + g && needs (6 * (n - base) + g)).getD 6
  else 6

/-- Whether an entry that has begun is the pending producer of a register, or holds its index at 0. -/
def Plan.produces (p : Plan) : IndexedReg → Bool
  | .v n => p.heldV.contains n.val || p.dest.any fun b => b ≤ n.val && n.val < b + p.span
  | .w n => p.heldW.contains n.val || p.wdest.any fun b => b.1 ≤ n.val && n.val < b.1 + b.2

/-- The progress index of a register while an entry that has begun has a unit before it (R425). -/
def Plan.progress (p : Plan) (u : Nat) : IndexedReg → Nat
  | .v n =>
    let place (b : Nat) : Nat := if p.fold ≠ 0 && b ≤ n.val && n.val < b + p.span then b + (n.val - b) % p.fold else n.val
    if p.heldV.contains n.val then 0
    else (p.dest.map fun b => progressIndex b p.span (p.group u) p.needs (place b)).getD 6
  | .w n => if p.heldW.contains n.val then 0
    else (p.wdest.map fun b => progressIndex b.1 b.2 (p.group u) p.needs n).getD 6

/-- The progress index of a register of a hart while some entries are under way, the youngest first, each before a unit: that of
its nearest producer, and 6 where no entry under way produces it (R44, R426). A trap, a pre-emption and a restore leave no
entry under way, nor does a step of the model that ends otherwise, so between the steps of a hart every index is 6. -/
def progressOf (underWay : List (Plan × Nat)) (r : IndexedReg) : Nat :=
  ((underWay.find? fun p => p.1.produces r).map fun p => p.1.progress p.2 r).getD 6

/-- A unit of a convoy's member may be performed while older members have units before them: whatever register it writes,
or they write, is done by them as far as the unit's element group (R45, R46, R426). -/
def Plan.follows (p : Plan) (older : List (Plan × Nat)) (u : Nat) : Bool :=
  older.all fun o => o.1.regs.all fun c => p.regs.all fun b =>
    !(p.dest == some b || o.1.dest == some c)
      || p.group u % 6 < progressIndex c o.1.span (o.1.group o.2) (if o.1.dest == some c then o.1.needs else fun _ => true)
          (b + p.group u / 6)

/-! ## The configuration of an entry -/

/-- The element type. -/
def Entry.et (e : Entry) : Nat := vtEt e.vtype
/-- The alternate type. -/
def Entry.et2 (e : Entry) : Nat := vtEt2 e.vtype
/-- Registers per group. -/
def Entry.grp (e : Entry) : Nat := vtGrp e.vtype
/-- The block length. -/
def Entry.bl (e : Entry) : Nat := vtBl e.vtype
/-- Tail-agnostic. -/
def Entry.ta (e : Entry) : Bool := vtTa e.vtype
/-- The selected arm weight register. -/
def Entry.awr (e : Entry) : Nat := getBits e.wctl 0 4
/-- The blend policy. -/
def Entry.sp (e : Entry) : Bool := bit e.wctl 4

/-- The governing weight register of a governed entry (R94). -/
def governing (e : Entry) (ws : WReg) : Nat := if ws.val = 0 then e.awr else ws.val

/-- The effective rounding mode (R95, R135). -/
def roundMode (hd : Hart) (rm : Rm) : Nat :=
  if rm.val ≠ 0 then rm.val
  else
    let d := getBits hd.csr.vctl 0 3
    if 1 ≤ d && d ≤ 5 then d else 1

/-- vctl.ftz. -/
def ftzOf (hd : Hart) : Bool := bit hd.csr.vctl 3
/-- vctl.dz. -/
def dzOf (hd : Hart) : Bool := bit hd.csr.vctl 4
/-- vctl.npt. -/
def nptOf (hd : Hart) : Bool := bit hd.csr.vctl 5

/-- The element group of element i of a row under a type (R31, R34). -/
def groupIn (et bl i : Nat) : Nat := elemPos et bl i / 1536

/-- The illegal-instruction fault of a failed check at issue: no state changes, and vstart keeps its value (R97). -/
def issueFault (e : Entry) : UnitFault :=
  { cause := 1, value := e.bits, phase := 0, group := e.group, elem := e.start, vstart := e.start, start := e.start,
    bank := none }

/-- A plan when a check at issue holds. -/
def issue (e : Entry) (ok : Bool) (p : Plan) : Except UnitFault Plan := if ok then .ok p else .error (issueFault e)

/-- A plan whose elements are performed as one unit, from the starting element on (R199). -/
def wholePlan (total : Nat) (f : State → Nat → State) : Plan :=
  { total, after := fun _ => total, group := fun _ => 0, lockstep := false, always := false,
    perform := fun s t => .next (f s t) }

/-- The bytes that vl elements of a type take in a group (R148, R349). -/
def dataBytes (et bl vl : Nat) : Nat :=
  if etBlock et then vl / bl * frameBytes et bl else ceilDiv (vl * etWidth et) 8

/-- The element groups of a row of n registers that an entry may write: those of its data, or with ta, whose tail is written too,
all (R189). -/
def rowEnd (ta : Bool) (et bl vl n : Nat) : Nat := if ta then 6 * n else ceilDiv (dataBytes et bl vl) 192

/-- Such a plan with one destination row of the element type; it counts the element groups from that of its starting element
on, whatever weights or selectors leave unwritten in them (R438, log 21). -/
def rowsPlan (e : Entry) (vd : VReg) (total : Nat) (f : State → Nat → State) : Plan :=
  { wholePlan total f with
    group := groupIn e.et e.bl, dest := some vd.val, span := e.grp, needs := (· < rowEnd e.ta e.et e.bl e.vl e.grp)
    written := fun t => rowEnd e.ta e.et e.bl e.vl e.grp - groupIn e.et e.bl t }

/-- A plan that writes each element group in k destination groups of one shape, from a register on (R438). -/
def Plan.fields (k vd grp : Nat) (p : Plan) : Plan :=
  { p with
    written := fun t => k * p.written t, trimmed := fun u => k * p.trimmed u
    dest := some vd, span := k * grp, fold := grp }

/-- A plan that has one result and no element (R198, R235): vstart, which R185 has an entry compare with its elements, does not
keep it from its result (log 49, DESIGN CHOICE). -/
def resultPlan (f : State → State) : Plan :=
  { total := 0, after := id, group := fun _ => 0, lockstep := false, always := true,
    perform := fun s _ => .next s, finish := f }

/-! ## Weights (R209, R210, R216 to R218) -/

/-- The registers of the governing group, or none when there is no such group (R209). -/
def entryWeights (e : Entry) : Option Nat := weightRegs e.et e.grp e.bl

/-- The governing register can govern: w0, or a group that fits (R209, R210). -/
def governOk (e : Entry) (gov : Nat) : Bool :=
  gov == 0 || match entryWeights e with
    | some n => weightOk gov n
    | none => false

/-- The check of an instruction that is never governed (R57, R94, R215). -/
def ungovernedOk (e : Entry) (ws : WReg) : Bool := ws.val == 0 && e.awr == 0

/-- The check of a governed instruction; block types are never governed (R94, R209, R210, R215). -/
def governedOk (e : Entry) (ws : WReg) : Bool :=
  if etBlock e.et then ungovernedOk e ws else governOk e (governing e ws)

/-- Element i is active under a register (R54, R216). -/
def active (hd : Hart) (e : Entry) (gov i : Nat) : Bool := gov == 0 || e.wthr.toNat < weightGet hd.w gov i

/-- A plan of an entry that can raise a cause of R217: while it is under way the index of the governing weight registers is 0
(R218, R425). -/
def Plan.holding (p : Plan) (e : Entry) (gov : Nat) : Plan :=
  { p with heldW := if gov = 0 then [] else (List.range ((entryWeights e).getD 0)).map (gov + ·) }

/-- The causes that dampening applies to (R217). -/
def dampable (cause : Nat) : Bool := (3 ≤ cause && cause ≤ 8) || cause == 11

/-- Whether a fault of element i under a register is dampened (R217). -/
def dampens (hd : Hart) (e : Entry) (gov i cause : Nat) : Bool :=
  gov != 0 && dampable cause && weightGet hd.w gov i < e.fthr.toNat

/-- The effect of a dampened element on the hart, but for its destination (R217). -/
def dampHart (hd : Hart) (gov i cause : Nat) (own : FlagSet) : Hart :=
  let hd := addFlags (putW hd gov i 0) (flagDF ||| own)
  let n := min (getBits hd.csr.wstat 0 32 + 1) 0xFFFFFFFF
  count { hd with csr := { hd.csr with wstat := word (cause * 2 ^ 32 + n) } } 14 1

/-- An element meets a fault: it is dampened, `zero` clearing its destination, or it traps; the event's own flag is set
either way (R139, R217). -/
def faultElem (s : State) (h : HartId) (e : Entry) (gov i : Nat) (f : UnitFault) (own : FlagSet) (zero : Hart → Hart) :
    UnitEnd :=
  if dampens (hartOf s h) e gov i f.cause then
    .next (modHart s h fun hd => dampHart (zero hd) gov i f.cause own)
  else .fault f (if own = 0 then s else modHart s h (addFlags · own))

/-! ## Destinations and tails (R182, R189) -/

/-- Element i of a type in a group written. -/
def putElem (hd : Hart) (et bl base i x : Nat) : Hart := putV hd base (elemPos et bl i) (etWidth et) x

/-- The tail of one row group of n registers after its last element, when the policy is agnostic (R149, R189). -/
def putTail (hd : Hart) (ta : Bool) (et bl vl base n : Nat) : Hart :=
  if ta then fillOnes hd base (dataBytes et bl vl) n else hd

/-- The element groups of a weight group of n registers that an entry may write (R214). -/
def weightsEnd (e : Entry) (n : Nat) : Nat := if e.ta then 6 * n else ceilDiv e.vl 192

/-- The tail of a weight group (R214). -/
def putTailW (hd : Hart) (ta : Bool) (vl base n : Nat) : Hart :=
  if ta && base != 0 then (List.range (1152 * n - vl)).foldl (fun hd k => putW hd base (vl + k) 0xFFFF) hd else hd

/-- A result of an elementwise operation: a value with its flags, or a fault with its own flag. -/
inductive ElemResult where
  | value (x : Nat) (flags : FlagSet)
  | fault (cause : Nat) (value : Word) (own : FlagSet)
  deriving DecidableEq, Repr

/-- The tiled elementwise plan (R34, R189, R216): element t = r × vl + i of a destination of type `dt` over `dn` registers
a row gets `f`, which reads the hart's registers as they are when the element is performed. A row's tail is written with its
last element, so that of a row wholly below a written vstart is not: R192 writes the tail of each row, and R189 writes tail
bytes together with the element group that holds them (log 49, DESIGN CHOICE). -/
def elementPlan (e : Entry) (h : HartId) (gov vd dt dn : Nat) (lockstep : Bool) (f : Hart → Nat → Nat → ElemResult) :
    Plan :=
  { total := e.vrc * e.vl, after := (· + 1), lockstep := lockstep && gov == 0, always := false
    group := fun t => t / e.vl * (6 * dn) + groupIn dt e.bl (t % e.vl)
    written := fun t => if t % e.vl + 1 = e.vl then rowEnd e.ta dt e.bl e.vl dn - groupIn dt e.bl (t % e.vl) else 1
    regs := [vd], dest := some vd, span := e.vrc * dn, needs := fun k => k % (6 * dn) < rowEnd e.ta dt e.bl e.vl dn
    perform := fun s t =>
      let r := t / e.vl
      let i := t % e.vl
      let base := vd + r * dn
      let tail (s : State) : State :=
        if i + 1 = e.vl && e.ta then modHart s h fun hd => putTail hd e.ta dt e.bl e.vl base dn else s
      if active (hartOf s h) e gov i then
        match f (hartOf s h) r i with
        | .value x fl => .next (tail (modHart s h fun hd => addFlags (putElem hd dt e.bl base i x) fl))
        | .fault c v own =>
          match faultElem s h e gov i (faultAt t c v none) own (fun hd => putElem hd dt e.bl base i 0) with
          | .next s => .next (tail s)
          | r => r
      else .next (tail s) }

end Machine

end Sys2Proof
end

