-- ==== Sys2Proof/Machine/VArith.lean ====
section
/-! DEFINITION. Unit VA: element-wise arithmetic, conversions, quantisation, vsel and vmv (R101, R128, R129, R136, R144 to
R149, R191 to R198), as plans. -/

namespace Sys2Proof

namespace Machine

/-! ## Classes of R191 -/

/-- I and F. -/
def tyIF (et : Nat) : Bool := etWide et || etFloat et

/-- f16, bf16 and f32. -/
def tyShort (et : Nat) : Bool := et == 8 || et == 9 || et == 10

/-- I, S, F, E and P. -/
def tyAny (et : Nat) : Bool := etInt et || etFloat et || etF8 et || etPw et

/-! ## Operands -/

/-- The base of row r of a tile (R32). -/
def rowBase (e : Entry) (v : VReg) (r : Nat) : Nat := v.val + r * e.grp

/-- A vector operand's element. -/
def vecElem (hd : Hart) (e : Entry) (v : VReg) (r i : Nat) : Nat := elemGet hd.v e.et e.bl (rowBase e v r) i

/-- The second operand's element (R91, R93). -/
def srcElem (hd : Hart) (e : Entry) (b : Src) (r i : Nat) : Nat :=
  match b with
  | .v vb => vecElem hd e vb r i
  | .x _ => scalarElem e.et e.op0
  | .i imm => immElem e.et imm

/-- A tile operand of grp registers a row (R32, R97). -/
def tileOk (e : Entry) (v : VReg) : Bool := groupOk v.val e.grp e.vrc

/-- An operand of grp registers that is no tile. -/
def rowOk (e : Entry) (v : VReg) : Bool := groupOk v.val e.grp 1

/-- A tile destination and a tile source of the same shape: in place, or apart (R190). -/
def inPlaceOk (e : Entry) (vd va : VReg) : Bool :=
  vd == va || !overlaps vd.val (e.grp * e.vrc) va.val (e.grp * e.vrc)

/-- The second operand's checks: its group and overlap, or an integer type for an immediate (R93, R97, R190). -/
def srcOk (e : Entry) (vd : VReg) (b : Src) : Bool :=
  match b with
  | .v vb => tileOk e vb && inPlaceOk e vd vb
  | .x _ => true
  | .i _ => etInt e.et

/-! ## Shapes of plans -/

/-- A plan that also reads some groups of the shape of its destination. -/
def Plan.reading (p : Plan) (rs : List Nat) : Plan := { p with regs := p.regs ++ rs }

/-- The register of a second operand. -/
def srcRegs : Src → List Nat
  | .v vb => [vb.val]
  | _ => []

/-- A binary instruction (R101, R192). -/
def binPlan (e : Entry) (h : HartId) (a : VBin) (types : Nat → Bool) (op : Hart → Nat → Nat → Nat → ElemResult) :
    Except UnitFault Plan :=
  issue e (types e.et && governedOk e a.ws && tileOk e a.vd && tileOk e a.va && inPlaceOk e a.vd a.va && srcOk e a.vd a.b)
    (((elementPlan e h (governing e a.ws) a.vd.val e.et e.grp true fun hd r i =>
      op hd (roundMode hd a.rm) (vecElem hd e a.va r i) (srcElem hd e a.b r i)).reading (a.va.val :: srcRegs a.b)).holding e
        (governing e a.ws))

/-- A unary instruction (R101, R192). -/
def unPlan (e : Entry) (h : HartId) (a : VUn) (types : Nat → Bool) (op : Hart → Nat → Nat → ElemResult) :
    Except UnitFault Plan :=
  issue e (types e.et && governedOk e a.ws && tileOk e a.vd && tileOk e a.va && inPlaceOk e a.vd a.va)
    ((elementPlan e h (governing e a.ws) a.vd.val e.et e.grp true fun hd r i =>
      op hd (roundMode hd a.rm) (vecElem hd e a.va r i)).reading [a.va.val])

/-- The vb and vc of a ternary instruction: in forms 0b01 and 0b10 vc is vd (R101). -/
def ternB (a : VTern) : Src :=
  match a.b with
  | .v vb _ => .v vb
  | .x r => .x r
  | .i imm => .i imm

/-- See `ternB`. -/
def ternC (a : VTern) : VReg :=
  match a.b with
  | .v _ vc => vc
  | _ => a.vd

/-- A ternary instruction (R101, R192). -/
def ternPlan (e : Entry) (h : HartId) (a : VTern) (op : Hart → Nat → Nat → Nat → Nat → ElemResult) :
    Except UnitFault Plan :=
  issue e (etFloat e.et && governedOk e a.ws && tileOk e a.vd && tileOk e a.va && inPlaceOk e a.vd a.va
      && srcOk e a.vd (ternB a) && tileOk e (ternC a) && inPlaceOk e a.vd (ternC a))
    ((elementPlan e h (governing e a.ws) a.vd.val e.et e.grp true fun hd r i =>
      op hd (roundMode hd a.rm) (vecElem hd e a.va r i) (srcElem hd e (ternB a) r i) (vecElem hd e (ternC a) r i)).reading
        (a.va.val :: (ternC a).val :: srcRegs (ternB a)))

/-! ## Results of elements -/

/-- A value with its flags. -/
def okElem (r : Nat × FlagSet) : ElemResult := .value r.1 r.2

/-- A value without flags. -/
def plainElem (x : Nat) : ElemResult := .value x 0

/-- A wrapping integer operation (R128, R193). -/
def intOp (et : Nat) (f : Int → Int → Int) (a b : Nat) : ElemResult :=
  plainElem (wrap (etWidth et) (f (intVal et a) (intVal et b)))

/-- A floating operation rounded once (R131, R194). -/
def fltOp (et : Nat) (hd : Hart) (mode : Nat) (f : FVal → FVal → FVal × FlagSet) (a b : Nat) : ElemResult :=
  let g := fmtOf et
  okElem (deliverWith g mode (ftzOf hd) (f (unpack g (ftzOf hd) a) (unpack g (ftzOf hd) b)))

/-- A floating operation of one operand. -/
def fltUn (et : Nat) (hd : Hart) (mode : Nat) (f : FVal → FVal × FlagSet) (a : Nat) : ElemResult :=
  let g := fmtOf et
  okElem (deliverWith g mode (ftzOf hd) (f (unpack g (ftzOf hd) a)))

/-- A floating operation of three operands. -/
def fltTern (et : Nat) (hd : Hart) (mode : Nat) (f : FVal → FVal → FVal → FVal × FlagSet) (a b c : Nat) : ElemResult :=
  let g := fmtOf et
  okElem (deliverWith g mode (ftzOf hd) (f (unpack g (ftzOf hd) a) (unpack g (ftzOf hd) b) (unpack g (ftzOf hd) c)))

/-- An operation on I and F types. -/
def mixedOp (et : Nat) (fi : Int → Int → Int) (ff : Nat → FVal → FVal → FVal × FlagSet) (hd : Hart) (mode a b : Nat) :
    ElemResult :=
  if etWide et then intOp et fi a b else fltOp et hd mode (ff mode) a b

/-! ## Integer and floating arithmetic (R193, R194) -/

/-- vadd. -/
def planVadd (a : VBin) (e : Entry) (h : HartId) : Except UnitFault Plan :=
  binPlan e h a tyIF (mixedOp e.et (· + ·) fun m x y => exactAdd m x y)

/-- vsub. -/
def planVsub (a : VBin) (e : Entry) (h : HartId) : Except UnitFault Plan :=
  binPlan e h a tyIF (mixedOp e.et (· - ·) fun m x y => exactAdd m x y.negate)

/-- vrsub. -/
def planVrsub (a : VBin) (e : Entry) (h : HartId) : Except UnitFault Plan :=
  binPlan e h a tyIF (mixedOp e.et (fun x y => y - x) fun m x y => exactAdd m y x.negate)

/-- vmul. -/
def planVmul (a : VBin) (e : Entry) (h : HartId) : Except UnitFault Plan :=
  binPlan e h a tyIF (mixedOp e.et (· * ·) fun _ x y => exactMul x y)

/-- vmulh. -/
def planVmulh (a : VBin) (e : Entry) (h : HartId) : Except UnitFault Plan :=
  binPlan e h a etWide fun _ _ x y => intOp e.et (fun x y => x * y / 2 ^ etWidth e.et) x y

/-- Integer division and remainder with a zero divisor (R129, R187): the value, DZ, and the trap under vctl.dz. -/
def divOp (et : Nat) (zero : Int → Int) (f : Int → Int → Int) (hd : Hart) (a b : Nat) : ElemResult :=
  if b = 0 then
    if dzOf hd then .fault 8 1 flagDZ else .value (wrap (etWidth et) (zero (intVal et a))) flagDZ
  else intOp et f a b

/-- vdiv. -/
def planVdiv (a : VBin) (e : Entry) (h : HartId) : Except UnitFault Plan :=
  binPlan e h a etWide fun hd _ x y => divOp e.et (fun _ => -1) Int.tdiv hd x y

/-- vrem. -/
def planVrem (a : VBin) (e : Entry) (h : HartId) : Except UnitFault Plan :=
  binPlan e h a etWide fun hd _ x y => divOp e.et id Int.tmod hd x y

/-- vmin (R137, R193). -/
def planVmin (a : VBin) (e : Entry) (h : HartId) : Except UnitFault Plan :=
  binPlan e h a tyIF (mixedOp e.et (fun x y => if x ≤ y then x else y) fun _ x y => exactMinMax false x y)

/-- vmax (R137, R193). -/
def planVmax (a : VBin) (e : Entry) (h : HartId) : Except UnitFault Plan :=
  binPlan e h a tyIF (mixedOp e.et (fun x y => if x ≤ y then y else x) fun _ x y => exactMinMax true x y)

/-- vand. -/
def planVand (a : VBin) (e : Entry) (h : HartId) : Except UnitFault Plan :=
  binPlan e h a etWide fun _ _ x y => plainElem (x &&& y)

/-- vor. -/
def planVor (a : VBin) (e : Entry) (h : HartId) : Except UnitFault Plan :=
  binPlan e h a etWide fun _ _ x y => plainElem (x ||| y)

/-- vxor. -/
def planVxor (a : VBin) (e : Entry) (h : HartId) : Except UnitFault Plan :=
  binPlan e h a etWide fun _ _ x y => plainElem (x ^^^ y)

/-- vshl. -/
def planVshl (a : VBin) (e : Entry) (h : HartId) : Except UnitFault Plan :=
  binPlan e h a etWide fun _ _ x y => plainElem (x <<< (y % etWidth e.et) % 2 ^ etWidth e.et)

/-- vshr. -/
def planVshr (a : VBin) (e : Entry) (h : HartId) : Except UnitFault Plan :=
  binPlan e h a etWide fun _ _ x y => plainElem (x >>> (y % etWidth e.et))

/-- vsha: sign copies for unsigned types too. -/
def planVsha (a : VBin) (e : Entry) (h : HartId) : Except UnitFault Plan :=
  binPlan e h a etWide fun _ _ x y =>
    plainElem (wrap (etWidth e.et) (toSigned (etWidth e.et) x / 2 ^ (y % etWidth e.et)))

/-- vsadd. -/
def planVsadd (a : VBin) (e : Entry) (h : HartId) : Except UnitFault Plan :=
  binPlan e h a etWide fun _ _ x y => okElem (saturate e.et (intVal e.et x + intVal e.et y))

/-- vssub. -/
def planVssub (a : VBin) (e : Entry) (h : HartId) : Except UnitFault Plan :=
  binPlan e h a etWide fun _ _ x y => okElem (saturate e.et (intVal e.et x - intVal e.et y))

/-- vfma. -/
def planVfma (a : VTern) (e : Entry) (h : HartId) : Except UnitFault Plan :=
  ternPlan e h a fun hd m x y z => fltTern e.et hd m (exactFma m) x y z

/-- vfms. -/
def planVfms (a : VTern) (e : Entry) (h : HartId) : Except UnitFault Plan :=
  ternPlan e h a fun hd m x y z => fltTern e.et hd m (fun x y z => exactFma m x y z.negate) x y z

/-- vfnma. -/
def planVfnma (a : VTern) (e : Entry) (h : HartId) : Except UnitFault Plan :=
  ternPlan e h a fun hd m x y z => fltTern e.et hd m (fun x y z => exactFma m x.negate y z) x y z

/-- vfdiv. -/
def planVfdiv (a : VBin) (e : Entry) (h : HartId) : Except UnitFault Plan :=
  binPlan e h a etFloat fun hd m x y => fltOp e.et hd m exactDiv x y

/-- vfsqrt. -/
def planVfsqrt (a : VUn) (e : Entry) (h : HartId) : Except UnitFault Plan :=
  unPlan e h a etFloat fun hd m x => fltUn e.et hd m exactSqrt x

/-- vfrsqrt. -/
def planVfrsqrt (a : VUn) (e : Entry) (h : HartId) : Except UnitFault Plan :=
  unPlan e h a tyShort fun hd m x => fltUn e.et hd m exactRsqrt x

/-- vfexp2. -/
def planVfexp2 (a : VUn) (e : Entry) (h : HartId) : Except UnitFault Plan :=
  unPlan e h a tyShort fun hd m x => fltUn e.et hd m exactExp2 x

/-- vflog2. -/
def planVflog2 (a : VUn) (e : Entry) (h : HartId) : Except UnitFault Plan :=
  unPlan e h a tyShort fun hd m x => fltUn e.et hd m exactLog2 x

/-! ## Widening arithmetic (R195) -/

/-- et2 for f16, bf16 and f32. -/
def widerFloat (et et2 : Nat) : Bool := ((et == 8 || et == 9) && et2 == 10) || (et == 10 && et2 == 11)

/-- et2 for the widening instructions on integers and floats. -/
def widerOk (et et2 : Nat) : Bool := (et < 7 && et != 3 && et2 == et + 1) || widerFloat et et2

/-- A destination of n registers a row apart from a source of grp registers a row (R190). -/
def apartOk (e : Entry) (vd : VReg) (n : Nat) (va : VReg) : Bool := !overlaps vd.val (n * e.vrc) va.val (e.grp * e.vrc)

/-- The checks of va and vb of a widening instruction. -/
def wideSrcOk (e : Entry) (vd va : VReg) (b : Src) : Bool :=
  tileOk e va && apartOk e vd (2 * e.grp) va && match b with
    | .v vb => tileOk e vb && apartOk e vd (2 * e.grp) vb
    | .x _ => true
    | .i _ => etInt e.et

/-- An exact operation on et operands, written to et2. -/
def wideOp (e : Entry) (hd : Hart) (mode : Nat) (fi : Int → Int → Int) (ff : FVal → FVal → FVal × FlagSet) (x y : Nat) :
    ElemResult :=
  if etWide e.et then plainElem (wrap (etWidth e.et2) (fi (intVal e.et x) (intVal e.et y)))
  else
    okElem (deliverWith (fmtOf e.et2) mode (ftzOf hd)
      (ff (unpack (fmtOf e.et) (ftzOf hd) x) (unpack (fmtOf e.et) (ftzOf hd) y)))

/-- vwadd and vwmul. -/
def widePlan (e : Entry) (h : HartId) (a : VBin) (fi : Int → Int → Int) (ff : Nat → FVal → FVal → FVal × FlagSet) :
    Except UnitFault Plan :=
  issue e (widerOk e.et e.et2 && e.grp != 8 && governedOk e a.ws && groupOk a.vd.val (2 * e.grp) e.vrc
      && wideSrcOk e a.vd a.va a.b)
    (elementPlan e h (governing e a.ws) a.vd.val e.et2 (2 * e.grp) false fun hd r i =>
      let m := roundMode hd a.rm
      wideOp e hd m fi (ff m) (vecElem hd e a.va r i) (srcElem hd e a.b r i))

/-- vwadd. -/
def planVwadd (a : VBin) (e : Entry) (h : HartId) : Except UnitFault Plan :=
  widePlan e h a (· + ·) fun m x y => exactAdd m x y

/-- vwmul. -/
def planVwmul (a : VBin) (e : Entry) (h : HartId) : Except UnitFault Plan :=
  widePlan e h a (· * ·) fun _ x y => exactMul x y

/-- vwfma: vc may be vd exactly (R190). -/
def planVwfma (a : VTern) (e : Entry) (h : HartId) : Except UnitFault Plan :=
  let vc := ternC a
  issue e (widerFloat e.et e.et2 && e.grp != 8 && governedOk e a.ws && groupOk a.vd.val (2 * e.grp) e.vrc
      && wideSrcOk e a.vd a.va (ternB a) && groupOk vc.val (2 * e.grp) e.vrc
      && (a.vd == vc || !overlaps a.vd.val (2 * e.grp * e.vrc) vc.val (2 * e.grp * e.vrc)))
    (elementPlan e h (governing e a.ws) a.vd.val e.et2 (2 * e.grp) false fun hd r i =>
      let m := roundMode hd a.rm
      let f := fmtOf e.et
      let g := fmtOf e.et2
      let z := elemGet hd.v e.et2 e.bl (vc.val + r * (2 * e.grp)) i
      okElem (deliverWith g m (ftzOf hd)
        (exactFma m (unpack f (ftzOf hd) (vecElem hd e a.va r i)) (unpack f (ftzOf hd) (srcElem hd e (ternB a) r i))
          (unpack g (ftzOf hd) z))))

/-! ## Conversions (R196) -/

/-- One element converted from et to et2. A widening integer conversion extends the source by its sign, and any other clamps
it (R128; log 48 for equal widths, DEDUCED). -/
def convertElem (et et2 mode : Nat) (ftz : Bool) (x : Nat) : Nat × FlagSet :=
  if et = et2 then (x, 0)
  else if etInt et then
    if etInt et2 then
      if etWidth et < etWidth et2 then (wrap (etWidth et2) (intVal et x), 0) else saturate et2 (intVal et x)
    else intToFloat (fmtOf et2) mode ftz (intVal et x)
  else if etPw et then (pwToFloat (fmtOf et2) x, 0)
  else if etInt et2 then floatToInt (fmtOf et) et2 mode ftz x
  else if etPw et2 then (floatToPw (fmtOf et) ftz x, 0)
  else floatToFloat (fmtOf et) (fmtOf et2) mode ftz x

/-- The registers of a destination that holds VLMAX(et, grp) elements of a type (R196, R197). -/
def destRegs (e : Entry) (dt : Nat) : Option Nat := indexRegs (vlmaxOf e.et e.grp e.bl) dt

/-- A conversion; `same` for equal widths, which may run in place (R190). -/
def convPlan (e : Entry) (h : HartId) (a : VUn) (same : Bool) (widths : Bool) : Except UnitFault Plan :=
  match destRegs e e.et2 with
  | none => .error (issueFault e)
  | some n =>
    issue e (tyAny e.et && tyAny e.et2 && widths && !(etPw e.et && etInt e.et2) && !(etInt e.et && etPw e.et2)
        && governedOk e a.ws && groupOk a.vd.val n e.vrc && tileOk e a.va
        && (if same then inPlaceOk e a.vd a.va else apartOk e a.vd n a.va))
      ((elementPlan e h (governing e a.ws) a.vd.val e.et2 n same fun hd r i =>
        okElem (convertElem e.et e.et2 (roundMode hd a.rm) (ftzOf hd) (vecElem hd e a.va r i))).reading [a.va.val])

/-- vcvt. -/
def planVcvt (a : VUn) (e : Entry) (h : HartId) : Except UnitFault Plan :=
  convPlan e h a true (etWidth e.et == etWidth e.et2)

/-- vwcvt. -/
def planVwcvt (a : VUn) (e : Entry) (h : HartId) : Except UnitFault Plan :=
  convPlan e h a false (etWidth e.et < etWidth e.et2)

/-- vncvt. -/
def planVncvt (a : VUn) (e : Entry) (h : HartId) : Except UnitFault Plan :=
  convPlan e h a false (etWidth e.et2 < etWidth e.et)

/-! ## Quantisation (R144 to R147, R197) -/

/-- The greatest magnitude of a block type of width w (R144). -/
def blockMax (w : Nat) : Nat := 2 ^ (w - 2) - 1

/-- The value 2^(e - 127) as a quotient. -/
def scaleOf (e : Nat) : Nat × Nat := if 127 ≤ e then (2 ^ (e - 127), 1) else (1, 2 ^ (127 - e))

/-- Whether n / d ≤ m × 2^(e - 127). -/
def fitsScale (n d m e : Nat) : Bool :=
  let (a, b) := scaleOf e
  n * b ≤ m * a * d

/-- The least e from a code on, over a number of codes, for which a magnitude fits. -/
def leastScale (n d m : Nat) : Nat → Nat → Nat
  | 0, e => e
  | k + 1, e => if fitsScale n d m e then e else leastScale n d m k (e + 1)

/-- The larger of two magnitudes. -/
def maxMag (a b : Nat × Nat) : Nat × Nat := if a.1 * b.2 < b.1 * a.2 then b else a

/-- The magnitude of a finite value. -/
def magOf : FVal → Nat × Nat
  | .num _ n d => (n, d)
  | _ => (0, 1)

/-- One element of a block (R146). -/
def quantElem (w e0 e1 : Nat) (x : FVal) : Nat × FlagSet :=
  let (n, d) := magOf x
  let mmax := blockMax w
  let sel := !fitsScale n d mmax e0
  let (a, b) := scaleOf (if sel then e1 else e0)
  let m := (roundInt 1 false (n * b) (d * a)).1
  let sat := flagIf (mmax < m) flagSAT
  let m := min m mmax
  let nx := flagIf (m * a * d != n * b) flagNX
  (if m = 0 then 0 else ofBool x.neg? * 2 ^ (w - 1) + ofBool sel * 2 ^ (w - 2) + m, sat ||| nx)

/-- A block: its scales, its elements and its flags (R146). -/
def quantBlock (w : Nat) (xs : List FVal) : Nat × Nat × List Nat × FlagSet :=
  if xs.any (fun x => x.isNan || x.isInf) then (0xFF, 0xFF, xs.map (fun _ => 0), flagNV)
  else
    let (n, d) := xs.foldl (fun m x => maxMag m (magOf x)) (0, 1)
    let e1 := leastScale n d (blockMax w) 254 0
    let e0 := e1 - (w - 2)
    let rs := xs.map (quantElem w e0 e1)
    (e0, e1, rs.map (·.1), rs.foldl (fun f r => f ||| r.2) 0)

/-- Elements written from a position on in a group. -/
def putCodes (hd : Hart) (base w pos : Nat) : List Nat → Hart
  | [] => hd
  | c :: cs => putCodes (putV hd base pos w c) base w (pos + w) cs

/-- A frame written at a group: scales and payload (R148). -/
def putFrame (hd : Hart) (et bl base f e0 e1 : Nat) (cs : List Nat) : Hart :=
  let p := f * frameBytes et bl * 8
  putCodes (putV hd base p 16 (e0 + 256 * e1)) base (etWidth et) (p + 16) cs

/-- The registers of the smallest group that holds a number of frames (R197). -/
def frameRegs (frames et bl : Nat) : Option Nat :=
  [1, 2, 4, 8].find? fun g => frames * frameBytes et bl ≤ 1152 * g

/-- The first element of the block that holds element i. -/
def blockStart (bl i : Nat) : Nat := i / bl * bl

/-- vquant: one block a unit. -/
def planVquant (a : VUn) (e : Entry) (h : HartId) : Except UnitFault Plan :=
  match frameRegs (ceilDiv (vlmaxOf e.et e.grp e.bl) e.bl) e.et2 e.bl with
  | none => .error (issueFault e)
  | some n =>
    issue e ((e.et == 9 || e.et == 10) && etBlock e.et2 && ungovernedOk e a.ws && groupOk a.vd.val n e.vrc
        && tileOk e a.va && apartOk e a.vd n a.va)
      { total := e.vrc * e.vl, lockstep := false, always := false
        after := fun t => t / e.vl * e.vl + min (blockStart e.bl (t % e.vl) + e.bl) e.vl
        group := fun t => t / e.vl * (6 * n) + (t % e.vl) / e.bl * frameBytes e.et2 e.bl / 192
        dest := some a.vd.val, span := e.vrc * n
        written := fun t =>
          let frame := (t % e.vl) / e.bl
          if e.vl ≤ (frame + 1) * e.bl then
            rowEnd e.ta e.et2 e.bl (ceilDiv e.vl e.bl * e.bl) n - frame * frameBytes e.et2 e.bl / 192
          else 1
        perform := fun s t =>
          let r := t / e.vl
          let f := t % e.vl / e.bl
          .next (modHart s h fun hd =>
            let get (k : Nat) : FVal :=
              if f * e.bl + k < e.vl then unpack (fmtOf e.et) (ftzOf hd) (vecElem hd e a.va r (f * e.bl + k))
              else .num false 0 1
            let (e0, e1, cs, fl) := quantBlock (etWidth e.et2) ((List.range e.bl).map get)
            let base := a.vd.val + r * n
            let hd := addFlags (putFrame hd e.et2 e.bl base f e0 e1 cs) fl
            if e.vl ≤ (f + 1) * e.bl && e.ta then fillOnes hd base (ceilDiv e.vl e.bl * frameBytes e.et2 e.bl) n else hd) }

/-- The value of a block element with the scales of its frame (R145); none when its scale is NaN. -/
def blockVal (w e0 e1 c : Nat) : FVal :=
  let m := c % 2 ^ (w - 2)
  let e := if c / 2 ^ (w - 2) % 2 = 1 then e1 else e0
  if e = 0xFF then .nan false
  else
    let (a, b) := scaleOf e
    .num (c / 2 ^ (w - 1) % 2 = 1) (m * a) b

/-- A frame's scale bytes in a group. -/
def frameScales (v : Vector VBits 64) (et bl base f : Nat) : Nat × Nat :=
  let p := f * frameBytes et bl * 8
  (groupGet v base p 8, groupGet v base (p + 8) 8)

/-- Element i of a block-typed group, as a value (R145). -/
def blockElem (v : Vector VBits 64) (et bl base i : Nat) : FVal :=
  let (e0, e1) := frameScales v et bl base (i / bl)
  blockVal (etWidth et) e0 e1 (elemGet v et bl base i)

/-- Whether n / d is above the largest finite f32. -/
def aboveF32 (n d : Nat) : Bool := (2 ^ 24 - 1) * 2 ^ 104 * d < n

/-- A dequantised value in f32 or bf16 (R147). -/
def dequantOut (et2 : Nat) (ftz : Bool) (v : FVal) : Nat × FlagSet :=
  match v with
  | .num s n d => if aboveF32 n d then (maxFinite (fmtOf et2) s, flagOVF) else roundTo (fmtOf et2) 1 ftz s n d
  | v => deliver (fmtOf et2) 1 ftz v

/-- vdequant: element by element; its element groups end with whole blocks. -/
def planVdequant (a : VUn) (e : Entry) (h : HartId) : Except UnitFault Plan :=
  match destRegs e e.et2 with
  | none => .error (issueFault e)
  | some n =>
    let p := elementPlan e h 0 a.vd.val e.et2 n false fun hd r i =>
      okElem (dequantOut e.et2 (ftzOf hd) (blockElem hd.v e.et e.bl (rowBase e a.va r) i))
    let group (i : Nat) : Nat := groupIn e.et2 e.bl (blockStart e.bl i)
    issue e (etBlock e.et && (e.et2 == 9 || e.et2 == 10) && ungovernedOk e a.ws && groupOk a.vd.val n e.vrc
        && tileOk e a.va && apartOk e a.vd n a.va)
      { p with
        group := fun t => t / e.vl * (6 * n) + group (t % e.vl)
        written := fun t =>
          let i := t % e.vl
          (if i + 1 = e.vl then rowEnd e.ta e.et2 e.bl e.vl n else group (i + 1)) - group i }

/-! ## vsel and vmv (R198) -/

/-- vsel. An element moves as its bits; a pw16 code above 0x8000 stays as it is, since R140 clamps a code where it is read from
memory or as a weight, and R198 writes the element itself (log 33, DEDUCED). -/
def planVsel (a : VSelArgs) (e : Entry) (h : HartId) : Except UnitFault Plan :=
  issue e (tyAny e.et && governedOk e a.ws && tileOk e a.vd && tileOk e a.va && tileOk e a.vb && tileOk e a.vc
      && inPlaceOk e a.vd a.va && inPlaceOk e a.vd a.vb && inPlaceOk e a.vd a.vc)
    ((elementPlan e h (governing e a.ws) a.vd.val e.et e.grp true fun hd r i =>
      plainElem (if vecElem hd e a.vc r i = 0 then vecElem hd e a.vb r i else vecElem hd e a.va r i)).reading
        [a.va.val, a.vb.val, a.vc.val])

/-- An element extended to a scalar register: by its sign for signed types (R198). -/
def extendElem (et x : Nat) : Word :=
  if etSigned et then BitVec.ofInt 64 (toSigned (etWidth et) x) else word x

/-- vmv. It moves bits, a pw16 code above 0x8000 included, as vsel does (log 33, DEDUCED). -/
def planVmv (a : VMvArgs) (e : Entry) (h : HartId) : Except UnitFault Plan :=
  match a with
  | .copy vd va ws _ =>
    issue e (tyAny e.et && governedOk e ws && tileOk e vd && tileOk e va && inPlaceOk e vd va)
      ((elementPlan e h (governing e ws) vd.val e.et e.grp true fun hd r i =>
        plainElem (vecElem hd e va r i)).reading [va.val])
  | .splat vd _ ws _ =>
    issue e (tyAny e.et && governedOk e ws && tileOk e vd)
      (elementPlan e h (governing e ws) vd.val e.et e.grp true fun _ _ _ => plainElem (scalarElem e.et e.op0))
  | .splatImm vd imm ws _ =>
    issue e (etInt e.et && governedOk e ws && tileOk e vd)
      (elementPlan e h (governing e ws) vd.val e.et e.grp true fun _ _ _ => plainElem (immElem e.et imm))
  | .toX xd va idx ws _ =>
    issue e (tyAny e.et && ws.val == 0 && rowOk e va)
      (resultPlan fun s => modHart s h fun hd =>
        if idx.toNat < e.vl then putX hd xd (extendElem e.et (vecElem hd e va 0 idx.toNat))
        else addFlags (putX hd xd 0) flagOOR)

end Machine

end Sys2Proof
end

