-- ==== Sys2Proof/Machine/VMem.lean ====
section
/-! DEFINITION. Unit VM: loads, stores, vst.pair, linked gathers and conditional scatters, element atomics, posted
reductions and copies (R103, R220 to R223, R302 to R323), as plans. -/

namespace Sys2Proof

namespace Machine

/-! ## Access units (R305) -/

/-- Elements of an access unit: the byte of 4-bit types, the 6-bit group, the frame, or the element. -/
def unitElems (et bl : Nat) : Nat :=
  if etBlock et then bl else match etWidth et with
    | 4 => 2
    | 6 => 4
    | _ => 1

/-- Bytes of an access unit. -/
def unitBytes (et bl : Nat) : Nat := if etBlock et then frameBytes et bl else unitElems et bl * etWidth et / 8

/-- The first element of the unit that holds an element. -/
def unitStart (et bl i : Nat) : Nat := i / unitElems et bl * unitElems et bl

/-- The byte of a group at which the unit of an element lies (R127, R148). -/
def unitByte (et bl u : Nat) : Nat := u / unitElems et bl * unitBytes et bl

/-- The element after the unit of an element, at most vl. -/
def unitEnd (e : Entry) (t : Nat) : Nat := min (unitStart e.et e.bl t + unitElems e.et e.bl) e.vl

/-- The element group of a unit. -/
def unitGroup (e : Entry) (t : Nat) : Nat := unitByte e.et e.bl t / 192

/-- The bytes of a unit in a group. -/
def unitGet (hd : Hart) (e : Entry) (base u : Nat) : List Byte :=
  leBytes (unitBytes e.et e.bl) (groupGet hd.v base (8 * unitByte e.et e.bl u) (8 * unitBytes e.et e.bl))

/-- The active elements of a unit from an element on. -/
def unitActive (hd : Hart) (e : Entry) (gov t : Nat) : List Nat :=
  ((List.range (unitEnd e t - t)).map (t + ·)).filter (active hd e gov)

/-- Element j of a unit's bytes. -/
def unitElem (e : Entry) (u j : Nat) (bs : List Byte) : Nat :=
  leValue bs >>> ((j - u) * etWidth e.et) % 2 ^ etWidth e.et

/-- The fault of a unit: its place is the unit's first element (R310, R384). -/
def unitFault (e : Entry) (t : Nat) (f : Fail) : UnitFault :=
  faultAt (unitStart e.et e.bl t) f.cause (word f.value) f.bank

/-! ## Addresses (R305) -/

/-- x[xs] + imm10. -/
def baseAddr (e : Entry) (imm : BitVec 10) : Int := (e.op0.toNat : Int) + immOffset imm

/-- The byte offset that an index gives. -/
def indexOffset (hd : Hart) (e : Entry) (vb : VReg) (i : Nat) : Int :=
  let x := elemGet hd.v e.et2 e.bl vb.val i
  if etSigned e.et2 then toSigned (etWidth e.et2) x else x

/-- An index group that is aligned and in range, apart from a row when it must be (R303, R304). -/
def indexOk (e : Entry) (vb : VReg) (apart : Option VReg) : Bool :=
  etIndex e.et2 && match destRegs e e.et2 with
    | none => false
    | some n => groupOk vb.val n 1 && match apart with
      | none => true
      | some vd => !overlaps vd.val e.grp vb.val n

/-- The types of strided and indexed accesses: I, F, E and P. -/
def tyMem (et : Nat) : Bool := etWide et || etFloat et || etF8 et || etPw et

/-! ## Loads (R220, R307) -/

/-- How a load's units lie and what loading one does. -/
structure LoadShape where
  /-- Bytes of a unit, and where the unit of an element begins. -/
  len    : Nat
  addr   : Hart → Nat → Int
  check  : State → Int → Except Fail (List Piece) × State
  /-- The hart with the elements of a unit loaded from its bytes. -/
  write  : Hart → Nat → List Nat → List Byte → Hart
  /-- The hart with a dampened element cleared. -/
  clear  : Hart → Nat → Hart
  /-- The hart with the tail for a number of elements. -/
  tail   : Hart → Nat → Hart
  /-- The bytes at the places of a unit. -/
  read   : State → List Piece → List Byte
  /-- What a loaded unit does beyond that. -/
  loaded : State → List Piece → State

/-- Each of some elements of one unit meets its fault (R217). -/
def faultUnits (s : State) (h : HartId) (e : Entry) (gov : Nat) (f : UnitFault) (clear : Hart → Nat → Hart) :
    List Nat → UnitEnd
  | [] => .next s
  | j :: js => match faultElem s h e gov j f 0 (clear · j) with
    | .next s => faultUnits s h e gov f clear js
    | r => r

/-- The first addresses of the pages that some bytes lie on, as far as they translate. -/
def pagesOf (s : State) (h : HartId) (a : Int) (n : Nat) : List Nat :=
  if a < 0 then []
  else
    let hd := hartOf s h
    (runs a.toNat n).filterMap fun r =>
      match translateRuns s h hd.ctxid .load [r] with
      | (.ok (m :: _), _) => some (pieceOf s hd.ctxid m).page
      | _ => none

/-- Whether a unit beyond the first may be read: no page of it is a no-speculation page other than the first element's
(R307). -/
def mayRead (s : State) (h : HartId) (first : Int) (len : Nat) (ps : List Piece) : Bool :=
  let odd := ps.filter (·.nospec)
  odd.isEmpty || odd.all fun p => (pagesOf s h first len).contains p.page

/-- The plan of a load: fault-only-first, from the lowest active element on. A block-typed unit is loaded as its whole frame,
also where a written vstart lies inside it: R305 makes the frame the unit, and R185 keeps the elements below vstart (log 49,
DESIGN CHOICE). -/
def loadPlan (e : Entry) (h : HartId) (gov : Nat) (first : Option Nat) (lockstep : Bool) (L : LoadShape) : Plan :=
  .holding (gov := gov) (e := e)
  { total := e.vl, after := unitEnd e, group := unitGroup e, lockstep := lockstep && gov == 0, always := false
    memory := true, span := e.grp, needs := (· < rowEnd e.ta e.et e.bl e.vl e.grp)
    written := fun t => if unitEnd e t = e.vl then rowEnd e.ta e.et e.bl e.vl e.grp - unitGroup e t else 1
    trimmed := fun u =>
      if e.ta then 6 * e.grp - unitGroup e u else ofBool (e.start < u && unitGroup e (u - 1) == unitGroup e u)
    perform := fun s t =>
      let u := unitStart e.et e.bl t
      let els := unitActive (hartOf s h) e gov t
      let last (s : State) : State :=
        if unitEnd e t = e.vl then modHart s h fun hd => L.tail hd e.vl else s
      let lead := first.any fun i => unitStart e.et e.bl i == u
      let a := L.addr (hartOf s h) u
      let trimAt (s : State) : UnitEnd := .trim u (modHart s h fun hd => L.tail hd u)
      if els.isEmpty then .next (last s)
      else match L.check s a with
        | (.ok ps, s') =>
          if lead || mayRead s h (L.addr (hartOf s h) (unitStart e.et e.bl (first.getD 0))) L.len ps then
            let s'' := modHart s' h fun hd => L.write hd u els (L.read s' ps)
            .next (last (countRemote (L.loaded s'' ps) h ps))
          else trimAt s
        | (.error f, s') =>
          if lead then
            match faultUnits s' h e gov (unitFault e t f) L.clear els with
            | .next s => .next (last s)
            | r => r
          else trimAt s }

/-- The lowest active element at or above the starting element. -/
def firstActive (s : State) (h : HartId) (e : Entry) (gov : Nat) : Option Nat :=
  ((List.range (e.vl - e.start)).map (e.start + ·)).find? (active (hartOf s h) e gov)

/-- The shape of a load of whole elements into one row. -/
def rowShape (e : Entry) (h : HartId) (vd : VReg) (addr : Hart → Nat → Int) : LoadShape :=
  { len := unitBytes e.et e.bl, addr
    check := fun s a => check s h .load a (unitBytes e.et e.bl)
    write := fun hd u els bs =>
      if etBlock e.et then putV hd vd.val (8 * unitByte e.et e.bl u) (8 * bs.length) (leValue bs)
      else els.foldl (fun hd j => putElem hd e.et e.bl vd.val j (unitElem e u j bs)) hd
    clear := fun hd j => putElem hd e.et e.bl vd.val j 0
    tail := fun hd n => putTail hd e.ta e.et e.bl n vd.val e.grp
    read := fun s ps => loadPieces s h false ps
    loaded := fun s _ => s }

/-- A load into a group of grp registers that also reads some groups of that shape. -/
def Plan.into (p : Plan) (vd : VReg) (rs : List Nat) : Plan := { p with regs := vd.val :: rs, dest := some vd.val }

/-- vld. -/
def planVld (m : VMem) (e : Entry) (h : HartId) (s : State) : Except UnitFault Plan :=
  let gov := governing e m.ws
  issue e (governedOk e m.ws && rowOk e m.vd)
    ((loadPlan e h gov (firstActive s h e gov) (!etBlock e.et)
      (rowShape e h m.vd fun _ u => baseAddr e m.imm + unitByte e.et e.bl u)).into m.vd [])

/-- vlds: the stride is signed. -/
def planVlds (m : VMem) (e : Entry) (h : HartId) (s : State) : Except UnitFault Plan :=
  let gov := governing e m.ws
  issue e (tyMem e.et && governedOk e m.ws && rowOk e m.vd)
    ((loadPlan e h gov (firstActive s h e gov) true
      (rowShape e h m.vd fun _ u => baseAddr e m.imm + u * e.op1.toInt)).into m.vd [])

/-- vldx. -/
def planVldx (m : VMem) (vb : VReg) (e : Entry) (h : HartId) (s : State) : Except UnitFault Plan :=
  let gov := governing e m.ws
  issue e (tyMem e.et && governedOk e m.ws && rowOk e m.vd && indexOk e vb (some m.vd))
    ((loadPlan e h gov (firstActive s h e gov) (etWidth e.et == etWidth e.et2)
      (rowShape e h m.vd fun hd u => baseAddr e m.imm + indexOffset hd e vb u)).into m.vd [vb.val])

/-- The fields of a record converted and written to element i of the groups from f on (R309). -/
def putFields (hd : Hart) (e : Entry) (vd : VReg) (mode i : Nat) (bs : List Byte) : Nat → Nat → Hart
  | 0, _ => hd
  | k + 1, f =>
    let n := etBytes e.et2
    let (x, fl) := convertElem e.et2 e.et mode (ftzOf hd) (leValue ((bs.drop (f * n)).take n))
    putFields (addFlags (putElem hd e.et e.bl (vd.val + f * e.grp) i x) fl) e vd mode i bs k (f + 1)

/-- The same for each of n groups of a row. -/
def eachField (n : Nat) (g : Hart → Nat → Hart) (hd : Hart) : Hart := (List.range n).foldl g hd

/-- vldseg (R309). -/
def planVldseg (m : VMem) (n : BitVec 6) (e : Entry) (h : HartId) (s : State) : Except UnitFault Plan :=
  let gov := governing e m.ws
  let k := n.toNat
  let len := k * etBytes e.et2
  issue e (tyMem e.et && tyMem e.et2 && !(etPw e.et && etInt e.et2) && !(etInt e.et && etPw e.et2) && governedOk e m.ws
      && groupOk m.vd.val e.grp k)
    (.fields k m.vd.val e.grp <| loadPlan e h gov (firstActive s h e gov) false
      { len, addr := fun _ u => baseAddr e m.imm + u * len
        check := fun s a => check s h .load a len
        write := fun hd u _ bs => putFields hd e m.vd (roundMode hd m.rm) u bs k 0
        clear := fun hd j => eachField k (fun hd f => putElem hd e.et e.bl (m.vd.val + f * e.grp) j 0) hd
        tail := fun hd n => eachField k (fun hd f => putTail hd e.ta e.et e.bl n (m.vd.val + f * e.grp) e.grp) hd
        read := fun s ps => loadPieces s h false ps
        loaded := fun s _ => s })

/-! ## Stores (R221 to R223, R310, R311) -/

/-- The bits of one byte changed as one atomic step (R272, R310). -/
def mergeByte (d : Device) (m : Mem) (h : HartId) (p : Path) (k data mask : Nat) : Mem :=
  if mask = 0 then m else (atomicUpdate d m h p k 1 fun old => some ((old &&& (0xFF - mask)) ||| (data &&& mask))).2

/-- Bytes merged one by one in ascending order. -/
def mergeBytes (d : Device) (m : Mem) (h : HartId) (p : Path) : Nat → List (Byte × Byte) → Mem
  | _, [] => m
  | k, (x, b) :: t => mergeBytes d (mergeByte d m h p k x.toNat b.toNat) h p (k + 1) t

/-- A partly written unit merged into its places, behind the writes of its instruction before it. -/
def mergePieces (s : State) (h : HartId) (tag : Nat) : List Piece → List (Byte × Byte) → State
  | [], _ => s
  | p :: ps, bs =>
    let m := performAt s.dev s.mem h (fun a => a.tag == tag) .system
    mergePieces { s with mem := mergeBytes s.dev m h (piecePath s false p) p.key (bs.take p.len) } h tag ps (bs.drop p.len)

/-- The value of a blended element (R222): `c` is the weight code. At weight 1.0 it is the new value as it stands, a NaN being
made canonical (R133); there vctl.ftz does not touch a subnormal, and a signalling NaN in memory sets no flag, which R222
leaves open beside R134 and R133 (log 48, DESIGN CHOICE). -/
def blendElem (et mode : Nat) (ftz : Bool) (c old new : Nat) : Nat × FlagSet :=
  let f := fmtOf et
  let o := unpack f ftz old
  let n := unpack f ftz new
  if 0x8000 ≤ c then (if n.isNan then (canonNan f, n.nvFlag) else (new, 0))
  else
    if o.isInf then (canonNan f, flagNV)
    else if o.isNan || n.isNan then deliverWith f mode ftz (nanOf o n)
    else if n.isInf then (new, 0)
    else
      let d := (exactAdd mode n o.negate).1
      deliverWith f mode ftz (exactAdd mode o (exactMul (.num false c 0x8000) d).1)

/-- The bytes of a unit with some of its elements replaced. -/
def unitWith (e : Entry) (u : Nat) (xs : List (Nat × Nat)) : List Byte :=
  leBytes (unitBytes e.et e.bl) (xs.foldl (fun acc p => acc + p.2 <<< ((p.1 - u) * etWidth e.et)) 0)

/-- Whether an access unit at an address is seen whole: an element of 8 bits or more at a multiple of its size (R272). -/
def unitWhole (et bl : Nat) (a : Int) : Bool := !etBlock et && 8 ≤ etWidth et && a % unitBytes et bl == 0

/-- The order of the units of a store (R274, R275). -/
def storeOrder (u : Bool) : ElemOrder := if u then .free else .ascending

/-- The plan of a store: precise, in ascending element order; `free` says that its elements may be performed in any order. The
bytes of a 6-bit group are units of their own (R274). A frame is stored whole, as `loadPlan` loads it. -/
def storePlan (e : Entry) (h : HartId) (tag gov : Nat) (vd : VReg) (rm : Rm) (free lockstep : Bool)
    (addr : Hart → Nat → Int) : Plan :=
  let blend := e.sp && gov != 0
  let n := unitBytes e.et e.bl
  .holding (gov := gov) (e := e)
  { total := e.vl, after := unitEnd e, group := unitGroup e, lockstep := lockstep && gov == 0, always := false
    memory := true, regs := [vd.val], span := e.grp
    perform := fun s t =>
      let u := unitStart e.et e.bl t
      let hd := hartOf s h
      let els := unitActive hd e gov t
      let put (s : State) (ps : List Piece) (bs : List Byte) : State :=
        if !etBlock e.et && etWidth e.et < 8 then storeBytes (countRemote s h ps) h false tag u (storeOrder free) ps bs
        else storePieces (countRemote s h ps) h false tag u (storeOrder free) (unitWhole e.et e.bl (addr hd u)) ps bs
      if els.isEmpty then .next s
      else match check s h (if blend then .blend else .store) (addr hd u) n with
        | (.error f, s) => faultUnits s h e gov (unitFault e t f) (fun hd _ => hd) els
        | (.ok ps, s) =>
          if blend then
            let old := leValue (loadPieces s h false ps)
            let (x, fl) := blendElem e.et (roundMode hd rm) (ftzOf hd) (weightGet hd.w gov t) old
              (elemGet hd.v e.et e.bl vd.val t)
            let s := modHart s h (addFlags · fl)
            .next (put s ps (leBytes n x))
          else if etBlock e.et || els.length = unitElems e.et e.bl then
            .next (put s ps (unitGet hd e vd.val u))
          else
            let data := unitWith e u (els.map fun j => (j, elemGet hd.v e.et e.bl vd.val j))
            let mask := unitWith e u (els.map fun j => (j, 2 ^ etWidth e.et - 1))
            .next (mergePieces (countRemote s h ps) h tag ps (data.zip mask)) }

/-- The checks common to the stores: under the blend policy only floating types are accepted (R222). -/
def storeOk (e : Entry) (ws : WReg) (vd : VReg) : Bool :=
  governedOk e ws && rowOk e vd && (!e.sp || governing e ws == 0 || etFloat e.et || etF8 e.et)

/-- vst. -/
def planVst (m : VMem) (u : Bool) (e : Entry) (h : HartId) (tag : Nat) : Except UnitFault Plan :=
  issue e (storeOk e m.ws m.vd)
    (storePlan e h tag (governing e m.ws) m.vd m.rm u (!etBlock e.et)
      fun _ t => baseAddr e m.imm + unitByte e.et e.bl t)

/-- vsts. -/
def planVsts (m : VMem) (u : Bool) (e : Entry) (h : HartId) (tag : Nat) : Except UnitFault Plan :=
  issue e (tyMem e.et && storeOk e m.ws m.vd)
    (storePlan e h tag (governing e m.ws) m.vd m.rm u true fun _ t => baseAddr e m.imm + t * e.op1.toInt)

/-- vstx. -/
def planVstx (m : VMem) (vb : VReg) (u : Bool) (e : Entry) (h : HartId) (tag : Nat) : Except UnitFault Plan :=
  issue e (tyMem e.et && storeOk e m.ws m.vd && indexOk e vb none)
    ((storePlan e h tag (governing e m.ws) m.vd m.rm u (etWidth e.et == etWidth e.et2)
      fun hd t => baseAddr e m.imm + indexOffset hd e vb t).reading [vb.val])

/-! ## Counter words -/

/-- The check of a counter word when an entry starts: 8 bytes, aligned, as a store (R314, R322). -/
def checkCounter (s : State) (h : HartId) (a : Word) : Except Fail (List Piece) × State :=
  if a.toNat % 8 ≠ 0 then (.error ⟨3, a.toNat, none⟩, s) else check s h .store a.toNat 8

/-- The check of a counter word that is raised, and so read (R314). -/
def checkRaise (s : State) (h : HartId) (a : Word) : Except Fail (List Piece) × State :=
  checkAtomic s h (hartOf s h).ctxid (hartOf s h).priv a.toNat 8

/-- A counter word raised by one, after the writes of one instruction: a release of them at a scope on the word's path, which on
L and H acts at domain and system scope (R281, R285, R314). -/
def bumpCounter (s : State) (h : HartId) (tag : Nat) (sc : Scope) (p : Piece) : State :=
  let level := levelFor sc (piecePath s false p)
  let m := performWant s.dev s.mem fun a => if a.hart == h && a.tag == tag then level else 0
  { s with mem := (atomicUpdate s.dev m h (piecePath s false p) p.key 8 fun v => some (v + 1)).2 }

/-- The fault of a counter word (R314, R323, R384). -/
def counterFault (elem start : Nat) (f : Fail) : UnitFault :=
  { cause := f.cause, value := word f.value, phase := 3, group := 0, elem, vstart := start, start, bank := f.bank }

/-! ## vst.pair (R313, R314) -/

/-- The types of vst.pair. -/
def pairTypes (et et2 : Nat) : Bool :=
  tyIF et && (et2 == et || ((et == 9 || et == 10) && (etFloat et2 || etF8 et2 || etBlock et2)))

/-- The elements of a unit, as rows and columns of the tile. -/
def pairElems (e : Entry) (u : Nat) : List (Nat × Nat) :=
  let half := e.vrc * e.vl
  let n := if etBlock e.et2 then e.bl else 1
  if u < half then (List.range n).map fun k => (u / e.vl, u % e.vl / n * n + k)
  else
    let w := u - half
    (List.range n).map fun k => (w % e.vrc / n * n + k, w / e.vrc)

/-- The bytes of a unit. -/
def pairBytes (e : Entry) : Nat := if etBlock e.et2 then frameBytes e.et2 e.bl else etBytes e.et2

/-- Where a unit goes. -/
def pairAddr (e : Entry) (u : Nat) : Int :=
  let half := e.vrc * e.vl
  let n := if etBlock e.et2 then e.bl else 1
  if u < half then (e.op0.toNat : Int) + u / e.vl * dataBytes e.et2 e.bl e.vl + u % e.vl / n * pairBytes e
  else
    let w := u - half
    (e.op1.toNat : Int) + w / e.vrc * dataBytes e.et2 e.bl e.vrc + w % e.vrc / n * pairBytes e

/-- The bytes that a unit writes, with their flags (R146, R313). -/
def pairData (hd : Hart) (e : Entry) (vd : VReg) (mode u : Nat) : List Byte × FlagSet :=
  let xs := (pairElems e u).map fun p => vecElem hd e vd p.1 p.2
  if etBlock e.et2 then
    let (e0, e1, cs, fl) := quantBlock (etWidth e.et2) (xs.map (unpack (fmtOf e.et) (ftzOf hd)))
    let w := etWidth e.et2
    let payload := cs.foldr (fun c acc => acc * 2 ^ w + c) 0
    (leBytes (pairBytes e) (e0 + 256 * e1 + 2 ^ 16 * payload), fl)
  else
    let (x, fl) := convertElem e.et e.et2 mode (ftzOf hd) (xs.headD 0)
    (leBytes (pairBytes e) x, fl)

/-- The lost writes of a hart that pass a test dropped, and the place of the first: a release of them cannot be performed
(R21). -/
def dropLost (s : State) (h : HartId) (p : Access → Bool) : Option Nat × State :=
  let mine (a : Access) : Bool := a.hart == h && p a && lost s.dev a
  ((s.mem.flight.find? mine).map fun a => (a.cells.head?.map (·.1)).getD 0,
    { s with mem := { s.mem with flight := s.mem.flight.filter fun a => !mine a } })

/-- vst.pair: the units of both copies, then the increment of the counter word as one unit more. -/
def planVstPair (a : VPairArgs) (e : Entry) (h : HartId) (tag : Nat) : Except UnitFault Plan :=
  let half := e.vrc * e.vl
  let last := max (2 * half) e.start
  let n := if etBlock e.et2 then e.bl else 1
  issue e (pairTypes e.et e.et2 && ungovernedOk e a.ws && tileOk e a.vd
      && (!etBlock e.et2 || (e.vl % e.bl == 0 && e.vrc == e.bl)))
    { total := last + 1, lockstep := false, always := false
      after := fun u => if u < last then u / n * n + n else last + 1
      group := fun u => u / n * pairBytes e / 192
      perform := fun s u =>
        let start := if a.xc ≠ 0 && e.start = 0 && u = 0 then checkCounter s h e.op2 else (.ok [], s)
        match start with
        | (.error f, s) => .fault (counterFault 0 0 f) s
        | (.ok _, s) =>
          if u < last then
            match check s h .store (pairAddr e u) (pairBytes e) with
            | (.error f, s) =>
              .fault { cause := f.cause, value := word f.value, phase := if u < half then 1 else 2, group := 0,
                       elem := if u < half then u else u - half, vstart := u, start := u, bank := f.bank } s
            | (.ok ps, s) =>
              let hd := hartOf s h
              let (bs, fl) := pairData hd e a.vd (roundMode hd a.rm) u
              .next (storePieces (modHart (countRemote s h ps) h (addFlags · fl)) h false tag u .ascending
                (unitWhole e.et2 e.bl (pairAddr e u)) ps bs)
          else if a.xc = 0 then .next s
          else match checkRaise s h e.op2 with
            | (.error f, s) => .fault (counterFault 0 (2 * half) f) s
            | (.ok (p :: _), s) => match dropLost s h (·.tag == tag) with
              | (some k, s) => .fault (counterFault 0 (2 * half) ⟨15, 0, some ⟨4, some k⟩⟩) s
              | (none, s) => .next (bumpCounter (countRemote s h [p]) h tag .package p)
            | (.ok [], s) => .next s }

/-! ## vgl and vsc (R315 to R317) -/

/-- The checks of a linked element: alignment, the windows that hold no HBM of the package, and its target (R305,
R315). -/
def checkLinked (s : State) (h : HartId) (a : Int) (n : Nat) : Except Fail (List Piece) × State :=
  if a % n ≠ 0 then (.error ⟨3, wrap 64 a, none⟩, s)
  else if 0 ≤ a && (canonicalFault a.toNat n).isNone && (windowOf a.toNat == .nameless || windowOf a.toNat == .expert) then
    (.error ⟨6, wrap 64 a, none⟩, s)
  else match check s h .load a n with
    | (.ok ps, s) =>
      if ps.all fun p => ownHbm s.dev p.key then (.ok ps, s) else (.error ⟨6, wrap 64 a, none⟩, s)
    | (.error f, s) => match f.bank with
      | some ⟨_, some k⟩ => if ownHbm s.dev k then (.error f, s) else (.error ⟨6, wrap 64 a, none⟩, s)
      | _ => (.error f, s)

/-- vgl: the link set is cleared, and the line of each loaded element joins it as it is read; nothing that was read ahead of it
serves. -/
def planVgl (m : VMem) (vb : VReg) (e : Entry) (h : HartId) (s : State) : Except UnitFault Plan :=
  let gov := governing e m.ws
  let clear (s : State) : State := { s with mem := dropLinks s.mem h }
  let shape := { rowShape e h m.vd (fun hd u => baseAddr e m.imm + indexOffset hd e vb u) with
    check := fun s a => checkLinked s h a (etBytes e.et)
    read := fun s ps => readPieces s h ps
    loaded := fun s ps => match ps with
      | p :: _ => forgetPieces { s with mem := link s.mem h p.key } h ps
      | [] => s }
  let p := (loadPlan e h gov (firstActive s h e gov) false shape).into m.vd []
  issue e (tyMem e.et && governedOk e m.ws && rowOk e m.vd && indexOk e vb (some m.vd))
    { p with
      always := true
      perform := fun s t => p.perform (if t = e.start then clear s else s) t
      finish := fun s => if e.vl ≤ e.start then clear s else s }

/-- A success weight written. -/
def putSuccess (hd : Hart) (wd : WReg) (i : Nat) (ok : Bool) : Hart := putW hd wd.val i (if ok then 0x8000 else 0)

/-- vsc: an element is written when its line is linked and intact; on completion the link set is broken. -/
def planVsc (m : VMem) (vb : VReg) (wd : WReg) (e : Entry) (h : HartId) (s : State) : Except UnitFault Plan :=
  let gov := governing e m.ws
  let n := etBytes e.et
  let addr (hd : Hart) (i : Nat) : Int := baseAddr e m.imm + indexOffset hd e vb i
  let before := ((List.range (e.vl - e.start)).map (e.start + ·)).filter (active (hartOf s h) e gov)
  match entryWeights e with
  | none => .error (issueFault e)
  | some gw =>
    issue e (tyMem e.et && governedOk e m.ws && rowOk e m.vd && indexOk e vb none && weightOk wd.val gw)
      <| .holding (gov := gov) (e := e)
      { total := e.vl, after := (· + 1), group := fun t => groupIn e.et e.bl t, lockstep := false, always := true
        finish := fun s => { s with mem := dropLinks s.mem h }
        written := fun i => 1 + (if i + 1 = e.vl then weightsEnd e gw - i / 192 else ofBool ((i + 1) % 192 == 0))
        wdest := some (wd.val, gw), needs := (· < weightsEnd e gw)
        perform := fun s i =>
          let hd := hartOf s h
          let put (s : State) (ok : Bool) : State := modHart s h fun hd =>
            let hd := putSuccess hd wd i ok
            if i + 1 = e.vl then putTailW hd e.ta e.vl wd.val gw else hd
          let dup := before.any fun j => j < i && addr hd j == addr hd i
          if !active hd e gov i || dup then .next (put s false)
          else
            let checked := if addr hd i % n ≠ 0 then (.error ⟨3, wrap 64 (addr hd i), none⟩, s)
              else check s h .store (addr hd i) n
            match checked with
            | (.error f, s) =>
              match faultElem s h e gov i (faultAt i f.cause (word f.value) f.bank) 0 id with
              | .next s => .next (put s false)
              | r => r
            | (.ok (p :: _), s) =>
              if linked s.mem h p.key then
                let x := elemGet hd.v e.et e.bl m.vd.val i
                let m := (atomicUpdate s.dev s.mem h (piecePath s false p) p.key n fun _ => some x).2
                .next (put (countRemote { s with mem := m } h [p]) true)
              else .next (put s false)
            | (.ok [], s) => .next (put s false) }

/-! ## vamo (R318) -/

/-- The new value of an element atomic on w bits. -/
def amoValue (op : AmoOp) (w old x : Nat) : Nat :=
  let lt (a b : Nat) : Bool := toSigned w a < toSigned w b
  match op with
  | .add => (old + x) % 2 ^ w
  | .swap => x
  | .max => if lt old x then x else old
  | .min => if lt x old then x else old
  | .and => old &&& x
  | .or => old ||| x
  | .maxn => if old < x then x else old
  | .minn => if x < old then x else old

/-- The integer types of vamo. -/
def tyAtomic (et : Nat) : Bool := et == 2 || et == 3 || et == 6 || et == 7

/-- vamo. An acquire gives way to the accesses after it on the paths of its elements (R281, R282). -/
def planVamo (a : VAmoArgs) (e : Entry) (h : HartId) : Except UnitFault Plan :=
  let gov := governing e a.ws
  let n := etBytes e.et
  issue e (tyAtomic e.et && governedOk e a.ws && rowOk e a.vd && rowOk e a.va
      && (a.vd == a.va || !overlaps a.vd.val e.grp a.va.val e.grp) && indexOk e a.vb (some a.vd))
    <| .holding (gov := gov) (e := e)
    { total := e.vl, after := (· + 1), group := fun t => groupIn e.et e.bl t, lockstep := false, always := false
      written := fun i => if i + 1 = e.vl then rowEnd e.ta e.et e.bl e.vl e.grp - groupIn e.et e.bl i else 1
      dest := some a.vd.val, span := e.grp, needs := (· < rowEnd e.ta e.et e.bl e.vl e.grp)
      perform := fun s i =>
        let hd := hartOf s h
        let last (s : State) : State :=
          if i + 1 = e.vl then modHart s h fun hd => putTail hd e.ta e.et e.bl e.vl a.vd.val e.grp else s
        if !active hd e gov i then .next (last s)
        else match checkAtomic s h hd.ctxid hd.priv ((e.op0.toNat : Int) + indexOffset hd e a.vb i) n with
          | (.error f, s) =>
            match faultElem s h e gov i (faultAt i f.cause (word f.value) f.bank) 0
                (fun hd => putElem hd e.et e.bl a.vd.val i 0) with
            | .next s => .next (last s)
            | r => r
          | (.ok (p :: _), s) =>
            match dropLost s h fun b => releases a.ord && b.path == piecePath s false p with
            | (some k, s) => .fault (faultAt i 15 (word p.va) (some ⟨4, some k⟩)) s
            | (none, s) =>
              let s := countRemote (releaseBefore s h a.ord (piecePath s false p) a.sc) h [p]
              let x := elemGet hd.v e.et e.bl a.va.val i
              let r := atomicUpdate s.dev s.mem h (piecePath s false p) p.key n fun old => some (amoValue a.op (8 * n) old x)
              let s := { s with mem := r.2 }
              let s := if acquires a.ord then acquireOn s h (piecePath s false p) else s
              .next (last (modHart s h fun hd => putElem hd e.et e.bl a.vd.val i r.1))
          | (.ok [], s) => .next (last s) }

/-! ## vsred (R319 to R321) -/

/-- Whether an operation suits a type. -/
def redTypes (et : Nat) (op : RedOp) : Bool := tyAtomic et || (et == 10 && op != .and && op != .or)

/-- vsred: its active elements are issued, and the entry completes; it writes no element group (R438). -/
def planVsred (a : VSredArgs) (e : Entry) (h : HartId) (tag : Nat) : Except UnitFault Plan :=
  issue e (redTypes e.et a.op && governedOk e a.ws && rowOk e a.va && indexOk e a.vb none)
    { wholePlan e.vl (fun s t =>
      let hd := hartOf s h
      let els := ((List.range (e.vl - t)).map (t + ·)).filter (active hd e (governing e a.ws))
      let elem (i : Nat) : RedElem :=
        { index := i, addr := (e.op0.toNat : Int) + indexOffset hd e a.vb i,
          value := BitVec.ofNat 64 (elemGet hd.v e.et e.bl a.va.val i) }
      if els.isEmpty then s
      else
        let p : Posted := { tag, hart := h, farm := hd.farmid, ctx := hd.ctxid, priv := hd.priv, pc := e.pc, op := a.op,
                            et := e.et, scope := a.sc, ftz := ftzOf hd, elems := els.map elem, failed := none }
        modHart { s with mem := { s.mem with posted := s.mem.posted ++ [p] } } h (count · 21 els.length))
      with written := fun _ => 0 }

/-! ## vcopy (R322, R323) -/

/-- The bytes of one run: up to the next 64-byte boundary of the source and of the destination. -/
def copyRun (e : Entry) (b : Nat) : Nat :=
  let n := e.op2.toNat - b
  min n (min (64 - (e.op0.toNat + b) % 64) (64 - (e.op1.toNat + b) % 64))

/-- The virtual ranges of a copy overlap. -/
def copyOverlaps (e : Entry) : Bool :=
  let n := e.op2.toNat
  e.op2 != 0 && e.op0.toNat < e.op1.toNat + n && e.op1.toNat < e.op0.toNat + n

/-- vcopy: runs of bytes, then the counter increment is left to come. -/
def planVcopy (a : VCopyArgs) (e : Entry) (h : HartId) (s : State) (tag : Nat) : Except UnitFault Plan :=
  let n := e.op2.toNat
  let last := max n e.start
  let place := if a.xc = 0 then none else match (checkCounter s h e.op3).1 with
    | .ok (p :: _) => some p.key
    | _ => none
  issue e (ungovernedOk e a.ws && n ≤ 0xFFFFFFFF && !copyOverlaps e)
    { total := last + 1, lockstep := false, always := false
      after := fun b => if b < last then b + copyRun e b else last + 1
      group := fun b => b / 192
      perform := fun s b =>
        let start := if a.xc ≠ 0 && b = e.start then checkCounter s h e.op3 else (.ok [], s)
        match start with
        | (.error f, s) => .fault (counterFault e.start e.start f) s
        | (.ok _, s) =>
          if b < last then
            let k := copyRun e b
            match check s h .copy ((e.op1.toNat : Int) + b) k with
            | (.error f, s) => .fault (faultAt b f.cause (word f.value) f.bank) s
            | (.ok ps, s) =>
              let bs := loadPieces s h true ps
              match check s h .store ((e.op0.toNat : Int) + b) k with
              | (.error f, s) => .fault (faultAt b f.cause (word f.value) f.bank) s
              | (.ok qs, s) => .next (storePieces s h true tag b .bytes false qs bs)
          else match place with
            | none => .next s
            | some key =>
              .next { s with mem := { s.mem with
                counters := s.mem.counters ++ [{ hart := h, tag, addr := key, scope := a.sc }] } } }

end Machine

end Sys2Proof
end

