-- ==== Sys2Proof/Machine/VLocal.lean ====
section
/-! DEFINITION. Unit VS: stage memory, beads and the Facet store (R104, R324 to R340), as plans. -/

namespace Sys2Proof

namespace Machine

/-! ## Stage memory (R325, R326) -/

/-- The bytes of stage memory. -/
def stageSize : Nat := 294912

/-- The stage addresses of a byte range; none when it is out of range. -/
def stageRange (a : Int) (n : Nat) : Option (List Nat) :=
  if 0 ≤ a && a + n ≤ stageSize then some ((List.range n).map (a.toNat + ·)) else none

/-- The bytes at some stage addresses. -/
def stageGet (hd : Hart) (as : List Nat) : List Byte := as.map fun a => tget 0 hd.stage a

/-- One byte of stage memory written, its 4 KiB block marked (R67). -/
def stagePut1 (hd : Hart) (a : Nat) (b : Byte) : Hart :=
  { hd with stage := tset 0 hd.stage a b, blocks := hd.blocks ||| (1 <<< (a / 4096)) }

/-- Bytes written at some stage addresses. -/
def stagePut (hd : Hart) : List Nat → List Byte → Hart
  | a :: as, b :: bs => stagePut (stagePut1 hd a b) as bs
  | _, _ => hd

/-- The stage address of a bead byte of a lane (R325). -/
def beadAddr (lane o : Nat) : Nat := 8 * ((1024 + o / 8) * 24 + lane) + o % 8

/-- The stage addresses of the unit of s bytes at byte p of a group, at bead offset o (R335). -/
def beadRange (o : Int) (p s : Nat) : Option (List Nat) :=
  let a := o + 8 * (p / 192 : Nat) + (p % 8 : Nat)
  if 0 ≤ a && a + s ≤ 4096 then some ((List.range s).map fun k => beadAddr (p % 192 / 8) (a.toNat + k)) else none

/-- The bytes of a place, or zeros when it is out of range. -/
def stageLoad (hd : Hart) (n : Nat) : Option (List Nat) → List Byte
  | some as => stageGet hd as
  | none => List.replicate n 0

/-! ## Loads and stores (R330, R335) -/

/-- A stage or bead load: no element faults; an out-of-range unit loads zero and sets OOR. A frame is loaded whole, also where a
written vstart lies inside it, and `localStore` stores it whole: R305 makes the frame the unit, and R185 keeps the elements
below vstart (log 49, DESIGN CHOICE). -/
def localLoad (e : Entry) (h : HartId) (gov : Nat) (vd : VReg) (place : Hart → Nat → Option (List Nat)) : Plan :=
  let n := unitBytes e.et e.bl
  { total := e.vl, after := unitEnd e, group := unitGroup e, lockstep := false, always := false
    written := fun t => if unitEnd e t = e.vl then rowEnd e.ta e.et e.bl e.vl e.grp - unitGroup e t else 1
    dest := some vd.val, span := e.grp, needs := (· < rowEnd e.ta e.et e.bl e.vl e.grp)
    perform := fun s t => .next (modHart s h fun hd =>
      let u := unitStart e.et e.bl t
      let els := unitActive hd e gov t
      let at_ := place hd u
      let bs := stageLoad hd n at_
      let hd := if els.isEmpty || at_.isSome then hd else addFlags hd flagOOR
      let hd := if els.isEmpty then hd
        else if etBlock e.et then putV hd vd.val (8 * unitByte e.et e.bl u) (8 * bs.length) (leValue bs)
        else els.foldl (fun hd j => putElem hd e.et e.bl vd.val j (unitElem e u j bs)) hd
      if unitEnd e t = e.vl then putTail hd e.ta e.et e.bl e.vl vd.val e.grp else hd) }

/-- A stage or bead store under the gate or blend policy (R221, R222, R310). It ignores rm (R329): a blend rounds by vctl. -/
def localStore (e : Entry) (h : HartId) (gov : Nat) (vd : VReg) (place : Hart → Nat → Option (List Nat)) : Plan :=
  let n := unitBytes e.et e.bl
  { total := e.vl, after := unitEnd e, group := unitGroup e, lockstep := false, always := false
    perform := fun s t => .next (modHart s h fun hd =>
      let u := unitStart e.et e.bl t
      let els := unitActive hd e gov t
      if els.isEmpty then hd
      else match place hd u with
        | none => addFlags hd flagOOR
        | some as =>
          let old := stageGet hd as
          if e.sp && gov != 0 then
            let (x, fl) := blendElem e.et (roundMode hd 0) (ftzOf hd) (weightGet hd.w gov t) (leValue old)
              (elemGet hd.v e.et e.bl vd.val t)
            stagePut (addFlags hd fl) as (leBytes n x)
          else if etBlock e.et then stagePut hd as (unitGet hd e vd.val u)
          else
            let data := unitWith e u (els.map fun j => (j, elemGet hd.v e.et e.bl vd.val j))
            let mask := unitWith e u (els.map fun j => (j, 2 ^ etWidth e.et - 1))
            let new := (old.zip (data.zip mask)).map fun p => (p.1 &&& ~~~p.2.2) ||| p.2.1
            stagePut hd as new) }

/-- sld. -/
def planSld (m : VStage) (e : Entry) (h : HartId) : Except UnitFault Plan :=
  issue e (governedOk e m.ws && rowOk e m.vd)
    (localLoad e h (governing e m.ws) m.vd fun _ u =>
      stageRange (baseAddr e m.imm + unitByte e.et e.bl u) (unitBytes e.et e.bl))

/-- sst. -/
def planSst (m : VStage) (e : Entry) (h : HartId) : Except UnitFault Plan :=
  issue e (storeOk e m.ws m.vd)
    (localStore e h (governing e m.ws) m.vd fun _ u =>
      stageRange (baseAddr e m.imm + unitByte e.et e.bl u) (unitBytes e.et e.bl))

/-- sldx: the indices are stage words. -/
def planSldx (m : VStage) (vb : VReg) (e : Entry) (h : HartId) : Except UnitFault Plan :=
  issue e (tyMem e.et && governedOk e m.ws && rowOk e m.vd && indexOk e vb (some m.vd))
    (localLoad e h (governing e m.ws) m.vd fun hd u =>
      stageRange (baseAddr e m.imm + 8 * indexOffset hd e vb u) (etBytes e.et))

/-- sstx. -/
def planSstx (m : VStage) (vb : VReg) (e : Entry) (h : HartId) : Except UnitFault Plan :=
  issue e (tyMem e.et && storeOk e m.ws m.vd && indexOk e vb none)
    (localStore e h (governing e m.ws) m.vd fun hd u =>
      stageRange (baseAddr e m.imm + 8 * indexOffset hd e vb u) (etBytes e.et))

/-- bld. -/
def planBld (m : VStage) (e : Entry) (h : HartId) : Except UnitFault Plan :=
  issue e (tyMem e.et && governedOk e m.ws && rowOk e m.vd)
    (localLoad e h (governing e m.ws) m.vd fun _ u => beadRange (baseAddr e m.imm) (u * etBytes e.et) (etBytes e.et))

/-- bst. -/
def planBst (m : VStage) (e : Entry) (h : HartId) : Except UnitFault Plan :=
  issue e (tyMem e.et && storeOk e m.ws m.vd)
    (localStore e h (governing e m.ws) m.vd fun _ u =>
      beadRange (baseAddr e m.imm) (u * etBytes e.et) (etBytes e.et))

/-! ## samo (R331) -/

/-- samo. -/
def planSamo (a : SamoArgs) (e : Entry) (h : HartId) : Except UnitFault Plan :=
  let gov := governing e a.ws
  let n := etBytes e.et
  issue e (tyAtomic e.et && governedOk e a.ws && rowOk e a.vd && rowOk e a.va && !overlaps a.vd.val e.grp a.va.val e.grp
      && indexOk e a.vb (some a.vd))
    <| .holding (gov := gov) (e := e)
    { total := e.vl, after := (· + 1), group := fun t => groupIn e.et e.bl t, lockstep := false, always := false
      written := fun i => if i + 1 = e.vl then rowEnd e.ta e.et e.bl e.vl e.grp - groupIn e.et e.bl i else 1
      dest := some a.vd.val, span := e.grp, needs := (· < rowEnd e.ta e.et e.bl e.vl e.grp)
      perform := fun s i =>
        let hd := hartOf s h
        let last (s : State) : State :=
          if i + 1 = e.vl then modHart s h fun hd => putTail hd e.ta e.et e.bl e.vl a.vd.val e.grp else s
        let addr := (e.op0.toNat : Int) + 8 * indexOffset hd e a.vb i
        if !active hd e gov i then .next (last s)
        else match stageRange addr n with
          | none => .next (last (modHart s h fun hd => addFlags (putElem hd e.et e.bl a.vd.val i 0) flagOOR))
          | some as =>
            if addr % n ≠ 0 then
              match faultElem s h e gov i (faultAt i 3 (word (wrap 64 addr)) none) 0
                  (fun hd => putElem hd e.et e.bl a.vd.val i 0) with
              | .next s => .next (last s)
              | r => r
            else
              let old := leValue (stageGet hd as)
              let new := amoValue a.op (8 * n) old (elemGet hd.v e.et e.bl a.va.val i)
              .next (last (modHart s h fun hd => putElem (stagePut hd as (leBytes n new)) e.et e.bl a.vd.val i old)) }

/-! ## Row copies (R332 to R334) -/

/-- The rows, the bytes of a row and the low word of a row descriptor. -/
def rowCount (e : Entry) : Nat := getBits e.op2 48 16
/-- See `rowCount`. -/
def rowBytes (e : Entry) : Nat := getBits e.op2 32 16
/-- See `rowCount`. -/
def rowWord (e : Entry) : Nat := getBits e.op2 0 32

/-- The stride of stage rows. -/
def rowStride (e : Entry) : Nat := 8 * ceilDiv (rowBytes e) 8

/-- Where byte b of stage row r lies. -/
def rowByte (swz : Bool) (s r b : Nat) : Nat := s + 8 * (if swz then b / 8 ^^^ r % 8 else b / 8) + b % 8

/-- The stage addresses of row r. -/
def rowPlaces (e : Entry) (swz : Bool) (r : Nat) : List Nat :=
  (List.range (rowBytes e)).map (rowByte swz (e.op0.toNat + r * rowStride e) r)

/-- One row moved between stage memory and a device address; `pass` when the row must not be moved. -/
def moveRow (s : State) (h : HartId) (e : Entry) (a : ScopyArgs) (tag r : Nat) (d : Int) (zero : Bool) : UnitEnd :=
  let n := rowBytes e
  let as := rowPlaces e a.swz r
  if stageSize < e.op0.toNat + r * rowStride e + rowStride e then .next (modHart s h (addFlags · flagOOR))
  else if zero then
    .next (modHart s h fun hd => addFlags (if a.out then hd else stagePut hd as (List.replicate n 0)) flagOOR)
  else if n = 0 then .next s
  else match check s h (if a.out then .store else .copy) d n with
    | (.error f, s) => .fault (faultAt r f.cause (word f.value) f.bank) s
    | (.ok ps, s) =>
      if a.out then .next (storePieces s h true tag r .bytes false ps (stageGet (hartOf s h) as))
      else
        let bs := loadPieces s h true ps
        .next (modHart s h fun hd => stagePut hd as bs)

/-- Under swz a row is a multiple of 64 bytes. -/
def rowsOk (e : Entry) (a : ScopyArgs) : Bool := ungovernedOk e a.ws && (!a.swz || rowBytes e % 64 == 0)

/-- scopy. -/
def planScopy (a : ScopyArgs) (e : Entry) (h : HartId) (tag : Nat) : Except UnitFault Plan :=
  issue e (rowsOk e a)
    { total := rowCount e, after := (· + 1), group := id, lockstep := false, always := false
      perform := fun s r =>
        moveRow s h e a tag r ((e.op1.toNat : Int) + r * toSigned 32 (rowWord e)) false }

/-- scopy.x: batches of eight rows. -/
def planScopyX (a : ScopyArgs) (vb : VReg) (e : Entry) (h : HartId) (tag : Nat) : Except UnitFault Plan :=
  issue e (rowsOk e a && rowCount e ≤ 288)
    { total := rowCount e, after := (· + 1), group := (· / 8), lockstep := false, always := false
      perform := fun s r =>
        let idx := groupGet (hartOf s h).v vb.val (32 * r) 32
        moveRow s h e a tag r ((e.op1.toNat : Int) + idx * rowBytes e) (rowWord e ≤ idx) }

/-! ## The Facet store (R336 to R340) -/

/-- The set of a key. -/
def facetSet (k : Nat) : Nat := k * 0x9E3779B1 % 2 ^ 32 / 2 ^ 23

/-- The value of a key. -/
def facetGet (hd : Hart) (k : Nat) : Option (BitVec 32) := tget none hd.facet k

/-- A key's value set. -/
def facetPut (hd : Hart) (k x : Nat) : Hart := { hd with facet := tset none hd.facet k (some (BitVec.ofNat 32 x)) }

/-- The set of a key holds 8 entries. -/
def facetFull (hd : Hart) (k : Nat) : Bool := 8 ≤ (hd.facet.filter fun p => facetSet p.1 == facetSet k).length

/-- One key inserted or updated (R337). -/
def facetInsert (hd : Hart) (k x : Nat) (update : Nat → Nat × FlagSet) : Hart :=
  if k = 0xFFFFFFFF then addFlags hd flagOOR
  else match facetGet hd k with
    | some v =>
      let (y, fl) := update v.toNat
      addFlags (facetPut hd k y) fl
    | none => if facetFull hd k then addFlags hd flagOOR else facetPut hd k x

/-- The types of the Facet instructions. -/
def tyFacet (et : Nat) : Bool := et == 2 || et == 6 || et == 10

/-- A plan without a destination register, element by element. -/
def facetPlan (e : Entry) (h : HartId) (gov : Nat) (f : Hart → Nat → Hart) : Plan :=
  { total := e.vl, after := (· + 1), group := fun t => groupIn e.et e.bl t, lockstep := false, always := false
    perform := fun s i => .next (modHart s h fun hd => if active hd e gov i then f hd i else hd) }

/-- fcins. -/
def planFcins (a : VVSrc) (e : Entry) (h : HartId) : Except UnitFault Plan :=
  issue e (tyFacet e.et && governedOk e a.ws && rowOk e a.va && rowOk e a.vb)
    (facetPlan e h (governing e a.ws) fun hd i =>
      let x := elemGet hd.v e.et e.bl a.vb.val i
      facetInsert hd (elemGet hd.v e.et e.bl a.va.val i) x fun _ => (x, 0))

/-- The update of fcacc. -/
def facetOp (op : FcOp) (et mode : Nat) (ftz : Bool) (old x : Nat) : Nat × FlagSet :=
  if et = 10 then
    let f := fmtOf 10
    let a := unpack f ftz old
    let b := unpack f ftz x
    deliverWith f mode ftz (match op with
      | .add => exactAdd mode a b
      | .max => exactMinMax true a b
      | .min => exactMinMax false a b)
  else
    (match op with
      | .add => (old + x) % 2 ^ 32
      | .max => if intVal et old < intVal et x then x else old
      | .min => if intVal et x < intVal et old then x else old, 0)

/-- fcacc. -/
def planFcacc (a : VVSrc) (op : FcOp) (e : Entry) (h : HartId) : Except UnitFault Plan :=
  issue e (tyFacet e.et && governedOk e a.ws && rowOk e a.va && rowOk e a.vb)
    (facetPlan e h (governing e a.ws) fun hd i =>
      let x := elemGet hd.v e.et e.bl a.vb.val i
      facetInsert hd (elemGet hd.v e.et e.bl a.va.val i) x fun old => facetOp op e.et (roundMode hd a.rm) (ftzOf hd) old x)

/-- fclook. -/
def planFclook (a : FcLookArgs) (e : Entry) (h : HartId) : Except UnitFault Plan :=
  match entryWeights e with
  | none => .error (issueFault e)
  | some gw =>
    issue e (tyFacet e.et && governedOk e a.ws && rowOk e a.vd && rowOk e a.va && !overlaps a.vd.val e.grp a.va.val e.grp
        && weightOk a.wd.val gw)
      { total := e.vl, after := (· + 1), group := fun t => groupIn e.et e.bl t, lockstep := false, always := false
        written := fun i =>
          (if i + 1 = e.vl then rowEnd e.ta e.et e.bl e.vl e.grp - groupIn e.et e.bl i else 1)
            + (if i + 1 = e.vl then weightsEnd e gw - i / 192 else ofBool ((i + 1) % 192 == 0))
        dest := some a.vd.val, span := e.grp, needs := (· < rowEnd e.ta e.et e.bl e.vl e.grp)
        perform := fun s i => .next (modHart s h fun hd =>
          let hd := if !active hd e (governing e a.ws) i then putSuccess hd a.wd i false
            else match facetGet hd (elemGet hd.v e.et e.bl a.va.val i) with
              | some v => putSuccess (putElem hd e.et e.bl a.vd.val i v.toNat) a.wd i true
              | none => putSuccess (putElem hd e.et e.bl a.vd.val i 0) a.wd i false
          if i + 1 = e.vl then putTailW (putTail hd e.ta e.et e.bl e.vl a.vd.val e.grp) e.ta e.vl a.wd.val gw else hd) }

/-- One element of fcdrain: the entry with the smallest key, or the fill values. -/
def drainElem (hd : Hart) (e : Entry) (a : VUn) (i : Nat) : Hart :=
  match hd.facet with
  | (k, v) :: t =>
    let hd := { hd with facet := t }
    putElem (putElem hd e.et e.bl a.vd.val i k) e.et e.bl a.va.val i (v.getD 0).toNat
  | [] => putElem (putElem hd e.et e.bl a.vd.val i 0xFFFFFFFF) e.et e.bl a.va.val i 0

/-- fcdrain. -/
def planFcdrain (a : VUn) (e : Entry) (h : HartId) : Except UnitFault Plan :=
  issue e (tyFacet e.et && ungovernedOk e a.ws && rowOk e a.vd && rowOk e a.va && !overlaps a.vd.val e.grp a.va.val e.grp)
    { total := e.vl, after := (· + 1), group := fun t => groupIn e.et e.bl t, lockstep := false, always := false
      written := fun i => 2 * (if i + 1 = e.vl then rowEnd e.ta e.et e.bl e.vl e.grp - groupIn e.et e.bl i else 1)
      dest := some a.vd.val, span := e.grp, needs := (· < rowEnd e.ta e.et e.bl e.vl e.grp)
      perform := fun s i => .next (modHart s h fun hd =>
        let hd := drainElem hd e a i
        if i + 1 = e.vl then
          putTail (putTail hd e.ta e.et e.bl e.vl a.vd.val e.grp) e.ta e.et e.bl e.vl a.va.val e.grp
        else hd) }

/-- fcclr. -/
def planFcclr (ws : WReg) (e : Entry) (h : HartId) : Except UnitFault Plan :=
  issue e (ungovernedOk e ws) (resultPlan fun s => modHart s h fun hd => { hd with facet := [] })

end Machine

end Sys2Proof
end

