-- ==== Sys2Proof/Machine/Matrix.lean ====
section
/-! DEFINITION. Unit MX: register groups as matrices (R105, R150 to R152, R236 to R261), as plans. -/

namespace Sys2Proof

namespace Machine

/-! ## Shape and types (R237, R240, R241) -/

/-- mrows of an entry. -/
def mrowsOf (e : Entry) : Nat := getBits e.mshape 0 8
/-- mcols of an entry. -/
def mcolsOf (e : Entry) : Nat := getBits e.mshape 8 8
/-- msp of an entry. -/
def mspOf (e : Entry) : Nat := getBits e.mshape 16 8

/-- i8 and n8. -/
def tyByte (et : Nat) : Bool := et == 0 || et == 4

/-- The pairs of mmul.sp. -/
def sparsePair (a b : Nat) : Bool :=
  (tyByte a && tyByte b) || (etF8 a && etF8 b) || (a == 9 && b == 9) || (a == 8 && b == 8)

/-- The pairs of R240. -/
def mxPair (a b : Nat) : Bool := sparsePair a b || (a == 10 && b == 10) || (etBlock a && etBlock b)

/-- Kc of one type. -/
def chunkOf (et : Nat) : Nat :=
  match et with
  | 8 | 9 => 288
  | 10 => 144
  | 19 => 768
  | 18 => 1152
  | _ => 576

/-- Kc of a pair. -/
def chunk (e : Entry) : Nat := max (chunkOf e.et) (chunkOf e.et2)

/-! ## Operands (R242, R251) -/

/-- Bits of an operand row: a position and a length. -/
abbrev RowBits := Nat → Nat → Nat

/-- A row in the register file. -/
def regRow (hd : Hart) (base : Nat) : RowBits := groupGet hd.v base

/-- A row of the operand latch. -/
def latchRow (hd : Hart) (i : Nat) : RowBits := getBits (hd.latch[i % 16]'(Nat.mod_lt _ (by decide)))

/-- Row i of A. -/
def rowA (hd : Hart) (e : Entry) (l : Bool) (va : VReg) (i : Nat) : RowBits :=
  if l then latchRow hd i else regRow hd (va.val + i * e.grp)

/-- Row j of B transposed. -/
def rowB (hd : Hart) (e : Entry) (vb : VReg) (j : Nat) : RowBits := regRow hd (vb.val + j * e.grp)

/-- Element k of a row, as a value. -/
def rowVal (r : RowBits) (et bl : Nat) (ftz : Bool) (k : Nat) : FVal :=
  if etBlock et then
    let f := k / bl * frameBytes et bl * 8
    blockVal (etWidth et) (r f 8) (r (f + 8) 8) (r (elemPos et bl k) (etWidth et))
  else unpack (fmtOf et) ftz (r (k * etWidth et) (etWidth et))

/-- Element k of a row of bytes, as an integer. -/
def rowInt (r : RowBits) (et k : Nat) : Int := intVal et (r (8 * k) 8)

/-! ## Sums (R150 to R152) -/

/-- The largest finite f32. -/
def maxF32 : Nat := (2 ^ 24 - 1) * 2 ^ 104

/-- The exact product of two elements; a block product beyond the f32 range saturates (R152). -/
def mxProduct (blk : Bool) (a b : FVal) : FVal × FlagSet :=
  match exactMul a b with
  | (.num s n d, f) => if blk && maxF32 * d < n then (.num s maxF32 1, flagOVF) else (.num s n d, f)
  | r => r

/-- An accumulator that left the f32 range in a block product (R152). -/
def saturateAcc (blk : Bool) (r : Nat × FlagSet) : Nat × FlagSet :=
  if blk && r.2 &&& flagOF != 0 then (maxFinite (fmtOf 10) (2 ^ 31 ≤ r.1), r.2 &&& ~~~(flagOF ||| flagNX) ||| flagOVF)
  else r

/-- One rounding of the accumulator plus a term. In a block product an accumulator that is infinite already stays so, with no
flag of its own: R152 saturates a rounded accumulator that passes the f32 range and does not speak of one that starts
beyond it (log 48, DESIGN CHOICE). -/
def accStep (blk : Bool) (mode : Nat) (ftz : Bool) (acc : Nat) (p : FVal × FlagSet) : Nat × FlagSet :=
  let f := fmtOf 10
  let (c, fl) := saturateAcc blk (deliverWith f mode ftz (exactAdd mode (unpack f ftz acc) p.1))
  (c, fl ||| p.2)

/-- The exact sum of finite terms over the common denominator of powers of two. -/
def finiteSum (mode : Nat) (ps : List FVal) : FVal :=
  let d := ps.foldl (fun m p => match p with
    | .num _ _ d => max m d
    | _ => m) 1
  let v := ps.foldl (fun (acc : Int) p => match p with
    | .num s n d' => if s then acc - n * (d / d' : Nat) else acc + n * (d / d' : Nat)
    | _ => acc) 0
  if v = 0 then .num (zeroSign mode) 0 1 else .num (decide (v < 0)) v.natAbs d

/-- The exact sum of a group of products (R151). With a NaN product the sum is NaN, and infinities of both signs beside it set
no flag: the spec does not say whether they are still summed (log 48, DESIGN CHOICE). -/
def groupSum (mode : Nat) (ps : List (FVal × FlagSet)) : FVal × FlagSet :=
  let fl := ps.foldl (fun f p => f ||| p.2) 0
  let vs := ps.map (·.1)
  if vs.any (·.isNan) then (.nan false, fl)
  else match vs.any (· == .inf false), vs.any (· == .inf true) with
    | true, true => (.nan false, fl ||| flagNV)
    | true, false => (.inf false, fl)
    | false, true => (.inf true, fl)
    | false, false => (finiteSum mode vs, fl)

/-- Terms added one by one (R150). In a block product the first NaN term, of a 0xFF scale, leaves the canonical NaN, and no
flag is set from it on (R152). In a group-exact sum that term is a whole group of 24: a saturating product of the same group
sets no OVF, whatever its position, since one step sums the group and R152 speaks of steps (log 48, DESIGN CHOICE). -/
def orderedSum (blk : Bool) (mode : Nat) (ftz : Bool) : Nat × FlagSet → List (FVal × FlagSet) → Nat × FlagSet
  | r, [] => r
  | (acc, fl), p :: ps =>
    if blk && p.1.isNan then (canonNan (fmtOf 10), fl)
    else
      let (c, g) := accStep blk mode ftz acc p
      orderedSum blk mode ftz (c, fl ||| g) ps

/-- Groups of terms summed exactly and added one by one (R151). -/
def groupedSum (blk : Bool) (mode : Nat) (ftz : Bool) (acc : Nat) (gs : List (List (FVal × FlagSet))) : Nat × FlagSet :=
  orderedSum blk mode ftz (acc, 0) (gs.map (groupSum mode))

/-- Positions k0 … k1 - 1. -/
def positions (k0 k1 : Nat) : List Nat := (List.range (k1 - k0)).map (k0 + ·)

/-- Positions k0 … k1 - 1 in groups of 24. -/
def groupsOf24 (k0 k1 : Nat) : List (List Nat) :=
  (List.range (ceilDiv (k1 - k0) 24)).map fun g => positions (k0 + 24 * g) (min (k0 + 24 * g + 24) k1)

/-- Where a product takes its terms: the position in a row of B for a position of A, for those that take part. -/
abbrev TermsOf := List Nat → List (Nat × Nat)

/-- What a product is made of. -/
structure Product where
  rowA  : Nat → RowBits
  rowB  : Nat → RowBits
  /-- The group-exact sum. -/
  exact : Bool
  mode  : Nat
  ftz   : Bool
  /-- The terms of column j among some positions. -/
  terms : Nat → TermsOf

/-- One element of C after positions k0 … k1 - 1 of a sum that begins at a position `start`. C carries the sum from restart
point to restart point (R248); where it holds the canonical NaN that a 0xFF product below k0 left there, the rest of the sum
sets no flag (R152). -/
def sumStep (e : Entry) (p : Product) (i j start k0 k1 c : Nat) : Nat × FlagSet :=
  let ra := p.rowA i
  let rb := p.rowB j
  if tyByte e.et then
    let v := (p.terms j (positions k0 k1)).foldl
      (fun (acc : Int) t => acc + rowInt ra e.et t.1 * rowInt rb e.et2 t.2) (c : Int)
    (wrap 32 v, 0)
  else
    let blk := etBlock e.et
    let prod (t : Nat × Nat) : FVal × FlagSet :=
      mxProduct blk (rowVal ra e.et e.bl p.ftz t.1) (rowVal rb e.et2 e.bl p.ftz t.2)
    if blk && c == canonNan (fmtOf 10) && ((p.terms j (positions start k0)).map prod).any (·.1.isNan) then (c, 0)
    else if p.exact then groupedSum blk p.mode p.ftz c ((groupsOf24 k0 k1).map fun ks => (p.terms j ks).map prod)
    else orderedSum blk p.mode p.ftz (c, 0) ((p.terms j (positions k0 k1)).map prod)

/-- All elements of C in register vd after positions k0 … k1 - 1 of sums that begin at a position (R246). -/
def productChunk (hd : Hart) (e : Entry) (p : Product) (vd start k0 k1 : Nat) : Hart :=
  let cols := mcolsOf e
  (List.range (mrowsOf e * cols)).foldl (fun d x =>
    let (c, fl) := sumStep e p (x / cols) (x % cols) start k0 k1 (groupGet hd.v vd (32 * x) 32)
    addFlags (putV d vd (32 * x) 32 c) fl) (count hd 5 1)

/-- The element groups that a register of C holds elements in; they count as written when the product completes (R250,
R438). -/
def cGroups (e : Entry) : Nat := ceilDiv (4 * (mrowsOf e * mcolsOf e)) 192

/-- The tail of a register of C. -/
def tailC (hd : Hart) (e : Entry) (vd : Nat) : Hart :=
  if e.ta then fillOnes hd vd (4 * (mrowsOf e * mcolsOf e)) 1 else hd

/-! ## Checks (R243) -/

/-- Rows of groups that are aligned and in range. -/
def rowsIn (e : Entry) (v : VReg) (rows : Nat) : Bool := v.val % e.grp == 0 && v.val + rows * e.grp ≤ 64

/-- The checks common to the products: weights, form, types, depth, rows, the latch, and n registers of C apart from A
and B. -/
def mxOk (e : Entry) (ws : WReg) (form : BitVec 2) (l : Bool) (vd va vb : VReg) (n : Nat) : Bool :=
  ungovernedOk e ws && form == 0 && mxPair e.et e.et2 && e.vl ≤ vlmaxOf e.et2 e.grp e.bl
    && (if l then va == 0 && dataBytes e.et e.bl e.vl ≤ 1152 else rowsIn e va (mrowsOf e))
    && rowsIn e vb (mcolsOf e) && vd.val + n ≤ 64
    && (l || !overlaps vd.val n va.val (mrowsOf e * e.grp)) && !overlaps vd.val n vb.val (mcolsOf e * e.grp)

/-- A start that is a restart point (R243, R248). -/
def restartOk (e : Entry) (kc : Nat) : Bool := e.start % kc == 0 || e.vl ≤ e.start

/-- What is added to the starting group of an entry that a CSR write of vstart started, and the group that stands for
none. -/
def csrGroup : Nat := 256
/-- See `csrGroup`. -/
def noGroup : Nat := 255

/-- The position at which the sum of an entry begins, where that of its first unit does not: a CSR-written vstart leaves the
positions below it out of the sum (R185, R246). -/
def sumStart (e : Entry) (first : Nat) : Nat := if csrGroup ≤ e.group then e.start else first

/-- Every position takes part. -/
def allTerms : Nat → TermsOf := fun _ ks => ks.map fun k => (k, k)

/-! ## Dense products (R246) -/

/-- mmul.o and mmul.r. -/
def densePlan (e : Entry) (h : HartId) (a : MxArgs) (exact : Bool) : Except UnitFault Plan :=
  let kc := chunk e
  issue e (mxOk e a.ws a.form a.l a.vd a.va a.vb 1 && !a.r && restartOk e kc)
    { total := e.vl, after := fun k => min (k + kc) e.vl, group := (· / kc), lockstep := false, always := false
      written := fun k => if k + kc < e.vl then 0 else cGroups e
      heldV := [a.vd.val]
      perform := fun s k => .next (modHart s h fun hd =>
        let p : Product := { rowA := rowA hd e a.l a.va, rowB := rowB hd e a.vb, exact, mode := roundMode hd a.rm,
                             ftz := ftzOf hd, terms := allTerms }
        let k1 := min (k + kc) e.vl
        let hd := productChunk hd e p a.vd.val (sumStart e 0) k k1
        if k1 = e.vl then tailC hd e a.vd.val else hd) }

/-- mmul.o. -/
def planMmulO (a : MxArgs) (e : Entry) (h : HartId) : Except UnitFault Plan := densePlan e h a false

/-- mmul.r. -/
def planMmulR (a : MxArgs) (e : Entry) (h : HartId) : Except UnitFault Plan := densePlan e h a true

/-! ## Sparse products (R257 to R259) -/

/-- Bit b of a mask register. -/
def maskBit (m : VBits) (b : Nat) : Bool := bit m b

/-- The set positions of group g of row j, ascending. -/
def setPositions (m : VBits) (k j g : Nat) : List Nat :=
  (positions (24 * g) (24 * g + 24)).filter fun p => maskBit m (j * k + p)

/-- The terms of column j: the set positions, each with its place in the compressed row. -/
def sparseTerms (m : VBits) (k n : Nat) : Nat → TermsOf := fun j ks =>
  ks.filterMap fun p =>
    if maskBit m (j * k + p) then
      some (p, p / 24 * n + ((setPositions m k j (p / 24)).filter (· < p)).length)
    else none

/-- The lowest row and group at or above the start whose population is not N. -/
def badGroup (e : Entry) (m : VBits) (n : Nat) : Option (Nat × Nat) :=
  let groups := positions (e.start / 24) (e.vl / 24)
  ((List.range (mcolsOf e)).flatMap fun j => groups.map fun g => (j, g)).find? fun p =>
    (setPositions m e.vl p.1 p.2).length != n

/-- The shape of a sparse operand (R257, R260). -/
def sparseShape (e : Entry) : Bool :=
  (mspOf e == 6 || mspOf e == 8 || mspOf e == 12 || mspOf e == 16) && e.vl % 24 == 0 && mcolsOf e * e.vl ≤ 9216

/-- mmul.sp. -/
def planMmulSp (a : Mx4Args) (e : Entry) (h : HartId) : Except UnitFault Plan :=
  let n := mspOf e
  let kc := chunk e * 24 / max n 1
  issue e (mxOk e a.ws a.form a.l a.vd a.va a.vb 1 && sparsePair e.et e.et2 && sparseShape e && a.vd != a.vc
      && restartOk e kc)
    { total := e.vl, after := fun k => min (k + kc) e.vl, group := (· / kc), lockstep := false, always := false
      written := fun k => if k + kc < e.vl then 0 else cGroups e
      heldV := [a.vd.val]
      perform := fun s k =>
        let mask := vregAt (hartOf s h).v a.vc.val
        match if k = e.start then badGroup e mask n else none with
        | some (j, g) => .fault (faultAt e.start 9 (word (j * 2 ^ 16 + g)) none) s
        | none => .next (modHart s h fun hd =>
          let p : Product := { rowA := rowA hd e a.l a.va, rowB := rowB hd e a.vb, exact := a.r,
                               mode := roundMode hd a.rm, ftz := ftzOf hd, terms := sparseTerms mask e.vl n }
          let k1 := min (k + kc) e.vl
          let hd := productChunk hd e p a.vd.val (sumStart e 0) k k1
          if k1 = e.vl then tailC hd e a.vd.val else hd) }

/-! ## Grouped products (R255, R256) -/

/-- Start of group g; the start of group vrc is vl. -/
def groupStart (hd : Hart) (e : Entry) (vc : VReg) (g : Nat) : Nat :=
  if g < e.vrc then groupGet hd.v vc.val (32 * g) 32 else e.vl

/-- Units of mmul.grp: a group and a position. -/
def grpUnit (g k : Nat) : Nat := g * 2 ^ 33 + k

/-- The group in which an entry starts: for a CSR-written start, the lowest that holds it, marked (R256). A start that lies in no
group takes 255 for its group, and an illegal-instruction trap of the entry records it in the image's group byte and its low
five bits in evstart.group: the spec gives such an entry no group (log 49, DESIGN CHOICE). -/
def startGroup (hd : Hart) (vl vrc start : Nat) (vc : VReg) : Nat :=
  let at_ (g : Nat) : Nat := if g < vrc then groupGet hd.v vc.val (32 * g) 32 else vl
  if start = 0 then 0
  else csrGroup + ((List.range vrc).find? fun g => at_ g ≤ start && start < at_ (g + 1)).getD noGroup

/-- The starting group without its mark. -/
def grpOf (e : Entry) : Nat := e.group % csrGroup

/-- The position at which an entry begins its first group. -/
def grpFirst (hd : Hart) (e : Entry) (vc : VReg) : Nat :=
  if e.start = 0 && e.group = 0 then groupStart hd e vc 0 else e.start

/-- Whether that position is a restart point of the group (R248); a CSR-written one at or beyond K is exempt (R243). -/
def grpRestartOk (hd : Hart) (e : Entry) (vc : VReg) : Bool :=
  let a := groupStart hd e vc (grpOf e)
  let b := groupStart hd e vc (grpOf e + 1)
  let k := grpFirst hd e vc
  (csrGroup ≤ e.group && e.vl ≤ e.start)
    || (grpOf e < e.vrc && (k == a || (a ≤ k && k < b && (k - a) % chunk e == 0)))

/-- An entry that performs nothing: one that is no replay and starts at or beyond vrc × vl (R185, R256), or one that starts
at or beyond K in no group (R243). -/
def grpIdle (e : Entry) : Bool :=
  ((csrGroup ≤ e.group || (e.start == 0 && e.group == 0)) && e.vrc * e.vl ≤ e.start)
    || (e.vrc ≤ grpOf e && e.vl ≤ e.start)

/-- A group-range fault (R255, R384). -/
def grpFault (g k : Nat) : UnitFault :=
  { cause := 10, value := word g, phase := 0, group := g, elem := k, vstart := k, start := k, bank := none }

/-- mmul.grp. -/
def planMmulGrp (a : Mx4Args) (e : Entry) (h : HartId) (s : State) : Except UnitFault Plan :=
  let kc := chunk e
  let hd := hartOf s h
  let starts := (List.range (e.vrc + 1)).map (groupStart hd e a.vc)
  let at_ (g : Nat) : Nat := starts.getD g 0
  let after (g k : Nat) : Nat := if k + kc < at_ (g + 1) then grpUnit g (k + kc) else grpUnit (g + 1) (at_ (g + 1))
  issue e (mxOk e a.ws a.form a.l a.vd a.va a.vb e.vrc && !overlaps a.vd.val e.vrc a.vc.val 1
      && (grpIdle e || grpRestartOk hd e a.vc))
    { total := if grpIdle e then 0 else grpUnit e.vrc 0
      first := some (grpUnit (grpOf e) (grpFirst hd e a.vc))
      place := fun u => (u / 2 ^ 33, u % 2 ^ 33)
      after := fun u => after (u / 2 ^ 33) (u % 2 ^ 33)
      group := id, lockstep := false, always := false
      heldV := (List.range e.vrc).map (a.vd.val + ·)
      written := fun u =>
        let g := u / 2 ^ 33
        if at_ g < at_ (g + 1) && at_ (g + 1) ≤ u % 2 ^ 33 + kc then cGroups e else 0
      perform := fun s u =>
        let g := u / 2 ^ 33
        let k := u % 2 ^ 33
        let lo := at_ g
        let hi := at_ (g + 1)
        if e.vl < hi then .fault (grpFault g lo) s
        else if hi < lo then .next (modHart s h (addFlags · flagGRP))
        else if lo = hi then .next s
        else if etBlock e.et && lo % e.bl ≠ 0 then .fault (grpFault g lo) s
        else .next (modHart s h fun hd =>
          let p : Product := { rowA := rowA hd e a.l a.va, rowB := rowB hd e a.vb, exact := a.r,
                               mode := roundMode hd a.rm, ftz := ftzOf hd, terms := allTerms }
          let k1 := min (k + kc) hi
          let hd := productChunk hd e p (a.vd.val + g) (if g = grpOf e then sumStart e lo else lo) k k1
          if k1 = hi then tailC hd e (a.vd.val + g) else hd) }

/-! ## mlatch (R252 to R254) -/

/-- A latch row written. -/
def putLatch (hd : Hart) (i : Nat) (bs : List Byte) : Hart :=
  have h : i % 16 < 16 := Nat.mod_lt _ (by decide)
  { hd with latch := hd.latch.set (i % 16) (BitVec.ofNat 9216 (leValue bs)) }

/-- mlatch and mlatch.stage; `row` loads the row of the address given. Every completed one is recorded, also one that starts
beyond the last row (R254). -/
def latchPlan (e : Entry) (h : HartId) (a : MlatchArgs) (addr : Hart → Nat → Nat)
    (row : State → Nat → Nat → Except Fail (List Byte) × State) : Except UnitFault Plan :=
  let len := dataBytes e.et e.bl e.vl
  issue e (ungovernedOk e a.ws && a.form == 3 && len ≤ 1152)
    { total := 16, after := (· + 1), group := id, lockstep := false, always := true, written := fun _ => 0
      finish := fun s => modHart s h fun hd =>
        { hd with lastMlatch := some { e with start := 0, joined := false } }
      perform := fun s i =>
        let x := addr (hartOf s h) i
        if mrowsOf e ≤ i then .next (modHart s h (putLatch · i []))
        else if x % 8 ≠ 0 then .fault (faultAt i 3 (word x) none) s
        else match row s x len with
          | (.error f, s) => .fault (faultAt i f.cause (word f.value) f.bank) s
          | (.ok bs, s) => .next (modHart s h (putLatch · i bs)) }

/-- mlatch. -/
def planMlatch (a : MlatchArgs) (e : Entry) (h : HartId) : Except UnitFault Plan :=
  latchPlan e h a (fun hd i => (e.op0.toNat + groupGet hd.v a.vb.val (64 * i) 64) % 2 ^ 64) fun s x len =>
    if len = 0 then (.ok [], s)
    else match check s h .load x len with
      | (.error f, s) => (.error f, s)
      | (.ok ps, s) => (.ok (loadPieces s h false ps), countRemote s h ps)

/-- mlatch.stage: a row out of range is zero and sets OOR. -/
def planMlatchStage (a : MlatchArgs) (e : Entry) (h : HartId) : Except UnitFault Plan :=
  latchPlan e h a (fun hd i => (e.op0.toNat + groupGet hd.v a.vb.val (32 * i) 32) % 2 ^ 18) fun s x len =>
    match stageRange x len with
    | none => (.ok [], modHart s h (addFlags · flagOOR))
    | some as => (.ok (stageGet (hartOf s h) as), s)

/-! ## mregrow (R260, R261) -/

/-- The et2 types of mmul.sp. -/
def tySparse (et : Nat) : Bool := tyByte et || etF8 et || et == 8 || et == 9

/-- An element as a value. -/
def regrowVal (et : Nat) (ftz : Bool) (x : Nat) : FVal :=
  if tyByte et then .num (decide (intVal et x < 0)) (intVal et x).natAbs 1 else unpack (fmtOf et) ftz x

/-- |a| < |b|. -/
def magLt (a b : FVal) : Bool := valLt false (a.withSign false) (b.withSign false)

/-- The position whose magnitude no other beats, the lowest on ties. -/
def bestPos (better : FVal → FVal → Bool) : List (Nat × Nat × FVal) → Option (Nat × Nat × FVal)
  | [] => none
  | p :: ps => match bestPos better ps with
    | none => some p
    | some q => if better q.2.2 p.2.2 then some q else some p

/-- One group of row j: its live and shadow values before, and what is written back. -/
def regrowGroup (e : Entry) (vd va vb : VReg) (hd : Hart) (j g : Nat) : Hart :=
  let n := mspOf e
  let w := etWidth e.et2
  let k := e.vl
  let mask := vregAt hd.v vb.val
  let live := setPositions mask k j g
  let dead := (positions (24 * g) (24 * g + 24)).filter fun p => !maskBit mask (j * k + p)
  let get (v : VReg) (m : Nat) : Nat := groupGet hd.v (v.val + j * e.grp) (m * w) w
  let tagged (v : VReg) (per : Nat) (ps : List Nat) : List (Nat × Nat × FVal) :=
    ((List.range ps.length).zip ps).map fun q =>
      let x := get v (g * per + q.1)
      (q.2, x, regrowVal e.et2 (ftzOf hd) x)
  let ls := tagged vd n live
  let ds := tagged va (24 - n) dead
  let nan := (ls ++ ds).any (·.2.2.isNan)
  let swap := match bestPos magLt ls, bestPos (fun a b => magLt b a) ds with
    | some p, some q => if !nan && magLt p.2.2 q.2.2 then some (p, q) else none
    | _, _ => none
  let value (p : Nat) : Nat := ((ls ++ ds).find? (·.1 == p)).elim 0 (·.2.1)
  let isLive (p : Nat) : Bool := match swap with
    | some (a, b) => if p = a.1 then false else if p = b.1 then true else live.contains p
    | none => live.contains p
  let ps := positions (24 * g) (24 * g + 24)
  let bits := ps.foldr (fun p acc => ofBool (isLive p) + 2 * acc) 0
  let hd := putV hd vb.val (j * k + 24 * g) 24 bits
  let hd := putCodes hd (vd.val + j * e.grp) w (g * n * w) ((ps.filter isLive).map value)
  let hd := putCodes hd (va.val + j * e.grp) w (g * (24 - n) * w) ((ps.filter fun p => !isLive p).map value)
  addFlags hd (flagIf nan flagNV)

/-- mregrow. -/
def planMregrow (a : MregrowArgs) (e : Entry) (h : HartId) : Except UnitFault Plan :=
  let span := mcolsOf e * e.grp
  issue e (ungovernedOk e a.ws && a.form == 0 && a.ud == 0 && tySparse e.et2 && sparseShape e
      && e.vl ≤ vlmaxOf e.et2 e.grp e.bl && rowsIn e a.vd (mcolsOf e) && rowsIn e a.va (mcolsOf e)
      && !overlaps a.vd.val span a.va.val span && !overlaps a.vd.val span a.vb.val 1
      && !overlaps a.va.val span a.vb.val 1)
    { wholePlan (min e.vl 1) (fun s _ => modHart s h fun hd =>
      (List.range (mcolsOf e * (e.vl / 24))).foldl
        (fun hd x => regrowGroup e a.vd a.va a.vb hd (x / (e.vl / 24)) (x % (e.vl / 24))) hd) with
      written := fun _ =>
        let row (n : Nat) : Nat := ceilDiv (e.vl / 24 * n * etWidth e.et2) 1536
        mcolsOf e * (row (mspOf e) + row (24 - mspOf e)) + ceilDiv (mcolsOf e * e.vl) 1536 }

end Machine

end Sys2Proof
end

