-- ==== Sys2Proof/Machine/Weight.lean ====
section
/-! DEFINITION. Unit WG: compares, weight arithmetic and moves, joins and gradients, and the reductions of weights (R106,
R208 to R229, R232 to R235), as plans; and the largest weight that wbr and wloop decide by. -/

namespace Sys2Proof

namespace Machine

/-! ## Shared parts -/

/-- Any non-block type. -/
def tyNonBlock (et : Nat) : Bool := etLegal et && !etBlock et

/-- A plan that writes weights 0 … vl - 1 of wd, each from the hart as it is then, and the tail (R214, R225). -/
def weightPlan (e : Entry) (h : HartId) (wd : WReg) (gw : Nat) (f : Hart → Nat → Nat × FlagSet) : Plan :=
  let groups := weightsEnd e gw
  { total := e.vl, after := (· + 1), group := fun t => t / 192, lockstep := false, always := false
    written := fun t => if t + 1 = e.vl then groups - t / 192 else 1
    wdest := some (wd.val, gw), needs := (· < groups)
    perform := fun s i => .next (modHart s h fun hd =>
      let (c, fl) := f hd i
      let hd := addFlags (putW hd wd.val i c) fl
      if i + 1 = e.vl then putTailW hd e.ta e.vl wd.val gw else hd) }

/-- A plan for the weight group size, when there is one (R209). -/
def withGroup (e : Entry) (f : Nat → Except UnitFault Plan) : Except UnitFault Plan :=
  match entryWeights e with
  | some gw => f gw
  | none => .error (issueFault e)

/-! ## Compares (R226, R227) -/

/-- The second operand of a compare. -/
def cmpElem (hd : Hart) (e : Entry) (b : CmpSrc) (i : Nat) : Nat :=
  match b with
  | .v vb => vecElem hd e vb 0 i
  | .x _ => scalarElem e.et e.op0

/-- Its check. -/
def cmpOk (e : Entry) (b : CmpSrc) : Bool :=
  match b with
  | .v vb => rowOk e vb
  | .x _ => true

/-- The relations of wcmp. -/
inductive Rel where
  | eq | ne | lt | le | gt | ge
  deriving DecidableEq, Repr

/-- A relation from the two strict orders. -/
def relHolds (r : Rel) (lt gt : Bool) : Bool :=
  match r with
  | .eq => !lt && !gt
  | .ne => lt || gt
  | .lt => lt
  | .le => !gt
  | .gt => gt
  | .ge => !lt

/-- A compare of two elements, with its flag (R226). -/
def compareElem (r : Rel) (et : Nat) (ftz : Bool) (a b : Nat) : Bool × FlagSet :=
  if etInt et then (relHolds r (intVal et a < intVal et b) (intVal et b < intVal et a), 0)
  else if etPw et then
    let x := min a 0x8000
    let y := min b 0x8000
    (relHolds r (x < y) (y < x), 0)
  else
    let x := unpack (fmtOf et) ftz a
    let y := unpack (fmtOf et) ftz b
    if x.isNan || y.isNan then
      match r with
      | .eq => (false, x.nvFlag ||| y.nvFlag)
      | .ne => (true, x.nvFlag ||| y.nvFlag)
      | _ => (false, flagNV)
    else (relHolds r (valLt false x y) (valLt false y x), 0)

/-- wcmp. -/
def cmpPlan (a : WCmpArgs) (r : Rel) (e : Entry) (h : HartId) : Except UnitFault Plan :=
  withGroup e fun gw =>
    issue e (tyAny e.et && weightOk a.wd.val gw && rowOk e a.va && cmpOk e a.b)
      (weightPlan e h a.wd gw fun hd i =>
        let (c, fl) := compareElem r e.et (ftzOf hd) (vecElem hd e a.va 0 i) (cmpElem hd e a.b i)
        (if c then 0x8000 else 0, fl))

/-- wcmp.eq. -/
def planWcmpEq (a : WCmpArgs) (e : Entry) (h : HartId) : Except UnitFault Plan := cmpPlan a .eq e h
/-- wcmp.ne. -/
def planWcmpNe (a : WCmpArgs) (e : Entry) (h : HartId) : Except UnitFault Plan := cmpPlan a .ne e h
/-- wcmp.lt. -/
def planWcmpLt (a : WCmpArgs) (e : Entry) (h : HartId) : Except UnitFault Plan := cmpPlan a .lt e h
/-- wcmp.le. -/
def planWcmpLe (a : WCmpArgs) (e : Entry) (h : HartId) : Except UnitFault Plan := cmpPlan a .le e h
/-- wcmp.gt. -/
def planWcmpGt (a : WCmpArgs) (e : Entry) (h : HartId) : Except UnitFault Plan := cmpPlan a .gt e h
/-- wcmp.ge. -/
def planWcmpGe (a : WCmpArgs) (e : Entry) (h : HartId) : Except UnitFault Plan := cmpPlan a .ge e h

/-- The exact value of an element of class I, S, F or E. -/
def softVal (et : Nat) (ftz : Bool) (x : Nat) : FVal :=
  if etInt et then .num (decide (intVal et x < 0)) (intVal et x).natAbs 1 else unpack (fmtOf et) ftz x

/-- τ as a quotient: the captured wtemp, a positive normal number (R212). -/
def tauOf (e : Entry) : Nat × Nat :=
  match unpack (fmtOf 10) false e.wtemp.toNat with
  | .num _ n d => if n = 0 then (1, 1) else (n, d)
  | _ => (1, 1)

/-- The logistic weight of a difference (R227). -/
def softWeight (tau : Nat × Nat) (d : FVal) : Nat :=
  match d with
  | .nan _ => 0
  | .inf s => if s then 0 else 0x8000
  | .num s n m =>
    match unpack (fmtOf 10) false (roundTo (fmtOf 10) 1 false s (n * tau.2) (m * tau.1)).1 with
    | .nan _ => 0
    | .inf s => if s then 0 else 0x8000
    | .num s n m => sigmoidPw s n m

/-- One soft compare of a minus b. -/
def softElem (tau : Nat × Nat) (a b : FVal) : Nat × FlagSet :=
  let d := (exactAdd 1 a b.negate).1
  (softWeight tau d, flagIf d.isNan flagNV)

/-- I, S, F and E. -/
def tySoft (et : Nat) : Bool := etInt et || etFloat et || etF8 et

/-- wsoft. -/
def softPlan (a : WCmpArgs) (swap : Bool) (e : Entry) (h : HartId) : Except UnitFault Plan :=
  withGroup e fun gw =>
    issue e (tySoft e.et && weightOk a.wd.val gw && rowOk e a.va && cmpOk e a.b)
      (weightPlan e h a.wd gw fun hd i =>
        let x := softVal e.et (ftzOf hd) (vecElem hd e a.va 0 i)
        let y := softVal e.et (ftzOf hd) (cmpElem hd e a.b i)
        if swap then softElem (tauOf e) y x else softElem (tauOf e) x y)

/-- wsoft.gt. -/
def planWsoftGt (a : WCmpArgs) (e : Entry) (h : HartId) : Except UnitFault Plan := softPlan a false e h
/-- wsoft.lt. -/
def planWsoftLt (a : WCmpArgs) (e : Entry) (h : HartId) : Except UnitFault Plan := softPlan a true e h

/-! ## Weight arithmetic and moves (R228, R229, R232) -/

/-- The product of two codes. -/
def pwMul (a b : Nat) : Nat := pw16 false (a * b) (2 ^ 30)

/-- An operation on one code. -/
def wOnePlan (a : WW) (e : Entry) (h : HartId) (f : Nat → Nat) : Except UnitFault Plan :=
  withGroup e fun gw =>
    issue e (tyNonBlock e.et && weightOk a.wd.val gw && weightOk a.wa.val gw)
      (weightPlan e h a.wd gw fun hd i => (f (weightGet hd.w a.wa.val i), 0))

/-- An operation on two codes. -/
def wTwoPlan (wd wa wb : WReg) (e : Entry) (h : HartId) (f : Nat → Nat → Nat) : Except UnitFault Plan :=
  withGroup e fun gw =>
    issue e (tyNonBlock e.et && weightOk wd.val gw && weightOk wa.val gw && weightOk wb.val gw)
      (weightPlan e h wd gw fun hd i => (f (weightGet hd.w wa.val i) (weightGet hd.w wb.val i), 0))

/-- wcomp. -/
def planWcomp (a : WW) (e : Entry) (h : HartId) : Except UnitFault Plan := wOnePlan a e h (0x8000 - ·)
/-- wmv. -/
def planWmv (a : WW) (e : Entry) (h : HartId) : Except UnitFault Plan := wOnePlan a e h id
/-- wmul. -/
def planWmul (a : WWW) (e : Entry) (h : HartId) : Except UnitFault Plan := wTwoPlan a.wd a.wa a.wb e h pwMul
/-- wmin. -/
def planWmin (a : WWW) (e : Entry) (h : HartId) : Except UnitFault Plan := wTwoPlan a.wd a.wa a.wb e h min
/-- wmax. -/
def planWmax (a : WWW) (e : Entry) (h : HartId) : Except UnitFault Plan := wTwoPlan a.wd a.wa a.wb e h max
/-- The entry of wloop. -/
def planWloop (wd wa : WReg) (e : Entry) (h : HartId) : Except UnitFault Plan := wTwoPlan wd wd wa e h pwMul

/-- n16, pw16, f32 and bf16. -/
def tyWeightMove (et : Nat) : Bool := et == 5 || et == 21 || et == 10 || et == 9

/-- wfromv. -/
def planWfromv (wd : WReg) (va : VReg) (e : Entry) (h : HartId) : Except UnitFault Plan :=
  withGroup e fun gw =>
    issue e (tyWeightMove e.et && weightOk wd.val gw && rowOk e va)
      (weightPlan e h wd gw fun hd i =>
        let x := vecElem hd e va 0 i
        (if etFloat e.et then floatToPw (fmtOf e.et) (ftzOf hd) x else x, 0))

/-- wtov. -/
def planWtov (vd : VReg) (wa : WReg) (e : Entry) (h : HartId) : Except UnitFault Plan :=
  withGroup e fun gw =>
    issue e (tyWeightMove e.et && weightOk wa.val gw && rowOk e vd)
      (elementPlan { e with vrc := 1 } h 0 vd.val e.et e.grp false fun hd _ i =>
        let c := weightGet hd.w wa.val i
        plainElem (if etFloat e.et then pwToFloat (fmtOf e.et) c else c))

/-! ## Joins and gradients (R233, R234) -/

/-- A value rounded to a type by itself. -/
def roundAlone (et mode : Nat) (ftz : Bool) (v : FVal) : Nat × FlagSet := deliverWith (fmtOf et) mode ftz (v, v.nvFlag)

/-- The join of two elements under a code. At weight 1.0 or 0 the operand that is not taken is not read: a signalling NaN in it
sets no flag, of which R233 says nothing (log 48, DESIGN CHOICE). -/
def joinElem (et mode : Nat) (ftz : Bool) (c a b : Nat) : Nat × FlagSet :=
  let f := fmtOf et
  let x := unpack f ftz a
  let y := unpack f ftz b
  if c = 0x8000 then roundAlone et mode ftz x
  else if c = 0 then roundAlone et mode ftz y
  else
    let (p, f1) := exactMul (.num false c 0x8000) x
    let (q, f2) := exactMul (.num false (0x8000 - c) 0x8000) y
    let (r, f3) := exactAdd mode p q
    deliverWith f mode ftz (r, f1 ||| f2 ||| f3)

/-- wblend. -/
def planWblend (a : WBlendArgs) (e : Entry) (h : HartId) : Except UnitFault Plan :=
  withGroup e fun gw =>
    issue e (etFloat e.et && weightOk a.ws.val gw && tileOk e a.vd && tileOk e a.va && tileOk e a.vb
        && inPlaceOk e a.vd a.va && inPlaceOk e a.vd a.vb)
      (elementPlan e h 0 a.vd.val e.et e.grp false fun hd r i =>
        okElem (joinElem e.et (roundMode hd a.rm) (ftzOf hd) (weightGet hd.w a.ws.val i) (vecElem hd e a.va r i)
          (vecElem hd e a.vb r i)))

/-- wgrad.b. -/
def planWgradB (a : WGradBArgs) (e : Entry) (h : HartId) : Except UnitFault Plan :=
  withGroup e fun _ =>
    issue e (etFloat e.et && tileOk e a.vd && tileOk e a.va && tileOk e a.vb && tileOk e a.vc
        && inPlaceOk e a.vd a.va && inPlaceOk e a.vd a.vb && inPlaceOk e a.vd a.vc)
      (elementPlan e h 0 a.vd.val e.et e.grp false fun hd r i =>
        fltTern e.et hd (roundMode hd a.rm) (fun x y z =>
          let (d, f1) := exactAdd (roundMode hd a.rm) y z.negate
          let (p, f2) := exactMul x d
          (p, f1 ||| f2)) (vecElem hd e a.va r i) (vecElem hd e a.vb r i) (vecElem hd e a.vc r i))

/-- wgrad.s. -/
def planWgradS (vd va : VReg) (ws : WReg) (rm : Rm) (e : Entry) (h : HartId) : Except UnitFault Plan :=
  withGroup e fun gw =>
    issue e (etFloat e.et && weightOk ws.val gw && tileOk e vd && tileOk e va && inPlaceOk e vd va)
      (elementPlan e h 0 vd.val e.et e.grp false fun hd r i =>
        let c := weightGet hd.w ws.val i
        let t := tauOf e
        fltUn e.et hd (roundMode hd rm) (fun x => exactMul x (.num false (c * (0x8000 - c) * t.2) (2 ^ 30 * t.1)))
          (vecElem hd e va r i))

/-! ## Reductions of weights (R230, R235) -/

/-- The codes of weights 0 … n - 1. -/
def codesOf (hd : Hart) (wa : WReg) (n : Nat) : List Nat := (List.range n).map (weightGet hd.w wa.val)

/-- The largest code among weights 0 … n - 1, and 0 for n = 0. -/
def maxCode (hd : Hart) (wa : WReg) (n : Nat) : Nat := (codesOf hd wa n).foldl max 0

/-- wmaxr. -/
def planWmaxr (xd : XReg) (wa : WReg) (e : Entry) (h : HartId) : Except UnitFault Plan :=
  withGroup e fun gw =>
    issue e (tyNonBlock e.et && weightOk wa.val gw)
      (resultPlan fun s => modHart s h fun hd => putX hd xd (word (maxCode hd wa e.vl)))

/-- wpop. -/
def planWpop (xd : XReg) (wa : WReg) (e : Entry) (h : HartId) : Except UnitFault Plan :=
  withGroup e fun gw =>
    issue e (tyNonBlock e.et && weightOk wa.val gw)
      (resultPlan fun s => modHart s h fun hd =>
        putX hd xd (word ((codesOf hd wa e.vl).filter (e.wthr.toNat < ·)).length))

end Machine

end Sys2Proof
end

