-- ==== Sys2Proof/Machine/Nameless.lean ====
section
/-! DEFINITION. Unit NX: nameless stores and the relinquishing of names (R107, R341 to R352), as plans. -/

namespace Sys2Proof

namespace Machine

/-! ## The choice of a slot (R348) -/

/-- The slot number of a stack, pseudo-channel, bank and row (R344). -/
def slotNumber (stack pch bank row : Nat) : Nat := stack * 2 ^ 23 + pch * 2 ^ 17 + bank * 2 ^ 12 + row

/-- The lowest free row of a bank; a slot that an error has poisoned is never issued. -/
def freeRow (d : Device) (m : Mem) (stack pch bank : Nat) : Option Nat :=
  (List.range (poolRows d)).find? fun r =>
    let n := slotNumber stack pch bank r
    ownerOf m n == 0 && !m.badSlots.contains n

/-- The first member with the least key. -/
def leastBy {α : Type} (key : α → Nat) : List α → Option α
  | [] => none
  | a :: as => match leastBy key as with
    | none => some a
    | some b => if key b < key a then some b else some a

/-- The slot chosen among some stacks; `load` gives the pending requests of pseudo-channel 64 × stack + pch, and of bank
512 + 32 × that + bank. -/
def chooseAmong (d : Device) (m : Mem) (load : Nat → Nat) (stacks_ : List Nat) : Option Nat :=
  let free (p : Nat × Nat) : List (Nat × Nat) :=
    (List.range 32).filterMap fun b => (freeRow d m p.1 p.2 b).map fun r => (b, r)
  let channels := stacks_.flatMap fun st => (List.range 64).map fun c => (st, c)
  match leastBy (fun p => load (64 * p.1 + p.2)) (channels.filter fun p => !(free p).isEmpty) with
  | none => none
  | some p => (leastBy (fun b => load (512 + 32 * (64 * p.1 + p.2) + b.1)) (free p)).map fun b =>
      slotNumber p.1 p.2 b.1 b.2

/-- The slot that a vst.n gets (R348); early service gives none (R446). -/
def chooseSlot (s : State) (nhint : BitVec 9) : Option Nat :=
  if earlyBoot s.dev then none else
  let d := s.dev
  let load := Config.pendingRequests s.fresh
  let serving := (stacksOf d).filter (inService d)
  let mask := getBits nhint 0 8
  let admitted := serving.filter fun st => mask == 0 || bit nhint st
  match chooseAmong d s.mem load admitted with
  | some n => some n
  | none => if bit nhint 8 then none else chooseAmong d s.mem load serving

/-! ## vst.n (R349) -/

/-- A slot filled whole with data, owned by a context; the poison of its lines is cleared (R349, R394). -/
def fillSlot (s : State) (ctx : BitVec 16) (slot : Nat) (bs : List Byte) : State :=
  let cells := cellsAt (poolKey (nameOf slot).toNat) (bs ++ List.replicate (1024 - bs.length) 0)
  { s with mem := { clearPoisonAt (commitCells s.mem none cells) cells with owners := tset 0 s.mem.owners slot ctx } }

/-- vst.n: one unit that takes a slot whatever vstart and vl hold, or finds the pool empty; it writes no element
group (R438). -/
def planVstN (xd : XReg) (va : VReg) (ws : WReg) (e : Entry) (h : HartId) : Except UnitFault Plan :=
  let len := dataBytes e.et e.bl e.vl
  issue e (ungovernedOk e ws && groupOk va.val e.grp 1 && len ≤ 1024)
    { total := 1, after := fun _ => 1, group := fun _ => 0, lockstep := false, always := false, first := some 0
      place := fun _ => (0, 0), written := fun _ => 0
      perform := fun s _ =>
        let hd := hartOf s h
        match chooseSlot s e.nhint with
        | some slot =>
          let s := fillSlot { s with fresh := s.fresh + 1 } hd.ctxid slot (leBytes len (groupGet hd.v va.val 0 (8 * len)))
          .next (modHart s h fun hd => count (putX hd xd (nameOf slot)) 18 1)
        | none =>
          let s := modHart { s with fresh := s.fresh + 1 } h (addFlags · flagNPOOL)
          if nptOf hd then .fault (faultAt 0 8 11 none) s else .next (modHart s h fun hd => count (putX hd xd 0) 18 1) }

/-! ## nrel (R351, R352) -/

/-- A name relinquished, or the cause that refuses it. -/
def relinquish (s : State) (h : HartId) (name : Word) : Except Nat State :=
  let n := name.toNat
  let slot := slotOf n
  if n = 0 then .ok s
  else if windowOf n ≠ .nameless || n % 1024 ≠ 0 || !slotExists s.dev slot then .error 11
  else if ownerOf s.mem slot = 0 || ownerOf s.mem slot ≠ (hartOf s h).ctxid then .error 12
  else .ok { s with mem := { s.mem with owners := tset 0 s.mem.owners slot 0 } }

/-- nrel of a scalar register. It has no element, and relinquishes its name whatever a written vstart holds, as R185 speaks of
entries with vstart at or beyond their elements (log 49, DESIGN CHOICE). -/
def planNrel (ws : WReg) (e : Entry) (h : HartId) : Except UnitFault Plan :=
  issue e (ungovernedOk e ws)
    { total := 1, after := fun _ => 1, group := fun _ => 0, lockstep := false, always := false, first := some 0
      place := fun _ => (0, 0), written := fun _ => 0
      perform := fun s _ => match relinquish s h e.op0 with
        | .ok s => .next s
        | .error c => .fault (faultAt 0 c e.op0 none) s }

/-- nrel.v: each name in ascending element order; it writes no element group (R438). -/
def planNrelV (vb : VReg) (ws : WReg) (e : Entry) (h : HartId) : Except UnitFault Plan :=
  issue e (ungovernedOk e ws && (e.et == 3 || e.et == 7) && groupOk vb.val e.grp 1)
    { total := e.vl, after := (· + 1), group := fun t => groupIn e.et e.bl t, lockstep := false, always := false
      written := fun _ => 0
      perform := fun s i =>
        let name := word (elemGet (hartOf s h).v e.et e.bl vb.val i)
        match relinquish s h name with
        | .ok s => .next s
        | .error c => .fault (faultAt i c name none) s }

end Machine

end Sys2Proof
end

