-- ==== Sys2Proof/Machine/VCross.lean ====
section
/-! DEFINITION. Unit VX: cross-lane instructions (R102, R153, R199 to R207), as plans of one unit: the sources are read
whole and the destination elements from the starting element on are written. -/

namespace Sys2Proof

namespace Machine

/-! ## Shared parts -/

/-- I, F, E and P: the types of VX but for the slides, vcompress and vexpand (R199). -/
def tyCross (et : Nat) : Bool := etWide et || etFloat et || etF8 et || etPw et

/-- A destination row apart from a source row (R199). -/
def rowsApart (e : Entry) (vd va : VReg) : Bool := !overlaps vd.val e.grp va.val e.grp

/-- An amount or column (R102, R201, R205). -/
def amountOf (e : Entry) (a : Amount) : Nat :=
  match a with
  | .x _ => e.op0.toNat
  | .i imm => imm.toNat

/-- An immediate amount needs an integer type (R93, R199). -/
def amountOk (e : Entry) (a : Amount) : Bool :=
  match a with
  | .x _ => true
  | .i _ => etInt e.et

/-- The elements of row 0 of an operand. -/
def rowElems (hd : Hart) (e : Entry) (v : VReg) : List Nat := (List.range e.vl).map fun i => vecElem hd e v 0 i

/-- An element of a row written. -/
def putRow (hd : Hart) (e : Entry) (vd : VReg) (i x : Nat) : Hart := putElem hd e.et e.bl vd.val i x

/-- Elements of a row written from an element on, those below the start left alone. -/
def putRowFrom (hd : Hart) (e : Entry) (base start : Nat) : Nat → List Nat → Hart
  | _, [] => hd
  | i, x :: xs =>
    putRowFrom (if start ≤ i then putElem hd e.et e.bl base i x else hd) e base start (i + 1) xs

/-- The tail of a row. -/
def rowTail (hd : Hart) (e : Entry) (base : Nat) : Hart := putTail hd e.ta e.et e.bl e.vl base e.grp

/-- Elements m to vl - 1 of a row and the bytes after them, as tail (R202, R203): elements below the start are prestart. -/
def tailFrom (hd : Hart) (e : Entry) (base start m : Nat) : Hart :=
  if e.ta then
    let ones := 2 ^ etWidth e.et - 1
    let hd := (List.range e.vl).foldl
      (fun hd i => if max m start ≤ i then putElem hd e.et e.bl base i ones else hd) hd
    rowTail hd e base
  else hd

/-- The elementwise plan of a VX instruction: row 0, in one piece (R199). -/
def crossPlan (e : Entry) (h : HartId) (ws : WReg) (vd : VReg) (f : Hart → Nat → ElemResult) : Plan :=
  { elementPlan { e with vrc := 1 } h (governing e ws) vd.val e.et e.grp false (fun hd _ i => f hd i) with
    group := fun _ => 0
    written := fun _ => rowEnd e.ta e.et e.bl e.vl e.grp - groupIn e.et e.bl e.start }

/-! ## Gathers (R200) -/

/-- The registers of the frame indices of vfperm. -/
def frameIndexRegs (e : Entry) : Nat := if vlmaxOf e.et e.grp e.bl / e.bl ≤ 576 then 1 else 2

/-- The bytes of a frame as one number. -/
def frameBits (hd : Hart) (e : Entry) (v : VReg) (f : Nat) : Nat :=
  leValue ((List.range (frameBytes e.et e.bl)).map fun b =>
    BitVec.ofNat 8 (groupGet hd.v v.val ((f * frameBytes e.et e.bl + b) * 8) 8))

/-- A frame's bytes written. -/
def putFrameBits (hd : Hart) (e : Entry) (v : VReg) (f x : Nat) : Hart :=
  putCodes hd v.val 8 (f * frameBytes e.et e.bl * 8) ((leBytes (frameBytes e.et e.bl) x).map (·.toNat))

/-- One frame of vfperm. -/
def permFrame (e : Entry) (a : VVV) (hd : Hart) (f : Nat) : Hart :=
  let k := groupGet hd.v a.vb.val (16 * f) 16
  if k < e.vl / e.bl then putFrameBits hd e a.vd f (frameBits hd e a.va k)
  else addFlags (putFrameBits hd e a.vd f 0) flagOOR

/-- The codes of a frame's prestart elements put back as they were (R199). The frame's scales, which its later elements need,
stay as written (log 49, DESIGN CHOICE). -/
def keepPrestart (e : Entry) (v : VReg) (start f : Nat) (old new : Hart) : Hart :=
  (List.range e.bl).foldl (fun hd j =>
    let i := f * e.bl + j
    if i < start then putElem hd e.et e.bl v.val i (elemGet old.v e.et e.bl v.val i) else hd) new

/-- vfperm, and vgath on a block type. -/
def framePlan (a : VVV) (e : Entry) (h : HartId) : Except UnitFault Plan :=
  let n := frameIndexRegs e
  issue e (etBlock e.et && ungovernedOk e a.ws && rowOk e a.vd && rowOk e a.va && groupOk a.vb.val n 1
      && rowsApart e a.vd a.va && !overlaps a.vd.val e.grp a.vb.val n)
    (rowsPlan e a.vd e.vl fun s t => modHart s h fun hd =>
      let hd := (List.range (e.vl / e.bl)).foldl (fun hd f =>
        if t / e.bl ≤ f then keepPrestart e a.vd t f hd (permFrame e a hd f) else hd) hd
      rowTail hd e a.vd.val)

/-- vgath. -/
def planVgath (a : VVV) (e : Entry) (h : HartId) : Except UnitFault Plan :=
  if etBlock e.et then framePlan a e h
  else
    issue e (tyCross e.et && governedOk e a.ws && rowOk e a.vd && rowOk e a.va && rowOk e a.vb && rowsApart e a.vd a.va
        && rowsApart e a.vd a.vb)
      (crossPlan e h a.ws a.vd fun hd i =>
        let k := vecElem hd e a.vb 0 i
        if k < e.vl then plainElem (vecElem hd e a.va 0 k) else .value 0 flagOOR)

/-- vfperm. -/
def planVfperm (a : VVV) (e : Entry) (h : HartId) : Except UnitFault Plan := framePlan a e h

/-! ## Slides (R201) -/

/-- The checks of a slide. -/
def slideOk (e : Entry) (a : VAmt) : Bool :=
  tyAny e.et && amountOk e a.s && governedOk e a.ws && rowOk e a.vd && rowOk e a.va && rowsApart e a.vd a.va

/-- vslideup: elements below the amount keep their value. With an amount at or beyond vl it writes no element, and still the
tail: R201 says 'writing nothing' of it, and R189 writes the tail of every destination (log 49, DESIGN CHOICE). -/
def planVslideup (a : VAmt) (e : Entry) (h : HartId) : Except UnitFault Plan :=
  let n := amountOf e a.s
  let tail := if e.ta then 6 * e.grp - dataBytes e.et e.bl e.vl / 192 else 0
  issue e (slideOk e a) { rowsPlan e a.vd e.vl (fun s t => modHart s h fun hd =>
    let hd' := (List.range e.vl).foldl (fun d i =>
      if t ≤ i && n ≤ i && active hd e (governing e a.ws) i then putRow d e a.vd i (vecElem hd e a.va 0 (i - n)) else d) hd
    rowTail hd' e a.vd.val) with
    written := fun t => if n < e.vl then rowEnd e.ta e.et e.bl e.vl e.grp - groupIn e.et e.bl (max t n) else tail }

/-- vslidedn. -/
def planVslidedn (a : VAmt) (e : Entry) (h : HartId) : Except UnitFault Plan :=
  let n := amountOf e a.s
  issue e (slideOk e a)
    (crossPlan e h a.ws a.vd fun hd i => plainElem (if i + n < e.vl then vecElem hd e a.va 0 (i + n) else 0))

/-! ## vcompress and vexpand (R202) -/

/-- The active, selected positions in ascending order. -/
def selectedOf (hd : Hart) (e : Entry) (a : VVV) : List Nat :=
  (List.range e.vl).filter fun i => active hd e (governing e a.ws) i && vecElem hd e a.vb 0 i != 0

/-- The checks of vcompress and vexpand; the selector is the third operand. -/
def packOk (e : Entry) (a : VVV) : Bool :=
  tyAny e.et && governedOk e a.ws && rowOk e a.vd && rowOk e a.va && rowOk e a.vb && rowsApart e a.vd a.va
    && rowsApart e a.vd a.vb

/-- vcompress. -/
def planVcompress (a : VVV) (e : Entry) (h : HartId) : Except UnitFault Plan :=
  issue e (packOk e a) (rowsPlan e a.vd e.vl fun s t => modHart s h fun hd =>
    let sel := selectedOf hd e a
    let hd' := putRowFrom hd e a.vd.val t 0 (sel.map fun i => vecElem hd e a.va 0 i)
    tailFrom hd' e a.vd.val t sel.length)

/-- The elements of vexpand: position k of the selected ones gets va[k]. -/
def expandFrom (src : Hart) (e : Entry) (a : VVV) (t : Nat) (hd : Hart) : Nat → List Nat → Hart
  | _, [] => hd
  | k, i :: is =>
    expandFrom src e a t (if t ≤ i then putRow hd e a.vd i (vecElem src e a.va 0 k) else hd) (k + 1) is

/-- vexpand. -/
def planVexpand (a : VVV) (e : Entry) (h : HartId) : Except UnitFault Plan :=
  issue e (packOk e a) (rowsPlan e a.vd e.vl fun s t => modHart s h fun hd =>
    rowTail (expandFrom hd e a t hd 0 (selectedOf hd e a)) e a.vd.val)

/-! ## Reductions and scans (R153, R203, R204) -/

/-- The operations of reductions and scans. -/
inductive Fold where
  | sum | max | min | and | or
  deriving DecidableEq, Repr

/-- The identity of an inactive element (R203). -/
def foldIdentity (op : Fold) (et : Nat) : Nat :=
  let w := etWidth et
  if etFloat et then
    match op with
    | .max => (infinite (fmtOf et) true).1
    | .min => (infinite (fmtOf et) false).1
    | _ => 2 ^ (w - 1)
  else match op with
    | .sum => 0
    | .max => wrap w (intMin et)
    | .min => wrap w (intMax et)
    | .and => 2 ^ w - 1
    | .or => 0

/-- One combination: rounded or wrapped to the type (R153, R203). -/
def foldStep (op : Fold) (et mode : Nat) (ftz : Bool) (a b : Nat) : Nat × FlagSet :=
  if etFloat et then
    let f := fmtOf et
    let x := unpack f ftz a
    let y := unpack f ftz b
    deliverWith f mode ftz (match op with
      | .max => exactMinMax true x y
      | .min => exactMinMax false x y
      | _ => exactAdd mode x y)
  else
    let x := intVal et a
    let y := intVal et b
    (match op with
      | .sum => wrap (etWidth et) (x + y)
      | .max => if x < y then b else a
      | .min => if y < x then b else a
      | .and => a &&& b
      | .or => a ||| b, 0)

/-- The terms of a reduction (R153, R203). -/
def foldTerms (hd : Hart) (e : Entry) (gov : Nat) (op : Fold) (va : VReg) : List Nat :=
  (List.range e.vl).map fun i => if active hd e gov i then vecElem hd e va 0 i else foldIdentity op e.et

/-- Terms combined in ascending order. -/
def foldList (op : Fold) (et mode : Nat) (ftz : Bool) : Nat × FlagSet → List Nat → Nat × FlagSet
  | r, [] => r
  | (acc, fl), x :: xs =>
    let (y, g) := foldStep op et mode ftz acc x
    foldList op et mode ftz (y, fl ||| g) xs

/-- One level of the tree of R153: pairs are added, a last odd term passes up. -/
def treeLevel (et mode : Nat) (ftz : Bool) : List Nat → List Nat × FlagSet
  | a :: b :: t =>
    let (x, f) := foldStep .sum et mode ftz a b
    let (xs, g) := treeLevel et mode ftz t
    (x :: xs, f ||| g)
  | t => (t, 0)

/-- The tree sum, over a number of levels that is enough. -/
def treeSum (et mode : Nat) (ftz : Bool) : Nat → List Nat × FlagSet → List Nat × FlagSet
  | 0, r => r
  | k + 1, (xs, f) =>
    if xs.length ≤ 1 then (xs, f)
    else
      let (ys, g) := treeLevel et mode ftz xs
      treeSum et mode ftz k (ys, f ||| g)

/-- The result of a reduction whose terms are combined in order from vb[0]. -/
def orderedFold (op : Fold) (et mode : Nat) (ftz : Bool) (init : Nat) (ps : List Nat) : Nat × FlagSet :=
  foldList op et mode ftz (init, 0) ps

/-- The result of vredsum.t. -/
def treeFold (et mode : Nat) (ftz : Bool) (init : Nat) (ps : List Nat) : Nat × FlagSet :=
  match treeSum et mode ftz 17 (ps, 0) with
  | ([], f) => (init, f)
  | (p :: _, f) =>
    let (x, g) := foldStep .sum et mode ftz init p
    (x, f ||| g)

/-- The element groups that a reduction writes with its tail: that of its result, and those from the first tail element on. -/
def redGroups (e : Entry) (t : Nat) : Nat :=
  let first := if max 1 t < e.vl then groupIn e.et e.bl (max 1 t) else dataBytes e.et e.bl e.vl / 192
  6 * e.grp - first + (if first = 0 then 0 else 1)

/-- A reduction with its result rule. -/
def redPlan (e : Entry) (h : HartId) (a : VRed) (types : Nat → Bool) (op : Fold)
    (f : Nat → Bool → Nat → List Nat → Nat × FlagSet) : Except UnitFault Plan :=
  let dstOk := match a.dst with
    | .v vd => rowOk e vd && rowsApart e vd a.va && rowsApart e vd a.vb
    | .x _ => true
  issue e (types e.et && governedOk e a.ws && rowOk e a.va && rowOk e a.vb && dstOk)
    { wholePlan (max e.vl 1) (fun s t => modHart s h fun hd =>
      let (x, fl) := f (roundMode hd a.rm) (ftzOf hd) (vecElem hd e a.vb 0 0)
        (foldTerms hd e (governing e a.ws) op a.va)
      let hd := addFlags hd fl
      match a.dst with
      | .x xd => putX hd xd (extendElem e.et x)
      | .v vd =>
        let hd := putRow hd e vd 0 x
        if e.vl = 0 then hd else tailFrom hd e vd.val t 1) with
      written := fun t => match a.dst with
        | .x _ => 0
        | .v _ => if e.ta && e.vl != 0 then redGroups e t else 1
      dest := match a.dst with
        | .x _ => none
        | .v vd => some vd.val
      span := e.grp, needs := fun k => k = 0 || e.ta }

/-- vredsum.o. -/
def planVredsumO (a : VRed) (e : Entry) (h : HartId) : Except UnitFault Plan :=
  redPlan e h a tyIF .sum (orderedFold .sum e.et)

/-- vredsum.t. -/
def planVredsumT (a : VRed) (e : Entry) (h : HartId) : Except UnitFault Plan := redPlan e h a tyIF .sum (treeFold e.et)

/-- vredmax. -/
def planVredmax (a : VRed) (e : Entry) (h : HartId) : Except UnitFault Plan :=
  redPlan e h a tyIF .max (orderedFold .max e.et)

/-- vredmin. -/
def planVredmin (a : VRed) (e : Entry) (h : HartId) : Except UnitFault Plan :=
  redPlan e h a tyIF .min (orderedFold .min e.et)

/-- vredand. -/
def planVredand (a : VRed) (e : Entry) (h : HartId) : Except UnitFault Plan :=
  redPlan e h a etWide .and (orderedFold .and e.et)

/-- vredor. -/
def planVredor (a : VRed) (e : Entry) (h : HartId) : Except UnitFault Plan :=
  redPlan e h a etWide .or (orderedFold .or e.et)

/-- The operation of a scan. -/
def scanFold (op : ScanOp) : Fold :=
  match op with
  | .sum => .sum
  | .max => .max
  | .min => .min
  | .and => .and
  | .or => .or

/-- The prefixes of a list of terms, and the flags of forming them (R204). -/
def prefixes (op : Fold) (et mode : Nat) (ftz : Bool) : Nat × FlagSet → List Nat → List Nat × FlagSet
  | (acc, fl), [] => ([acc], fl)
  | (acc, fl), x :: xs =>
    let (y, g) := foldStep op et mode ftz acc x
    let (ys, f) := prefixes op et mode ftz (y, fl ||| g) xs
    (acc :: ys, f)

/-- vscan. Element 0 is the first term as it stands: no op is applied to it, so a NaN keeps its payload and a subnormal its
value under ftz, and neither sets a flag, in every operation (log 33, DEDUCED). The flags are those of every step, also of the steps below a written vstart: R199 computes every element as if the
instruction had started at 0, and R204 does not say whose flags it sets (log 49, DESIGN CHOICE). -/
def planVscan (a : VScanArgs) (e : Entry) (h : HartId) : Except UnitFault Plan :=
  let op := scanFold a.op
  let types := if op = .and || op = .or then etWide e.et else tyIF e.et
  issue e (types && governedOk e a.ws && rowOk e a.vd && rowOk e a.va && rowsApart e a.vd a.va)
    (rowsPlan e a.vd e.vl fun s t => modHart s h fun hd =>
      match foldTerms hd e (governing e a.ws) op a.va with
      | [] => hd
      | p :: ps =>
        let (ys, fl) := prefixes op e.et (roundMode hd a.rm) (ftzOf hd) (p, 0) ps
        let hd' := (List.range e.vl).foldl (fun d i =>
          if t ≤ i && active hd e (governing e a.ws) i then putRow d e a.vd i (ys.getD i 0) else d) hd
        rowTail (addFlags hd' fl) e a.vd.val)

/-! ## Column moves (R205) -/

/-- The rows that a column move performs: active, and not below the starting element. -/
def moveRows (hd : Hart) (e : Entry) (ws : WReg) (p : Nat → Bool) : List Nat :=
  (List.range e.vrc).filter fun r => p r && active hd e (governing e ws) r

/-- vmovc. -/
def planVmovc (a : VAmt) (e : Entry) (h : HartId) : Except UnitFault Plan :=
  let c := amountOf e a.s
  issue e (tyCross e.et && amountOk e a.s && governedOk e a.ws && rowOk e a.vd && tileOk e a.va
      && !overlaps a.vd.val e.grp a.va.val (e.grp * e.vrc))
    { wholePlan (e.vrc * e.vl) (fun s t => modHart s h fun hd =>
      let rows := moveRows hd e a.ws (t ≤ ·)
      let hd' := rows.foldl (fun d r => putRow d e a.vd r (if c < e.vl then vecElem hd e a.va r c else 0)) hd
      let hd' := if e.vl ≤ c && !rows.isEmpty then addFlags hd' flagOOR else hd'
      if e.ta then fillOnes hd' a.vd.val (dataBytes e.et e.bl (max e.vrc t)) e.grp else hd') with
      written := fun t =>
        if e.ta || t < e.vrc then rowEnd e.ta e.et e.bl e.vrc e.grp - groupIn e.et e.bl t else 0
      dest := some a.vd.val, span := e.grp, needs := (· < rowEnd e.ta e.et e.bl e.vrc e.grp) }

/-- vmovr. A column at or beyond vl sets OOR when some active row holds an element at or above vstart, that is vstart is below
the row's end: R205 names no element that would have to be performed for the flag (log 49, DESIGN CHOICE). -/
def planVmovr (a : VAmt) (e : Entry) (h : HartId) : Except UnitFault Plan :=
  let c := amountOf e a.s
  issue e (tyCross e.et && amountOk e a.s && governedOk e a.ws && tileOk e a.vd && rowOk e a.va
      && !overlaps a.vd.val (e.grp * e.vrc) a.va.val e.grp)
    { wholePlan (e.vrc * e.vl) (fun s t => modHart s h fun hd =>
      if c < e.vl then
        (moveRows hd e a.ws fun r => t ≤ r * e.vl + c).foldl
          (fun d r => putElem d e.et e.bl (rowBase e a.vd r) c (vecElem hd e a.va 0 r)) hd
      else if (moveRows hd e a.ws fun r => t < (r + 1) * e.vl).isEmpty then hd else addFlags hd flagOOR) with
      written := fun t => if c < e.vl then ((List.range e.vrc).filter fun r => t ≤ r * e.vl + c).length else 0
      dest := some a.vd.val, span := e.vrc * e.grp, needs := fun k => c < e.vl && k % (6 * e.grp) == groupIn e.et e.bl c }

/-! ## vcsw and vnormk (R206, R207) -/

/-- Whether key a is below key b (R206). -/
def keyLt (et : Nat) (ftz : Bool) (a b : Nat) : Bool :=
  if etPw et then min a 0x8000 < min b 0x8000
  else if etWide et then intVal et a < intVal et b
  else
    let x := unpack (fmtOf et) ftz a
    let y := unpack (fmtOf et) ftz b
    if x.isNan then false else if y.isNan then true else valLt true x y

/-- Whether the pair (i, p) is exchanged. -/
def exchanges (et : Nat) (ftz : Bool) (a : VCswArgs) (key : Nat → Nat) (i p : Nat) : Bool :=
  let up := (i / 2 ^ a.k.toNat % 2 == 0) != a.inv
  if up then keyLt et ftz (key p) (key i) else keyLt et ftz (key i) (key p)

/-- Where element i of the output comes from. -/
def cswFrom (et vl : Nat) (ftz : Bool) (a : VCswArgs) (key : Nat → Nat) (i : Nat) : Nat :=
  let d := 2 ^ a.j.toNat
  let lo := if i / d % 2 = 0 then i else i - d
  if vl ≤ lo + d then i
  else if exchanges et ftz a key lo (lo + d) then (if i = lo then lo + d else lo) else i

/-- vcsw: keys to vd, payloads to vd + grp. -/
def planVcsw (a : VCswArgs) (e : Entry) (h : HartId) : Except UnitFault Plan :=
  issue e (tyCross e.et && ungovernedOk e a.ws && groupOk a.vd.val e.grp 2 && rowOk e a.va && rowOk e a.vb
      && !overlaps a.vd.val (2 * e.grp) a.va.val e.grp && !overlaps a.vd.val (2 * e.grp) a.vb.val e.grp)
    (.fields 2 a.vd.val e.grp <| rowsPlan e a.vd e.vl fun s t => modHart s h fun hd =>
      let src := cswFrom e.et e.vl (ftzOf hd) a (vecElem hd e a.va 0)
      let put (d : Hart) (base : Nat) (v : VReg) : Hart :=
        rowTail (putRowFrom d e base t 0 ((List.range e.vl).map fun i => vecElem hd e v 0 (src i))) e base
      put (put hd a.vd.val a.va) (a.vd.val + e.grp) a.vb)

/-- The sum of codes after the read clamp. -/
def gateSum (cs : List Nat) : Nat := cs.foldl (· + ·) 0

/-- One group of vnormk. -/
def normGroup (cs : List Nat) : List Nat × FlagSet :=
  let sum := gateSum cs
  if sum = 0 then (cs.map fun _ => pw16 false 1 cs.length, flagZSUM) else (cs.map fun c => pw16 false c sum, 0)

/-- The groups of k of a list of codes that begin at an element, over a number of groups; those wholly below the start
set no flag. -/
def normGroups (k start : Nat) : Nat → Nat → List Nat → List Nat × FlagSet
  | 0, _, _ => ([], 0)
  | n + 1, i, cs =>
    if cs.isEmpty then ([], 0)
    else
      let (ys, f) := normGroup (cs.take k)
      let (zs, g) := normGroups k start n (i + k) (cs.drop k)
      (ys ++ zs, (if start < i + k then f else 0) ||| g)

/-- vnormk. -/
def planVnormk (a : VNormkArgs) (e : Entry) (h : HartId) : Except UnitFault Plan :=
  issue e (e.et == 5 && a.k != 0 && ungovernedOk e a.ws && rowOk e a.vd && rowOk e a.va && rowsApart e a.vd a.va)
    (rowsPlan e a.vd e.vl fun s t => modHart s h fun hd =>
      let (ys, fl) := normGroups a.k.toNat t e.vl 0 ((rowElems hd e a.va).map (min 0x8000))
      rowTail (putRowFrom (addFlags hd fl) e a.vd.val t 0 ys) e a.vd.val)

end Machine

end Sys2Proof
end

