-- ==== Sys2Proof/Machine/Sequencer.lean ====
section
/-! DEFINITION. The dispatch queue and the vector sequencer: posting (R40, R41), issue checks (R97, R446), running entries
in queue order (R45 to R49), convoys (R98 to R100), and what a fault, a trim or a stop in the middle leaves. -/

namespace Sys2Proof

namespace Machine

/-! ## What an entry is -/

/-- The scalar registers that an instruction names as sources in [40:36], [34:30], [28:24] and [22:18]; x0 where it
names none (R387). -/
structure Operands where
  r0 : XReg := 0
  r1 : XReg := 0
  r2 : XReg := 0
  r3 : XReg := 0
  deriving DecidableEq, Repr

/-- The registers of a second operand. -/
def srcOperands : Src → Operands
  | .x r => { r0 := r }
  | _ => {}

/-- The registers of the operands of a ternary instruction. -/
def src3Operands : Src3 → Operands
  | .x r => { r0 := r }
  | _ => {}

/-- The registers of an amount or column. -/
def amountOperands : Amount → Operands
  | .x r => { r0 := r }
  | _ => {}

/-- The registers of a compare's second operand. -/
def cmpOperands : CmpSrc → Operands
  | .x r => { r0 := r }
  | _ => {}

/-- The scalar operands of a queue entry (R101 to R107). -/
def operandsOf : Instr → Operands
  | .vadd a | .vsub a | .vrsub a | .vmul a | .vmulh a | .vdiv a | .vrem a | .vmin a | .vmax a | .vand a
  | .vor a | .vxor a | .vshl a | .vshr a | .vsha a | .vsadd a | .vssub a | .vfdiv a | .vwadd a | .vwmul a => srcOperands a.b
  | .vfma a | .vfms a | .vfnma a | .vwfma a => src3Operands a.b
  | .vmv (.splat _ xs _ _) => { r0 := xs }
  | .vslideup a | .vslidedn a | .vmovc a | .vmovr a => amountOperands a.s
  | .vld m | .vldx m _ | .vldseg m _ | .vst m _ | .vstx m _ _ | .vgl m _ | .vsc m _ _ => { r0 := m.xs }
  | .vlds m xt | .vsts m xt _ => { r0 := m.xs, r1 := xt }
  | .vstPair a => { r0 := a.xs, r1 := a.xt, r2 := a.xc }
  | .vamo a => { r0 := a.xs }
  | .vsred a => { r0 := a.xs }
  | .vcopy a => { r0 := a.xs, r1 := a.xt, r2 := a.xn, r3 := a.xc }
  | .sld m | .sst m | .sldx m _ | .sstx m _ | .bld m | .bst m => { r0 := m.xs }
  | .scopy a | .scopyX a _ => { r0 := a.xs, r1 := a.xt, r2 := a.xn }
  | .samo a => { r0 := a.xs }
  | .mlatch a | .mlatchStage a => { r0 := a.xs }
  | .wcmpEq a | .wcmpNe a | .wcmpLt a | .wcmpLe a | .wcmpGt a | .wcmpGe a | .wsoftGt a | .wsoftLt a => cmpOperands a.b
  | .nrel xs _ _ => { r0 := xs }
  | _ => {}

/-- The scalar register that a queue entry writes when it completes; x0 for none (R158). -/
def scalarDest : Instr → XReg
  | .vmv (.toX xd _ _ _ _) => xd
  | .vredsumO a | .vredsumT a | .vredmax a | .vredmin a | .vredand a | .vredor a => match a.dst with
    | .x xd => xd
    | .v _ => 0
  | .wmaxr xd _ _ | .wpop xd _ _ => xd
  | .vstN xd _ _ _ => xd
  | _ => 0

/-- The instructions that vill does not refuse (R97). -/
def acceptsVill : Instr → Bool
  | .vcopy _ | .scopy _ | .scopyX _ _ | .nrel _ _ _ | .fcclr _ _ => true
  | _ => false

/-- An entry may write one of some scalar registers when it completes. -/
def writesX (e : Entry) (rs : List XReg) : Bool := scalarDest e.instr != 0 && rs.contains (scalarDest e.instr)

/-- The instructions whose entries access device memory or the nameless pool (R266). -/
def touchesMemory : Instr → Bool
  | .vld _ | .vlds _ _ | .vldx _ _ | .vldseg _ _ | .vst _ _ | .vsts _ _ _ | .vstx _ _ _ | .vstPair _ | .vgl _ _
  | .vsc _ _ _ | .vamo _ | .vsred _ | .vcopy _ | .scopy _ | .scopyX _ _ | .mlatch _ | .vstN _ _ _ _ | .nrel _ _ _
  | .nrelV _ _ _ => true
  | _ => false

/-- The instructions whose entries may trim vl (R307). -/
def mayTrim : Instr → Bool
  | .vld _ | .vlds _ _ | .vldx _ _ | .vldseg _ _ | .vgl _ _ => true
  | _ => false

/-- The registers that an operand of an entry takes at most: a tile of the widest rows, both groups of a vcsw, or every field
of a vldseg. -/
def operandSpan (e : Entry) : Nat :=
  max (8 * e.vrc) (match e.instr with
    | .vcsw _ => 2 * e.grp
    | .vldseg _ n => n.toNat * e.grp
    | _ => 0)

/-- Whether an entry may read or write a vector register from `base` on, n of them. It is taken to use every register that one
of its six-bit fields could name, over as many as an operand can take, and a matrix instruction to use all of them
(log 20). -/
def mayTouchV (e : Entry) (base n : Nat) : Bool :=
  getBits e.bits 7 3 == 4 ||
    [18, 24, 30, 36].any fun lo => overlaps base n (getBits e.bits lo 6) (operandSpan e)

/-- Whether an entry may write a weight register: by its instruction, or by dampening (R217). -/
def mayWriteW (e : Entry) : Bool :=
  getBits e.bits 7 3 == 5 || e.awr != 0 || getBits e.bits 42 4 != 0 || match e.instr with
    | .vsc _ _ _ | .fclook _ => true
    | _ => false

/-! ## The bytes that a pending entry may access (R43, R356)

A scalar access waits for the older entries that access its bytes, and a fence for those on its paths. The addresses of an
entry follow from its operands and index registers; an entry whose operands or indices an older one may still write is taken
to access any byte. Inactive elements count with the others, and pages are taken as the tables and caches give them now
(log 20). -/

/-- The entry makes its accesses on path C, or on path N (R266). -/
def copyEntry : Instr → Bool
  | .vcopy _ | .scopy _ | .scopyX _ _ => true
  | _ => false
/-- See `copyEntry`. -/
def nameEntry : Instr → Bool
  | .vstN _ _ _ _ | .nrel _ _ _ | .nrelV _ _ _ => true
  | _ => false

/-- The path of an entry's access to a key. -/
def entryPath (d : Device) (i : Instr) (k : Nat) : Path :=
  if copyEntry i then .C else if nameEntry i then .N else pathOf d false k

/-- The vector register from which an entry takes its addresses. -/
def indexBase : Instr → Option Nat
  | .vldx _ vb | .vstx _ vb _ | .vgl _ vb | .vsc _ vb _ | .scopyX _ vb => some vb.val
  | .vamo a => some a.vb.val
  | .vsred a => some a.vb.val
  | .mlatch a => some a.vb.val
  | _ => none

/-- Byte ranges from an element on: one for each element, by its address. -/
def elementRanges (e : Entry) (n last : Nat) (addr : Nat → Int) : List (Int × Nat) :=
  (positions e.start last).map fun i => (addr i, n)

/-- The byte range of the units of a row in memory from an element on (R305). -/
def rowRange (e : Entry) (base : Int) : List (Int × Nat) :=
  if e.vl ≤ e.start then []
  else
    let lo := unitByte e.et e.bl e.start
    [(base + lo, unitByte e.et e.bl (e.vl - 1) + unitBytes e.et e.bl - lo)]

/-- The eight bytes of a counter word, unless x0 names none. -/
def counterRange (xc : XReg) (v : Word) : List (Int × Nat) := if xc = 0 then [] else [(v.toNat, 8)]

/-- The byte ranges that an entry may access, from its operands and index registers as they stand. -/
def rangesOf (hd : Hart) (e : Entry) : List (Int × Nat) :=
  let n := etBytes e.et
  let x : Int := e.op0.toNat
  let indexed (base : Int) (vb : VReg) : List (Int × Nat) :=
    elementRanges e n e.vl fun i => base + indexOffset hd e vb i
  match e.instr with
  | .vld m | .vst m _ => rowRange e (baseAddr e m.imm)
  | .vlds m _ | .vsts m _ _ => elementRanges e n e.vl fun i => baseAddr e m.imm + i * e.op1.toInt
  | .vldx m vb | .vstx m vb _ | .vgl m vb | .vsc m vb _ => indexed (baseAddr e m.imm) vb
  | .vldseg m k => elementRanges e (k.toNat * etBytes e.et2) e.vl fun i => baseAddr e m.imm + i * (k.toNat * etBytes e.et2 : Nat)
  | .vstPair a =>
    (x, e.vrc * dataBytes e.et2 e.bl e.vl) :: (e.op1.toNat, e.vl * dataBytes e.et2 e.bl e.vrc) :: counterRange a.xc e.op2
  | .vamo a => indexed x a.vb
  | .vsred a => indexed x a.vb
  | .vcopy a => (x, e.op2.toNat) :: (e.op1.toNat, e.op2.toNat) :: counterRange a.xc e.op3
  | .scopy _ => elementRanges e (rowBytes e) (rowCount e) fun r => (e.op1.toNat : Int) + r * toSigned 32 (rowWord e)
  | .scopyX _ vb => elementRanges e (rowBytes e) (rowCount e) fun r =>
      (e.op1.toNat : Int) + groupGet hd.v vb.val (32 * r) 32 * rowBytes e
  | .mlatch a => elementRanges e (dataBytes e.et e.bl e.vl) (mrowsOf e) fun i =>
      ((e.op0.toNat + groupGet hd.v a.vb.val (64 * i) 64) % 2 ^ 64 : Nat)
  | .nrel _ _ _ => [(e.op0.toNat, 1024)]
  | _ => []

/-- Where bytes of a hart may lie: by the walk, or by a translation that a cache holds (R410). -/
def mayLie (s : State) (h : HartId) (a : Int) (n : Nat) : List Piece :=
  let ctx := (hartOf s h).ctxid
  if a < 0 then []
  else (runs a.toNat n).flatMap fun r =>
    if (canonicalFault r.1 r.2).isSome then []
    else match windowOf r.1 with
      | .nameless => [pieceOf s ctx (r, none)]
      | .expert => if (expertKey s ctx r.1).isSome then [pieceOf s ctx (r, none)] else []
      | _ =>
        ((walkTable s ctx r.1).toOption.toList ++ cachedLeaves s h ctx .load (r.1 % 2 ^ 57) []).map
          fun l => pieceOf s ctx (r, some l)

/-- Where an entry may access memory, behind some older ones; none when it may be anywhere. A vst.n or nrel.v may take or free
any slot of the pool. -/
def entryPieces (s : State) (h : HartId) (older : List Entry) (e : Entry) : Option (List Piece) :=
  let o := operandsOf e.instr
  if older.any fun p => writesX p [o.r0, o.r1, o.r2, o.r3] || (indexBase e.instr).any (mayTouchV p · 8) then none
  else match e.instr with
    | .vstN _ _ _ _ | .nrelV _ _ _ =>
      some [{ va := 0, len := 2 ^ 36, key := Config.poolBase, nospec := false, page := 0 }]
    | _ => some ((rangesOf (hartOf s h) e).flatMap fun r => mayLie s h r.1 r.2)

/-- Some entry of a queue passes a test of the entries before it and itself. -/
def anyInQueue (test : List Entry → Entry → Bool) : List Entry → List Entry → Bool
  | _, [] => false
  | older, e :: es => test older e || anyInQueue test (older ++ [e]) es

/-- Some pending entry of a hart may make an access that passes a test of its path and its place; none for any place. -/
def anyAhead (s : State) (h : HartId) (test : Path → Option Piece → Bool) : Bool :=
  let may (older : List Entry) (e : Entry) : Bool :=
    touchesMemory e.instr && match entryPieces s h older e with
      | none => [.V, .C, .N, .L, .H].any fun p => test p none
      | some ps => ps.any fun q => test (entryPath s.dev e.instr q.key) (some q)
  anyInQueue may [] (hartOf s h).queue

/-- An access follows one by an older entry in program order: they share a byte, or it is a release on that path. -/
def behind (s : State) (ps : List Piece) (rel : Bool) (path : Path) (q : Option Piece) : Bool :=
  ps.any fun p => (match q with
    | none => true
    | some q => touching p q) || (rel && piecePath s false p == path)

/-- The package is in early service (R441). -/
def earlyService (s : State) : Bool := earlyBoot s.dev

/-- A type that early service refuses (R446). -/
def earlyRefused (et : Nat) : Bool := etF8 et || etBlock et || et == 8 || et == 11

/-- The plan of an entry, by its instruction; `tag` numbers its accesses. -/
def instrPlan (s : State) (h : HartId) (tag : Nat) (e : Entry) : Except UnitFault Plan :=
  match e.instr with
  | .vadd a => planVadd a e h
  | .vsub a => planVsub a e h
  | .vrsub a => planVrsub a e h
  | .vmul a => planVmul a e h
  | .vmulh a => planVmulh a e h
  | .vdiv a => planVdiv a e h
  | .vrem a => planVrem a e h
  | .vmin a => planVmin a e h
  | .vmax a => planVmax a e h
  | .vand a => planVand a e h
  | .vor a => planVor a e h
  | .vxor a => planVxor a e h
  | .vshl a => planVshl a e h
  | .vshr a => planVshr a e h
  | .vsha a => planVsha a e h
  | .vsadd a => planVsadd a e h
  | .vssub a => planVssub a e h
  | .vfma a => planVfma a e h
  | .vfms a => planVfms a e h
  | .vfnma a => planVfnma a e h
  | .vfdiv a => planVfdiv a e h
  | .vfsqrt a => planVfsqrt a e h
  | .vfrsqrt a => planVfrsqrt a e h
  | .vfexp2 a => planVfexp2 a e h
  | .vflog2 a => planVflog2 a e h
  | .vwadd a => planVwadd a e h
  | .vwmul a => planVwmul a e h
  | .vwfma a => planVwfma a e h
  | .vcvt a => planVcvt a e h
  | .vwcvt a => planVwcvt a e h
  | .vncvt a => planVncvt a e h
  | .vquant a => planVquant a e h
  | .vdequant a => planVdequant a e h
  | .vsel a => planVsel a e h
  | .vmv a => planVmv a e h
  | .vgath a => planVgath a e h
  | .vslideup a => planVslideup a e h
  | .vslidedn a => planVslidedn a e h
  | .vcompress a => planVcompress a e h
  | .vexpand a => planVexpand a e h
  | .vfperm a => planVfperm a e h
  | .vredsumO a => planVredsumO a e h
  | .vredsumT a => planVredsumT a e h
  | .vredmax a => planVredmax a e h
  | .vredmin a => planVredmin a e h
  | .vredand a => planVredand a e h
  | .vredor a => planVredor a e h
  | .vscan a => planVscan a e h
  | .vmovc a => planVmovc a e h
  | .vmovr a => planVmovr a e h
  | .vcsw a => planVcsw a e h
  | .vnormk a => planVnormk a e h
  | .vld m => planVld m e h s
  | .vlds m _ => planVlds m e h s
  | .vldx m vb => planVldx m vb e h s
  | .vldseg m n => planVldseg m n e h s
  | .vst m u => planVst m u e h tag
  | .vsts m _ u => planVsts m u e h tag
  | .vstx m vb u => planVstx m vb u e h tag
  | .vstPair a => planVstPair a e h tag
  | .vgl m vb => planVgl m vb e h s
  | .vsc m vb wd => planVsc m vb wd e h s
  | .vamo a => planVamo a e h
  | .vsred a => planVsred a e h tag
  | .vcopy a => planVcopy a e h s tag
  | .sld m => planSld m e h
  | .sst m => planSst m e h
  | .sldx m vb => planSldx m vb e h
  | .sstx m vb => planSstx m vb e h
  | .scopy a => planScopy a e h tag
  | .scopyX a vb => planScopyX a vb e h tag
  | .samo a => planSamo a e h
  | .bld m => planBld m e h
  | .bst m => planBst m e h
  | .fcins a => planFcins a e h
  | .fclook a => planFclook a e h
  | .fcacc a op => planFcacc a op e h
  | .fcdrain a => planFcdrain a e h
  | .fcclr ws _ => planFcclr ws e h
  | .mmulO a => planMmulO a e h
  | .mmulR a => planMmulR a e h
  | .mmulSp a => planMmulSp a e h
  | .mmulGrp a => planMmulGrp a e h s
  | .mlatch a => planMlatch a e h
  | .mlatchStage a => planMlatchStage a e h
  | .mregrow a => planMregrow a e h
  | .wcmpEq a => planWcmpEq a e h
  | .wcmpNe a => planWcmpNe a e h
  | .wcmpLt a => planWcmpLt a e h
  | .wcmpLe a => planWcmpLe a e h
  | .wcmpGt a => planWcmpGt a e h
  | .wcmpGe a => planWcmpGe a e h
  | .wsoftGt a => planWsoftGt a e h
  | .wsoftLt a => planWsoftLt a e h
  | .wcomp a => planWcomp a e h
  | .wmul a => planWmul a e h
  | .wmin a => planWmin a e h
  | .wmax a => planWmax a e h
  | .wmv a => planWmv a e h
  | .wfromv wd va _ => planWfromv wd va e h
  | .wtov vd wa _ => planWtov vd wa e h
  | .wloop wd wa _ _ => planWloop wd wa e h
  | .wblend a => planWblend a e h
  | .wgradB a => planWgradB a e h
  | .wgradS vd va ws rm => planWgradS vd va ws rm e h
  | .wmaxr xd wa _ => planWmaxr xd wa e h
  | .wpop xd wa _ => planWpop xd wa e h
  | .vstN xd va ws _ => planVstN xd va ws e h
  | .nrel _ ws _ => planNrel ws e h
  | .nrelV vb ws _ => planNrelV vb ws e h
  | _ => .error (issueFault e)

/-- The plan of an entry after the checks of R97 and R446 that every instruction shares. -/
def planOf (s : State) (h : HartId) (tag : Nat) (e : Entry) : Except UnitFault Plan :=
  if vtIll e.vtype && !acceptsVill e.instr then .error (issueFault e)
  else if earlyService s && (earlyRefused e.et || earlyRefused e.et2) then .error (issueFault e)
  else instrPlan s h tag e

/-! ## Running one entry -/

/-- How a run of an entry's units ends: all done, a load that trims vl at a unit, a stop before a unit, a fault at a unit
with the state before it, or the farm's end in the middle. -/
inductive RunEnd where
  | done (s : State)
  | trim (u n : Nat) (before s : State)
  | stop (u : Nat) (s : State)
  | fault (u : Nat) (f : UnitFault) (before s : State)
  | gone (s : State)

/-- The units of a plan from u on; `stop n u` says whether to stop before unit u when n element groups have been
completed. -/
def runUnits (p : Plan) (h : HartId) (stop : Nat → Nat → Bool) : Nat → Nat → Nat → State → RunEnd
  | 0, _, _, s => .done (p.finish s)
  | k + 1, n, u, s =>
    if p.total ≤ u then .done (p.finish s)
    else if stop n u then .stop u s
    else match p.perform s u with
      | .fault f s' => .fault u f s s'
      | .trim m s' => .trim u m s (modHart s' h (count · 4 (p.trimmed u)))
      | .next s' =>
        if (hartOf s' h).queue.isEmpty then .gone s'
        else
          let u' := p.after u
          if p.total ≤ u' || p.group u' ≠ p.group u then
            runUnits p h stop k (n + 1) u' (modHart s' h (count · 4 (p.written u)))
          else runUnits p h stop k n u' s'

/-- A plan run from its first unit; an entry whose start is at or beyond its units performs none (R185). -/
def runPlan (p : Plan) (h : HartId) (e : Entry) (stop : Nat → Nat → Bool) (s : State) : RunEnd :=
  let u := p.first.getD e.start
  if p.total ≤ u then .done (if p.always then p.finish s else s)
  else runUnits p h stop (p.total - u + 1) 0 u s

/-- Runs an entry to its end. -/
def noStop : Nat → Nat → Bool := fun _ _ => false

/-- The writes of one instruction performed, so that those of its remainder follow them (R274). -/
def settleTag (s : State) (h : HartId) (tag : Nat) : State :=
  { s with mem := performAt s.dev s.mem h (fun a => a.tag == tag) .system }

/-- The entry that remains of one stopped before a unit. -/
def remainder (p : Plan) (e : Entry) (u : Nat) : Entry := { e with group := (p.place u).1, start := (p.place u).2 }

/-! ## Completion and trims -/

/-- An entry with a scalar register's new value wherever it names that register as an operand. -/
def refresh (r : XReg) (v : Word) (e : Entry) : Entry :=
  let o := operandsOf e.instr
  { e with
    op0 := if o.r0 = r then v else e.op0
    op1 := if o.r1 = r then v else e.op1
    op2 := if o.r2 = r then v else e.op2
    op3 := if o.r3 = r then v else e.op3 }

/-- The front entry completed (R184, R185, R438). A younger entry that names the scalar register it has written takes the
value: only a member of a convoy is posted while such a write is pending, and a clasp never changes a result (R42, R100). -/
def popEntry (hd : Hart) : Hart :=
  let d := hd.queue.head?.elim 0 (scalarDest ·.instr)
  let queue := if d = 0 then hd.queue.tail else hd.queue.tail.map (refresh d (readX hd d))
  count { hd with queue, csr := { hd.csr with vstart := 0 } } 3 1

/-- A trim to n by an entry: younger entries of its configuration, and the scalar core's vl, take n (R308). -/
def trimHart (hd : Hart) (e : Entry) (n : Nat) : Hart :=
  let trimmed (o : Entry) : Entry :=
    if o.epoch = e.epoch && o.vl = e.vl && o.vtype = e.vtype then { o with vl := n } else o
  count { hd with
    queue := hd.queue.map trimmed
    csr := { hd.csr with
      vl := if hd.epoch = e.epoch && hd.csr.vl.toNat = e.vl && hd.csr.vtype = e.vtype then word n else hd.csr.vl } } 15 1

/-! ## Faults and convoys (R48, R49) -/

/-- The younger members of the convoy of a queue's front entry. -/
def convoyRest (queue : List Entry) : List Entry := queue.tail.takeWhile (·.joined)

/-- The younger members of a convoy brought to their stop points below element group g, in order: a member performs its
units of lower element groups while it and every member before it goes in lock step with its sources, at most one of
them all reaches memory, and the registers that it shares with older members are done so far; `older` holds their plans,
each with the unit before which it stopped. The last unit of a member is left to its replay. -/
def runPartial (h : HartId) : List Entry → List (Plan × Nat) → Nat → Bool → State → List Entry × State
  | [], _, _, _, s => ([], s)
  | e :: es, older, g, memory, s =>
    let (tag, m) := newTag s.mem
    let s := { s with mem := m }
    match planOf s h tag e with
    | .error _ => (e :: es, s)
    | .ok p =>
      if !p.lockstep || (p.memory && memory) then (e :: es, s)
      else
        let go (u : Nat) (s : State) : List Entry × State :=
          let r := runPartial h es ((p, u) :: older) (min g (p.group u)) (memory || p.memory) (settleTag s h tag)
          (remainder p e u :: r.1, r.2)
        match runPlan p h e (fun _ u => g ≤ p.group u || !p.follows older u || p.total ≤ p.after u) s with
        | .stop u s => go u s
        | .trim u _ s _ => go u s
        | .fault u _ s _ => go u s
        | .done _ => (e :: es, s)
        | .gone s => (e :: es, s)

/-- The queue entries of a trap's images: entries of other convoys are marked as no members of image 0's. -/
def imagesOf (front : Entry) (members others : List Entry) : List Entry :=
  front :: members ++ others.map fun e => { e with joined := false }

/-- The trap of the front entry with its fault (R49, R382, R384). -/
def entryTrap (hd : Hart) (e : Entry) (f : UnitFault) (members others : List Entry) : TrapInfo :=
  { cause := f.cause, value := f.value, epc := e.pc, resume := hd.pc, phase := f.phase, group := f.group, elem := f.elem,
    vstart := f.vstart, vec := true, fetch := false, async := false, rem := members.length
    images := imagesOf { e with start := f.start, group := f.group, joined := false } members others, bank := f.bank }

/-- A fault of the front entry taken: its convoy is brought to its stop points and the trap is entered. -/
def faultEntry (s : State) (h : HartId) (tag : Nat) (p : Option (Plan × Nat)) (f : UnitFault) : State :=
  let hd := hartOf s h
  match hd.queue with
  | [] => s
  | e :: es =>
    let members := convoyRest hd.queue
    let others := es.drop members.length
    let s := settleTag s h tag
    let (members, s) := match p with
      | some (p, u) => if p.lockstep then runPartial h members [(p, u)] (p.group u) p.memory s else (members, s)
      | none => (members, s)
    takeTrap s h (entryTrap hd e f members others)

/-! ## The sequencer -/

/-- The front entry of a hart's queue run to its end; false when it did not complete but trapped, or its farm ended. -/
def runFront (s : State) (h : HartId) : Bool × State :=
  match (hartOf s h).queue with
  | [] => (true, s)
  | e :: _ =>
    let (tag, m) := newTag s.mem
    let s := { s with mem := m }
    match planOf s h tag e with
    | .error f => (false, faultEntry s h tag none f)
    | .ok p => match runPlan p h e noStop s with
      | .done s => (true, modHart s h popEntry)
      | .trim _ n _ s => (true, modHart s h fun hd => popEntry (trimHart hd e n))
      | .stop _ s => (true, s)
      | .fault u f _ s => (false, faultEntry s h tag (some (p, u)) f)
      | .gone s => (false, s)

/-- Front entries run while a test of the state holds. -/
def runWhile (h : HartId) (busy : State → Bool) : Nat → State → Bool × State
  | 0, s => (true, s)
  | n + 1, s =>
    if !busy s then (true, s)
    else match runFront s h with
      | (true, s) => runWhile h busy n s
      | r => r

/-- Front entries run until the queue holds at most some number of them. -/
def runQueue (h : HartId) (target : Nat) (n : Nat) (s : State) : Bool × State :=
  runWhile h (fun s => target < (hartOf s h).queue.length) n s

/-- The queue run while a test of the state holds, then something more; a trap in the queue is taken in its place (R48). -/
def settledWhile (s : State) (h : HartId) (busy : State → Bool) (k : State → State) : State :=
  match runWhile h busy (hartOf s h).queue.length s with
  | (true, s) => k s
  | (false, s) => s

/-- The queue run until no pending entry passes a test, then something more (R42). -/
def settledBy (s : State) (h : HartId) (busy : Entry → Bool) (k : State → State) : State :=
  settledWhile s h (fun s => (hartOf s h).queue.any busy) k

/-- Something done once the queue is empty (R48, R165). -/
def drained (s : State) (h : HartId) (k : State → State) : State := settledBy s h (fun _ => true) k

/-- Whether a pending entry will write one of some scalar registers. -/
def pendingX (hd : Hart) (rs : List XReg) : Bool := hd.queue.any (writesX · rs)

/-- Something done once no pending entry will write any of some scalar registers (R42). -/
def settledX (s : State) (h : HartId) (rs : List XReg) (k : State → State) : State := settledBy s h (writesX · rs) k

/-- Something done by an instruction that reads some scalar registers and orders every older access of the hart, once no pending
entry will write those registers or accesses memory (R42, R356). -/
def settledMem (s : State) (h : HartId) (rs : List XReg) (k : State → State) : State :=
  settledBy s h (fun e => writesX e rs || touchesMemory e.instr) k

/-- Something done by an instruction that reads some scalar registers and makes one access of n bytes at an address, once no
pending entry will write those registers or may access those bytes, so that the hart sees its accesses to the same bytes in
program order (R42, R43). A release waits besides for the entries that access its path (R282). -/
def settledAccess (s : State) (h : HartId) (rs : List XReg) (rel : Bool) (n : Nat) (addr : Hart → Int) (k : State → State) :
    State :=
  settledX s h rs fun t =>
    let a := addr (hartOf t h)
    settledWhile t h (fun u => anyAhead u h (behind u (mayLie u h a n) rel)) k

/-- Something done by an instruction that orders the older accesses of the hart on some paths, once no pending entry may access
one of them (R277, R356). -/
def settledPaths (s : State) (h : HartId) (p : Path → Bool) (k : State → State) : State :=
  settledWhile s h (fun u => anyAhead u h fun path _ => p path) k

/-- Something done by an instruction that reads or writes n vector registers from a base, some scalar registers and vl, once no
pending entry may change them or read what it writes (R42, R88). -/
def settledV (s : State) (h : HartId) (rs : List XReg) (base n : Nat) (k : State → State) : State :=
  settledBy s h (fun e => writesX e rs || mayTouchV e base n || mayTrim e.instr) k

/-- Something done by an instruction of the scalar core that reads a weight register, once no pending entry may write one or
trim vl (R42). -/
def settledW (s : State) (h : HartId) (k : State → State) : State :=
  settledBy s h (fun e => mayWriteW e || mayTrim e.instr) k

/-! ## Stopping a hart between element groups (R49, R66, R391) -/

/-- The queue of a hart whose front entry stops before unit u of its plan: the entry starts there, and its convoy is
brought to its stop points. -/
def pauseFront (s : State) (h : HartId) (tag : Nat) (p : Plan) (e : Entry) (u : Nat) : State :=
  let queue := (hartOf s h).queue
  let members := convoyRest queue
  let others := queue.tail.drop members.length
  let s := settleTag s h tag
  let (members, s) := if p.lockstep then runPartial h members [(p, u)] (p.group u) p.memory s else (members, s)
  modHart s h fun hd => { hd with queue := remainder p e u :: members ++ others }

/-- The oldest entry of a hart run for at most some number of element groups; false when it trapped, or ended its farm, in
place of that. -/
def runGroups (s : State) (h : HartId) (groups : Nat) : Bool × State :=
  match (hartOf s h).queue with
  | [] => (true, s)
  | e :: _ =>
    if groups = 0 then (true, s)
    else
      let (tag, m) := newTag s.mem
      let s := { s with mem := m }
      match planOf s h tag e with
      | .error f => (false, faultEntry s h tag none f)
      | .ok p => match runPlan p h e (fun n _ => groups ≤ n) s with
        | .done s => (true, modHart s h popEntry)
        | .trim _ n _ s => (true, modHart s h fun hd => popEntry (trimHart hd e n))
        | .stop u s => (true, pauseFront s h tag p e u)
        | .fault u f _ s => (false, faultEntry s h tag (some (p, u)) f)
        | .gone s => (false, s)

/-- The images of a stopped hart's queue (R387). -/
def queueImages (queue : List Entry) : List Entry :=
  match queue with
  | [] => []
  | e :: es =>
    let members := convoyRest queue
    imagesOf { e with joined := false } members (es.drop members.length)

/-- The vstart of a stopped hart: the element at which its oldest entry goes on (R49, R66). -/
def stoppedVstart (hd : Hart) : Word :=
  match hd.queue with
  | [] => hd.csr.vstart
  | e :: _ => word e.start

/-! ## Asynchronous machine checks (R383, R391, R393) -/

/-- The asynchronous trap of a report (R391). -/
def asyncTrap (hd : Hart) (e : ErrorReport) : TrapInfo :=
  let front := hd.queue.head?
  { cause := 15, value := (e.addr.map (·.setWidth 64)).getD 0, epc := hd.pc, resume := hd.pc, phase := 0
    group := front.elim 0 (·.group), elem := front.elim 0 (·.start), vstart := (stoppedVstart hd).toNat
    vec := false, fetch := false, async := true, rem := (convoyRest hd.queue).length
    images := queueImages hd.queue, bank := none }

/-- The latched trap of a hart taken. -/
def takePending (s : State) (h : HartId) : State :=
  match (hartOf s h).pendingTrap with
  | none => s
  | some e => takeTrap (modHart s h fun hd => { hd with pendingTrap := none }) h (asyncTrap (hartOf s h) e)

/-- A contained machine check that belongs to a hart's work and to no instruction in flight: it is latched, one that is
latched already taking it in, and taken after at most some number of element groups. On a hart in privileged mode it ends
the farm at once, also a farm that a machine check is already ending. -/
def latchCheck (s : State) (h : HartId) (groups : Nat) (e : ErrorReport) : State :=
  let hd := hartOf s h
  match farmOf s hd.farmid with
  | none => s
  | some f =>
    if hd.run = .free then s
    else if hd.priv then endFarm s f.number
    else if f.ending then s
    else
      let s := latch s h e
      match runGroups s h groups with
      | (true, s) => takePending s h
      | (false, s) => s

/-! ## Posting (R40, R41) -/

/-- The registers that posting an instruction waits for. -/
def postRegs (i : Instr) : List XReg :=
  let o := operandsOf i
  [o.r0, o.r1, o.r2, o.r3, scalarDest i]

/-- The starting group of a product that takes a written vstart (R256); in the products without groups its mark alone says that
the sum begins there. -/
def postGroup (hd : Hart) (i : Instr) (start : Nat) : Nat :=
  match i with
  | .mmulGrp a => startGroup hd hd.csr.vl.toNat hd.csr.vrc.toNat start a.vc
  | .mmulO _ | .mmulR _ | .mmulSp _ => if start = 0 then 0 else csrGroup
  | _ => 0

/-- The entry of an instruction at the hart's PC, with the configuration as it stands (R41, R185). -/
def entryFor (hd : Hart) (i : Instr) (joined : Bool) : Entry :=
  let o := operandsOf i
  let start := if hd.queue.isEmpty then hd.csr.vstart.toNat else 0
  { instr := i, bits := BitVec.ofNat 64 ((encode i).elim 0 (·.2)), pc := hd.pc
    op0 := readX hd o.r0, op1 := readX hd o.r1, op2 := readX hd o.r2, op3 := readX hd o.r3
    vtype := hd.csr.vtype, start, vl := hd.csr.vl.toNat, vrc := hd.csr.vrc.toNat
    vslip := hd.csr.vslip.setWidth 8, wthr := hd.csr.wthr.setWidth 16, fthr := hd.csr.fthr.setWidth 16
    wtemp := hd.csr.wtemp.setWidth 32, wctl := hd.csr.wctl.setWidth 8, mshape := hd.csr.mshape.setWidth 24
    nhint := hd.csr.nhint.setWidth 9, group := postGroup hd i start, joined, epoch := hd.epoch }

/-- The hart with an instruction posted, and committed (R40, R75). -/
def postHart (hd : Hart) (i : Instr) (joined : Bool) : Hart :=
  nameLast (commit { hd with queue := hd.queue ++ [entryFor hd i joined] } 8) (scalarDest i)

/-- The sequencer run after posting, as far as the hart's lag asks (log 7). -/
def runAhead (s : State) (h : HartId) : State := (runQueue h (hartOf s h).lag (hartOf s h).queue.length s).2

/-- The scalar core waits for a free queue entry (R40). -/
def waitQueue (s : State) (h : HartId) : State := modHart s h fun hd => { hd with run := .waiting .queueFull }

/-- A vector-side instruction posted by the current hart. -/
def postVector (s : State) (i : Instr) : State :=
  let h := s.cur
  settledX s h (postRegs i) fun s =>
    if Config.queueDepth ≤ (hartOf s h).queue.length then waitQueue s h
    else runAhead (modHart s h fun hd => postHart hd i false) h

/-- The hart with the members of a convoy posted, all at once (R100). -/
def postMembers : List Instr → Bool → Hart → Hart
  | [], _, hd => hd
  | i :: is, joined, hd => postMembers is true (postHart hd i joined)

/-! ## Clasps (R98 to R100) -/

/-- A slot of a clasp, by position 1 to 6. -/
def slotAt (t : Slots) (k : Nat) : Nat :=
  match k with
  | 1 => t.s1.toNat
  | 2 => t.s2.toNat
  | 3 => t.s3.toNat
  | 4 => t.s4.toNat
  | 5 => t.s5.toNat
  | _ => t.s6.toNat

/-- What the checks of a convoy find. -/
inductive ClaspEnd where
  | members (is : List Instr)
  | badConvoy (position : Nat)
  | illegal (pc : Nat) (bits : BitVec 64)
  | fetchFault (cause : Nat) (addr : Word)

/-- A fetched instruction can stand in a slot: a 64-bit instruction of that unit, but for wbr, wsel and wloop (R99). -/
def slotFits (unit bits : Nat) : Bool :=
  lengthOf bits == 8 && fld bits 7 3 == unit && !(unit == 5 && 0x10 ≤ fld bits 10 8 && fld bits 10 8 ≤ 0x12)

/-- The eight bytes of a member, or as many as its length has. -/
def memberBits (s : State) (h : HartId) (pc : Nat) : Except (Nat × Nat) Nat × State :=
  match fetchParcels s h pc 1 with
  | (.error f, s) => (.error f, s)
  | (.ok first, s) =>
    match fetchParcels s h (pc + 2) (lengthOf (leValue first) / 2 - 1) with
    | (.error f, s) => (.error f, s)
    | (.ok rest, s) => (.ok (leValue (first ++ rest)), s)

/-- Positions from k on checked in order (R99); the words of the members. A member that cannot be fetched is found at its
position, and all eight of its bytes are fetched before its unit is checked: the spec does not order a fetch fault among the
structural checks (log 50, DESIGN CHOICE). -/
def checkPositions (h : HartId) (t : Slots) (used pc : Nat) : Nat → Nat → List Nat → State →
    Except ClaspEnd (List Nat) × State
  | 0, _, ws, s => (.ok ws, s)
  | n + 1, k, ws, s =>
    if used < k then
      if slotAt t k = 7 then checkPositions h t used pc n (k + 1) ws s else (.error (.badConvoy k), s)
    else if slotAt t k = 7 then (.error (.badConvoy k), s)
    else match memberBits s h (pc + 4 + 8 * (k - 1)) with
      | (.error (c, a), s) => (.error (.fetchFault c (word a)), s)
      | (.ok w, s) =>
        if slotFits (slotAt t k) w then checkPositions h t used pc n (k + 1) (ws ++ [w]) s
        else (.error (.badConvoy k), s)

/-- The members decoded, or the first that is no instruction (R73, R99). -/
def decodeMembers (pc : Nat) : List Nat → List Instr → ClaspEnd
  | [], is => .members is
  | w :: ws, is => match decode64 w with
    | .ok i => decodeMembers (pc + 8) ws (is ++ [i])
    | .error _ => .illegal pc (BitVec.ofNat 64 w)

/-- The checks of a clasp at a PC. -/
def checkClasp (s : State) (h : HartId) (pc : Nat) (count : BitVec 3) (t : Slots) : ClaspEnd × State :=
  if pc % 4 ≠ 0 || 5 ≤ count.toNat then (.badConvoy 0, s)
  else match checkPositions h t (count.toNat + 2) pc 6 1 [] s with
    | (.error r, s) => (r, s)
    | (.ok ws, s) => (decodeMembers (pc + 4) ws [], s)

end Machine

end Sys2Proof
end

