-- ==== Sys2Proof/Machine/Scalar.lean ====
section
/-! DEFINITION. The scalar core (chapter 06_reg_scalar): shared forms of its instructions, and their meanings. -/

namespace Sys2Proof

namespace Machine

/-! ## Shared forms -/

/-- The bits of an instruction, zero-extended (R73). -/
def instrBits (i : Instr) : Word := BitVec.ofNat 64 ((encode i).elim 0 (·.2))

/-- A trap of a scalar instruction at the hart's PC, once every older queue entry has completed (R48). -/
def trapScalar (s : State) (h : HartId) (cause : Nat) (value : Word) : State :=
  drained s h fun s => takeTrap s h (scalarTrap (hartOf s h) cause value)

/-- illegal-instruction at the hart's PC (R73). -/
def trapIllegal (s : State) (h : HartId) (i : Instr) : State := trapScalar s h 1 (instrBits i)

/-- A trap of a scalar access, once every older queue entry has completed (R48): evalue is its address (R174). An exact address
below 0 or at or above 2^64, which has no 64-bit form (R296), is reported modulo 2^64 (log 52, DESIGN CHOICE). -/
def trapAccess (s : State) (h : HartId) (f : Fail) (a : Int) : State :=
  drained s h fun s => takeTrap s h { scalarTrap (hartOf s h) f.cause (word (wrap 64 a)) with bank := f.bank }

/-- Whether the hart's farm has ended between two states. -/
def farmGone (before s : State) (h : HartId) : Bool :=
  (farmOf before (hartOf before h).farmid).isSome && (farmOf s (hartOf before h).farmid).isNone

/-- An instruction of len bytes that reads some registers and writes a result to rd. -/
def scalarResult (s : State) (rs : List XReg) (rd : XReg) (len : Nat) (f : Hart → Word) : State :=
  settledX s s.cur (rd :: rs) fun t => modHart t s.cur fun hd => setX (commit hd len) rd (f hd)

/-- A taken or untaken branch of len bytes: the target counts halfwords from the branch's own PC (R171). -/
def branchIf (s : State) (rs : List XReg) (len : Nat) (off : Word) (c : Hart → Bool) : State :=
  settledX s s.cur rs fun t => modHart t s.cur fun hd =>
    commitAt hd (if c hd then hd.pc + 2 * off else hd.pc + word len)

/-- An immediate, sign-extended (R78). -/
def sext {n : Nat} (imm : BitVec n) : Word := imm.signExtend 64

/-- The low six bits of a shift amount (R168). -/
def shiftBy (b : Word) : Nat := b.toNat % 64

/-- 1 when a condition holds. -/
def boolWord (c : Bool) : Word := if c then 1 else 0

/-! ## Multiply and divide (R129, R170) -/

/-- Bits [127:64] of the signed product. -/
def mulHigh (a b : Word) : Word := BitVec.ofInt 64 (a.toInt * b.toInt / 2 ^ 64)

/-- Bits [127:64] of the unsigned product. -/
def mulHighN (a b : Word) : Word := BitVec.ofNat 64 (a.toNat * b.toNat / 2 ^ 64)

/-- The signed quotient, rounded toward zero; all ones for a zero divisor. -/
def quotient (a b : Word) : Word := if b = 0 then BitVec.allOnes 64 else BitVec.ofInt 64 (a.toInt.tdiv b.toInt)

/-- The unsigned quotient. -/
def quotientN (a b : Word) : Word := if b = 0 then BitVec.allOnes 64 else BitVec.ofNat 64 (a.toNat / b.toNat)

/-- The signed remainder, with the sign of the dividend; the dividend for a zero divisor. -/
def remainderS (a b : Word) : Word := if b = 0 then a else BitVec.ofInt 64 (a.toInt.tmod b.toInt)

/-- The unsigned remainder. -/
def remainderN (a b : Word) : Word := if b = 0 then a else BitVec.ofNat 64 (a.toNat % b.toNat)

/-- The value that lhi writes (R78, R169). -/
def upperValue (imm : BitVec 20) : Word := sext (imm ++ (0 : BitVec 12))

/-! ## Loads and stores (R173 to R175) -/

/-- The address of a scalar access; it is exact (R296). -/
def scalarAddr (hd : Hart) (ra : XReg) (off : Int) : Int := (readX hd ra).toNat + off

/-- The places of n bytes that the scalar core loads, with the checks of R174. -/
def placeLoad (s : State) (h : HartId) (a : Int) (n : Nat) : Except Fail (List Piece) × State :=
  if a % n ≠ 0 then (.error ⟨3, wrap 64 a, none⟩, s) else check s h .load a n

/-- n bytes loaded by the scalar core, with the checks of R174. -/
def loadAt (s : State) (h : HartId) (a : Int) (n : Nat) : Except Fail (List Byte) × State :=
  match placeLoad s h a n with
  | (.error f, s) => (.error f, s)
  | (.ok ps, s) => (.ok (loadPieces s h false ps), countRemote s h ps)

/-- n bytes that an instruction reads after it has ordered the hart's older accesses, with the same checks: as they are now. -/
def readAt (s : State) (h : HartId) (a : Int) (n : Nat) : Except Fail (List Byte) × State :=
  match placeLoad s h a n with
  | (.error f, s) => (.error f, s)
  | (.ok ps, s) => (.ok (readPieces s h ps), forgetPieces (countRemote s h ps) h ps)

/-- Bytes stored by the scalar core, with the checks of R174. -/
def storeAt (s : State) (h : HartId) (a : Int) (bs : List Byte) : Except Fail State × State :=
  if a % bs.length ≠ 0 then (.error ⟨3, wrap 64 a, none⟩, s)
  else match check s h .store a bs.length with
    | (.error f, s) => (.error f, s)
    | (.ok ps, s) =>
      let (tag, m) := newTag s.mem
      (.ok (storePieces (countRemote { s with mem := m } h ps) h false tag 0 .ascending true ps bs), s)

/-- A scalar load of n bytes. -/
def scalarLoad (s : State) (rd ra : XReg) (off : Int) (n len : Nat) (ext : Nat → Word) : State :=
  settledAccess s s.cur [rd, ra] false n (scalarAddr · ra off) fun t =>
    let a := scalarAddr (hartOf t s.cur) ra off
    match loadAt t s.cur a n with
    | (.error f, t) => trapAccess t s.cur f a
    | (.ok bs, t) => modHart t s.cur fun hd => setX (commit hd len) rd (ext (leValue bs))

/-- A scalar store of the n low bytes of rb. -/
def scalarStore (s : State) (rb ra : XReg) (off : Int) (n len : Nat) : State :=
  settledAccess s s.cur [rb, ra] false n (scalarAddr · ra off) fun t =>
    let hd := hartOf t s.cur
    let a := scalarAddr hd ra off
    match storeAt t s.cur a (leBytes n (readX hd rb).toNat) with
    | (.error f, t) => trapAccess t s.cur f a
    | (.ok t, _) => modHart t s.cur (commit · len)

/-- A loaded value of n bytes, sign-extended. -/
def signed (n x : Nat) : Word := BitVec.ofInt 64 (toSigned (8 * n) x)

/-! ## Atomics (R176, R177) -/

/-- A scalar atomic: `f` gives the new value of the word, or none when nothing is written. A release waits while an older
write on its path is lost and not yet reported (R270, R282); after an acquire the younger accesses on its path begin (R282). -/
def scalarAtomic (s : State) (rd ra rb : XReg) (sc : Scope) (ord : Order) (f : Hart → Nat → Option Nat) : State :=
  settledAccess s s.cur [rd, ra, rb] (releases ord) 8 (scalarAddr · ra 0) fun t =>
    let h := s.cur
    let hd := hartOf t h
    let a := scalarAddr hd ra 0
    match checkAtomic t h hd.ctxid hd.priv a 8 with
    | (.error e, t) => trapAccess t h e a
    | (.ok ps, t) =>
      match ps with
      | [] => t
      | p :: _ =>
        let path := piecePath t false p
        let t' := releaseBefore t h ord path sc
        if farmGone t t' h || (releases ord && anyLost t'.dev t'.mem h (·.path == path)) then t'
        else
          let r := atomicUpdate t'.dev t'.mem h path p.key 8 (f hd)
          let t' := { t' with mem := r.2 }
          let t' := if acquires ord then acquireOn t' h path else t'
          modHart (countRemote t' h [p]) h fun hd => setX (commit hd 4) rd (word r.1)

/-- The signed order of two words. -/
def signedLt (a b : Nat) : Bool := toSigned 64 a < toSigned 64 b

/-! ## CSR access (R163 to R165, R178) -/

/-- The CSRs whose accesses wait for the dispatch queue (R165). -/
def csrWaits (n : Nat) : Bool :=
  n == 0 || n == 2 || n == 4 || n == 5 || n == 6 || n == 8 || n == 9 || n == 0x14 || (0x030 ≤ n && n < 0x040)
    || (0x050 ≤ n && n < 0x068)

/-- The hart after a CSR instruction: `new` is the value written, if any. A write that names xlast is not followed by the
update for xd (R160). -/
def csrHart (hd : Hart) (n : Nat) (rd : XReg) (old : Word) (new : Option Word) : Hart :=
  match new with
  | none => setX (commit hd 4) rd old
  | some v =>
    let hd := commit (csrWrite hd n v) 4
    if n = 0x01F then putX hd rd old else setX hd rd old

/-- A CSR instruction: `f` gives the new value from the old one and x[xa]. -/
def csrOp (s : State) (i : Instr) (rd ra : XReg) (csr : BitVec 11) (f : Option (Word → Word → Word)) : State :=
  let h := s.cur
  let n := csr.toNat
  if !csrLegal (hartOf s h).priv f.isSome n then trapIllegal s h i
  else
    let go (t : State) : State :=
      let old := csrRead t h n
      modHart t h fun hd => csrHart hd n rd old (f.map fun f => f old (readX hd ra))
    if csrWaits n then drained s h go else settledX s h [rd, ra] go

/-! ## Vector configuration (R188) -/

/-- The hart after setvl or setvli with a new vtype. -/
def setvlHart (hd : Hart) (rd ra : XReg) (v : Word) : Hart :=
  let vt := vtypeOf v
  let vl := word (vlGrant vt (readX hd ra).toNat)
  setX (commit { hd with csr := { hd.csr with vtype := vt, vl }, epoch := hd.epoch + 1 } 4) rd vl

/-! ## Compact forms (R75, R179) -/

/-- The implied register of the current hart. -/
def impliedReg (s : State) : XReg := implied (hartOf s s.cur)

/-! ## Integer arithmetic (R168) -/

/-- addi: a + b, with b the immediate (R168). -/
def execAddi (rd ra : XReg) (imm : BitVec 11) (s : State) : Host.Outcome State Fault Refusal :=
  .next (scalarResult s [ra] rd 4 fun hd => readX hd ra + sext imm)

/-- andi: a AND b, with b the immediate (R168). -/
def execAndi (rd ra : XReg) (imm : BitVec 11) (s : State) : Host.Outcome State Fault Refusal :=
  .next (scalarResult s [ra] rd 4 fun hd => readX hd ra &&& sext imm)

/-- ori: a OR b, with b the immediate (R168). -/
def execOri (rd ra : XReg) (imm : BitVec 11) (s : State) : Host.Outcome State Fault Refusal :=
  .next (scalarResult s [ra] rd 4 fun hd => readX hd ra ||| sext imm)

/-- xori: a XOR b, with b the immediate (R168). -/
def execXori (rd ra : XReg) (imm : BitVec 11) (s : State) : Host.Outcome State Fault Refusal :=
  .next (scalarResult s [ra] rd 4 fun hd => readX hd ra ^^^ sext imm)

/-- shli: a shifted left by sh (R168). -/
def execShli (rd ra : XReg) (sh : BitVec 6) (s : State) : Host.Outcome State Fault Refusal :=
  .next (scalarResult s [ra] rd 4 fun hd => readX hd ra <<< sh.toNat)

/-- shri: a shifted right, zeros in by sh (R168). -/
def execShri (rd ra : XReg) (sh : BitVec 6) (s : State) : Host.Outcome State Fault Refusal :=
  .next (scalarResult s [ra] rd 4 fun hd => readX hd ra >>> sh.toNat)

/-- shai: a shifted right, copies of bit 63 in by sh (R168). -/
def execShai (rd ra : XReg) (sh : BitVec 6) (s : State) : Host.Outcome State Fault Refusal :=
  .next (scalarResult s [ra] rd 4 fun hd => BitVec.sshiftRight (readX hd ra) (sh.toNat))

/-- slti: 1 when a < b signed, with b the immediate (R168). -/
def execSlti (rd ra : XReg) (imm : BitVec 11) (s : State) : Host.Outcome State Fault Refusal :=
  .next (scalarResult s [ra] rd 4 fun hd => boolWord ((readX hd ra).slt (sext imm)))

/-- sltni: 1 when a < b unsigned, with b the immediate (R168). -/
def execSltni (rd ra : XReg) (imm : BitVec 11) (s : State) : Host.Outcome State Fault Refusal :=
  .next (scalarResult s [ra] rd 4 fun hd => boolWord ((readX hd ra).ult (sext imm)))

/-- add: a + b (R168). -/
def execAdd (rd ra rb : XReg) (s : State) : Host.Outcome State Fault Refusal :=
  .next (scalarResult s [ra, rb] rd 4 fun hd => readX hd ra + readX hd rb)

/-- sub: a - b (R168). -/
def execSub (rd ra rb : XReg) (s : State) : Host.Outcome State Fault Refusal :=
  .next (scalarResult s [ra, rb] rd 4 fun hd => readX hd ra - readX hd rb)

/-- and: a AND b (R168). -/
def execAnd (rd ra rb : XReg) (s : State) : Host.Outcome State Fault Refusal :=
  .next (scalarResult s [ra, rb] rd 4 fun hd => readX hd ra &&& readX hd rb)

/-- or: a OR b (R168). -/
def execOr (rd ra rb : XReg) (s : State) : Host.Outcome State Fault Refusal :=
  .next (scalarResult s [ra, rb] rd 4 fun hd => readX hd ra ||| readX hd rb)

/-- xor: a XOR b (R168). -/
def execXor (rd ra rb : XReg) (s : State) : Host.Outcome State Fault Refusal :=
  .next (scalarResult s [ra, rb] rd 4 fun hd => readX hd ra ^^^ readX hd rb)

/-- shl: a shifted left (R168). -/
def execShl (rd ra rb : XReg) (s : State) : Host.Outcome State Fault Refusal :=
  .next (scalarResult s [ra, rb] rd 4 fun hd => readX hd ra <<< shiftBy (readX hd rb))

/-- shr: a shifted right, zeros in (R168). -/
def execShr (rd ra rb : XReg) (s : State) : Host.Outcome State Fault Refusal :=
  .next (scalarResult s [ra, rb] rd 4 fun hd => readX hd ra >>> shiftBy (readX hd rb))

/-- sha: a shifted right, copies of bit 63 in (R168). -/
def execSha (rd ra rb : XReg) (s : State) : Host.Outcome State Fault Refusal :=
  .next (scalarResult s [ra, rb] rd 4 fun hd => BitVec.sshiftRight (readX hd ra) (shiftBy (readX hd rb)))

/-- slt: 1 when a < b signed (R168). -/
def execSlt (rd ra rb : XReg) (s : State) : Host.Outcome State Fault Refusal :=
  .next (scalarResult s [ra, rb] rd 4 fun hd => boolWord ((readX hd ra).slt (readX hd rb)))

/-- sltn: 1 when a < b unsigned (R168). -/
def execSltn (rd ra rb : XReg) (s : State) : Host.Outcome State Fault Refusal :=
  .next (scalarResult s [ra, rb] rd 4 fun hd => boolWord ((readX hd ra).ult (readX hd rb)))

/-- min: the signed minimum (R168). -/
def execMin (rd ra rb : XReg) (s : State) : Host.Outcome State Fault Refusal :=
  .next (scalarResult s [ra, rb] rd 4 fun hd => if (readX hd ra).slt (readX hd rb) then readX hd ra else readX hd rb)

/-- max: the signed maximum (R168). -/
def execMax (rd ra rb : XReg) (s : State) : Host.Outcome State Fault Refusal :=
  .next (scalarResult s [ra, rb] rd 4 fun hd => if (readX hd ra).slt (readX hd rb) then readX hd rb else readX hd ra)

/-- minn: the unsigned minimum (R168). -/
def execMinn (rd ra rb : XReg) (s : State) : Host.Outcome State Fault Refusal :=
  .next (scalarResult s [ra, rb] rd 4 fun hd => if (readX hd ra).ult (readX hd rb) then readX hd ra else readX hd rb)

/-- maxn: the unsigned maximum (R168). -/
def execMaxn (rd ra rb : XReg) (s : State) : Host.Outcome State Fault Refusal :=
  .next (scalarResult s [ra, rb] rd 4 fun hd => if (readX hd ra).ult (readX hd rb) then readX hd rb else readX hd ra)

/-! ## Multiply and divide (R170) -/

/-- mul (R170). -/
def execMul (rd ra rb : XReg) (s : State) : Host.Outcome State Fault Refusal :=
  .next (scalarResult s [ra, rb] rd 4 fun hd => readX hd ra * readX hd rb)

/-- mulh (R170). -/
def execMulh (rd ra rb : XReg) (s : State) : Host.Outcome State Fault Refusal :=
  .next (scalarResult s [ra, rb] rd 4 fun hd => mulHigh (readX hd ra) (readX hd rb))

/-- mulhn (R170). -/
def execMulhn (rd ra rb : XReg) (s : State) : Host.Outcome State Fault Refusal :=
  .next (scalarResult s [ra, rb] rd 4 fun hd => mulHighN (readX hd ra) (readX hd rb))

/-- div (R170). -/
def execDiv (rd ra rb : XReg) (s : State) : Host.Outcome State Fault Refusal :=
  .next (scalarResult s [ra, rb] rd 4 fun hd => quotient (readX hd ra) (readX hd rb))

/-- divn (R170). -/
def execDivn (rd ra rb : XReg) (s : State) : Host.Outcome State Fault Refusal :=
  .next (scalarResult s [ra, rb] rd 4 fun hd => quotientN (readX hd ra) (readX hd rb))

/-- rem (R170). -/
def execRem (rd ra rb : XReg) (s : State) : Host.Outcome State Fault Refusal :=
  .next (scalarResult s [ra, rb] rd 4 fun hd => remainderS (readX hd ra) (readX hd rb))

/-- remn (R170). -/
def execRemn (rd ra rb : XReg) (s : State) : Host.Outcome State Fault Refusal :=
  .next (scalarResult s [ra, rb] rd 4 fun hd => remainderN (readX hd ra) (readX hd rb))

/-! ## Upper immediates (R169) -/

/-- lhi (R169). -/
def execLhi (rd : XReg) (imm : BitVec 20) (s : State) : Host.Outcome State Fault Refusal :=
  .next (scalarResult s [] rd 4 fun _ => upperValue imm)

/-- apc (R169). -/
def execApc (rd : XReg) (imm : BitVec 20) (s : State) : Host.Outcome State Fault Refusal :=
  .next (scalarResult s [] rd 4 fun hd => hd.pc + upperValue imm)

/-! ## Branches and jumps (R171, R172) -/

/-- beq (R171). -/
def execBeq (ra rb : XReg) (off : BitVec 11) (s : State) : Host.Outcome State Fault Refusal :=
  .next (branchIf s [ra, rb] 4 (sext off) fun hd => readX hd ra == readX hd rb)

/-- bne (R171). -/
def execBne (ra rb : XReg) (off : BitVec 11) (s : State) : Host.Outcome State Fault Refusal :=
  .next (branchIf s [ra, rb] 4 (sext off) fun hd => readX hd ra != readX hd rb)

/-- blt (R171). -/
def execBlt (ra rb : XReg) (off : BitVec 11) (s : State) : Host.Outcome State Fault Refusal :=
  .next (branchIf s [ra, rb] 4 (sext off) fun hd => (readX hd ra).slt (readX hd rb))

/-- bge (R171). -/
def execBge (ra rb : XReg) (off : BitVec 11) (s : State) : Host.Outcome State Fault Refusal :=
  .next (branchIf s [ra, rb] 4 (sext off) fun hd => !(readX hd ra).slt (readX hd rb))

/-- bltn (R171). -/
def execBltn (ra rb : XReg) (off : BitVec 11) (s : State) : Host.Outcome State Fault Refusal :=
  .next (branchIf s [ra, rb] 4 (sext off) fun hd => (readX hd ra).ult (readX hd rb))

/-- bgen (R171). -/
def execBgen (ra rb : XReg) (off : BitVec 11) (s : State) : Host.Outcome State Fault Refusal :=
  .next (branchIf s [ra, rb] 4 (sext off) fun hd => !(readX hd ra).ult (readX hd rb))

/-- jal (R172). -/
def execJal (rd : XReg) (imm : BitVec 20) (s : State) : Host.Outcome State Fault Refusal :=
  .next (settledX s s.cur [rd] fun t => modHart t s.cur fun hd =>
    setX (commitAt hd (hd.pc + 2 * sext imm)) rd (hd.pc + 4))

/-- jalr; an odd target is misaligned (R81, R172). -/
def execJalr (rd ra : XReg) (imm : BitVec 11) (s : State) : Host.Outcome State Fault Refusal :=
  .next (settledX s s.cur [rd, ra] fun t =>
    let target := readX (hartOf t s.cur) ra + sext imm
    if bit target 0 then trapScalar t s.cur 3 target
    else modHart t s.cur fun hd => setX (commitAt hd target) rd (hd.pc + 4))

/-! ## Loads and stores (R173) -/

/-- ldb (R173). -/
def execLdb (rd ra : XReg) (imm : BitVec 11) (s : State) : Host.Outcome State Fault Refusal :=
  .next (scalarLoad s rd ra imm.toInt 1 4 (signed 1 ·))

/-- ldh (R173). -/
def execLdh (rd ra : XReg) (imm : BitVec 11) (s : State) : Host.Outcome State Fault Refusal :=
  .next (scalarLoad s rd ra imm.toInt 2 4 (signed 2 ·))

/-- ldw (R173). -/
def execLdw (rd ra : XReg) (imm : BitVec 11) (s : State) : Host.Outcome State Fault Refusal :=
  .next (scalarLoad s rd ra imm.toInt 4 4 (signed 4 ·))

/-- ldd (R173). -/
def execLdd (rd ra : XReg) (imm : BitVec 11) (s : State) : Host.Outcome State Fault Refusal :=
  .next (scalarLoad s rd ra imm.toInt 8 4 word)

/-- ldbn (R173). -/
def execLdbn (rd ra : XReg) (imm : BitVec 11) (s : State) : Host.Outcome State Fault Refusal :=
  .next (scalarLoad s rd ra imm.toInt 1 4 word)

/-- ldhn (R173). -/
def execLdhn (rd ra : XReg) (imm : BitVec 11) (s : State) : Host.Outcome State Fault Refusal :=
  .next (scalarLoad s rd ra imm.toInt 2 4 word)

/-- ldwn (R173). -/
def execLdwn (rd ra : XReg) (imm : BitVec 11) (s : State) : Host.Outcome State Fault Refusal :=
  .next (scalarLoad s rd ra imm.toInt 4 4 word)

/-- stb (R173). -/
def execStb (rb ra : XReg) (imm : BitVec 11) (s : State) : Host.Outcome State Fault Refusal :=
  .next (scalarStore s rb ra imm.toInt 1 4)

/-- sth (R173). -/
def execSth (rb ra : XReg) (imm : BitVec 11) (s : State) : Host.Outcome State Fault Refusal :=
  .next (scalarStore s rb ra imm.toInt 2 4)

/-- stw (R173). -/
def execStw (rb ra : XReg) (imm : BitVec 11) (s : State) : Host.Outcome State Fault Refusal :=
  .next (scalarStore s rb ra imm.toInt 4 4)

/-- std (R173). -/
def execStd (rb ra : XReg) (imm : BitVec 11) (s : State) : Host.Outcome State Fault Refusal :=
  .next (scalarStore s rb ra imm.toInt 8 4)

/-! ## Atomics (R176) -/

/-- amoadd (R176). -/
def execAmoadd (rd ra rb : XReg) (sc : Scope) (ord : Order) (s : State) : Host.Outcome State Fault Refusal :=
  .next (scalarAtomic s rd ra rb sc ord fun hd old => some ((old + (readX hd rb).toNat) % 2 ^ 64))

/-- amoswap (R176). -/
def execAmoswap (rd ra rb : XReg) (sc : Scope) (ord : Order) (s : State) : Host.Outcome State Fault Refusal :=
  .next (scalarAtomic s rd ra rb sc ord fun hd _ => some (readX hd rb).toNat)

/-- amocas (R176). -/
def execAmocas (rd ra rb : XReg) (sc : Scope) (ord : Order) (s : State) : Host.Outcome State Fault Refusal :=
  .next (scalarAtomic s rd ra rb sc ord fun hd old => if old = (readX hd rd).toNat then some (readX hd rb).toNat else none)

/-- amomax (R176). -/
def execAmomax (rd ra rb : XReg) (sc : Scope) (ord : Order) (s : State) : Host.Outcome State Fault Refusal :=
  .next (scalarAtomic s rd ra rb sc ord fun hd old => some (if signedLt old (readX hd rb).toNat then (readX hd rb).toNat else old))

/-- amomin (R176). -/
def execAmomin (rd ra rb : XReg) (sc : Scope) (ord : Order) (s : State) : Host.Outcome State Fault Refusal :=
  .next (scalarAtomic s rd ra rb sc ord fun hd old => some (if signedLt (readX hd rb).toNat old then (readX hd rb).toNat else old))

/-- amoand (R176). -/
def execAmoand (rd ra rb : XReg) (sc : Scope) (ord : Order) (s : State) : Host.Outcome State Fault Refusal :=
  .next (scalarAtomic s rd ra rb sc ord fun hd old => some (old &&& (readX hd rb).toNat))

/-- amoor (R176). -/
def execAmoor (rd ra rb : XReg) (sc : Scope) (ord : Order) (s : State) : Host.Outcome State Fault Refusal :=
  .next (scalarAtomic s rd ra rb sc ord fun hd old => some (old ||| (readX hd rb).toNat))

/-! ## CSR access (R178) -/

/-- csrr (R178). -/
def execCsrr (rd : XReg) (csr : BitVec 11) (s : State) : Host.Outcome State Fault Refusal :=
  .next (csrOp s (.csrr rd csr) rd 0 csr none)

/-- csrw (R178). -/
def execCsrw (rd ra : XReg) (csr : BitVec 11) (s : State) : Host.Outcome State Fault Refusal :=
  .next (csrOp s (.csrw rd ra csr) rd ra csr (some fun _ x => x))

/-- csrs (R178). -/
def execCsrs (rd ra : XReg) (csr : BitVec 11) (s : State) : Host.Outcome State Fault Refusal :=
  .next (csrOp s (.csrs rd ra csr) rd ra csr (some fun old x => old ||| x))

/-- csrc (R178). -/
def execCsrc (rd ra : XReg) (csr : BitVec 11) (s : State) : Host.Outcome State Fault Refusal :=
  .next (csrOp s (.csrc rd ra csr) rd ra csr (some fun old x => old &&& ~~~x))

/-! ## Vector configuration (R188) -/

/-- setvli (R188). -/
def execSetvli (rd ra : XReg) (vt : BitVec 14) (s : State) : Host.Outcome State Fault Refusal :=
  .next (settledX s s.cur [rd, ra] fun t => modHart t s.cur fun hd => setvlHart hd rd ra (vt.setWidth 64))

/-- setvl (R188). -/
def execSetvl (rd ra rb : XReg) (s : State) : Host.Outcome State Fault Refusal :=
  .next (settledX s s.cur [rd, ra, rb] fun t => modHart t s.cur fun hd => setvlHart hd rd ra (readX hd rb))

/-! ## Compact forms (R179) -/

/-- c.add behaves as add xd, xi, xs (R179). -/
def execCAdd (rd rs : XReg) (s : State) : Host.Outcome State Fault Refusal :=
  .next (scalarResult s [impliedReg s, rs] rd 2 fun hd => readX hd (impliedReg s) + readX hd rs)

/-- c.sub behaves as sub xd, xi, xs (R179). -/
def execCSub (rd rs : XReg) (s : State) : Host.Outcome State Fault Refusal :=
  .next (scalarResult s [impliedReg s, rs] rd 2 fun hd => readX hd (impliedReg s) - readX hd rs)

/-- c.and behaves as and xd, xi, xs (R179). -/
def execCAnd (rd rs : XReg) (s : State) : Host.Outcome State Fault Refusal :=
  .next (scalarResult s [impliedReg s, rs] rd 2 fun hd => readX hd (impliedReg s) &&& readX hd rs)

/-- c.or behaves as or xd, xi, xs (R179). -/
def execCOr (rd rs : XReg) (s : State) : Host.Outcome State Fault Refusal :=
  .next (scalarResult s [impliedReg s, rs] rd 2 fun hd => readX hd (impliedReg s) ||| readX hd rs)

/-- c.xor behaves as xor xd, xi, xs (R179). -/
def execCXor (rd rs : XReg) (s : State) : Host.Outcome State Fault Refusal :=
  .next (scalarResult s [impliedReg s, rs] rd 2 fun hd => readX hd (impliedReg s) ^^^ readX hd rs)

/-- c.mv behaves as add xd, xi, x0 (R179). -/
def execCMv (rd : XReg) (s : State) : Host.Outcome State Fault Refusal :=
  .next (scalarResult s [impliedReg s] rd 2 fun hd => readX hd (impliedReg s))

/-- c.addi behaves as addi xd, xi, imm (R179). -/
def execCAddi (rd : XReg) (imm : BitVec 6) (s : State) : Host.Outcome State Fault Refusal :=
  .next (scalarResult s [impliedReg s] rd 2 fun hd => readX hd (impliedReg s) + sext imm)

/-- c.shli behaves as shli xd, xi, imm (R179). -/
def execCShli (rd : XReg) (imm : BitVec 6) (s : State) : Host.Outcome State Fault Refusal :=
  .next (scalarResult s [impliedReg s] rd 2 fun hd => readX hd (impliedReg s) <<< imm.toNat)

/-- c.ld behaves as ldd xd, 8 × imm(xi) (R179). -/
def execCLd (rd : XReg) (imm : BitVec 6) (s : State) : Host.Outcome State Fault Refusal :=
  .next (scalarLoad s rd (impliedReg s) (8 * imm.toNat : Nat) 8 2 word)

/-- c.st behaves as std xs, 8 × imm(xi) (R179). -/
def execCSt (rs : XReg) (imm : BitVec 6) (s : State) : Host.Outcome State Fault Refusal :=
  .next (scalarStore s rs (impliedReg s) (8 * imm.toNat : Nat) 8 2)

/-- c.beqz behaves as beq xi, x0 (R179). -/
def execCBeqz (off : BitVec 11) (s : State) : Host.Outcome State Fault Refusal :=
  .next (branchIf s [impliedReg s] 2 (sext off) fun hd => readX hd (impliedReg s) == 0)

/-- c.bnez behaves as bne xi, x0 (R179). -/
def execCBnez (off : BitVec 11) (s : State) : Host.Outcome State Fault Refusal :=
  .next (branchIf s [impliedReg s] 2 (sext off) fun hd => readX hd (impliedReg s) != 0)

/-- c.j (R179). -/
def execCJ (off : BitVec 11) (s : State) : Host.Outcome State Fault Refusal :=
  .next (branchIf s [] 2 (sext off) fun _ => true)

end Machine

end Sys2Proof
end

