-- ==== Sys2Proof/Machine/Sync.lean ====
section
/-! DEFINITION. Fences, waits, the farm barrier, the trigger and the end of a hart (R276 to R286, R429 to R433, R62 to R65,
R360, R369, R370), and the steps by which accesses are performed (R269 to R275, R321, R323). -/

namespace Sys2Proof

namespace Machine

/-! ## The trigger (R63, R64, R369) -/

/-- A farm whose harts have all triggered or ended triggers: its completion word receives count 1 (R64, R360). -/
def triggerFarm (s : State) (n : BitVec 32) : State :=
  match farmOf s n with
  | none => s
  | some f =>
    if !f.triggered && f.members.all (fun m => m.triggered || m.ended) then
      let s := writeDone (modFarm s n fun f => { f with triggered := true }) f.launch (doneWord 0 0 false 1)
      decide! s f.launch.part
    else s

/-- Everything that a pending trigger waits for has been performed or acknowledged (R369). -/
def triggerReady (m : Mem) (h : HartId) (tags : Nat) : Bool :=
  m.flight.all (fun a => a.hart != h || tags ≤ a.tag) && m.posted.all (fun p => p.hart != h || tags ≤ p.tag)
    && m.counters.all (fun c => c.hart != h || tags ≤ c.tag)

/-- The pending trigger of a hart takes effect when it can, as a release at system scope (R281, R283). -/
def settleTrigger (s : State) (h : HartId) : State :=
  match (hartOf s h).trigger with
  | .pending tags =>
    if triggerReady s.mem h tags then
      let s := { s with mem := releaseAt s.dev s.mem h (fun _ => false) (scopeLevel .system) }
      let s := modHart s h fun hd => { hd with trigger := .done }
      triggerFarm (modMember s h fun m => { m with triggered := true }) (hartOf s h).farmid
    else s
  | _ => s

/-- The pending triggers of all placed harts take effect when they can. -/
def settleTriggers (s : State) : State := (s.sched.farms.flatMap farmHarts).foldl settleTrigger s

/-! ## The farm barrier (R431 to R433) -/

/-- A hart leaves the barrier, and its accesses after it begin (R286). -/
def leaveBarrier (s : State) (h : HartId) : State :=
  if (hartOf s h).run = .waiting .fbar then modHart (forgetAll s h) h fun hd => { commit hd 4 with run := .running } else s

/-- The barrier instance of a farm completes when its arrivals and its ended harts reach F (R432). -/
def settleBarrier (s : State) (n : BitVec 32) : State :=
  match farmOf s n with
  | none => s
  | some f =>
    let ended := (f.members.filter (·.ended)).length
    if 0 < f.arrivals && f.members.length ≤ f.arrivals + ended then
      let s := (farmHarts f).foldl leaveBarrier s
      modFarm s n fun f => { f with barrier := f.barrier + 1, arrivals := 0,
                                    members := f.members.map fun m => { m with arrived := false } }
    else s

/-! ## Fences (R276 to R280) -/

/-- Whether a path is in a mask (R85). -/
def inMask (mask : BitVec 6) (p : Path) : Bool :=
  match p with
  | .V => bit mask 0
  | .C => bit mask 1
  | .N => bit mask 2
  | .F => bit mask 3
  | .L => bit mask 4
  | .H => bit mask 5

/-- The older accesses of a hart on some paths performed at a scope, its posted reductions acknowledged and its copies'
counters raised (R277 to R280). -/
def performPaths (s : State) (h : HartId) (p : Path → Bool) (sc : Scope) : State :=
  let s := if p .V || p .L || p .H then settlePosted s h else s
  let s := if p .C then finishCopies s (s.mem.counters.filter fun c => c.hart == h) else s
  { s with mem := performAt s.dev s.mem h (fun a => p a.path) sc }

/-- A copy of a hart that is about to raise its counter finds the word poisoned (R394). -/
def poisoning (s : State) (h : HartId) (p : Path → Bool) : Bool :=
  p .C && s.mem.counters.any fun c => c.hart == h && !copyLost s.dev s.mem c && (counterPoison s c).isSome

/-- A hart has a write or a copy on some paths that no longer reaches memory and is not yet reported (R21, R270). -/
def losing (d : Device) (m : Mem) (h : HartId) (p : Path → Bool) : Bool :=
  anyLost d m h (fun a => p a.path) || p .C && m.counters.any fun c => c.hart == h && copyLost d m c

/-- What follows once accesses of a hart on some paths have been performed, unless that ended its farm; while one of them is
lost and not yet reported, the hart waits. Where a copy met a poisoned counter word, the hart takes the machine check that it
has latched first; in privileged mode it ends the farm (R383, R393, R394). -/
def performThen (s : State) (h : HartId) (p : Path → Bool) (sc : Scope) (k : State → State) : State :=
  let t := settleTrigger (performPaths s h p sc) h
  let poisoned := poisoning s h p
  let t := if poisoned && (hartOf s h).priv then endFarm t (hartOf s h).farmid else t
  if farmGone s t h || losing t.dev t.mem h p || poisoned then t else k t

/-- The same for every path, as a release: what the hart has observed of other harts is performed too (R283). -/
def releaseThen (s : State) (h : HartId) (sc : Scope) (k : State → State) : State :=
  performThen s h (fun _ => true) sc fun t => k { t with mem := releaseAt t.dev t.mem h (fun _ => false) (scopeLevel sc) }

/-- A fence: the queue drains for the accesses on the paths ordered before it, they are performed, and the accesses on the paths
ordered after it begin (R277, R356). -/
def fenceOf (s : State) (before after : Path → Bool) (sc : Scope) : State :=
  settledPaths s s.cur before fun t => performThen t s.cur before sc fun t =>
    modHart (forgetPaths t s.cur after) s.cur (commit · 4)

/-- fence (R278). -/
def execFence (sc : Scope) (s : State) : Host.Outcome State Fault Refusal :=
  .next (fenceOf s (fun _ => true) (fun _ => true) sc)

/-- fence.x: the before mask says what is performed; every younger access but one that has been performed early begins after it
in any case (R279). -/
def execFenceX (before after : BitVec 6) (sc : Scope) (s : State) : Host.Outcome State Fault Refusal :=
  if before = 0 || after = 0 then .next (trapIllegal s s.cur (.fenceX before after sc))
  else .next (fenceOf s (inMask before) (inMask after) sc)

/-! ## cwait (R429, R430) -/

/-- One read of a cwait: it returns when the word has reached the bound, and is then an acquire, and otherwise the hart waits.
It reads the word as it is now. However often it reads, a cwait is one access on its path (R287). -/
def cwaitRead (s : State) (h : HartId) (first : Bool) (rd ra rb : XReg) (sc : Scope) : State :=
  let hd := hartOf s h
  let a := scalarAddr hd ra 0
  match placeLoad s h a 8 with
  | (.error f, s) => trapAccess s h f a
  | (.ok ps, s) =>
    let v := leValue (readPieces s h ps)
    let s := if first then countRemote s h ps else s
    let s := forgetPieces s h ps
    if (readX hd rb).toNat ≤ v then
      let s := acquirePieces s h ps
      modHart s h fun hd => { setX (commit hd 4) rd (word v) with run := .running }
    else modHart s h fun hd => { hd with run := .waiting (.cwait rd ra rb sc) }

/-- cwait. -/
def execCwait (rd ra rb : XReg) (sc : Scope) (s : State) : Host.Outcome State Fault Refusal :=
  .next (settledAccess s s.cur [rd, ra, rb] false 8 (scalarAddr · ra 0) fun t => cwaitRead t s.cur true rd ra rb sc)

/-- A write to the word of a waiting cwait has been performed: the hart reads it again. -/
def execCwaitWake (h : Nat) (s : State) : Host.Outcome State Fault Refusal :=
  if hh : h < 512 then
    let h : HartId := ⟨h, hh⟩
    match (hartOf s h).run with
    | .waiting (.cwait rd ra rb sc) => .next (cwaitRead s h false rd ra rb sc)
    | _ => .next s
  else .next s

/-! ## fbar (R286, R431) -/

/-- fbar: what the hart has issued is performed, and it arrives. -/
def execFbar (s : State) : Host.Outcome State Fault Refusal :=
  .next (drained s s.cur fun t => releaseThen t s.cur .package fun t =>
    let h := s.cur
    match farmOf t (hartOf t h).farmid with
    | none => modHart t h (commit · 4)
    | some f =>
      let t := modHart t h fun hd => { hd with run := .waiting .fbar }
      let t := modMember t h fun m => { m with arrived := true }
      settleBarrier (modFarm t f.number fun f => { f with arrivals := f.arrivals + 1 }) f.number)

/-! ## trig and end (R62 to R65, R366, R369, R370) -/

/-- trig: the trigger is recorded, and takes effect at once when nothing is outstanding. -/
def execTrig (s : State) : Host.Outcome State Fault Refusal :=
  .next (settledMem s s.cur [] fun t =>
    let t := modHart t s.cur fun hd =>
      { commit hd 4 with trigger := if hd.trigger = .no then .pending t.mem.nextTag else hd.trigger }
    settleTrigger t s.cur)

/-- The farm after the end of one of its harts: it triggers, completes its barrier or completes (R60, R63, R360). -/
def farmAfterEnd (s : State) (n : BitVec 32) : State :=
  let s := settleBarrier (triggerFarm s n) n
  match farmOf s n with
  | none => s
  | some f =>
    if f.members.all (·.ended) then retireFarm s f (doneWord f.flags f.cause false 2) else settlePreempt s n

/-- A hart retired once nothing that it issued is in flight: its flags and cause are handed over (R62, R360). -/
def retireHart (s : State) (h : HartId) : State :=
  let hd := hartOf s h
  let s := modHart s h (commit · 4)
  let s := modFarm s hd.farmid fun f =>
    { f with flags := f.flags ||| hd.csr.vflags.setWidth 12, cause := if hd.cause = 0 then f.cause else hd.cause }
  let s := modMember s h fun m => { m with ended := true, triggered := true, hart := none }
  farmAfterEnd (releaseHart s h) hd.farmid

/-- end: it waits for the hart's tokens, and in a farm that a machine check is ending it ends the farm (R62, R393). -/
def execEndHart (s : State) : Host.Outcome State Fault Refusal :=
  .next (drained s s.cur fun t => releaseThen t s.cur .system fun t =>
    let h := s.cur
    if !(hartOf t h).sends.isEmpty then t
    else match farmOf t (hartOf t h).farmid with
      | none => releaseHart (modHart t h (commit · 4)) h
      | some f => if f.ending then endFarm t f.number else retireHart t h)

/-! ## Accesses performed (R269 to R275) -/

/-- An issued write, or one byte of it, performed at a scope, when it still reaches memory and the writes that must come first
have been performed (R21, R272, R274). -/
def performWrite (s : State) (id byte : Nat) (sc : Scope) : State :=
  match s.mem.flight.find? (fun a => a.id == id) with
  | none => settleTriggers s
  | some a =>
    let level := levelFor sc a.path
    let r := splitByte s.mem a byte
    if mayRaise s.dev r.1 r.2 level then settleTriggers { s with mem := raiseTo r.1 r.2.id level } else s

/-- A word of memory outside the nameless pool that can be read: it reaches memory and no byte of it is poisoned. -/
def wordReads (s : State) (h : HartId) (k : Nat) : Bool :=
  k < Config.poolBase && reaches s.dev false k && (firstPoison s.mem (.hart h (pathOf s.dev false k)) k 8).isNone
    && (firstPoison s.mem (.hart h .C) k 8).isNone

/-- A word read for a hart's coming instructions; a read made ahead of the word before gives way to it (R273). -/
def performRead (s : State) (h : HartId) (word : Nat) : State :=
  let k := 8 * word
  if (hartOf s h).run ≠ .free && wordReads s h k then
    let e : EarlyRead := { hart := h, word, own := readBytes s.mem (.hart h (pathOf s.dev false k)) k 8
                           copied := readBytes s.mem (.hart h .C) k 8 }
    let m := forget s.mem h (· == k)
    { s with mem := { m with early := m.early ++ [e] } }
  else s

/-- An access performed: a write that is on its way, or a read of a coming instruction. -/
def execAccessPerformed (part : PerformedPart) (sc : Scope) (s : State) : Host.Outcome State Fault Refusal :=
  match part with
  | .write id byte => .next (performWrite s id byte sc)
  | .read h word => .next (performRead s h word)

/-- The state without the posted reduction of a tag, once its record is written; a record that cannot be written ends the
farm (R392). -/
def closeRed (s : State) (p : Posted) : State :=
  let s := { s with mem := { s.mem with posted := s.mem.posted.filter fun q => q.tag != p.tag } }
  match reportRed s p with
  | (none, s) => s
  | (some f, s) => failTrapPath s p.hart p.farm f.cause f.bank

/-- The n-th outstanding element of the posted reductions is performed or dropped, and acknowledged; with the last
element of its instruction the record of a failure is written (R321). A reduction before it that has no element left is
recorded first. -/
def performElement (s : State) (n : Nat) : List Posted → State
  | [] => s
  | p :: ps =>
    if p.elems.isEmpty then closeRed s p
    else match p.elems[n]? with
    | none => performElement s (n - p.elems.length) ps
    | some e =>
      let r := performRed s p e
      let p := acked p e r.1
      if p.elems.isEmpty then closeRed r.2 p
      else
        { r.2 with mem := { r.2.mem with posted := r.2.mem.posted.map fun q => if q.tag = p.tag then p else q } }

/-- An element of a posted reduction is performed. -/
def execVsredElementPerform (n : Nat) (s : State) : Host.Outcome State Fault Refusal :=
  .next (settleTriggers (performElement s n s.mem.posted))

/-- The counter of the n-th copy that waits for it is raised, after the copy's bytes (R323); one that is lost stays until it is
reported. -/
def execVcopyCounterIncrement (n : Nat) (s : State) : Host.Outcome State Fault Refusal :=
  match s.mem.counters[n]? with
  | none => .next s
  | some c =>
    let report (n : BankNote) : State := latchCheck (dropCounterWord s c n) c.hart 0 (reportAt c.hart n)
    .next (settleTriggers (if copyLost s.dev s.mem c then s else ((counterPoison s c).map report).getD (finishCopy s c)))

end Machine

end Sys2Proof
end

