-- ==== Sys2Proof/Machine/System.lean ====
section
/-! DEFINITION. Traps by instruction, return, waits for the scheduler, the strip dispenser, launch, cache and translation
maintenance (R357, R361, R366 to R368, R389, R390, R411), clasps (R98 to R100), the scalar core's weight instructions (R230
to R232), and the two traps that no instruction makes (R70, R72, R73). -/

namespace Sys2Proof

namespace Machine

/-! ## sys, brk, eret and idle (R389, R390) -/

/-- A trap that an instruction asks for; in privileged mode it is an illegal instruction (R383, R390). -/
def requestTrap (s : State) (i : Instr) (cause : Nat) (imm : BitVec 11) : State :=
  drained s s.cur fun t =>
    let hd := hartOf t s.cur
    if hd.priv then takeTrap t s.cur (scalarTrap hd 1 (instrBits i))
    else takeTrap t s.cur { scalarTrap hd cause (imm.setWidth 64) with resume := hd.pc + 4 }

/-- sys. -/
def execSys (imm : BitVec 11) (s : State) : Host.Outcome State Fault Refusal := .next (requestTrap s (.sys imm) 16 imm)

/-- brk. -/
def execBrk (imm : BitVec 11) (s : State) : Host.Outcome State Fault Refusal := .next (requestTrap s (.brk imm) 17 imm)

/-- The images of an eret start to run, as far as the hart's lag asks, unless a latched trap comes first (R391). -/
def resumeQueue (s : State) (h : HartId) : State := if (hartOf s h).pendingTrap.isSome then s else runAhead s h

/-- eret. -/
def execEret (s : State) : Host.Outcome State Fault Refusal :=
  if !(hartOf s s.cur).priv then .next (trapIllegal s s.cur .eret)
  else .next (drained s s.cur fun t => resumeQueue (returnFromTrap (modHart t s.cur (commit · 4)) s.cur) s.cur)

/-- idle: the hart stops until it is woken or 1 ms passes, and then goes on after it. -/
def execIdle (s : State) : Host.Outcome State Fault Refusal :=
  if !(hartOf s s.cur).priv then .next (trapIllegal s s.cur .idle)
  else .next (drained s s.cur fun t => modHart t s.cur fun hd => { commit hd 4 with run := .waiting .idle })

/-- A hart that waits at idle goes on. -/
def wakeIdle (s : State) (h : HartId) : State :=
  modHart s h fun hd => if hd.run = .waiting .idle then { hd with run := .running } else hd

/-- 1 ms of an idle has passed. -/
def execIdleTimeout (h : Nat) (s : State) : Host.Outcome State Fault Refusal :=
  if hh : h < 512 then .next (wakeIdle s ⟨h, hh⟩) else .next s

/-! ## yield and strip (R367, R368) -/

/-- yield: a decision is due, at which the farm is pre-emptible; the hart waits for it. -/
def execYield (s : State) : Host.Outcome State Fault Refusal :=
  let h := s.cur
  let t := modHart s h fun hd => { commit hd 4 with run := .waiting .yield }
  match farmOf t (hartOf t h).farmid with
  | none => .next t
  | some f => .next (decide! (modFarm t f.number fun f => { f with yielded := true }) f.launch.part)

/-- strip: the next index of the farm's dispenser, or all ones. -/
def execStrip (rd : XReg) (s : State) : Host.Outcome State Fault Refusal :=
  .next (settledX s s.cur [rd] fun t =>
    let h := s.cur
    let n := (hartOf t h).farmid
    match farmOf t n with
    | none => modHart t h fun hd => setX (commit hd 4) rd (BitVec.allOnes 64)
    | some f =>
      if f.next < f.launch.record.strips.toNat then
        modHart (modFarm t n fun f => { f with next := f.next + 1 }) h fun hd => setX (commit hd 4) rd (word f.next)
      else modHart t h fun hd => setX (commit hd 4) rd (BitVec.allOnes 64))

/-! ## launch (R358, R361) -/

/-- The record in 64 bytes (R358). -/
def recordOf (bs : List Byte) : LaunchRecord :=
  { entry := word (fieldAt bs 0 8), args := word (fieldAt bs 8 8), dep := word (fieldAt bs 16 8),
    bound := word (fieldAt bs 24 8), done := word (fieldAt bs 32 8), strips := BitVec.ofNat 32 (fieldAt bs 40 4),
    farm := BitVec.ofNat 16 (fieldAt bs 44 2), prio := BitVec.ofNat 8 (fieldAt bs 46 1),
    ctx := BitVec.ofNat 16 (fieldAt bs 48 2) }

/-- A record that launch accepts by its own fields (R361). -/
def recordOk (bs : List Byte) : Bool :=
  let r := recordOf bs
  fieldAt bs 47 1 == 0 && (bs.drop 50).all (· == 0) && getBits r.prio 3 5 == 0 && !bit r.entry 0 && r.done != 0
    && getBits r.done 0 3 == 0

/-- The records that wait in a partition's launch queue. -/
def queuedIn (s : State) (part : BitVec 10) : Nat := (s.sched.launches.filter fun l => l.part == part).length

/-- A record appended to the launch queue, with its completion word cleared and a decision due (R361, R362). -/
def acceptLaunch (s : State) (r : LaunchRecord) (ctx : BitVec 16) (done : Nat) (dep : Option Nat) : State :=
  let part := ctxPart (ctxImage s ctx.toNat)
  let l : Launch := { record := r, ctx, part, done, dep, depExpert := windowOf r.dep.toNat == .expert
                      order := s.sched.accepted, eff := getBits r.prio 0 3, passed := 0, sized := false }
  let s := { s with
    mem := commitCells s.mem none (cellsAt done (leBytes 8 0))
    sched := { s.sched with launches := s.sched.launches ++ [l], accepted := s.sched.accepted + 1 } }
  decide! s part

/-- The place of an 8-byte word of a launch, as a store or a load. -/
def wordPlace (s : State) (h : HartId) (k : Kind) (a : Word) : Except Fail Nat × State :=
  if a.toNat % 8 ≠ 0 then (.error ⟨3, a.toNat, none⟩, s)
  else match check s h k a.toNat 8 with
    | (.error f, s) => (.error f, s)
    | (.ok [], s) => (.ok 0, s)
    | (.ok (p :: _), s) => (.ok p.key, s)

/-- The place of the dependence word, if the record has one. -/
def depPlace (s : State) (h : HartId) (dep : Word) : Except Fail (Option Nat) × State :=
  if dep = 0 then (.ok none, s)
  else match wordPlace s h .locate dep with
    | (.error f, s) => (.error f, s)
    | (.ok k, s) => (.ok (some k), s)

/-- A launch record that has been read (R361). -/
def submitRecord (s : State) (h : HartId) (rd : XReg) (bs : List Byte) : State :=
  let hd := hartOf s h
  let r := recordOf bs
  let answer (s : State) (v : Word) : State := modHart s h fun hd => setX (commit hd 4) rd v
  let fault (s : State) (f : Fail) : State := trapAccess s h f f.value
  if !recordOk bs then answer s 2
  else if (r.ctx != 0 && r.ctx != hd.ctxid) || !ctxValid (ctxImage s hd.ctxid.toNat) then answer s 3
  else match wordPlace s h .store r.done with
    | (.error f, s) => fault s f
    | (.ok done, s) => match depPlace s h r.dep with
      | (.error f, s) => fault s f
      | (.ok dep, s) =>
        if 4096 ≤ queuedIn s (ctxPart (ctxImage s hd.ctxid.toNat)) then answer s 1
        else answer (acceptLaunch s r hd.ctxid done dep) 0

/-- launch. -/
def execLaunch (rd ra : XReg) (s : State) : Host.Outcome State Fault Refusal :=
  .next (settledMem s s.cur [rd, ra] fun t => releaseThen t s.cur .system fun t =>
    let h := s.cur
    let a := scalarAddr (hartOf t h) ra 0
    match readAt t h a 64 with
    | (.error f, t) => trapAccess t h f f.value
    | (.ok bs, t) => submitRecord t h rd bs)

/-! ## icinv and tlbinv (R357, R411) -/

/-- The instruction cache without the lines that hold a byte of a range; all of it when the range passes 2^64. -/
def dropLines (c : List (Nat × Option Byte)) (a n : Nat) : List (Nat × Option Byte) :=
  if n = 0 then c
  else if 2 ^ 64 < a + n then []
  else c.filter fun p =>
    let line := p.1 / Config.icacheLine * Config.icacheLine
    !(line < a + n && a < line + Config.icacheLine)

/-- icinv. -/
def execIcinv (ra rb : XReg) (s : State) : Host.Outcome State Fault Refusal :=
  .next (settledX s s.cur [ra, rb] fun t => modHart t s.cur fun hd =>
    commit { hd with icache := dropLines hd.icache (readX hd ra).toNat (readX hd rb).toNat } 4)

/-- Whether a cached translation is of a page that a tlbinv of a context names (R409, R411). -/
def tlbNamed (ctx : BitVec 16) (part : BitVec 10) (a n : Nat) (e : TlbEntry) : Bool :=
  let va := if e.va < 2 ^ 56 then e.va else e.va + (2 ^ 64 - 2 ^ 57)
  (e.ctx == ctx || (bit e.pte 5 && e.part == part))
    && (n == 0 || 2 ^ 64 < a + n || (va < a + n && a < va + e.size))

/-- The named translations removed from every TLB of the package, and the context's pointer entries from every walk cache. -/
def dropTranslations (s : State) (ctx : BitVec 16) (a n : Nat) : State :=
  let part := ctxPart (ctxImage s ctx.toNat)
  let keep (t : List TlbEntry) : List TlbEntry := t.filter fun e => !tlbNamed ctx part a n e
  { s with harts := s.harts.map fun hd => { hd with tlb := hd.tlb.map keep, tlb2 := keep hd.tlb2 }
           walks := s.walks.map (·.filter fun w => w.ctx != ctx) }

/-- Every issued write of the package performed at a scope, and every copy's counter raised. -/
def performAll (s : State) (sc : Scope) : State :=
  let s := finishCopies s s.mem.counters
  { s with mem := performWant s.dev s.mem fun _ => scopeLevel sc }

/-- An issued write or a copy of the package is lost and not yet reported. -/
def someLost (s : State) : Bool :=
  s.mem.flight.any (lost s.dev) || s.mem.counters.any (copyLost s.dev s.mem)

/-- tlbinv; it waits while an access of the package is lost and not yet reported. -/
def execTlbinv (ra rb : XReg) (s : State) : Host.Outcome State Fault Refusal :=
  if !(hartOf s s.cur).priv then .next (trapIllegal s s.cur (.tlbinv ra rb))
  else .next (settledMem s s.cur [ra, rb] fun t => performThen t s.cur (fun _ => true) .package fun t =>
    let hd := hartOf t s.cur
    if someLost t then t
    else
      modHart (performAll (dropTranslations t hd.ctxid (readX hd ra).toNat (readX hd rb).toNat) .package) s.cur (commit · 4))

/-! ## Clasps (R98 to R100) -/

/-- The trap of a convoy that cannot be posted (R72, R99). -/
def claspTrap (hd : Hart) (bits : Nat) : ClaspEnd → TrapInfo
  | .badConvoy k => scalarTrap hd 2 (word (bits + k * 2 ^ 32))
  | .illegal pc w => { scalarTrap hd 1 w with epc := word pc, resume := word pc }
  | .fetchFault c a => fetchTrap hd c a
  | .members _ => scalarTrap hd 2 0

/-- clasp: a legal convoy is posted whole, once no older entry will write a scalar register that it names and the queue has
room for it. -/
def execClasp (count : BitVec 3) (slots : Slots) (s : State) : Host.Outcome State Fault Refusal :=
  let h := s.cur
  match checkClasp s h (hartOf s h).pc.toNat count slots with
  | (.members is, t) =>
    .next (settledX t h (is.flatMap postRegs) fun t =>
      if Config.queueDepth < (hartOf t h).queue.length + is.length then waitQueue t h
      else runAhead (modHart t h fun hd => postMembers is false (commit hd 4)) h)
  | (r, t) => .next (drained t h fun t => takeTrap t h (claspTrap (hartOf t h) (instrBits (.clasp count slots)).toNat r))

/-- The queue of a hart moves by itself: a farm is placed on the hart, nothing has stopped it, and no latched trap is to be
taken first. -/
def queueMoves (hd : Hart) : Bool :=
  (match hd.run with
    | .free => false
    | .stopped => false
    | _ => true) && !(hd.pendingTrap.isSome && !hd.priv)

/-- The oldest entry of a hart completes, whatever the scalar core does or waits for (R40, R430); a hart that waits for a free
queue entry goes on. -/
def execDispatchQueueResume (h : Nat) (s : State) : Host.Outcome State Fault Refusal :=
  if hh : h < 512 then
    let h : HartId := ⟨h, hh⟩
    if queueMoves (hartOf s h) then
      .next (modHart (runFront s h).2 h fun hd =>
        if hd.run = .waiting .queueFull then { hd with run := .running } else hd)
    else .next s
  else .next s

/-! ## wbr, wsel and wloop (R230 to R232) -/

/-- The checks of a weight instruction that reads a weight group in the scalar core (R209, R210, R224). -/
def weightReadOk (hd : Hart) (wa : WReg) : Bool :=
  let vt := hd.csr.vtype
  !vtIll vt && !etBlock (vtEt vt) && match weightRegs (vtEt vt) (vtGrp vt) (vtBl vt) with
    | some n => weightOk wa.val n
    | none => false

/-- The arm weight register selected. -/
def selectArm (hd : Hart) (wa : WReg) : Hart :=
  { hd with csr := { hd.csr with wctl := word (wa.val + 16 * getBits hd.csr.wctl 4 1) } }

/-- The largest code among the weights below vl exceeds wthr (R230). -/
def anyAbove (hd : Hart) (wa : WReg) : Bool := hd.csr.wthr.toNat < maxCode hd wa hd.csr.vl.toNat

/-- wbr: the arm is skipped, or its weight register selected. -/
def execWbr (wa : WReg) (off : BitVec 22) (rm : Rm) (s : State) : Host.Outcome State Fault Refusal :=
  .next (settledW s s.cur fun t =>
    if !weightReadOk (hartOf t s.cur) wa then trapIllegal t s.cur (.wbr wa off rm)
    else modHart t s.cur fun hd =>
      if anyAbove hd wa then selectArm (commit hd 8) wa else commitAt hd (hd.pc + 2 * sext off))

/-- wsel: it reads no weight and never waits (R231). -/
def execWsel (wa : WReg) (_rm : Rm) (s : State) : Host.Outcome State Fault Refusal :=
  .next (modHart s s.cur fun hd => selectArm (commit hd 8) wa)

/-- A wloop whose entry has completed decides and commits. -/
def decideLoop (s : State) (h : HartId) (wd : WReg) (off : BitVec 22) : State :=
  modHart s h fun hd =>
    let hd := { hd with wloopPending := false, run := .running }
    commitAt hd (if anyAbove hd wd then hd.pc + 2 * sext off else hd.pc + 8)

/-- A pending wloop decides when the queue is empty, and otherwise the hart waits. -/
def awaitLoop (s : State) (h : HartId) (wd : WReg) (off : BitVec 22) : State :=
  if (hartOf s h).queue.isEmpty then decideLoop s h wd off else modHart s h fun hd => { hd with run := .waiting .wloop }

/-- wloop: its entry is posted, unless that was done before a trap or pre-emption, and it decides once the queue is empty
(R232). -/
def execWloop (wd wa : WReg) (off : BitVec 22) (rm : Rm) (s : State) : Host.Outcome State Fault Refusal :=
  let h := s.cur
  let i := Instr.wloop wd wa off rm
  let hd := hartOf s h
  if hd.wloopPending then .next (awaitLoop s h wd off)
  else if Config.queueDepth ≤ hd.queue.length then .next (waitQueue s h)
  else
    let t := modHart s h fun hd => { hd with queue := hd.queue ++ [entryFor hd i false], wloopPending := true }
    match runQueue h hd.lag (hd.queue.length + 1) t with
    | (true, t) => .next (awaitLoop t h wd off)
    | (false, t) => .next t

/-- The queue of a hart that waits at a wloop has drained: the wloop decides. -/
def execWloopDecide (h : Nat) (s : State) : Host.Outcome State Fault Refusal :=
  if hh : h < 512 then
    let h : HartId := ⟨h, hh⟩
    if (hartOf s h).run = .waiting .wloop then
      .next (drained s h fun t =>
        match fetch t h with
        | (.instr (.wloop wd _ off _) _ _, t) => decideLoop t h wd off
        | (_, t) => modHart t h fun hd => { hd with run := .running })
    else .next s
  else .next s

/-! ## Traps that no instruction makes (R70, R72, R73) -/

/-- A bit pattern that is no instruction. -/
def execIllegalInstruction (bits : BitVec 64) (s : State) : Host.Outcome State Fault Refusal :=
  .next (trapScalar s s.cur 1 bits)

/-- A fetch that fails; evalue is the address of the first parcel that failed. -/
def execInstructionFetchFault (cause : Nat) (addr : BitVec 64) (s : State) : Host.Outcome State Fault Refusal :=
  .next (drained s s.cur fun t => takeTrap t s.cur (fetchTrap (hartOf t s.cur) cause addr))

end Machine

end Sys2Proof
end

