-- ==== Sys2Proof/Machine/Expert.lean ====
section
/-! DEFINITION. Experts: binding and unpinning (R416, R417), the residency table's entries (R420), fetches and evictions
(R418). -/

namespace Sys2Proof

namespace Machine

/-! ## Frames and evictions (R418) -/

/-- The arena frames that an expert needs. -/
def framesFor (size : BitVec 32) : Nat := ceilDiv size.toNat 512

/-- The ERT entries in use, by index. -/
def ertEntries (s : State) : List (Nat × ErtEntry) :=
  s.sched.ert.filterMap fun p => p.2.map fun e => (p.1, e)

/-- The arena frames that no entry holds, ascending. -/
def freeFrames (s : State) : List Nat :=
  let held := (ertEntries s).flatMap (·.2.frames)
  (List.range (arenaFrames s.dev)).filter fun f => !held.contains f

/-- An entry evicted: absent, its frames freed. -/
def evictEntry (s : State) (i : Nat) : State :=
  match ertAt s i with
  | some e => setErt s i (some { e with state := .absent, frames := [] })
  | none => s

/-- A list in ascending order of a key, equal keys in their order. -/
def insertBy {α : Type} (key : α → Nat) (a : α) : List α → List α
  | [] => [a]
  | b :: bs => if key b ≤ key a then b :: insertBy key a bs else a :: b :: bs

/-- See `insertBy`. -/
def sortBy {α : Type} (key : α → Nat) (l : List α) : List α := l.foldl (fun acc a => insertBy key a acc) []

/-- The resident entries without pins, in ascending order of last and then of index. -/
def evictable (s : State) : List (Nat × ErtEntry) :=
  sortBy (fun p => p.2.last.toNat) ((ertEntries s).filter fun p => p.2.state == .resident && p.2.pins == 0)

/-- The entries evicted until enough frames are free, or none when all together would not reach it. -/
def chooseEvictions (free need : Nat) : List (Nat × ErtEntry) → Option (List Nat)
  | [] => if need ≤ free then some [] else none
  | p :: ps =>
    if need ≤ free then some []
    else (chooseEvictions (free + p.2.frames.length) need ps).map (p.1 :: ·)

/-- A fetch at the head of the queue may be admitted: this step is due after every change of the count (R418). -/
def admitDue (s : State) : State := { s with agenda := s.agenda ++ [.event .fetchAdmit] }

/-- The head fetch admitted on one of the four streams. -/
def execFetchAdmit (s : State) : Host.Outcome State Fault Refusal :=
  match s.sched.fetchQueue with
  | [] => .next s
  | i :: rest =>
    if 4 ≤ s.sched.fetching.length then .next s
    else match ertAt s i with
      | none => .next { s with sched := { s.sched with fetchQueue := rest } }
      | some e =>
        let need := framesFor e.size
        match chooseEvictions (freeFrames s).length need (evictable s) with
        | none => .next s
        | some victims =>
          let s := victims.foldl evictEntry s
          let s := setErt s i (some { e with frames := (freeFrames s).take need })
          .next (admitDue { s with sched := { s.sched with fetchQueue := rest, fetching := s.sched.fetching ++ [i] } })

/-- Where page p of an expert lies in the arena, as a key. -/
def frameKey (d : Device) (frames : List Nat) (p : Nat) : Nat :=
  d.pkg.toNat * 2 ^ 45 + arenaBase d + frames.getD (p / 512) 0 * 2 ^ 21 + p % 512 * 4096

/-- A page of memory copied to another, byte for byte. -/
def copyPage (cells : List Host.Cell) (src dst : Nat) : List Host.Cell :=
  let page := cells.filter fun c => src ≤ c.1 && c.1 < src + 4096
  storeCells (cells.filter fun c => !(dst ≤ c.1 && c.1 < dst + 4096)) (page.map fun c => (c.1 - src + dst, c.2))

/-- An expert's pages copied from the far tier into its frames, as the package sees them (R292). -/
def fetchPages (s : State) (e : ErtEntry) : State :=
  let s := { s with mem := performWant s.dev s.mem fun a => if 3 ≤ a.level then 5 else 0 }
  let src := s.dev.pkg.toNat * 2 ^ 45 + e.far.toNat
  let pages := List.range e.size.toNat
  let cells := pages.foldl (fun c p => copyPage c (src + 4096 * p) (frameKey s.dev e.frames p)) s.mem.cells
  let clean (l : Nat) : Bool := pages.any fun p => lineOf (frameKey s.dev e.frames p) ≤ l
    && l < lineOf (frameKey s.dev e.frames p + 4096)
  { s with mem := { s.mem with cells, poison := s.mem.poison.filter fun l => !clean l
                               healing := s.mem.healing.filter fun p => !clean (lineOf p.2) } }

/-- A ticket made ready, with its pin, when tokens are parked under it and it holds none yet (R372, R415). -/
def readyTicket (s : State) (ctx : BitVec 16) (i : Nat) : State :=
  match ertAt s i with
  | none => s
  | some e =>
    let t := ticketOf i e.gen
    if parkedUnder s ctx t && !s.sched.ticketPins.contains (ctx, t) then
      let s := setErt s i (some { e with pins := raisePins e.pins })
      { s with sched := { s.sched with
        ready := s.sched.ready ++ [(ctx, t)], ticketPins := s.sched.ticketPins ++ [(ctx, t)] } }
    else s

/-- The first place that a fetch cannot read in the far tier or write in the arena (R21, R22). -/
def fetchUnreached (s : State) (e : ErtEntry) : Option Nat :=
  (List.range e.size.toNat).findSome? fun p =>
    let far := s.dev.pkg.toNat * 2 ^ 45 + e.far.toNat + 4096 * p
    if !reaches s.dev false far then some far
    else if !reaches s.dev true (frameKey s.dev e.frames p) then some (frameKey s.dev e.frames p)
    else none

/-- A running fetch completes: the expert is resident and its ticket ready. A fetch that cannot reach its far tier or its
frames is recorded in bank 61 and does not complete (R21, R421). -/
def execFetchComplete (entry : Nat) (s : State) : Host.Outcome State Fault Refusal :=
  if !s.sched.fetching.contains entry then .next s
  else match ertAt s entry with
    | none => .next s
    | some e =>
      match fetchUnreached s e with
      | some k => .next (recordUnreachable s 61 0 0 k)
      | none =>
        let s := setErt (fetchPages s e) entry (some { e with state := .resident })
        let s := { s with sched := { s.sched with fetching := s.sched.fetching.filter (· != entry) } }
        .next (admitDue (readyTicket s e.ctx entry))

/-! ## Pins of a farm (R416, R417) -/

/-- The pins that a farm holds on a key. -/
def farmPins (f : Farm) (key : Nat) : Nat := tget 0 f.pins key

/-- The farm's pin list has room for a key. -/
def pinRoom (f : Farm) (key : Nat) : Bool := farmPins f key != 0 || f.pins.length < 256

/-- A pin taken on an entry for a farm, at the present time (R415). -/
def takePin (s : State) (n : BitVec 32) (i : Nat) (e : ErtEntry) : State :=
  let s := setErt s i (some { e with pins := raisePins e.pins, last := s.time })
  modFarm s n fun f => { f with pins := tset 0 f.pins e.key.toNat (farmPins f e.key.toNat + 1) }

/-- Whether a pin may be taken for a hart's farm. -/
def mayPin (s : State) (h : HartId) (key : Nat) : Bool :=
  (farmOf s (hartOf s h).farmid).all fun f => pinRoom f key

/-- xbind: a base with a pin, or the ticket of a fetch. -/
def execXbind (rd ra : XReg) (s : State) : Host.Outcome State Fault Refusal :=
  .next (settledX s s.cur [rd, ra] fun t =>
    let h := s.cur
    let hd := hartOf t h
    let key := (readX hd ra).setWidth 32
    let give (t : State) (v : Word) (event : Nat) : State :=
      modHart t h fun hd => count (setX (commit hd 4) rd v) event 1
    if earlyService t then trapScalar t h 13 (key.setWidth 64)
    else match ertFind t hd.ctxid key with
      | none => trapScalar t h 13 (key.setWidth 64)
      | some (i, e) => match e.state with
        | .resident =>
          if mayPin t h key.toNat then give (takePin t hd.farmid i e) e.base 20
          else trapIllegal t h (.xbind rd ra)
        | .fetching => give t (ticketOf i e.gen) 19
        | _ =>
          let e := { e with gen := e.gen + 1, state := .fetching }
          let t := setErt t i (some e)
          let t := { t with sched := { t.sched with fetchQueue := t.sched.fetchQueue ++ [i] } }
          give (admitDue t) (ticketOf i e.gen) 19)

/-- xunpin: one pin of the farm dropped. -/
def execXunpin (ra : XReg) (s : State) : Host.Outcome State Fault Refusal :=
  .next (settledX s s.cur [ra] fun t =>
    let h := s.cur
    let hd := hartOf t h
    let key := (readX hd ra).setWidth 32
    let held := (farmOf t hd.farmid).elim 0 fun f => farmPins f key.toNat
    if held = 0 then trapScalar t h 13 (key.setWidth 64)
    else
      let t := modFarm t hd.farmid fun f => { f with pins := tset 0 f.pins key.toNat (farmPins f key.toNat - 1) }
      let t := dropPins t hd.ctxid [(key.toNat, 1)]
      modHart (admitDue t) h (commit · 4))

/-! ## ertw (R413, R420) -/

/-- The entry is unused or of the context, and not fetching, evicting or pinned. -/
def ertWritable (ctx : BitVec 16) : Option ErtEntry → Bool
  | none => true
  | some e => (e.ctx == 0 || e.ctx == ctx) && (e.state == .absent || (e.state == .resident && e.pins == 0))

/-- Two window ranges of experts share a byte. -/
def windowsOverlap (a n b m : Nat) : Bool := n != 0 && m != 0 && a < b + 4096 * m && b < a + 4096 * n

/-- The attached far-tier capacity in bytes (R24). -/
def farCapacity (d : Device) : Nat := capSum d.farCaps.toList 4 * 2 ^ 20

/-- The checks of an image for an entry that it is to fill. -/
def ertImageOk (s : State) (ctx : BitVec 16) (i key far size base : Nat) : Bool :=
  let others := (ertEntries s).filter fun p => p.1 != i && p.2.ctx == ctx
  !(others.any fun p => p.2.key.toNat == key)
    && Config.farBase ≤ far && far + 4096 * size ≤ Config.farBase + farCapacity s.dev && far % 4096 == 0
    && 0xFF000000000000 ≤ base && base < 0xFF100000000000 && base + 4096 * size ≤ 0xFF100000000000 && base % 2 ^ 21 == 0
    && !(others.any fun p => windowsOverlap p.2.base.toNat p.2.size.toNat base size)
    && size ≤ 512 * arenaFrames s.dev

/-- An entry written from its image, or the cause that refuses it. -/
def writeErt (s : State) (ctx : BitVec 16) (i : Nat) (bs : List Byte) : Option State :=
  let size := fieldAt bs 16 4
  let key := fieldAt bs 0 4
  let far := fieldAt bs 8 8
  let base := fieldAt bs 24 8
  let old := ertAt s i
  let fits := ertWritable ctx old && fieldAt bs 5 1 == 0 && (bs.drop 48).all (· == 0)
    && ertImageOk s ctx i key far size base
  if !fits then none
  else
    let s := evictEntry s i
    some (setErt s i (some {
      key := BitVec.ofNat 32 key, state := .absent, ctx := if size = 0 then 0 else ctx, far := word far,
      size := BitVec.ofNat 32 size, pins := 0, base := word base, frames := [],
      gen := old.elim 0 (·.gen), last := old.elim 0 (·.last) }))

/-- ertw. -/
def execErtw (ra rb : XReg) (s : State) : Host.Outcome State Fault Refusal :=
  let i := Instr.ertw ra rb
  if !(hartOf s s.cur).priv then .next (trapIllegal s s.cur i)
  else .next (settledMem s s.cur [ra, rb] fun t =>
    let h := s.cur
    let hd := hartOf t h
    let idx := readX hd ra
    if 8192 ≤ idx.toNat then trapIllegal t h i
    else match loadAt t h (scalarAddr hd rb 0) 64 with
      | (.error f, t) => trapAccess t h f f.value
      | (.ok bs, t) => match writeErt t hd.ctxid idx.toNat bs with
        | none => trapScalar t h 13 idx
        | some t => modHart (admitDue t) h (commit · 4))

end Machine

end Sys2Proof
end

