-- ==== Sys2Proof/Machine/Token.lean ====
section
/-! DEFINITION. Tokens: parking and waking (R371 to R373), sending and receiving (R374 to R377). -/

namespace Sys2Proof

namespace Machine

/-! ## Shared checks (R371) -/

/-- A register group of the current configuration in one of two types. -/
def tokenGroupOk (hd : Hart) (v : VReg) (et et' : Nat) : Bool :=
  let vt := hd.csr.vtype
  !vtIll vt && (vtEt vt == et || vtEt vt == et') && groupOk v.val (vtGrp vt) 1

/-- The n32 and i32 group of xpark, xwake and xsend. -/
def indexGroupOk (hd : Hart) (v : VReg) : Bool := tokenGroupOk hd v 2 6

/-- Element i of a group of 32-bit elements. -/
def tokenIndex (hd : Hart) (v : VReg) (i : Nat) : BitVec 32 := BitVec.ofNat 32 (groupGet hd.v v.val (32 * i) 32)

/-- A scalar-core instruction completed that had started at vstart. -/
def doneAt (hd : Hart) : Hart := { commit hd 4 with csr := { hd.csr with vstart := 0 }, run := .running }

/-- A hart that stalls at an element. -/
def stallAt (hd : Hart) (i : Nat) (w : Wait) : Hart :=
  { hd with csr := { hd.csr with vstart := word i }, run := .waiting w }

/-- Elements written to a group, vl set to their number, and the rest written as tail (R184, R189). -/
def putTokens (hd : Hart) (v : VReg) (w : Nat) (xs : List Nat) : Hart :=
  let vt := hd.csr.vtype
  let hd := ((List.range xs.length).zip xs).foldl (fun hd p => putV hd v.val (w * p.1) w p.2) hd
  let hd := { hd with csr := { hd.csr with vl := word xs.length }, epoch := hd.epoch + 1 }
  if xs.isEmpty then hd else putTail hd (vtTa vt) (vtEt vt) (vtBl vt) xs.length v.val (vtGrp vt)

/-! ## xpark (R372) -/

/-- The entry whose fetch a ticket of a context names (R414). -/
def ticketEntry (s : State) (ctx : BitVec 16) (t : Word) : Option ErtEntry :=
  if !bit t 0 || getBits t 14 18 != 0 then none
  else match ertAt s (ticketIndex t) with
    | none => none
    | some e =>
      if e.ctx == ctx && ticketOf (ticketIndex t) e.gen == t && (e.state == .fetching || e.state == .resident) then some e
      else none

/-- The tokens in a circlet's wait queue. -/
def queueLength (s : State) (circlet : Nat) : Nat := (s.sched.parked.filter fun p => p.circlet == circlet).length

/-- Tokens i … n - 1 parked while the wait queue has room; the first that is not. -/
def parkFrom (s : State) (h : HartId) (ticket : Word) (v : VReg) : Nat → Nat → Nat × State
  | 0, i => (i, s)
  | n + 1, i =>
    if 4096 ≤ queueLength s (circletOf h) then (i, s)
    else
      let hd := hartOf s h
      let p : Parked := { circlet := circletOf h, farm := hd.farmid, ticket, token := tokenIndex hd v i }
      parkFrom (modHart { s with sched := { s.sched with parked := s.sched.parked ++ [p] } } h (count · 23 1)) h ticket v n
        (i + 1)

/-- xpark by a hart, from vstart on. It reads vstart, which every older queue entry changes, so it waits for all of them
(R42). -/
def park (s : State) (h : HartId) (ra : XReg) (v : VReg) : State :=
  let hd := hartOf s h
  let ticket := readX hd ra
  match ticketEntry s hd.ctxid ticket with
  | none => trapScalar s h 13 ticket
  | some e =>
    let first := hd.csr.vstart.toNat
    let n := hd.csr.vl.toNat
    let (i, s) := parkFrom s h ticket v (n - first) first
    let s := if first < i && e.state = .resident then readyTicket s hd.ctxid (ticketIndex ticket) else s
    if i < n then modHart s h (stallAt · i (.xpark ra v)) else modHart s h doneAt

/-- xpark. -/
def execXpark (ra : XReg) (v : VReg) (s : State) : Host.Outcome State Fault Refusal :=
  .next (drained s s.cur fun t =>
    let hd := hartOf t s.cur
    if !indexGroupOk hd v then trapIllegal t s.cur (.xpark ra v) else park t s.cur ra v)

/-- Room in the wait queue: a stalled xpark goes on. -/
def execXparkResume (h : Nat) (s : State) : Host.Outcome State Fault Refusal :=
  if hh : h < 512 then
    match (hartOf s ⟨h, hh⟩).run with
    | .waiting (.xpark ra v) => .next (park s ⟨h, hh⟩ ra v)
    | _ => .next s
  else .next s

/-! ## xwake and xwake.w (R373) -/

/-- The tokens of a farm under a ticket, in parking order. -/
def tokensUnder (s : State) (farm : BitVec 32) (t : Word) : List Parked :=
  s.sched.parked.filter fun p => p.farm == farm && p.ticket == t

/-- The ready ticket of a farm whose readiness came first. -/
def readyFor (s : State) (ctx : BitVec 16) (farm : BitVec 32) : Option Word :=
  (s.sched.ready.find? fun r => r.1 == ctx && !(tokensUnder s farm r.2).isEmpty).map (·.2)

/-- The queue without the first n tokens of a farm under a ticket. -/
def removeTokens (farm : BitVec 32) (t : Word) : Nat → List Parked → List Parked
  | _, [] => []
  | 0, ps => ps
  | n + 1, p :: ps => if p.farm == farm && p.ticket == t then removeTokens farm t n ps else p :: removeTokens farm t (n + 1) ps

/-- A pop from a ready ticket: tokens, a pin for the farm, and the ticket's own pin dropped after its last token. -/
def popTicket (s : State) (h : HartId) (rd : XReg) (v : VReg) (t : Word) : State :=
  let hd := hartOf s h
  let tokens := (tokensUnder s hd.farmid t).take (vlmax hd.csr.vtype)
  let s := { s with sched := { s.sched with parked := removeTokens hd.farmid t tokens.length s.sched.parked } }
  let s := match ertAt s (ticketIndex t) with
    | some e => takePin s hd.farmid (ticketIndex t) e
    | none => s
  let s := settleTicket s hd.ctxid t
  modHart s h fun hd =>
    { setX (commit (putTokens hd v 32 (tokens.map (·.token.toNat))) 4) rd t with run := .running }

/-- The answer when no ticket is ready: 0, with vl 0. -/
def emptyWake (hd : Hart) (rd : XReg) : Hart :=
  { setX (commit { hd with csr := { hd.csr with vl := 0 }, epoch := hd.epoch + 1 } 4) rd 0 with run := .running }

/-- A wake by a hart: a pop, or `none` when no ticket of its farm is ready. -/
def wake (s : State) (h : HartId) (i : Instr) (rd : XReg) (v : VReg) : Option State :=
  let hd := hartOf s h
  match readyFor s hd.ctxid hd.farmid with
  | none => none
  | some t =>
    let key := (ertAt s (ticketIndex t)).elim 0 (·.key.toNat)
    some (if mayPin s h key then popTicket s h rd v t else trapIllegal s h i)

/-- Something done by a token instruction once no pending entry may change a group of the configuration at v, some scalar
registers or vl, or read that group (R88). -/
def settledGroup (s : State) (rs : List XReg) (v : VReg) (k : State → State) : State :=
  settledV s s.cur rs v.val (vtGrp (hartOf s s.cur).csr.vtype) k

/-- xwake. -/
def execXwake (rd : XReg) (v : VReg) (s : State) : Host.Outcome State Fault Refusal :=
  .next (settledGroup s [rd] v fun t =>
    let hd := hartOf t s.cur
    if !indexGroupOk hd v then trapIllegal t s.cur (.xwake rd v)
    else (wake t s.cur (.xwake rd v) rd v).getD (modHart t s.cur (emptyWake · rd)))

/-- xwake.w by a hart: it returns at once when its farm has no parked token in any queue. -/
def wakeOrWait (s : State) (h : HartId) (rd : XReg) (v : VReg) : State :=
  match wake s h (.xwakeW rd v) rd v with
  | some s => s
  | none =>
    if s.sched.parked.any fun p => p.farm == (hartOf s h).farmid then
      modHart s h fun hd => { hd with run := .waiting (.xwakeW rd v) }
    else modHart s h (emptyWake · rd)

/-- xwake.w. -/
def execXwakeW (rd : XReg) (v : VReg) (s : State) : Host.Outcome State Fault Refusal :=
  .next (settledGroup s [rd] v fun t =>
    let hd := hartOf t s.cur
    if !indexGroupOk hd v then trapIllegal t s.cur (.xwakeW rd v) else wakeOrWait t s.cur rd v)

/-- A ticket of a waiting hart's farm is ready, or its last token is gone. -/
def execXwakeWWake (h : Nat) (s : State) : Host.Outcome State Fault Refusal :=
  if hh : h < 512 then
    match (hartOf s ⟨h, hh⟩).run with
    | .waiting (.xwakeW rd v) => .next (wakeOrWait s ⟨h, hh⟩ rd v)
    | _ => .next s
  else .next s

/-! ## xsend (R374, R375) -/

/-- The payload bytes that x[xa] of an xsend gives. -/
def sendLength (x : Word) : Nat := getBits x 16 16

/-- A legal x[xa] of an xsend. -/
def sendOk (x : Word) : Bool :=
  getBits x 0 10 < 640 && getBits x 10 6 == 0 && getBits x 32 32 == 0 && sendLength x % 64 == 0 && 64 ≤ sendLength x
    && sendLength x ≤ 4096

/-- How a run of sends ends: at an element with the queue full, at the end, or with a fault. -/
inductive SendEnd where
  | at_ (i : Nat) (s : State)
  | fault (i : Nat) (f : Fail) (s : State)

/-- The places of a payload of n bytes, with the checks of R174: its size is the payload's (log 30). -/
def placePayload (s : State) (h : HartId) (a : Int) (n : Nat) : Except Fail (List Piece) × State := placeLoad s h a n

/-- Tokens i … queued for sending while the send queue has room. -/
def sendFrom (s : State) (h : HartId) (v : VReg) (xa xb : Word) : Nat → Nat → SendEnd
  | 0, i => .at_ i s
  | n + 1, i =>
    if 256 ≤ (hartOf s h).sends.length then .at_ i s
    else match placePayload s h ((xb.toNat : Int) + i * sendLength xa) (sendLength xa) with
      | (.error f, s) => .fault i f s
      | (.ok ps, s) =>
        let hd := hartOf s h
        let msg : TokenMsg := { ctx := hd.ctxid.toNat, src := s.dev.pkg.toNat, tag := tokenIndex hd v i,
                                payload := loadPieces s h false ps }
        let t : SendToken := { dest := getBits xa 0 10, msg, pc := hd.pc, xa, index := i, busy := false }
        sendFrom (modHart (countRemote s h ps) h fun hd => { hd with sends := hd.sends ++ [t] }) h v xa xb n (i + 1)

/-- xsend by a hart, from vstart on; it waits for every older queue entry, as xpark does. -/
def send (s : State) (h : HartId) (v : VReg) (ra rb : XReg) : State :=
  let hd := hartOf s h
  let first := hd.csr.vstart.toNat
  let n := hd.csr.vl.toNat
  match sendFrom s h v (readX hd ra) (readX hd rb) (n - first) first with
  | .at_ i s => if i < n then modHart s h (stallAt · i (.xsend v ra rb)) else modHart s h doneAt
  | .fault i f s => takeTrap s h { scalarTrap (hartOf s h) f.cause (word f.value) with vstart := i, bank := f.bank }

/-- xsend. -/
def execXsend (v : VReg) (ra rb : XReg) (s : State) : Host.Outcome State Fault Refusal :=
  .next (drained s s.cur fun t =>
    let hd := hartOf t s.cur
    if !indexGroupOk hd v || !sendOk (readX hd ra) then trapIllegal t s.cur (.xsend v ra rb)
    else send t s.cur v ra rb)

/-- Room in the send queue: a stalled xsend goes on. -/
def execXsendResume (h : Nat) (s : State) : Host.Outcome State Fault Refusal :=
  if hh : h < 512 then
    match (hartOf s ⟨h, hh⟩).run with
    | .waiting (.xsend v ra rb) => .next (send s ⟨h, hh⟩ v ra rb)
    | _ => .next s
  else .next s

/-! ## Answers to a token (R375, R377) -/

/-- The n-th token of a hart's send queue, when there is one. -/
def sentToken (s : State) (h n : Nat) : Option (HartId × SendToken) :=
  if hh : h < 512 then ((hartOf s ⟨h, hh⟩).sends[n]?).map fun t => (⟨h, hh⟩, t) else none

/-- A token leaves the send queue. -/
def dropToken (s : State) (h : HartId) (n : Nat) : State := modHart s h fun hd => { hd with sends := dropAt hd.sends n }

/-- A token reported in the log slot of its hart; a record that cannot be written ends the farm (R377, R392). -/
def reportToken (s : State) (h : HartId) (t : SendToken) (inner : Nat) : State :=
  let hd := hartOf s h
  match postedRecord s h hd.ctxid hd.farmid inner t.pc t.xa t.index with
  | (none, s) => s
  | (some f, s) => failTrapPath s h hd.farmid f.cause f.bank

/-- A token is acknowledged. -/
def execTokenAck (h n : Nat) (s : State) : Host.Outcome State Fault Refusal :=
  match sentToken s h n with
  | none => .next s
  | some (h, _) => .next (dropToken s h n)

/-- A token is answered busy: it stays, and is sent again without limit. -/
def execTokenBusy (h n : Nat) (s : State) : Host.Outcome State Fault Refusal :=
  match sentToken s h n with
  | none => .next s
  | some (h, t) => .next (modHart s h fun hd => { hd with sends := hd.sends.set n { t with busy := true } })

/-- A token not answered within 50 µs is sent again: it stays in its queue. -/
def execTokenRetransmit (_h _n : Nat) (s : State) : Host.Outcome State Fault Refusal := .next s

/-- A token is refused: it leaves the queue and is reported with the cause of a store-translation fault. -/
def execTokenRefuse (h n : Nat) (s : State) : Host.Outcome State Fault Refusal :=
  match sentToken s h n with
  | none => .next s
  | some (h, t) => .next (reportToken (dropToken s h n) h t 5)

/-- A token without any answer for 100 ms leaves the queue and is reported as a contained machine check; one that has been
answered busy stays. -/
def execTokenTimeout (h n : Nat) (s : State) : Host.Outcome State Fault Refusal :=
  match sentToken s h n with
  | none => .next s
  | some (h, t) => .next (if t.busy then s else reportToken (dropToken s h n) h t 15)

/-! ## Receive rings (R375 to R377) -/

/-- The bytes of a slot of a ring. -/
def slotBytes (img : BitVec 512) : Nat := 64 * (1 + ctxPay img)

/-- The virtual address of slot k. -/
def slotAddr (img : BitVec 512) (k : Nat) : Nat := ctxRing img + k * slotBytes img

/-- The walk of an address that no hart accesses, but the scheduler or a receive ring: a table that cannot be read is recorded
in bank 61 (R421, log 30). -/
def walkPackage (s : State) (ctx : BitVec 16) (k : Kind) (va : Nat) : Option Leaf × State :=
  match walkOf s ctx k va with
  | (.ok l, s) => (some l, s)
  | (.error none, s) => (none, s)
  | (.error (some ⟨4, a⟩), s) => (none, recordUnreachable s 61 0 0 (a.getD 0))
  | (.error (some n), s) => (none, recordPoison s 61 0 0 n.addr)

/-- The places of some runs of a ring slot: canonical addresses outside the windows, every page a readable and writable leaf
in the package's own HBM. -/
def ringRuns (s : State) (ctx : BitVec 16) : List (Nat × Nat) → Option (List (Leaf × Nat × Nat)) × State
  | [] => (some [], s)
  | (a, n) :: t =>
    if (canonicalFault a n).isSome || (windowFault s ctx true .store a).isSome then (none, s)
    else match walkPackage s ctx .store a with
      | (none, s) => (none, s)
      | (some l, s) =>
        let key := l.pa + (a % 2 ^ 57 - l.va)
        if !(bit l.pte 1 && bit l.pte 2 && getBits l.pte 56 2 != 3 && ownHbm s.dev key) then (none, s)
        else if !reaches s.dev false key then (none, recordUnreachable s 61 0 0 key)
        else match ringRuns s ctx t with
          | (some r, s) => (some ((l, key, n) :: r), s)
          | r => r

/-- The bytes of a filled slot (R375). -/
def slotImage (t : TokenMsg) : List Byte :=
  leBytes 4 t.tag.toNat ++ leBytes 2 t.src ++ leBytes 2 (t.payload.length / 64) ++ List.replicate 56 0 ++ t.payload

/-- Bytes written to the first places of a slot, performed at package scope. -/
def fillRing (s : State) : List (Leaf × Nat × Nat) → List Byte → State
  | [], _ => s
  | _, [] => s
  | (l, key, n) :: t, bs =>
    let s := touch s .store l
    let cells := cellsAt key (bs.take n)
    fillRing { s with mem := clearPoisonAt (commitCells s.mem none cells) cells } t (bs.drop n)

/-- Answers of a destination. -/
def ackAnswer : List Byte := [1]
/-- See `ackAnswer`. -/
def busyAnswer : List Byte := [2]
/-- See `ackAnswer`. -/
def refuseAnswer : List Byte := [3]

/-- A token arrives at this package for a context: it is refused, dropped as a duplicate, answered busy, or accepted. -/
def execTokenArrival (t : TokenMsg) (s : State) : Host.Outcome State Fault Refusal :=
  let ctx := BitVec.ofNat 16 t.ctx
  let img := ctxImage s t.ctx
  let r := ringOf s t.ctx
  let tags := tget [] s.sched.tags t.src
  if !ctxValid img || ctxRing img = 0 || 64 * ctxPay img < t.payload.length then .next { s with answer := refuseAnswer }
  else match ringRuns s ctx (runs (slotAddr img r.fill) (slotBytes img)) with
    | (some places, s) =>
      if tags.contains t.tag then .next { s with answer := ackAnswer }
      else if r.arrived.contains r.fill || r.held.contains r.fill then .next { s with answer := busyAnswer }
      else
        let s := fillRing s places (slotImage t)
        let s := setRing s t.ctx { r with fill := (r.fill + 1) % 4096, arrived := r.arrived ++ [r.fill] }
        .next { s with answer := ackAnswer,
                       sched := { s.sched with tags := tset [] s.sched.tags t.src ((t.tag :: tags).take 4096) } }
    | (none, s) => .next { s with answer := refuseAnswer }

/-- xrecv: the slots of the previous one are freed, and arrived tokens are taken in order. It is an acquire for the bytes of the
slots, which lie in the package's own HBM, on path V (R376). -/
def receive (s : State) (h : HartId) (rd : XReg) (v : VReg) : State :=
  let s := freeSlots s h
  let hd := hartOf s h
  let c := hd.ctxid.toNat
  let r := ringOf s c
  let got := r.arrived.take (vlmax hd.csr.vtype)
  let addrs := got.map (slotAddr (ctxImage s c))
  let s := setRing s c { r with arrived := r.arrived.drop got.length, held := r.held ++ got }
  modHart (acquireOn s h .V) h fun hd => setX (commit { putTokens hd v 64 addrs with slots := got } 4) rd (word got.length)

/-- xrecv. -/
def execXrecv (rd : XReg) (v : VReg) (s : State) : Host.Outcome State Fault Refusal :=
  .next (settledGroup s [rd] v fun t =>
    let hd := hartOf t s.cur
    if !tokenGroupOk hd v 3 7 then trapIllegal t s.cur (.xrecv rd v) else receive t s.cur rd v)

end Machine

end Sys2Proof
end

