-- ==== Sys2Proof/Machine/Preempt.lean ====
section
/-! DEFINITION. Asynchronous machine checks (R383, R391, R393), and saving and restoring a hart that is pre-empted (R66 to
R68, R254, R294, R365, R396 to R399). -/

namespace Sys2Proof

namespace Machine

/-! ## Asynchronous machine checks (R383, R391, R393) -/

/-- Where an entry stands by its start, as R384 records it: the phase, the group and the element. -/
def stoppedAt (hd : Hart) (e : Entry) : Nat × Nat × Nat :=
  match e.instr with
  | .vstPair _ =>
    let half := e.vrc * e.vl
    if e.start < half then (1, 0, e.start) else if e.start < 2 * half then (2, 0, e.start - half) else (3, 0, 0)
  | .vcopy _ => (if e.op2.toNat ≤ e.start then 3 else 0, 0, e.start)
  | .vld _ | .vst _ _ | .sld _ | .sst _ => (0, 0, unitStart e.et e.bl e.start)
  | .mmulGrp a => (0, grpOf e, grpFirst hd e a.vc)
  | _ => (0, e.group, e.start)

/-- A contained machine check of an instruction's result (R393, R449): the oldest entry performs at most some number of
element groups first and then traps at the element it has reached; with no entry in the queue the instruction at the PC
traps. -/
def tiedCheck (s : State) (h : HartId) (groups : Nat) (e : ErrorReport) : State :=
  let value : Word := (e.addr.map (·.setWidth 64)).getD 0
  match runGroups s h groups with
  | (false, s) => s
  | (true, s) => match (hartOf s h).queue with
    | [] => takeTrap s h (scalarTrap (hartOf s h) 15 value)
    | front :: _ =>
      let place := stoppedAt (hartOf s h) front
      faultEntry s h s.mem.nextTag none
        { cause := 15, value, phase := place.1, group := front.group, elem := place.2.2, vstart := front.start,
          start := front.start, bank := none }

/-- A contained machine check at a hart, asynchronous or tied to the instruction whose result it affected: its bank records
it (R391, R393, R422, R423). A tied one in privileged mode is a fault of the trap path, which its bank names first (R383). -/
def execAsyncMachineCheck (h : Nat) (point : CheckPoint) (e : ErrorReport) (s : State) :
    Host.Outcome State Fault Refusal :=
  if hh : h < 512 then
    let h : HartId := ⟨h, hh⟩
    let record (s : State) : State :=
      recordError s e.bank.val { cls := 2, unit := e.unit.toNat, cause := 15, code := e.code.toNat,
                                 addr := e.addr.map (·.toNat), syn := e.syn, poison := false }
    let t := record s
    let running : Bool := match (hartOf s h).run with
      | .free => false
      | .stopped => false
      | _ => true
    .next (if point.tied && running then
        if (hartOf s h).priv then endFarm (record (recordTrapPath s h 15)) (hartOf s h).farmid else tiedCheck t h point.groups e
      else latchCheck t h point.groups e)
  else .next s

/-- 1 ms after a machine check trapped, the farm ends (R393). -/
def execCmcFarmEndTimeout (farm : Nat) (s : State) : Host.Outcome State Fault Refusal :=
  let n := BitVec.ofNat 32 farm
  match farmOf s n with
  | none => .next s
  | some f => .next (if f.ending then endFarm s n else s)

/-! ## Saving a hart (R397, R398) -/

/-- Where a save slot lies (R396). -/
def slotBase (s : State) (ctx : BitVec 16) (slot : Nat) : Nat := ctxSave (ctxImage s ctx.toNat) + slot * 524288

/-- The header of a save slot. -/
def saveHeader (hd : Hart) (x5 nq : Nat) (idle : Bool) : List Byte :=
  leBytes 4 hd.farmid.toNat ++ leBytes 2 x5 ++ leBytes 2 nq ++ leBytes 8 hd.pc.toNat
    ++ leBytes 1 (ofBool hd.priv + 2 * ofBool idle + 4 * ofBool hd.wloopPending + 8 * ofBool hd.lastMlatch.isSome)
    ++ leBytes 1 hd.csr.vhwm.toNat ++ leBytes 2 hd.csr.vdirtyw.toNat ++ leBytes 4 hd.facet.length
    ++ leBytes 8 hd.csr.vdirty.toNat ++ leBytes 9 hd.blocks.toNat ++ List.replicate 215 0

/-- x0 to x31, x0 as 0. -/
def saveX (hd : Hart) : List Byte := (List.range 32).flatMap fun r => leBytes 8 (readX hd (xr r)).toNat

/-- The evstart of a stopped hart: a matrix product in progress leaves its group and k-step there (R68, R380). -/
def stoppedEvstart (hd : Hart) : Word :=
  match hd.queue with
  | [] => hd.trap.evstart
  | e :: _ => match e.instr with
    | .mmulO _ | .mmulR _ | .mmulSp _ | .mmulGrp _ =>
      if e.start = 0 && e.group = 0 then hd.trap.evstart else word (e.group % 32 * 2 ^ 32 + e.start)
    | _ => hd.trap.evstart

/-- A CSR as a save writes it, with the vstart and evstart at which the hart goes on. -/
def savedCsr (hd : Hart) (n : Nat) : Word :=
  if n = 2 then stoppedVstart hd else if n = 0x103 then stoppedEvstart hd else csrGet hd n

/-- The 83 CSRs in number order, and zeros to 1,024 bytes. -/
def saveCsrs (hd : Hart) : List Byte :=
  savedCsrs.flatMap (fun n => leBytes 8 (savedCsr hd n).toNat)
    ++ List.replicate (1024 - 8 * savedCsrs.length) 0

/-- The vector registers marked in vdirty, up to vhwm. -/
def saveV (base : Nat) (hd : Hart) : List (Nat × List Byte) :=
  (membersOf hd.csr.vdirty).map fun n =>
    (base + 0x5000 + 1152 * n, vecBytes (vregAt hd.v n) 0 (192 * hd.csr.vhwm.toNat))

/-- The weight registers marked in vdirtyw, up to vhwm. -/
def saveW (base : Nat) (hd : Hart) : List (Nat × List Byte) :=
  (membersOf (hd.csr.vdirtyw.setWidth 16)).map fun n =>
    (base + 0x17000 + 2304 * n, vecBytes (wregAt hd.w n) 0 (384 * hd.csr.vhwm.toNat))

/-- The Facet entries in ascending key order. -/
def saveFacet (hd : Hart) : List Byte :=
  hd.facet.flatMap fun p => leBytes 4 p.1 ++ leBytes 4 (p.2.elim 0 (·.toNat))

/-- The stage blocks written since farm start. -/
def saveStage (base : Nat) (hd : Hart) : List (Nat × List Byte) :=
  (membersOf hd.blocks).map fun b => (base + 0x28000 + 4096 * b, tgets 0 hd.stage (4096 * b) 4096)

/-- n bytes of a save that no image fills; they are free values (log 15). -/
def fillBytes (fresh n : Nat) : List Byte := (List.range n).map fun k => Config.saveFill (fresh + k)

/-- The image area: images, then what fills the rest of it. -/
def saveImages (fresh : Nat) (images : List (List Byte)) : List Byte :=
  images.flatten ++ fillBytes fresh (16384 - 128 * images.length)

/-- The image of the most recent completed mlatch. -/
def saveMlatch (fresh : Nat) (hd : Hart) : List Byte :=
  match hd.lastMlatch with
  | some e => imageOf e
  | none => fillBytes (fresh + 16384) 128

/-- What a save writes but for its queue images, at a slot's base (R397, R398). -/
def saveParts (base x5 fresh : Nat) (hd : Hart) (images : List (List Byte)) (header : Option (List Byte)) :
    List (Nat × List Byte) :=
  [(base, saveHeader hd x5 images.length header.isSome), (base + 0x100, saveX hd), (base + 0x200, saveCsrs hd)]
    ++ (header.toList.map fun r => (base + 0x4680, r)) ++ saveV base hd ++ saveW base hd
    ++ (if hd.facet.isEmpty then [] else [(base + 0x20000, saveFacet hd)]) ++ saveStage base hd
    ++ [(base + 0x4600, saveMlatch fresh hd), (base + 0x46C0, List.replicate 2368 0)]

/-- Every write of a save, in order. -/
def saveWrites (base x5 fresh : Nat) (hd : Hart) (images : List (List Byte)) (header : Option (List Byte)) :
    List (Nat × List Byte) :=
  saveParts base x5 fresh hd images header ++ [(base + 0x600, saveImages fresh images)]

/-- The trap record header of a hart's log slot and its images as they stand there (R399). -/
def logContents (s : State) (h : HartId) (ctx : BitVec 16) : Except Fail (List Byte × List (List Byte)) × State :=
  let base := logSlot s h ctx
  match readSystem s h ctx base 64 with
  | (.error f, s) => (.error f, s)
  | (.ok r, s) => match readSystem s h ctx (base + 0x100) (128 * min (fieldAt r 58 2) 128) with
    | (.error f, s) => (.error f, s)
    | (.ok bs, s) =>
      (.ok (r, (List.range (min (fieldAt r 58 2) 128)).map fun k => (bs.drop (128 * k)).take 128), s)

/-- A hart left by the pre-emption of its farm (R316, R365): its farm keeps what no save slot holds. -/
def vacate (s : State) (h : HartId) : State :=
  let hd := hartOf s h
  let s := modFarm s hd.farmid fun f => { f with cause := if hd.cause = 0 then f.cause else hd.cause }
  let s := modMember s h fun m =>
    { m with barred := hd.run = .waiting .fbar, sends := hd.sends, slots := hd.slots, pending := hd.pendingTrap, hart := none }
  modHart (forgetAll { s with mem := dropLinks s.mem h } h) h fun hd =>
    { hd with run := .free, queue := [], sends := [], slots := [], pendingTrap := none, wloopPending := false,
              trigger := .no, priv := false }

/-- The state of a stopped hart written to a save slot, and the hart left; a write that fails ends the farm (R383). -/
def saveHart (s : State) (h : HartId) (slot : Nat) : State :=
  let hd := hartOf s h
  let base := slotBase s hd.ctxid slot
  let x5 := ((farmOf s hd.farmid).map (indexOf · h)).getD 0
  let write (s : State) (images : List (List Byte)) (header : Option (List Byte)) : State :=
    let s' := { s with fresh := s.fresh + 16512 }
    match writeSystems s' h hd.ctxid (saveWrites base x5 s.fresh hd images header) with
    | (some f, s) => failTrapPath s h hd.farmid f.cause f.bank
    | (none, s) => settlePreempt (vacate s h) hd.farmid
  if hd.run = .waiting .idle then
    match logContents s h hd.ctxid with
    | (.error f, s) => failTrapPath s h hd.farmid f.cause f.bank
    | (.ok (r, images), s) => write s images (some r)
  else write s ((queueImages hd.queue).map imageOf) none

/-- The save slot reserved for a hart whose farm is to be pre-empted. -/
def orderedSlot (s : State) (h : HartId) : Option Nat :=
  match farmOf s (hartOf s h).farmid with
  | none => none
  | some f =>
    if f.preempt && !f.ending then
      (f.members.find? fun m => m.hart == some h).bind (·.slot)
    else none

/-- A hart whose farm is to be pre-empted, at its next element-group boundary: the oldest entry may go on for some element
groups first; what it has issued is performed at system scope or reported before it is saved (R66, R270, R294). A latched trap is taken instead,
and a hart in privileged mode waits for its eret unless it is at idle (R66, R391, R399). -/
def execPreemptionSave (h : Nat) (groups : Nat) (s : State) : Host.Outcome State Fault Refusal :=
  if hh : h < 512 then
    let h : HartId := ⟨h, hh⟩
    let hd := hartOf s h
    match orderedSlot s h with
    | none => .next s
    | some slot =>
      if hd.run = .free then .next s
      else if hd.priv && hd.run ≠ .waiting .idle then .next s
      else if hd.pendingTrap.isSome && !hd.priv then .next (takePending s h)
      else match runGroups s h groups with
        | (false, s) => .next s
        | (true, s) => .next (performThen s h (fun _ => true) .system (saveHart · h slot))
  else .next s

/-! ## Restoring a hart (R381, R398, R399) -/

/-- Several reads in order; stops at the first that fails. -/
def readSystems (s : State) (h : HartId) (ctx : BitVec 16) : List (Nat × Nat) → Except Fail (List (List Byte)) × State
  | [] => (.ok [], s)
  | (a, n) :: t => match readSystem s h ctx a n with
    | (.error f, s) => (.error f, s)
    | (.ok bs, s) => match readSystems s h ctx t with
      | (.ok r, s) => (.ok (bs :: r), s)
      | r => r

/-- The reads of a save slot that every restore makes: header, x registers, CSRs, images, the mlatch image and the trap
record header. -/
def fixedReads (base nq : Nat) : List (Nat × Nat) :=
  [(base + 0x100, 256), (base + 0x200, 8 * savedCsrs.length), (base + 0x600, 128 * nq), (base + 0x4600, 128),
   (base + 0x4680, 64)]

/-- x registers from their bytes. -/
def restoreX (hd : Hart) (bs : List Byte) : Hart :=
  (List.range 32).foldl (fun hd r => putX hd (xr r) (word (fieldAt bs (8 * r) 8))) hd

/-- CSRs from their bytes; reserved fields stay zero (R5). -/
def restoreCsrs (hd : Hart) (bs : List Byte) : Hart :=
  (savedCsrs.zip (List.range savedCsrs.length)).foldl
    (fun hd p =>
      let v := word (fieldAt bs (8 * p.2) 8)
      csrPut hd p.1 (if p.1 = 0 then word (getBits v 0 16) else csrRule hd p.1 v)) hd

/-- Marked registers, stage blocks and Facet entries read into a cleared hart, in this order. -/
def restoreBulk (hd : Hart) (vs ws bs : List Nat) (facet : Nat) : List (List Byte) → Hart
  | [] => hd
  | r :: rs => match vs, ws, bs with
    | v :: vs, _, _ =>
      restoreBulk { hd with v := hd.v.set (v % 64) (putBytes (vregAt hd.v v) 0 r) (Nat.mod_lt _ (by decide)) } vs ws bs facet rs
    | [], w :: ws, _ =>
      restoreBulk { hd with w := hd.w.set (w % 16) (putBytes (wregAt hd.w w) 0 r) (Nat.mod_lt _ (by decide)) } [] ws bs facet rs
    | [], [], b :: bs => restoreBulk { hd with stage := tsets 0 hd.stage (4096 * b) r } [] [] bs facet rs
    | [], [], [] =>
      let put (f : List (Nat × Option (BitVec 32))) (k : Nat) : List (Nat × Option (BitVec 32)) :=
        tset none f (fieldAt r (8 * k) 4) (some (BitVec.ofNat 32 (fieldAt r (8 * k + 4) 4)))
      { hd with facet := (List.range facet).foldl put hd.facet }

/-- What a restore reads besides, from the fields of the header. -/
def bulkReads (base groups : Nat) (vs ws bs : List Nat) (facet : Nat) : List (Nat × Nat) :=
  vs.map (fun n => (base + 0x5000 + 1152 * n, 192 * groups)) ++ ws.map (fun n => (base + 0x17000 + 2304 * n, 384 * groups))
    ++ bs.map (fun b => (base + 0x28000 + 4096 * b, 4096)) ++ (if facet = 0 then [] else [(base + 0x20000, 8 * facet)])

/-- The entries of n images. -/
def entriesOf (bs : List Byte) (n : Nat) : List Entry :=
  (List.range n).map fun k => entryOf ((bs.drop (128 * k)).take 128) 0

/-- A restored hart goes on: the most recent mlatch is replayed, and the saved entries after it (R68, R254, R398). A replay
fills the latch again and is no further completion of an entry: it leaves vstart, and its rows are counted by no event of R438 a
second time. -/
def replay (s : State) (h : HartId) (mlatch : Option Entry) : State :=
  match mlatch with
  | none => runAhead s h
  | some e =>
    let (tag, m) := newTag s.mem
    let perf := (hartOf s h).perf
    let uncounted (s : State) : State := modHart s h fun hd => { hd with perf }
    let s := modHart { s with mem := m } h fun hd => { hd with queue := e :: hd.queue }
    match planOf s h tag e with
    | .error f => faultEntry s h tag none f
    | .ok p => match runPlan p h e noStop s with
      | .done s => runAhead (modHart (uncounted s) h fun hd => { hd with queue := hd.queue.tail }) h
      | .fault u f _ s => faultEntry (uncounted s) h tag (some (p, u)) f
      | .trim _ _ _ s => s
      | .stop _ s => s
      | .gone s => s

/-- A hart that waited at fbar still waits, or passes it when its instance has been completed (R433). -/
def atBarrier (s : State) (h : HartId) (m : Member) : State :=
  if !m.barred then s
  else if m.arrived then modHart s h fun hd => { hd with run := .waiting .fbar }
  else modHart s h (commit · 4)

/-- A hart restored from the save slot of a member of its farm. -/
def restoreHart (s : State) (h : HartId) (n : BitVec 32) (ctx : BitVec 16) (slot : Nat) (m : Member) : State :=
  let base := slotBase s ctx slot
  let s := modHart s h fun hd =>
    { resetHart with lag := hd.lag, farmid := n, ctxid := ctx, run := .running, sends := m.sends, slots := m.slots,
                     pendingTrap := m.pending, trigger := if m.triggered then .done else .no }
  match readSystem s h ctx base 256 with
  | (.error f, s) => failTrapPath s h n f.cause f.bank
  | (.ok hdr, s) =>
    let nq := min (fieldAt hdr 6 2) 128
    let groups := min (fieldAt hdr 17 1) 6
    let vs := membersOf (BitVec.ofNat 64 (fieldAt hdr 24 8))
    let ws := (membersOf (BitVec.ofNat 16 (fieldAt hdr 18 2))).filter (· != 0)
    let bs := membersOf (BitVec.ofNat 72 (fieldAt hdr 32 9))
    let facet := min (fieldAt hdr 20 4) 4096
    let mode : Byte := BitVec.ofNat 8 (fieldAt hdr 16 1)
    match readSystems s h ctx (fixedReads base nq ++ bulkReads base groups vs ws bs facet) with
    | (.error f, s) => failTrapPath s h n f.cause f.bank
    | (.ok (xs :: csrs :: images :: mlatch :: record :: bulk), s) =>
      let entry := if bit mode 3 then some (entryOf mlatch 0) else none
      let s := modHart s h fun hd =>
        let hd := restoreBulk (restoreCsrs (restoreX hd xs) csrs) vs ws bs facet bulk
        { hd with
          pc := word (fieldAt hdr 8 8), priv := bit mode 0, wloopPending := bit mode 2, lastMlatch := entry
          blocks := BitVec.ofNat 72 (fieldAt hdr 32 9)
          queue := if bit mode 1 then [] else entriesOf images nq }
      let empty (s : State) : State := modHart s h fun hd => { hd with tlb := Vector.replicate 8 [], tlb2 := [] }
      let s := empty (atBarrier s h m)
      if bit mode 1 then
        let log := logSlot s h ctx
        match writeSystems s h ctx [(log, record), (log + 0x100, images)] with
        | (some f, s) => failTrapPath s h n f.cause f.bank
        | (none, s) => replay (empty s) h entry
      else replay s h entry
    | (.ok _, s) => s

end Machine

end Sys2Proof
end

