-- ==== Sys2Proof/Machine/Sched.lean ====
section
/-! DEFINITION. The scheduler: decisions, placement, pre-emption and resumption (R35 to R38, R362 to R365, R368, R396,
R455), self-test items (R451), and the scheduler registers (R456). -/

namespace Sys2Proof

namespace Machine

/-! ## Harts of a partition (R364, R455) -/

/-- Every hart, ascending. -/
def allHarts : List HartId := List.finRange 512

/-- The partition register of a hart. -/
def partOf (d : Device) (h : HartId) : BitVec 10 := d.parts[h]

/-- A hart is in a partition and marked in the hart availability map; partition 0 holds none (R13, R455). -/
def availableIn (d : Device) (part : BitVec 10) (h : HartId) : Bool :=
  part != 0 && partOf d h == part && bit d.avail h.val

/-- A hart on which farms of a partition may be placed now: early service uses circlet 0 only (R446). -/
def placeable (s : State) (part : BitVec 10) (h : HartId) : Bool :=
  availableIn s.dev part h && (!earlyService s || circletOf h == 0)

/-- The hart has no farm placed on it. -/
def isFree (s : State) (h : HartId) : Bool := (hartOf s h).run == .free

/-- The free, available harts of a partition on a circlet, ascending. -/
def freeIn (s : State) (part : BitVec 10) (c : Nat) : List HartId :=
  allHarts.filter fun h => circletOf h == c && placeable s part h && isFree s h

/-- Circlets that have a free hart of a partition, each with those harts: whole ones ascending, then partial ones, the one
with most free harts first and the lower number on a tie (R364). -/
def circletOrder (s : State) (part : BitVec 10) : List (List HartId) :=
  let cs := (List.range 32).map (freeIn s part)
  cs.filter (fun l => l.length == 16)
    ++ sortBy (fun l => 16 - l.length) (cs.filter fun l => 0 < l.length && l.length < 16)

/-- The harts of a placement of n, in ascending hartid order; none when there are too few (R35, R364). -/
def pickHarts (s : State) (part : BitVec 10) (n : Nat) : Option (List HartId) :=
  let hs := (circletOrder s part).flatten.take n
  if hs.length = n then some (sortBy (·.val) hs) else none

/-! ## Candidates of a decision (R35, R362, R363, R456) -/

/-- What a decision may place: a launch that waits, or a suspended farm. -/
inductive Candidate where
  | launch (l : Launch)
  | farm (f : Farm)
  deriving DecidableEq, Repr

/-- The launch of a candidate. -/
def Candidate.launchOf : Candidate → Launch
  | .launch l => l
  | .farm f => f.launch

/-- The harts that a candidate needs (R365). -/
def Candidate.needs : Candidate → Nat
  | .launch l => l.record.farm.toNat
  | .farm f => (f.members.filter fun m => !m.ended).length

/-- The record priority of a launch (R358). -/
def priority (l : Launch) : Nat := getBits l.record.prio 0 3

/-- The order of candidates (R362). -/
def Candidate.before (a b : Candidate) : Bool :=
  let rank : Candidate → Nat
    | .farm _ => 0
    | .launch _ => 1
  if a.launchOf.eff ≠ b.launchOf.eff then b.launchOf.eff < a.launchOf.eff
  else if rank a ≠ rank b then rank a < rank b
  else a.launchOf.order < b.launchOf.order

/-- A candidate put into its place. -/
def insertCandidate (c : Candidate) : List Candidate → List Candidate
  | [] => [c]
  | d :: ds => if c.before d then c :: d :: ds else d :: insertCandidate c ds

/-- A context is not held (R456). -/
def unheld (s : State) (ctx : BitVec 16) : Bool := !s.sched.holds.contains ctx

/-- The dependence of a launch is met; a word that cannot be read counts as below every bound and is recorded in bank 61
(R35, R421). The word may lie in a nameless slot, or in an expert, whose frames are reserved to every other access (R299,
R300, R361, R412). -/
def depMet (s : State) (l : Launch) : Bool × State :=
  match l.dep with
  | none => (true, s)
  | some k =>
    if !reaches s.dev l.depExpert k then (false, recordUnreachable s 61 0 0 k)
    else if Config.poolBase ≤ k && s.mem.badSlots.contains ((k - Config.poolBase) / 1024) then
      (false, recordPoison s 61 0 0 none)
    else match firstPoison s.mem .package k 8 with
    | some b => (false, recordPoison s 61 0 0 (some b))
    | none => (decide (l.record.bound.toNat ≤ leValue (readBytes s.mem .package k 8)), s)

/-- The launches of a list that are eligible (R35, R456). -/
def eligible (s : State) : List Launch → List Launch × State
  | [] => ([], s)
  | l :: ls =>
    if !unheld s l.ctx then eligible s ls
    else
      let (met, s) := depMet s l
      let (rest, s) := eligible s ls
      (if met then l :: rest else rest, s)

/-- A launch taken from the queue. -/
def dropLaunch (s : State) (l : Launch) : State :=
  { s with sched := { s.sched with launches := s.sched.launches.filter fun k => k.order != l.order } }

/-- A launch in the queue changed. -/
def modLaunch (s : State) (l : Launch) (g : Launch → Launch) : State :=
  { s with sched := { s.sched with launches := s.sched.launches.map fun k => if k.order == l.order then g k else k } }

/-- A launch can never be placed (R36). -/
def sizeBad (s : State) (part : BitVec 10) (l : Launch) : Bool :=
  let n := l.record.farm.toNat
  n == 0 || (allHarts.filter (availableIn s.dev part)).length < n

/-- The size test of launches at the first decision at which each is eligible: those that fail are finalised with the size
error, and a further decision is due for their dependants (R36, R360). The rest is returned. -/
def sizeTests (s : State) (part : BitVec 10) : List Launch → List Launch × State
  | [] => ([], s)
  | l :: ls =>
    if !l.sized && sizeBad s part l then
      sizeTests (decide! (writeDone (dropLaunch s l) l (doneWord 0 0 true 2)) part) part ls
    else
      let l' := { l with sized := true }
      let (rest, s) := sizeTests (modLaunch s l fun _ => l') part ls
      (l' :: rest, s)

/-! ## Placing a farm (R35, R37, R166) -/

/-- The number of a new farm: the first one from a free value on that no farm of the package has (R166, log 10). -/
def newNumber (s : State) (first : BitVec 32) : Nat → BitVec 32
  | 0 => first
  | k + 1 => if (farmOf s first).isSome then newNumber s (first + 1) k else first

/-- The state of a hart at farm start (R37, R381). -/
def startHart (hd : Hart) (n : BitVec 32) (l : Launch) (evec : Word) (index size : Nat) : Hart :=
  { resetHart with
    x := ((resetHart.x.set 4 l.record.args).set 5 (word index)).set 6 (word size)
    pc := l.record.entry, trap := { resetTrap with evec := evec &&& 0xFFFFFFFFFFFFFFFE }
    farmid := n, ctxid := l.ctx, lag := hd.lag, run := .running }

/-- A self-test item under way on a hart abandoned (R451). -/
def abandonTest (s : State) (h : HartId) : State :=
  { s with dev := { s.dev with islands := s.dev.islands.set h { s.dev.islands[h] with testing := false } } }

/-- Harts started with their indices. -/
def startHarts (s : State) (n : BitVec 32) (l : Launch) (evec : Word) (size : Nat) : Nat → List HartId → State
  | _, [] => s
  | k, h :: hs =>
    startHarts (abandonTest (modHart s h fun hd => startHart hd n l evec k size) h) n l evec size (k + 1) hs

/-- A launch placed on harts. -/
def placeFarm (s : State) (l : Launch) (hs : List HartId) : State :=
  let n := newNumber s (Config.farmNumber s.fresh) (s.sched.farms.length + 1)
  let member (h : HartId) : Member :=
    { hart := some h, slot := none, ended := false, triggered := false, arrived := false, barred := false, sends := [],
      slots := [], pending := none }
  let f : Farm :=
    { number := n, launch := l, members := hs.map member, next := 0, barrier := 0, arrivals := 0, triggered := false,
      flags := 0, cause := 0, yielded := false, preempt := false, suspended := false, placed := s.sched.placed,
      pins := [], ending := false }
  let s := dropLaunch s l
  let s := { s with fresh := s.fresh + 1,
                    sched := { s.sched with farms := s.sched.farms ++ [f], placed := s.sched.placed + 1 } }
  startHarts s n l (ctxEvec (ctxImage s l.ctx.toNat)) hs.length 0 hs

/-- Members that had not ended, each given the next of some harts (R365). -/
def assignHarts : List Member → List HartId → List Member
  | m :: ms, h :: hs => if m.ended then m :: assignHarts ms (h :: hs) else { m with hart := some h } :: assignHarts ms hs
  | ms, _ => ms

/-- Members restored on their harts, while the farm lasts; a slot is free once its hart has been restored (R396), and a
hart of a farm that a machine check is ending does not issue (R393). -/
def restoreAll (n : BitVec 32) (ctx : BitVec 16) : List Member → State → State
  | [], s => s
  | m :: ms, s => match m.hart, m.slot with
    | some h, some slot =>
      if (farmOf s n).isNone then s
      else
        let ending := (farmOf s n).any (·.ending)
        let s := restoreHart (abandonTest s h) h n ctx slot m
        let s := if ending then modHart s h fun hd => { hd with run := .stopped } else s
        restoreAll n ctx ms (modMember s h fun m =>
          { m with slot := none, barred := false, sends := [], slots := [], pending := none })
    | _, _ => restoreAll n ctx ms s

/-- A suspended farm resumed whole on harts (R365, R398). -/
def resumeFarm (s : State) (f : Farm) (hs : List HartId) : State :=
  let members := assignHarts f.members hs
  let s := modFarm s f.number fun f => { f with members, suspended := false, placed := s.sched.placed }
  let s := { s with sched := { s.sched with placed := s.sched.placed + 1 } }
  let hold (s : State) (h : HartId) : State := modHart s h fun hd => { hd with run := .stopped, farmid := f.number }
  restoreAll f.number f.launch.ctx members (hs.foldl hold s)

/-- A candidate placed, when enough harts are free (R35, R365). -/
def place (s : State) (part : BitVec 10) (c : Candidate) : Option State :=
  (pickHarts s part c.needs).map fun hs => match c with
    | .launch l => placeFarm s l hs
    | .farm f => resumeFarm s f hs

/-- Candidates placed in order up to the first that cannot be (R362); the others, whether any was placed, and the
state. -/
def placeInOrder (part : BitVec 10) : List Candidate → Bool → State → List Candidate × Bool × State
  | [], any, s => ([], any, s)
  | c :: cs, any, s => match place s part c with
    | some s => placeInOrder part cs true s
    | none => (c :: cs, any, s)

/-- A launch after being passed over once (R363). -/
def passOver (l : Launch) : Launch :=
  if l.passed + 1 = 64 then { l with passed := 0, eff := min 7 (l.eff + 1) } else { l with passed := l.passed + 1 }

/-- The launches among the candidates that were left behind one that was placed. -/
def passAll : List Candidate → State → State
  | [], s => s
  | .launch l :: cs, s => passAll cs (modLaunch s l passOver)
  | .farm _ :: cs, s => passAll cs s

/-! ## Pre-emption (R365, R368, R396) -/

/-- The save slots of a context in use or reserved. -/
def slotsUsed (s : State) (ctx : BitVec 16) : List Nat :=
  (s.sched.farms.filter fun f => f.launch.ctx == ctx).flatMap fun f =>
    (f.members.filter fun m => !m.ended).filterMap (·.slot)

/-- The least k numbers of a context's save slots that are free, or fewer when there are fewer. -/
def freeSaveSlots (s : State) (ctx : BitVec 16) (k : Nat) : List Nat :=
  let used := slotsUsed s ctx
  let n := min (ctxSlots (ctxImage s ctx.toNat)) (used.length + k)
  ((List.range n).filter fun i => !used.contains i).take k

/-- The harts of a farm that have not ended. -/
def liveCount (f : Farm) : Nat := (f.members.filter fun m => !m.ended).length

/-- Slots given to the members that have not ended. -/
def giveSlots : List Member → List Nat → List Member
  | m :: ms, k :: ks => if m.ended then m :: giveSlots ms (k :: ks) else { m with slot := some k } :: giveSlots ms ks
  | ms, _ => ms

/-- A pre-emption of a farm ordered, its save slots reserved; none when its context has too few (R396). -/
def orderPreempt (s : State) (f : Farm) : Option State :=
  let ks := freeSaveSlots s f.launch.ctx (liveCount f)
  if ks.length < liveCount f then none
  else some (modFarm s f.number fun f => { f with preempt := true, members := giveSlots f.members ks })

/-- A farm is placed and no pre-emption of it has been ordered, nor is a machine check ending it. -/
def movable (f : Farm) : Bool := !f.suspended && !f.preempt && !f.ending

/-- The farms that may be pre-empted for a record priority, in the order in which they are taken (R365, R368). -/
def victims (s : State) (part : BitVec 10) (prio : Nat) : List Farm :=
  let fs := s.sched.farms.filter fun f =>
    f.launch.part == part && movable f && (priority f.launch < prio || (f.yielded && priority f.launch ≤ prio))
  sortBy (fun f => priority f.launch) (sortBy (fun f => s.sched.placed - f.placed) fs)

/-- The harts of a farm that would serve a placement once they are freed. -/
def freedBy (s : State) (part : BitVec 10) (f : Farm) : Nat := ((farmHarts f).filter (placeable s part)).length

/-- Farms ordered to be pre-empted until enough harts would be free; none when they never would. -/
def orderUntil (part : BitVec 10) (need : Nat) : List Farm → Nat → State → Option State
  | [], got, s => if need ≤ got then some s else none
  | f :: fs, got, s =>
    if need ≤ got then some s
    else match orderPreempt s f with
      | some s => orderUntil part need fs (got + freedBy s part f) s
      | none => orderUntil part need fs got s

/-- The pre-emption for the candidate at which a decision stops; harts that an earlier order will free count as freed. -/
def preemptFor (s : State) (part : BitVec 10) (c : Candidate) : State :=
  let free := (allHarts.filter fun h => placeable s part h && isFree s h).length
  let coming := ((s.sched.farms.filter fun f => f.launch.part == part && f.preempt).map (freedBy s part)).foldl (· + ·) 0
  (orderUntil part c.needs (victims s part (priority c.launchOf)) (free + coming) s).getD s

/-- The yields of a partition's farms answered: a farm that is not pre-empted goes on after its yield (R58, R368), and of one
that is, a hart in privileged mode, which is not pre-empted before its eret (R399). -/
def answerYields (s : State) (part : BitVec 10) : State :=
  let fs := s.sched.farms.filter fun f => f.launch.part == part && f.yielded
  let resume (f : Farm) (s : State) (h : HartId) : State :=
    modHart s h fun hd =>
      if hd.run = .waiting .yield && (!f.preempt || hd.priv) then { hd with run := .running } else hd
  fs.foldl (fun s f => (farmHarts f).foldl (resume f) (modFarm s f.number fun f => { f with yielded := false })) s

/-! ## Self-test items (R451) -/

/-- The interval T in milliseconds. -/
def testInterval (d : Device) : Nat := getBits d.interval 0 32

/-- An item is due on a hart. -/
def testDue (s : State) (h : HartId) : Bool :=
  let i := s.dev.islands[h]
  testInterval s.dev != 0 && bit s.dev.avail h.val && isFree s h && !i.testing
    && testInterval s.dev * 100000 ≤ (s.time - i.tested).toNat

/-- Items begun at a decision on the harts of its partition and on those in no partition. -/
def startTests (s : State) (part : BitVec 10) : State :=
  let go (s : State) (h : HartId) : State :=
    if (partOf s.dev h == part || partOf s.dev h == 0) && testDue s h then
      { s with dev := { s.dev with islands := s.dev.islands.set h { s.dev.islands[h] with testing := true } } }
    else s
  if testInterval s.dev = 0 then s else allHarts.foldl go s

/-- A bank 60 record of a failed item, and the hart retired (R12, R451). -/
def failTest (s : State) (h : HartId) (item : BitVec 64) : State :=
  let s := recordError s 60 { cls := 2, unit := h.val % 16, cause := 0, code := 7, addr := none, syn := item, poison := false }
  { s with dev := { s.dev with avail := s.dev.avail &&& ~~~((1 : BitVec 512) <<< h.val) } }

/-- An item is completed; one that was abandoned counts as not run. -/
def execSelfTestComplete (h : Nat) (pass : Bool) (item : BitVec 64) (s : State) : Host.Outcome State Fault Refusal :=
  if hh : h < 512 then
    let h : HartId := ⟨h, hh⟩
    let i := s.dev.islands[h]
    if !i.testing then .next s
    else
      let i' := { i with testing := false, stres := if pass then 1 else 2, tested := s.time
                         stn := BitVec.ofNat 32 (min (i.stn.toNat + 1) 0xFFFFFFFF) }
      let s := { s with dev := { s.dev with islands := s.dev.islands.set h i' } }
      .next (if pass then s else failTest s h item)
  else .next s

/-! ## Decisions (R362) -/

/-- One decision of a partition's scheduler. -/
def decision (s : State) (part : BitVec 10) : State :=
  let (ls, s) := eligible s (s.sched.launches.filter fun l => l.part == part)
  let (ls, s) := sizeTests s part ls
  let fs := s.sched.farms.filter fun f => f.launch.part == part && f.suspended && unheld s f.launch.ctx
  let cs := (ls.map Candidate.launch ++ fs.map Candidate.farm).foldl (fun acc c => insertCandidate c acc) []
  let (left, any, s) := placeInOrder part cs false s
  let s := if any then passAll left s else s
  let s := match left with
    | [] => s
    | c :: _ => preemptFor s part c
  startTests (answerYields s part) part

/-- A decision. -/
def execSchedulerDecision (part : Nat) (s : State) : Host.Outcome State Fault Refusal :=
  .next (decision s (BitVec.ofNat 10 part))

/-- 10 µs have passed since a decision of a partition in which a launch waits. -/
def execDecisionTimer (part : Nat) (s : State) : Host.Outcome State Fault Refusal :=
  let p := BitVec.ofNat 10 part
  .next (if s.sched.launches.any fun l => l.part == p then decision s p else s)

/-! ## Scheduler registers (R456) -/

/-- The phase of the start sequence (R441). -/
def phaseOf (d : Device) : Nat := getBits d.boot 8 8

/-- Filigree runs: from phase 5 on, but not in minimal mode (R443, R444). -/
def filigreeRuns (d : Device) : Bool := phaseOf d == 5 || phaseOf d == 6

/-- A write or request of an agent takes place: Filigree makes none while it does not run (R444). -/
def requested (s : State) (w : Writer) (t : State) : State := if w = .filigree && !filigreeRuns s.dev then s else t

/-- A refused write recorded (R452, R453); Bezel's writes are never recorded. -/
def recordRefusal (s : State) (w : Writer) (off : Nat) : State :=
  let agent : Nat := match w with
    | .host => 1
    | .filigree => 2
    | .bezel => 0
  if agent = 0 then s
  else { s with dev := { s.dev with refusal := BitVec.ofNat 64 (2 ^ 63 + agent * 2 ^ 60 + off % 2 ^ 32) } }

/-- The last request has not been carried out: a farm that it suspends has a hart to be saved. -/
def switchBusy (s : State) : Bool :=
  bit s.dev.switch 63
    && s.sched.farms.any fun f => f.preempt && f.launch.ctx.toNat == getBits s.dev.switch 0 16

/-- A context switch status word. -/
def switchWord (hold failed : Bool) (ctx : BitVec 16) : BitVec 64 :=
  BitVec.ofNat 64 (ofBool hold * 2 ^ 63 + ofBool failed * 2 ^ 62 + ctx.toNat)

/-- The pre-emption of every farm in a list ordered; none when one lacks slots. -/
def orderAll : List Farm → State → Option State
  | [], s => some s
  | f :: fs, s => (orderPreempt s f).bind (orderAll fs)

/-- A decision is due in the partition of a context. -/
def decideFor (s : State) (ctx : BitVec 16) : State := decide! s (ctxPart (ctxImage s ctx.toNat))

/-- A request to hold a context; it suspends nothing when save slots are lacking. -/
def requestHold (s : State) (ctx : BitVec 16) : State :=
  if switchBusy s then recordRefusal s .host 0x500
  else
    let fs := s.sched.farms.filter fun f => f.launch.ctx == ctx && movable f
    match orderAll fs s with
    | none => decideFor { s with dev := { s.dev with switch := switchWord false true ctx } } ctx
    | some s =>
      let holds := if s.sched.holds.contains ctx then s.sched.holds else s.sched.holds ++ [ctx]
      decideFor { s with dev := { s.dev with switch := switchWord true false ctx }, sched := { s.sched with holds } } ctx

/-- A request to release a context: its farms and launches are eligible at the next decision. -/
def requestRelease (s : State) (ctx : BitVec 16) : State :=
  if switchBusy s then recordRefusal s .host 0x500
  else
    let holds := s.sched.holds.filter (· != ctx)
    decideFor { s with dev := { s.dev with switch := switchWord false false ctx }, sched := { s.sched with holds } } ctx

/-- A request with hold = 1. -/
def execContextSwitchHold (ctx : BitVec 16) (s : State) : Host.Outcome State Fault Refusal := .next (requestHold s ctx)

/-- A request with hold = 0. -/
def execContextSwitchRelease (ctx : BitVec 16) (s : State) : Host.Outcome State Fault Refusal := .next (requestRelease s ctx)

/-- A write of the idle wake register. -/
def execIdleWake (h : BitVec 9) (s : State) : Host.Outcome State Fault Refusal := .next (wakeIdle s h.toFin)

end Machine

end Sys2Proof
end

