-- ==== Sys2Proof/Machine/Ether.lean ====
section
/-! DEFINITION. The Ethernet ports: their registers and descriptor rings (R26, R458, R459). -/

namespace Sys2Proof

namespace Machine

/-! ## Registers (R458) -/

/-- A port changed. -/
def modEth (s : State) (p : Fin 8) (g : EthPort → EthPort) : State :=
  { s with dev := { s.dev with eth := s.dev.eth.set p (g s.dev.eth[p]) } }

/-- The package-relative offset of a field of a port. -/
def ethOffset (p : Fin 8) (field : Nat) : Nat := 0x3000 + 64 * p.val + field

/-- en of a port. -/
def ethOn (e : EthPort) : Bool := bit e.ctl 0

/-- A ring size that a port accepts. -/
def ringSizeOk (n : BitVec 32) : Bool := [16, 32, 64, 128, 256, 512, 1024, 2048, 4096, 8192, 16384, 32768, 65536].contains n.toNat

/-- A ring base or buffer address as it is stored: space and address bits. -/
def ringBase (v : Word) : Word := v &&& 0x807FFFFFFFFFFFC0

/-- The port reads its settings and starts; a bad size sets error and leaves en at 0. -/
def enablePort (e : EthPort) : EthPort :=
  if ethOn e then e
  else if ringSizeOk e.txsize && ringSizeOk e.rxsize then
    { e with ctl := e.ctl ||| 1, live := some (e.txbase, e.rxbase, e.txsize, e.rxsize, bit e.ctl 1) }
  else { e with status := e.status ||| 0x4000000000000000 }

/-- A port that is off keeps nothing of what it read when it was enabled once no transmit descriptor is in hand. -/
def settlePort (e : EthPort) : EthPort := if ethOn e then e else { e with live := none }

/-- The port stops, after the transmit descriptor in hand: the one at its head, when the driver has handed it over. Heads and
tails stay (log 37). -/
def disablePort (e : EthPort) : EthPort :=
  let e := { e with ctl := e.ctl &&& 0xFFFFFFFFFFFFFFFE }
  if e.txhead = e.txtail then settlePort e else e

/-- Setting en. -/
def execEthPortEnable (w : Writer) (p : Fin 8) (s : State) : Host.Outcome State Fault Refusal :=
  .next (requested s w (modEth s p enablePort))

/-- Clearing en. -/
def execEthPortDisable (w : Writer) (p : Fin 8) (s : State) : Host.Outcome State Fault Refusal :=
  .next (requested s w (modEth s p disablePort))

/-! ## Rings (R459) -/

/-- The memory key of a ring or buffer address. -/
def ringKey (s : State) (v : Word) : Nat :=
  let a := getBits v 6 49 * 64
  if bit v 63 then Config.hostBase + a else s.dev.pkg.toNat * 2 ^ 45 + a

/-- The first of n bytes that a port cannot reach (R21). -/
def unreached (s : State) (k n : Nat) : Option Nat :=
  (((List.range (n / 4096 + 2)).map fun i => max k ((k / 4096 + i) * 4096)).filter (· < k + n)).find? fun a =>
    !reaches s.dev false a

/-- A port's write of n bytes from a key, or its read, checked: none when it is made, else the state with its report in
bank 57 (R21, R394, R421). -/
def portFails (s : State) (p : Fin 8) (k n : Nat) (reads : Bool) : Option State :=
  match unreached s k n with
  | some a => some (recordUnreachable s 57 p.val 0 a)
  | none => if !reads then none else (firstPoison s.mem .package k n).map fun a => recordPoison s 57 p.val 0 (some a)

/-- Bytes written by a port, performed at system scope. -/
def portWrite (s : State) (k : Nat) (bs : List Byte) : State :=
  { s with mem := clearPoisonAt (commitCells s.mem none (cellsAt k bs)) (cellsAt k bs) }

/-- The key of descriptor i of a ring. -/
def descKey (s : State) (base : Word) (size i : BitVec 32) : Nat := ringKey s base + 32 * (i.toNat % max size.toNat 1)

/-- The index after i in a ring. -/
def nextIndex (size i : BitVec 32) : BitVec 32 := BitVec.ofNat 32 ((i.toNat + 1) % max size.toNat 1)

/-- The flags of a completed descriptor: own clear, and done or error set. -/
def doneFlags (ok : Bool) : List Byte := leBytes 4 (if ok then 2 ^ 30 else 2 ^ 29)

/-- A transmit descriptor completes: sent, or acknowledged by the remote port, or with error. With the descriptor in hand a port
that has been disabled stops. -/
def execEthTxComplete (p : Fin 8) (ok : Bool) (s : State) : Host.Outcome State Fault Refusal :=
  let e := s.dev.eth[p]
  match e.live with
  | none => .next s
  | some (base, _, size, _, _) =>
    if e.txhead = e.txtail then .next s
    else
      let d := descKey s base size e.txhead
      match portFails s p d 32 true with
      | some s => .next (modEth s p settlePort)
      | none =>
        let bs := readBytes s.mem .package d 32
        let buf := ringKey s (word (fieldAt bs 0 8))
        let lost := portFails s p buf (fieldAt bs 8 4) true
        .next (modEth (portWrite (lost.getD s) (d + 12) (doneFlags (ok && lost.isNone))) p fun e =>
          settlePort { e with txhead := nextIndex size e.txhead })

/-- A message dropped and counted. -/
def dropMessage (e : EthPort) : EthPort :=
  { e with status := putBits e.status 0 32 (min (getBits e.status 0 32 + 1) 0xFFFFFFFF) }

/-- A received frame or message put into the next receive descriptor, or dropped when it does not fit; none when no
descriptor has been handed to the port. -/
def deliverMessage (s : State) (p : Fin 8) (m : BitVec 48 × BitVec 16 × List Byte) : Option State :=
  let e := s.dev.eth[p]
  match if ethOn e then e.live else none with
  | none => none
  | some (_, base, _, size, _) =>
    if e.rxhead = e.rxtail then none
    else
      let (src, flow, data) := m
      let d := descKey s base size e.rxhead
      match portFails s p d 32 true with
      | some s => some (modEth s p dropMessage)
      | none =>
        let bs := readBytes s.mem .package d 32
        let buf := ringKey s (word (fieldAt bs 0 8))
        let next (s : State) (ok : Bool) : State :=
          let s := portWrite s (d + 8) (leBytes 4 (if ok then data.length else 0))
          let s := portWrite s (d + 16) (leBytes 8 (flow.toNat * 2 ^ 48 + src.toNat))
          modEth (portWrite s (d + 12) (doneFlags ok)) p fun e => { e with rxhead := nextIndex size e.rxhead }
        if fieldAt bs 8 4 < data.length then some (modEth s p dropMessage)
        else match portFails s p buf data.length false with
          | some s => some (next s false)
          | none => some (next (portWrite s buf data) true)

/-- Messages that wait, put into descriptors in order while there are any. -/
def deliverWaiting (p : Fin 8) : List (BitVec 48 × BitVec 16 × List Byte) → State → State
  | [], s => modEth s p fun e => { e with waiting := [] }
  | m :: ms, s => match deliverMessage s p m with
    | some s => deliverWaiting p ms s
    | none => modEth s p fun e => { e with waiting := m :: ms }

/-- A frame or message arrives; it waits behind those that wait for a descriptor. A port that is off takes nothing. -/
def execEthFrameReceived (p : Fin 8) (src : BitVec 48) (flow : BitVec 16) (data : List Byte) (s : State) :
    Host.Outcome State Fault Refusal :=
  if !ethOn s.dev.eth[p] then .next s
  else .next (deliverWaiting p (s.dev.eth[p].waiting ++ [(src, flow, data)]) s)

/-- The oldest message that waits has had no descriptor for 10 ms. -/
def execEthReceiveTimeout (p : Fin 8) (s : State) : Host.Outcome State Fault Refusal :=
  if s.dev.eth[p].waiting.isEmpty then .next s
  else .next (modEth s p fun e => { dropMessage e with waiting := e.waiting.tail })

/-- txtail written: descriptors are handed to the port. -/
def writeTxTail (s : State) (p : Fin 8) (v : BitVec 32) : State := modEth s p fun e => { e with txtail := v }

/-- rxtail written: descriptors are handed to the port, and messages that wait are put into them. -/
def writeRxTail (s : State) (p : Fin 8) (v : BitVec 32) : State :=
  let s := modEth s p fun e => { e with rxtail := v }
  deliverWaiting p s.dev.eth[p].waiting s

/-- A write of txtail. -/
def execEthTxTail (w : Writer) (p : Fin 8) (v : BitVec 32) (s : State) : Host.Outcome State Fault Refusal :=
  .next (requested s w (writeTxTail s p v))

/-- A write of rxtail. -/
def execEthRxTail (w : Writer) (p : Fin 8) (v : BitVec 32) (s : State) : Host.Outcome State Fault Refusal :=
  .next (requested s w (writeRxTail s p v))

/-- The port's link goes up or down. -/
def execEthLinkChange (p : Fin 8) (up : Bool) (s : State) : Host.Outcome State Fault Refusal :=
  .next (modEth s p fun e => { e with status := putBits e.status 63 1 (ofBool up) })

/-! ## Register accesses (R452, R458) -/

/-- An 8-byte word of a port's registers. -/
def ethWord (e : EthPort) (field : Nat) : Word :=
  match field with
  | 0 => e.txbase
  | 8 => e.rxbase
  | 16 => word (e.txsize.toNat + e.rxsize.toNat * 2 ^ 32)
  | 24 => word (e.txtail.toNat + e.txhead.toNat * 2 ^ 32)
  | 32 => word (e.rxtail.toNat + e.rxhead.toNat * 2 ^ 32)
  | 40 => e.ctl
  | 48 => e.status
  | _ => 0

/-- A write of ctl: the MAC address, rt while en = 0, and en. -/
def writeEthCtl (s : State) (w : Writer) (p : Fin 8) (v : Word) : State :=
  let e := s.dev.eth[p]
  let moves := ethOn e && bit e.ctl 1 != bit v 1
  let s := if moves then recordRefusal s w (ethOffset p 40) else s
  let rt := if ethOn e then bit e.ctl 1 else bit v 1
  let kept := word (getBits v 16 48 * 2 ^ 16 + ofBool rt * 2 + ofBool (ethOn e))
  modEth s p fun e => if bit v 0 then enablePort { e with ctl := kept } else disablePort { e with ctl := kept }

/-- A field that the port reads when en rises, written; while en = 1 the write is ignored and recorded. -/
def writeEthSetting (s : State) (w : Writer) (p : Fin 8) (field : Nat) (g : EthPort → EthPort) : State :=
  if ethOn s.dev.eth[p] then recordRefusal s w (ethOffset p field) else modEth s p g

/-- A register of a port written; the fields that the port itself writes take the written value too. -/
def writeEth (s : State) (w : Writer) (p : Fin 8) (field : Nat) (v : Word) : State :=
  match field with
  | 0 => writeEthSetting s w p 0 fun e => { e with txbase := ringBase v }
  | 8 => writeEthSetting s w p 8 fun e => { e with rxbase := ringBase v }
  | 16 => writeEthSetting s w p 16 fun e => { e with txsize := v.setWidth 32 }
  | 20 => writeEthSetting s w p 20 fun e => { e with rxsize := v.setWidth 32 }
  | 24 => writeTxTail s p (v.setWidth 32)
  | 28 => modEth s p fun e => { e with txhead := v.setWidth 32 }
  | 32 => writeRxTail s p (v.setWidth 32)
  | 36 => modEth s p fun e => { e with rxhead := v.setWidth 32 }
  | 40 => writeEthCtl s w p v
  | 48 => modEth s p fun e => { e with status := v &&& 0xC0000000FFFFFFFF }
  | _ => s

end Machine

end Sys2Proof
end

