-- ==== Sys2Proof/Machine/Links.lean ====
section
/-! DEFINITION. Errors, links, islands, power and time: machine-check reports (R394, R395, R422, R423), links (R21, R24, R25,
R457), island clocks (R15 to R17, R450), and the counters that time advances (R166, R167, R262, R436, R438). -/

namespace Sys2Proof

namespace Machine

/-! ## Errors (R394, R395, R423) -/

/-- A report as a bank takes it, in a class. -/
def reportOf (e : ErrorReport) (cls : Nat) (poison : Bool) : BankError :=
  { cls, unit := e.unit.toNat, cause := 0, code := e.code.toNat, addr := e.addr.map (·.toNat), syn := e.syn, poison }

/-- A corrected error is counted in its bank and reaches no program. -/
def execCorrectedError (e : ErrorReport) (s : State) : Host.Outcome State Fault Refusal :=
  .next (recordError s e.bank.val (reportOf e 1 false))

/-- The package stops (R395). -/
def stopPackage (s : State) : State := { s with stopped := true }

/-- A fatal error records its bank and stops the package. -/
def execFatalError (e : ErrorReport) (s : State) : Host.Outcome State Fault Refusal :=
  .next (stopPackage (recordError s e.bank.val (reportOf e 3 false)))

/-- A die junction reaches 110 °C (R17). R422 gives the record of bank 58 neither a unit nor a syndrome: both are 0 (log 51,
DESIGN CHOICE). -/
def execThermalTrip (s : State) : Host.Outcome State Fault Refusal :=
  .next (stopPackage (recordError s 58 { cls := 3, unit := 0, cause := 0, code := 6, addr := none, syn := 0, poison := false }))

/-- A line of the package's own HBM or of the nameless pool. -/
def ownLine (d : Device) (l : Nat) : Bool :=
  (Config.poolBase ≤ 64 * l && 64 * l < Config.poolBase + 2 ^ 36)
    || (pkgOf (64 * l) == d.pkg.toNat && offOf (64 * l) < 8 * Config.stackBytes)

/-- Numbers added to an ascending list. -/
def insertAll (t xs : List Nat) : List Nat := xs.foldl sinsert t

/-- A contained error in HBM poisons lines, and pool slots whose map bits it damages. -/
def execHbmContainedError (e : ErrorReport) (lines slots : List Nat) (s : State) : Host.Outcome State Fault Refusal :=
  let hit := lines.filter (ownLine s.dev)
  let s := recordError s e.bank.val (reportOf e 2 (!hit.isEmpty))
  .next { s with mem := { s.mem with poison := insertAll s.mem.poison hit
                                     healing := s.mem.healing.filter fun p => !hit.contains (lineOf p.2)
                                     badSlots := insertAll s.mem.badSlots (slots.filter (· < 2 ^ 26)) } }

/-! ## Links (R24, R25, R457) -/

/-- A register word with a bit set or cleared. -/
def withBit (v : Word) (i : Nat) (b : Bool) : Word := putBits v i 1 (ofBool b)

/-- A scale-up link register changed. -/
def modLink (s : State) (n : Fin 24) (g : Word → Word) : State :=
  { s with dev := { s.dev with scaleUp := s.dev.scaleUp.set n (g s.dev.scaleUp[n]) } }

/-- A far-tier port register changed. -/
def modPort (s : State) (m : Fin 4) (g : Word → Word) : State :=
  { s with dev := { s.dev with farPorts := s.dev.farPorts.set m (g s.dev.farPorts[m]) } }

/-- The host link register changed. -/
def modHost (s : State) (g : Word → Word) : State := { s with dev := { s.dev with hostLink := g s.dev.hostLink } }

/-- A reason code recorded; the highest stays (R445). -/
def recordReason (d : Device) (code : Nat) : Device := { d with boot := putBits d.boot 32 16 (max code (getBits d.boot 32 16)) }

/-- A trained scale-up link: it is up, with its lanes and peer; training again after it had been trained counts as a
retraining. -/
def trainedLink (v : Word) (i : LinkInfo) : Word :=
  let again := getBits v 58 4 != 0
  let n := if again then min (getBits v 40 8 + 1) 255 else getBits v 40 8
  word (2 ^ 63 + getBits v 62 1 * 2 ^ 62 + min i.lanes.toNat 4 * 2 ^ 58 + i.peer.toNat * 2 ^ 48 + n * 2 ^ 40)

/-- Capacities cut so that their sum stays within 16 TiB, the ports in ascending order (R24). -/
def clipCaps : List Nat → Nat → List Nat
  | [], _ => []
  | c :: cs, room => min c room :: clipCaps cs (room - min c room)

/-- The accepted capacities when a port offers one at start-up. -/
def acceptCaps (caps : Vector Nat 4) (m : Fin 4) (cap : Nat) : Vector Nat 4 :=
  let l := clipCaps (caps.set m cap).toList (2 ^ 24)
  Vector.ofFn fun i => l.getD i.val 0

/-- A port register with its accepted capacity. -/
def withCap (v : Word) (cap : Nat) : Word := putBits v 0 32 cap

/-- A far-tier port trained: at start-up it offers its capacity; later the layout stays as it is (R24). -/
def trainPort (s : State) (m : Fin 4) (i : LinkInfo) : State :=
  let caps := if bit s.dev.boot 0 then s.dev.farCaps else acceptCaps s.dev.farCaps m i.cap
  let up (v : Word) : Word := withBit (putBits v 52 4 i.kind.toNat) 63 true
  let s := modPort s m up
  { s with dev := { s.dev with farCaps := caps,
                               farPorts := Vector.ofFn fun k => withCap s.dev.farPorts[k] caps[k] } }

/-- A link completes training: it takes effect on an enabled link, and for links that Filigree trains while it runs. -/
def execLinkTrained (l : LinkId) (i : LinkInfo) (s : State) : Host.Outcome State Fault Refusal :=
  .next (match l with
    | .scaleUp n => if filigreeRuns s.dev && bit s.dev.scaleUp[n] 62 then modLink s n (trainedLink · i) else s
    | .farPort m => if filigreeRuns s.dev && bit s.dev.farPorts[m] 62 then trainPort s m i else s
    | .hostLink =>
      modHost s fun _ => word (2 ^ 63 + min i.width.toNat 16 * 2 ^ 48 + i.rate.toNat * 2 ^ 40))

/-- The up bit of a link. -/
def linkUp (d : Device) : LinkId → Bool
  | .scaleUp n => bit d.scaleUp[n] 63
  | .farPort m => bit d.farPorts[m] 63
  | .hostLink => bit d.hostLink 63

/-- A link changed, whichever it is. -/
def modAnyLink (s : State) (l : LinkId) (g : Word → Word) : State :=
  match l with
  | .scaleUp n => modLink s n g
  | .farPort m => modPort s m g
  | .hostLink => modHost s g

/-- A link fails: it goes down until it is trained again. One that fails training at start-up leaves reason 6 (R445). -/
def execLinkFailure (l : LinkId) (s : State) : Host.Outcome State Fault Refusal :=
  let t := modAnyLink s l fun v => withBit v 63 false
  .next (if !linkUp s.dev l && phaseOf s.dev == 5 then { t with dev := recordReason t.dev 6 } else t)

/-- The package-relative offset of a link register. -/
def linkOffset : LinkId → Nat
  | .scaleUp n => 0x2000 + 8 * n.val
  | .farPort m => 0x20C0 + 8 * m.val
  | .hostLink => 0x20E0

/-- en of a link written by Filigree: 0 takes it down, and 1 retrains it, which takes it down until it is trained. The host
link has no en. -/
def writeLink (s : State) (w : Writer) (l : LinkId) (en : Bool) : State :=
  match l with
  | .hostLink => recordRefusal s w (linkOffset l)
  | _ => modAnyLink s l fun v => withBit (withBit v 62 en) 63 false

/-- A write of en = 0. -/
def execLinkDisable (l : LinkId) (s : State) : Host.Outcome State Fault Refusal :=
  .next (requested s .filigree (writeLink s .filigree l false))

/-- A write of en = 1. -/
def execLinkRetrain (l : LinkId) (s : State) : Host.Outcome State Fault Refusal :=
  .next (requested s .filigree (writeLink s .filigree l true))

/-- A hart that takes the machine check of an access that no longer reaches a place, at its next element-group boundary. -/
def reportLost (s : State) (h : HartId) (pa : Nat) : State :=
  settleTriggers (latchCheck s h 0 (reportAt h ⟨4, some pa⟩))

/-- An issued write, or behind the writes a copy's counter increment, that no longer reaches memory ends as the contained
report of R21 and is never performed (R270). -/
def execUnreachableTimeout (n : Nat) (s : State) : Host.Outcome State Fault Refusal :=
  match s.mem.flight[n]? with
  | some a =>
    .next (if lost s.dev a then reportLost (dropWrite s a) a.hart ((a.cells.head?.map (·.1)).getD 0) else s)
  | none => match s.mem.counters[n - s.mem.flight.length]? with
    | some c =>
      .next (if c.addr < Config.poolBase && !reaches s.dev false c.addr then reportLost (dropCounter s c) c.hart c.addr else s)
    | none => .next s

/-! ## Island clocks and power (R15 to R17, R450) -/

/-- An island changed. -/
def modIsland (s : State) (h : HartId) (g : Island → Island) : State :=
  { s with dev := { s.dev with islands := s.dev.islands.set h (g s.dev.islands[h]) } }

/-- The req that a write stores. -/
def reqOf (v : Nat) : BitVec 8 := if 47 ≤ v && v ≤ 94 then BitVec.ofNat 8 v else 0

/-- req written by the host or Bezel; another write is refused. -/
def writeIsland (s : State) (w : Writer) (h : HartId) (v : Nat) : State :=
  if w = .filigree then recordRefusal s w (0x300000 + 8 * h.val) else modIsland s h fun i => { i with req := reqOf v }

/-- A request. -/
def execIslandRequest (w : Writer) (h : Nat) (req : BitVec 8) (s : State) : Host.Outcome State Fault Refusal :=
  if hh : h < 512 then .next (requested s w (writeIsland s w ⟨h, hh⟩ req.toNat)) else .next s

/-- A clock that Filigree may set on a hart's island: 470 MHz to 940 MHz, at most the request and the image's limit, and 470
MHz in early service and minimal mode (R15, R443, R444, R446, R450). -/
def clockAllowed (d : Device) (h : HartId) (act : Nat) : Bool :=
  let req := d.islands[h].req
  47 ≤ act && act ≤ 94 && (req == 0 || act ≤ req.toNat) && act ≤ d.clockMax[h].toNat
    && ((!bit d.boot 1 && !bit d.boot 2) || act == 47)

/-- A change of an island's clock completes. -/
def execClockChangeComplete (h : Nat) (act : BitVec 8) (s : State) : Host.Outcome State Fault Refusal :=
  if hh : h < 512 then
    let h : HartId := ⟨h, hh⟩
    .next (if clockAllowed s.dev h act.toNat then modIsland s h fun i => { i with act := act } else s)
  else .next s

/-- The limit in watts; 1,800 before one is set. -/
def limitOf (d : Device) : Nat := if getBits d.powerLimit 0 11 = 0 then 1800 else getBits d.powerLimit 0 11

/-- The harts of a running farm whose islands run above 470 MHz. -/
def lowerable (s : State) (f : Farm) : List HartId :=
  (farmHarts f).filter fun h => 47 < s.dev.islands[h].act.toNat

/-- The running farms with an island that can be lowered. -/
def lowerFarms (s : State) : List Farm := s.sched.farms.filter fun f => !(lowerable s f).isEmpty

/-- The end of a 1 ms power window: telemetry shows it, and above the limit Filigree lowers the islands of the
lowest-priority running farms by one step (log 17). -/
def execPowerWindow (watts : Nat) (s : State) : Host.Outcome State Fault Refusal :=
  let s := { s with dev := { s.dev with telemetry := BitVec.ofNat 64 watts } }
  if watts ≤ limitOf s.dev || !filigreeRuns s.dev then .next s
  else
    let fs := lowerFarms s
    match minOf (fs.map fun f => priority f.launch) with
    | none => .next s
    | some p =>
      let hs := (fs.filter fun f => priority f.launch == p).flatMap (lowerable s)
      .next (hs.foldl (fun s h => modIsland s h fun i => { i with act := i.act - 1 }) s)

/-! ## Time (R166, R167, R262, R436, R438) -/

/-- The package reference ticks. -/
def execReferenceTick (s : State) : Host.Outcome State Fault Refusal := .next { s with time := s.time + 1 }

/-- The lane idle counters after a cycle. -/
def idleAfter (p : Perf) (lanes : BitVec 24) : Perf :=
  { p with idle := Vector.ofFn fun l => if bit lanes l.val then p.idle[l] + 1 else p.idle[l] }

/-- What a cycle counts, as pairs of an event and its number. -/
def cycleEvents (hd : Hart) (c : CycleInfo) : List (Nat × Nat) :=
  let waits (w : Run → Bool) : Nat := ofBool (w hd.run)
  [(1, 1), (6, ofBool (c.fullQueue || hd.run == .waiting .queueFull)), (7, c.tlbMiss), (8, c.tlb2Miss), (9, c.walks),
   (10, c.dcMiss), (11, c.l2Miss),
   (12, waits fun r => match r with
      | .waiting (.cwait _ _ _ _) => true
      | _ => false),
   (13, waits (· == .waiting .fbar)), (16, ofBool c.laneBarrier), (17, ofBool c.bankConflict)]

/-- A hart after an arithmetic cycle of its island. -/
def cycleHart (hd : Hart) (c : CycleInfo) : Hart :=
  let hd := { hd with perf := idleAfter { hd.perf with cycle := hd.perf.cycle + 1 } c.idle }
  (cycleEvents hd c).foldl (fun hd e => count hd e.1 e.2) hd

/-- An arithmetic cycle of a hart that belongs to a running farm. -/
def execArithmeticCycle (h : Nat) (c : CycleInfo) (s : State) : Host.Outcome State Fault Refusal :=
  if hh : h < 512 then
    .next (if isFree s ⟨h, hh⟩ then s else modHart s ⟨h, hh⟩ (cycleHart · c))
  else .next s

end Machine

end Sys2Proof
end

