-- ==== Sys2Proof/Machine/Sm3.lean ====
section
/-! DEFINITION. The SM3 digest that measurement registers use (R448). The manual names the algorithm; its steps are those
of the published standard GB/T 32905 (PRESUMED, log 16). -/

namespace Sys2Proof

namespace Machine

/-- A 32-bit word. -/
abbrev W32 := BitVec 32

/-- The eight words of a chaining value. -/
structure Sm3State where
  a : W32
  b : W32
  c : W32
  d : W32
  e : W32
  f : W32
  g : W32
  h : W32
  deriving DecidableEq, Repr

/-- The initial value. -/
def sm3Init : Sm3State :=
  { a := 0x7380166F, b := 0x4914B2B9, c := 0x172442D7, d := 0xDA8A0600, e := 0xA96F30BC, f := 0x163138AA, g := 0xE38DEE4D,
    h := 0xB0FB0E4E }

/-- The permutation P0. -/
def sm3P0 (x : W32) : W32 := x ^^^ x.rotateLeft 9 ^^^ x.rotateLeft 17
/-- The permutation P1. -/
def sm3P1 (x : W32) : W32 := x ^^^ x.rotateLeft 15 ^^^ x.rotateLeft 23

/-- Words of a message block expanded by n more; the window holds the last 16 of them. -/
def sm3Expand : Nat → List W32 → List W32
  | 0, win => win
  | n + 1, win =>
    let w (i : Nat) : W32 := win.getD i 0
    let x := sm3P1 (w 0 ^^^ w 7 ^^^ (w 13).rotateLeft 15) ^^^ (w 3).rotateLeft 7 ^^^ w 10
    w 0 :: sm3Expand n (win.drop 1 ++ [x])

/-- Round j, with its words W[j] and W[j + 4]. -/
def sm3Round (s : Sm3State) (j : Nat) (w w4 : W32) : Sm3State :=
  let t : W32 := if j < 16 then 0x79CC4519 else 0x7A879D8A
  let ff := if j < 16 then s.a ^^^ s.b ^^^ s.c else (s.a &&& s.b) ||| (s.a &&& s.c) ||| (s.b &&& s.c)
  let gg := if j < 16 then s.e ^^^ s.f ^^^ s.g else (s.e &&& s.f) ||| (~~~s.e &&& s.g)
  let ss1 := (s.a.rotateLeft 12 + s.e + t.rotateLeft (j % 32)).rotateLeft 7
  let ss2 := ss1 ^^^ s.a.rotateLeft 12
  let tt1 := ff + s.d + ss2 + (w ^^^ w4)
  let tt2 := gg + s.h + ss1 + w
  { a := tt1, b := s.a, c := s.b.rotateLeft 9, d := s.c, e := sm3P0 tt2, f := s.e, g := s.f.rotateLeft 19, h := s.g }

/-- Rounds j … j + n - 1 over the words from W[j] on. -/
def sm3Rounds : Nat → Nat → List W32 → Sm3State → Sm3State
  | 0, _, _, s => s
  | n + 1, j, ws, s => sm3Rounds n (j + 1) (ws.drop 1) (sm3Round s j (ws.getD 0 0) (ws.getD 4 0))

/-- The number that bytes give, the first being the most significant. -/
def bigValue (bs : List Byte) : Nat := bs.foldl (fun n b => n * 256 + b.toNat) 0

/-- The n bytes of a number, the most significant first. -/
def bigBytes (n x : Nat) : List Byte := (leBytes n x).reverse

/-- The words of a block of 64 bytes. -/
def sm3Words (bs : List Byte) : List W32 :=
  (List.range 16).map fun i => BitVec.ofNat 32 (bigValue ((bs.drop (4 * i)).take 4))

/-- One block compressed into a chaining value. -/
def sm3Block (s : Sm3State) (bs : List Byte) : Sm3State :=
  let t := sm3Rounds 64 0 (sm3Expand 52 (sm3Words bs)) s
  { a := t.a ^^^ s.a, b := t.b ^^^ s.b, c := t.c ^^^ s.c, d := t.d ^^^ s.d, e := t.e ^^^ s.e, f := t.f ^^^ s.f,
    g := t.g ^^^ s.g, h := t.h ^^^ s.h }

/-- n blocks compressed in order. -/
def sm3Blocks : Nat → List Byte → Sm3State → Sm3State
  | 0, _, s => s
  | n + 1, bs, s => sm3Blocks n (bs.drop 64) (sm3Block s (bs.take 64))

/-- A message padded to whole blocks. -/
def sm3Pad (bs : List Byte) : List Byte :=
  bs ++ (0x80 : Byte) :: List.replicate ((119 - bs.length % 64) % 64) 0 ++ bigBytes 8 (8 * bs.length)

/-- The digest of a message, as its 32 bytes. -/
def sm3 (bs : List Byte) : List Byte :=
  let p := sm3Pad bs
  let s := sm3Blocks (p.length / 64) p sm3Init
  [s.a, s.b, s.c, s.d, s.e, s.f, s.g, s.h].flatMap fun w => bigBytes 4 w.toNat

/-- A measurement register extended with a digest (R448); byte k of a register is byte k of its digest. -/
def sm3Extend (m d : BitVec 256) : BitVec 256 := putBytes 0 0 (sm3 (leBytes 32 m.toNat ++ leBytes 32 d.toNat))

end Machine

end Sys2Proof
end

