-- ==== Sys2Proof/Machine/Device.lean ====
section
/-! DEFINITION. The device register block (R21, R440 to R442, R448, R450 to R458), what is done through it (R342, R354, R361,
R401, R412, R423, R447, R448, R453 to R455), and the accesses of the host and of other packages (R23, R25, R266, R285,
R287, R293). -/

namespace Sys2Proof

namespace Machine

/-! ## The nameless pool and the expert arena (R342, R354, R412, R453) -/

/-- Some pool slot is owned. -/
def poolOwned (m : Mem) : Bool := m.owners.any fun p => p.2 != 0

/-- A write of the pool configuration, through the filter. -/
def writePool (s : State) (w : Writer) (v : Word) : State :=
  let p := getBits v 0 13
  if 4096 < p || poolOwned s.mem then
    recordRefusal { s with dev := { s.dev with pool := s.dev.pool ||| 0x8000000000000000 } } w 0x300
  else { s with dev := { s.dev with pool := BitVec.ofNat 64 p } }

/-- A write of the pool configuration. -/
def execPoolConfiguration (v : BitVec 64) (s : State) : Host.Outcome State Fault Refusal := .next (writePool s .host v)

/-- A context has a farm running, placed or suspended, or a launch queued (R354, R401). -/
def contextBusy (s : State) (ctx : BitVec 16) : Bool :=
  s.sched.farms.any (fun f => f.launch.ctx == ctx) || s.sched.launches.any fun l => l.ctx == ctx

/-- A write of the pool sweep register: it frees every slot of a context, or is refused. -/
def writeSweep (s : State) (w : Writer) (v : Word) : State :=
  let ctx : BitVec 16 := v.setWidth 16
  if ctx = 0 || bit s.dev.sweep 63 || contextBusy s ctx then
    recordRefusal { s with dev := { s.dev with sweep := s.dev.sweep ||| 0x4000000000000000 } } w 0x308
  else
    { s with dev := { s.dev with sweep := BitVec.ofNat 64 (2 ^ 63 + ctx.toNat) }
             mem := { s.mem with owners := s.mem.owners.filter fun p => p.2 != ctx } }

/-- A write of the pool sweep register. -/
def execPoolSweep (v : BitVec 64) (s : State) : Host.Outcome State Fault Refusal := .next (writeSweep s .host v)

/-- A sweep finishes. -/
def execSweepComplete (s : State) : Host.Outcome State Fault Refusal :=
  .next { s with dev := { s.dev with sweep := putBits s.dev.sweep 63 1 0 } }

/-- Some ERT entry is fetching, resident or evicting. -/
def ertActive (s : State) : Bool := (ertEntries s).any fun p => p.2.state != .absent

/-- A write of the expert arena register, through the filter. The frames are reserved from then on, and no hart keeps a read made
ahead in them. -/
def writeArena (s : State) (w : Writer) (v : Word) : State :=
  let a := getBits v 0 17
  if 65536 < a || ertActive s then
    recordRefusal { s with dev := { s.dev with arena := s.dev.arena ||| 0x8000000000000000 } } w 0x310
  else { s with dev := { s.dev with arena := BitVec.ofNat 64 a }, mem := { s.mem with early := [] } }

/-- A write of the expert arena register. -/
def execExpertArena (v : BitVec 64) (s : State) : Host.Outcome State Fault Refusal := .next (writeArena s .host v)

/-- A host write of the refusal register: 0 clears it. -/
def writeRefusal (s : State) (v : Word) : State := if v = 0 then { s with dev := { s.dev with refusal := 0 } } else s

/-- A write of the refusal register. -/
def execRefusalClear (v : BitVec 64) (s : State) : Host.Outcome State Fault Refusal := .next (writeRefusal s v)

/-! ## The launch doorbell (R454) -/

/-- The key of a doorbell's record. -/
def doorbellKey (s : State) (v : Word) : Nat := ringKey s v

/-- A record's place that the scheduler can read: host memory, or an offset of the package's HBM range. -/
def doorbellReaches (s : State) (v : Word) : Bool :=
  bit v 63 || (getBits v 6 49 * 64 < 8 * Config.stackBytes && reaches s.dev false (doorbellKey s v))

/-- The place of an 8-byte word of a record through its context's page table, by no hart: no page need be a user page. A target
that is not reached is recorded in bank 61 (R405, R421). -/
def contextPlace (s : State) (ctx : BitVec 16) (k : Kind) (a : Word) : Option Nat × State :=
  let va := a.toNat
  if va % 8 ≠ 0 || (canonicalFault va 8).isSome || (windowFault s ctx true k va).isSome then (none, s)
  else if windowOf va = .nameless || windowOf va = .expert then
    let p := pieceOf s ctx ((va, 8), none)
    if reaches s.dev (windowOf va == .expert) p.key then (some p.key, s) else (none, recordUnreachable s 61 0 0 p.key)
  else match walkPackage s ctx k va with
    | (none, s) => (none, s)
    | (some l, s) =>
      let p := pieceOf s ctx ((va, 8), some l)
      if !permits true k l.pte then (none, s)
      else if reaches s.dev false p.key then (some p.key, touch s k l)
      else (none, recordUnreachable s 61 0 0 p.key)

/-- The launch status of a record that has been read, and the state. -/
def submitDoorbell (s : State) (bs : List Byte) : Nat × State :=
  let r := recordOf bs
  let img := ctxImage s r.ctx.toNat
  if !recordOk bs then (2, s)
  else if r.ctx = 0 || !ctxValid img then (3, s)
  else match contextPlace s r.ctx .store r.done with
    | (none, s) => (4, s)
    | (some done, s) =>
      let (dep, s) := if r.dep = 0 then (some none, s) else
        let q := contextPlace s r.ctx .locate r.dep
        (q.1.map some, q.2)
      match dep with
      | none => (4, s)
      | some dep =>
        if 4096 ≤ queuedIn s (ctxPart img) then (1, s) else (0, acceptLaunch s r r.ctx done dep)

/-- The status of a doorbell write. A record that cannot be read is recorded in bank 61 (R421). -/
def doorbellStatus (s : State) (v : Word) : Nat × State :=
  let k := doorbellKey s v
  if !doorbellReaches s v then (4, recordUnreachable s 61 0 0 k)
  else match firstPoison s.mem .package k 64 with
  | some b => (4, recordPoison s 61 0 0 (some b))
  | none => submitDoorbell s (readBytes s.mem .package k 64)

/-- A doorbell write: the record is handled, and counted; while busy reads 1 it is ignored and recorded. -/
def doorbell (s : State) (w : Writer) (v : Word) : State :=
  if bit s.dev.launch 63 then recordRefusal s w 0x400 else
  let (status, t) := doorbellStatus s v
  { t with dev := { t.dev with launch := BitVec.ofNat 64 ((getBits s.dev.launch 32 16 + 1) % 2 ^ 16 * 2 ^ 32 + status) } }

/-- A doorbell write. -/
def execLaunchDoorbell (v : BitVec 64) (s : State) : Host.Outcome State Fault Refusal := .next (doorbell s .host v)

/-! ## The context table, partition registers and banks (R401, R423, R455) -/

/-- The bits of a context's image that are not reserved. -/
def contextMask : BitVec 512 :=
  BitVec.ofNat 512 (0x007FFFFFFFFFF000 + (2 ^ 192 - 1) * 2 ^ 64 + (2 ^ 49 - 1) * 2 ^ 256 + (2 ^ 64 - 1) * 2 ^ 320
    + (2 ^ 16 - 1) * 2 ^ 384)

/-- The filter's test of an image for a context. -/
def contextOk (s : State) (ctx : Nat) (img : BitVec 512) : Bool :=
  0 < ctx && ctx < 1024 && !contextBusy s (BitVec.ofNat 16 ctx)
    && (!ctxValid img || (getBits img 288 16 != 0 && (ctxRing img == 0 || (1 ≤ ctxPay img && ctxPay img ≤ 64))))

/-- An image written to the context table through the filter; a context that it creates has an empty receive ring (R355). -/
def writeContext (s : State) (w : Writer) (ctx : Nat) (img : BitVec 512) (off : Nat) : State :=
  let img := img &&& contextMask
  if w = .filigree || !contextOk s ctx img then recordRefusal s w off
  else
    let created := ctxValid img && !ctxValid (ctxImage s ctx)
    let s := { s with dev := { s.dev with contexts := tset 0 s.dev.contexts ctx img } }
    if created then setRing s ctx ⟨0, [], []⟩ else s

/-- A write of a whole entry of the context table. -/
def execContextTableWrite (w : Writer) (ctx : Nat) (image : List Byte) (s : State) : Host.Outcome State Fault Refusal :=
  .next (requested s w (writeContext s w ctx (BitVec.ofNat 512 (leValue image)) (0x200000 + 64 * ctx)))

/-- A hart's partition register written through the filter. -/
def writePartition (s : State) (w : Writer) (h : HartId) (v : Nat) : State :=
  if w = .filigree || !isFree s h then recordRefusal s w (0x1000 + 2 * h.val)
  else { s with dev := { s.dev with parts := s.dev.parts.set h (BitVec.ofNat 10 v) } }

/-- A write of a partition register. -/
def execPartitionWrite (w : Writer) (h : Fin 512) (v : BitVec 16) (s : State) : Host.Outcome State Fault Refusal :=
  .next (requested s w (writePartition s w h v.toNat))

/-- The bits of a bank's status register that are not reserved (R422). -/
def bankMask : BitVec 64 := 0xFC00FFFF0000FFFF

/-- A bank changed; the reserved banks stay zero. -/
def modBank (s : State) (b : Fin 64) (g : Bank → Bank) : State :=
  if bankExists b.val then { s with dev := { s.dev with banks := s.dev.banks.set b (g s.dev.banks[b]) } } else s

/-- A bank's status written by the host or Bezel. -/
def writeBankStatus (s : State) (w : Writer) (b : Fin 64) (v : BitVec 64) : State :=
  if w = .filigree then recordRefusal s w (0x100000 + 64 * b.val)
  else modBank s b fun k => { k with status := v &&& bankMask }

/-- A bank's count written by the host or Bezel. -/
def writeBankCount (s : State) (w : Writer) (b : Fin 64) (v : BitVec 64) : State :=
  if w = .filigree then recordRefusal s w (0x100000 + 64 * b.val + 24)
  else modBank s b fun k => { k with count := v &&& 0xFFFFFFFF }

/-- A write of a bank's status, count or both. -/
def execBankStatusWrite (w : Writer) (bank : Fin 64) (status count : Option (BitVec 64)) (s : State) :
    Host.Outcome State Fault Refusal :=
  let t := match status with
    | some v => writeBankStatus s w bank v
    | none => s
  .next (requested s w (match count with
    | some v => writeBankCount t w bank v
    | none => t))

/-! ## Attestation and measurement (R447, R448) -/

/-- The mailbox written by the host; a nonce, which its low 32 bytes hold, that is written while a quote is being formed is
taken for the next quote (R448, log 12). -/
def hostMailbox (d : Device) (m : BitVec 512) : Device :=
  { d with mailbox := m, nextNonce := if d.nonce.isSome then some (m.setWidth 256) else d.nextNonce }

/-- The host writes a nonce to the mailbox and sets its doorbell: a quote of it is formed, unless one is being formed. -/
def execAttestationDoorbell (nonce : BitVec 256) (s : State) : Host.Outcome State Fault Refusal :=
  let d := hostMailbox s.dev (putBits s.dev.mailbox 0 256 nonce.toNat)
  .next { s with dev := if s.dev.nonce.isSome then d else { d with nonce := some nonce } }

/-- What a quote is formed of besides its nonce: the measurement registers, boot status, starts and the hart availability
map. -/
def quoteInputs (d : Device) : List (BitVec 256) :=
  d.measure.toList ++ [d.boot.setWidth 256, d.starts.setWidth 256, d.avail.setWidth 256, (d.avail >>> 256).setWidth 256]

/-- Bezel places the quote in the mailbox. -/
def execQuoteReady (s : State) : Host.Outcome State Fault Refusal :=
  .next (match s.dev.nonce with
    | none => s
    | some n =>
      { s with dev := { s.dev with mailbox := Config.quote n (quoteInputs s.dev), nonce := s.dev.nextNonce, nextNonce := none } })

/-- A measurement register extended. -/
def extendMeasure (d : Device) (i : Fin 8) (v : BitVec 256) : Device :=
  { d with measure := d.measure.set i (sm3Extend d.measure[i] v) }

/-- Whether an agent may have a measurement register extended: Bezel any, Filigree 4 to 7 while it runs (R444, R447). -/
def mayExtend (d : Device) (w : Writer) (i : Fin 8) : Bool :=
  match w with
  | .bezel => true
  | .filigree => 4 ≤ i.val && filigreeRuns d
  | .host => false

/-- An extension. -/
def execMeasurementExtend (r : ExtendRequest) (d : BitVec 256) (s : State) : Host.Outcome State Fault Refusal :=
  .next (if mayExtend s.dev r.writer r.reg then { s with dev := extendMeasure s.dev r.reg d } else s)

/-! ## Reading the block (R440, R452) -/

/-- Element i of a vector of words, zero beyond its end. -/
def wordAt {n : Nat} (v : Vector Word n) (i : Nat) : Word := v.toList.getD i 0

/-- The island register (R450). -/
def islandWord (i : Island) : Word :=
  word (i.stn.toNat * 2 ^ 32 + i.stres.toNat * 2 ^ 16 + i.act.toNat * 2 ^ 8 + i.req.toNat)

/-- The word at an offset of a bank. -/
def bankWord (b : Bank) (field : Nat) : Word :=
  match field with
  | 0 => b.status
  | 8 => b.addr
  | 16 => b.syn
  | 24 => b.count
  | _ => 0

/-- The context switch status (R456). -/
def switchStatus (s : State) : Word := putBits s.dev.switch 63 1 (ofBool (switchBusy s))

/-- The 8-byte word of the block at a multiple of 8; an unlisted offset, or a register that is only written, reads zero. -/
def deviceWord (s : State) (off : Nat) : Word :=
  let d := s.dev
  if off = 0 then d.boot
  else if off = 0x8 then d.starts
  else if off = 0x10 then d.powerLimit
  else if off = 0x18 then d.telemetry
  else if off = 0x20 then d.interval
  else if 0x40 ≤ off && off < 0x80 then word (getBits d.avail (8 * (off - 0x40)) 64)
  else if 0x100 ≤ off && off < 0x200 then word (getBits (d.measure.toList.getD ((off - 0x100) / 32) 0) (8 * (off % 32)) 64)
  else if 0x200 ≤ off && off < 0x240 then word (getBits d.mailbox (8 * (off - 0x200)) 64)
  else if off = 0x300 then d.pool
  else if off = 0x308 then d.sweep
  else if off = 0x310 then d.arena
  else if off = 0x318 then d.refusal
  else if off = 0x408 then d.launch
  else if off = 0x508 then switchStatus s
  else if off = 0x520 then d.pkg.setWidth 64
  else if 0x1000 ≤ off && off < 0x1400 then
    let p (k : Nat) : Nat := (d.parts.toList.getD ((off - 0x1000) / 2 + k) 0).toNat
    word (p 0 + p 1 * 2 ^ 16 + p 2 * 2 ^ 32 + p 3 * 2 ^ 48)
  else if 0x2000 ≤ off && off < 0x20C0 then wordAt d.scaleUp ((off - 0x2000) / 8)
  else if 0x20C0 ≤ off && off < 0x20E0 then wordAt d.farPorts ((off - 0x20C0) / 8)
  else if off = 0x20E0 then d.hostLink
  else if 0x3000 ≤ off && off < 0x3200 then ethWord (d.eth.toList.getD ((off - 0x3000) / 64) resetEth) (off % 64)
  else if 0x100000 ≤ off && off < 0x101000 then bankWord (d.banks.toList.getD ((off - 0x100000) / 64) resetBank) (off % 64)
  else if 0x200000 ≤ off && off < 0x210000 then word (getBits (ctxImage s ((off - 0x200000) / 64)) (8 * (off % 64)) 64)
  else if 0x300000 ≤ off && off < 0x301000 then islandWord (d.islands.toList.getD ((off - 0x300000) / 8) resetIsland)
  else 0

/-- The byte of the block at an offset. -/
def deviceByte (s : State) (off : Nat) : Byte := BitVec.ofNat 8 (getBits (deviceWord s (off / 8 * 8)) (8 * (off % 8)) 8)

/-- n bytes of the block. -/
def deviceBytes (s : State) (off n : Nat) : List Byte := (List.range n).map fun k => deviceByte s (off + k)

/-! ## Writing the block (R452) -/

/-- The register at an offset: its first offset and its bytes. An entry of the context table is one register. -/
def registerAt (off : Nat) : Nat × Nat :=
  if 0x200000 ≤ off && off < 0x210000 then (off / 64 * 64, 64) else
  if 0x1000 ≤ off && off < 0x1400 then (off / 2 * 2, 2)
  else if 0x3000 ≤ off && off < 0x3200 && 16 ≤ off % 64 && off % 64 < 40 then (off / 4 * 4, 4)
  else (off / 8 * 8, 8)

/-- A register with no behaviour of its own that Bezel or the host writes; none for another offset. A power limit above 1,800
is stored as 1,800 (R450). -/
def plainWrite (d : Device) (w : Writer) (off : Nat) (v : Word) : Option Device :=
  if off = 0x8 then some { d with starts := BitVec.ofNat 64 (getBits v 0 8) }
  else if off = 0x10 then some { d with powerLimit := BitVec.ofNat 64 (min v.toNat 1800) }
  else if off = 0x20 then some { d with interval := BitVec.ofNat 64 (getBits v 0 32) }
  else if 0x200 ≤ off && off < 0x240 then
    let m := putBits d.mailbox (8 * (off - 0x200)) 64 v.toNat
    some (if w = .host && off < 0x220 then hostMailbox d m else { d with mailbox := m })
  else none

/-- A write by the host or Bezel to a register that has its own rule; none for another offset. -/
def ruledWrite (s : State) (w : Writer) (off : Nat) (v : Word) : Option State :=
  if off = 0x300 then some (writePool s w v)
  else if off = 0x308 then some (writeSweep s w v)
  else if off = 0x310 then some (writeArena s w v)
  else if off = 0x318 then some (if w = .host then writeRefusal s v else s)
  else if off = 0x400 then some (doorbell s w v)
  else if off = 0x500 then
    some (if bit v 16 then requestHold s (v.setWidth 16) else requestRelease s (v.setWidth 16))
  else if off = 0x510 then some (wakeIdle s (v.setWidth 9).toFin)
  else if hp : 0x1000 ≤ off ∧ off < 0x1400 then
    some (writePartition s w ⟨(off - 0x1000) / 2, by omega⟩ v.toNat)
  else if hb : 0x100000 ≤ off ∧ off < 0x101000 then
    let b : Fin 64 := ⟨(off - 0x100000) / 64, by omega⟩
    if off % 64 = 0 then some (writeBankStatus s w b v) else if off % 64 = 24 then some (writeBankCount s w b v) else none
  else if hi : 0x300000 ≤ off ∧ off < 0x301000 then
    some (writeIsland s w ⟨(off - 0x300000) / 8, by omega⟩ (getBits v 0 8))
  else none

/-- A write of an Ethernet port register; none for another offset. -/
def ethWrite (s : State) (w : Writer) (off : Nat) (v : Word) : Option State :=
  if h : 0x3000 ≤ off ∧ off < 0x3200 then some (writeEth s w ⟨(off - 0x3000) / 64, by omega⟩ (off % 64) v) else none

/-- A write of a link register by Filigree or Bezel; none for another offset. -/
def linkWrite (s : State) (w : Writer) (off : Nat) (v : Word) : Option State :=
  if h : 0x2000 ≤ off ∧ off < 0x20C0 then some (writeLink s w (.scaleUp ⟨(off - 0x2000) / 8, by omega⟩) (bit v 62))
  else if h : 0x20C0 ≤ off ∧ off < 0x20E0 then some (writeLink s w (.farPort ⟨(off - 0x20C0) / 8, by omega⟩) (bit v 62))
  else none

/-- The registers that Bezel alone writes, without their reserved bits (R13, R440, R441, R452, R454, R456, R457); the
measurement registers are only extended (R448). -/
def bezelWrite (s : State) (off : Nat) (v : Word) : Option State :=
  let d := s.dev
  let put (d : Device) : Option State := some { s with dev := d }
  if off = 0 then put { d with boot := v &&& 0x0000FFFFFF00FF07 }
  else if off = 0x18 then put { d with telemetry := v }
  else if 0x40 ≤ off && off < 0x80 then put { d with avail := putBits d.avail (8 * (off - 0x40)) 64 v.toNat }
  else if off = 0x408 then put { d with launch := v &&& 0x8000FFFF00000007 }
  else if off = 0x508 then put { d with switch := v &&& 0xC00000000000FFFF }
  else if off = 0x520 then put { d with pkg := v.setWidth 10 }
  else if off = 0x20E0 then put { d with hostLink := v &&& 0x80FFFF0000000000 }
  else none

/-- A write of the host or Bezel to what both write. -/
def hostWrite (s : State) (w : Writer) (off : Nat) (v : Word) : Option State :=
  ((plainWrite s.dev w off v).map fun d => { s with dev := d }) <|> ruledWrite s w off v <|> ethWrite s w off v

/-- One register written by an agent; what the agent may not write is ignored and recorded (R452, R453). -/
def writeRegister (s : State) (w : Writer) (off : Nat) (v : Word) : State :=
  let done := match w with
    | .host => hostWrite s w off v
    | .filigree => linkWrite s w off v <|> ethWrite s w off v
    | .bezel => bezelWrite s off v <|> linkWrite s w off v <|> hostWrite s w off v
  done.getD (recordRefusal s w off)

/-- The refusal register replaced. -/
def withRefusal (s : State) (v : BitVec 64) : State := { s with dev := { s.dev with refusal := v } }

/-- A write of a register whose refusal, if it is refused, is recorded at the offset of the write itself (R453). -/
def refusedAt (w : Writer) (off : Nat) (write : State → State) (s : State) : State :=
  let t := write (withRefusal s 0)
  if t.dev.refusal = 0 then withRefusal t s.dev.refusal else recordRefusal t w off

/-- A register written with its bytes; a context table entry is judged as the whole image that the write leaves (R401). The
host's write of the refusal register, which is never refused, clears it. -/
def writeBytes (s : State) (w : Writer) (base off : Nat) (bs : List Byte) : State :=
  if 0x200000 ≤ base && base < 0x210000 then
    writeContext s w ((base - 0x200000) / 64) (BitVec.ofNat 512 (leValue bs)) off
  else if base = 0x318 && w = .host then writeRegister s w base (word (leValue bs))
  else refusedAt w off (writeRegister · w base (word (leValue bs))) s

/-- Bytes written from an offset on, register by register, each merged with what its register holds. -/
def writeBlock (w : Writer) : Nat → Nat → List Byte → State → State
  | 0, _, _, s => s
  | n + 1, off, bs, s =>
    if bs.isEmpty then s
    else
      let (base, size) := registerAt off
      let k := min (base + size - off) bs.length
      let old := deviceBytes s base size
      let new := old.take (off - base) ++ bs.take k ++ old.drop (off - base + k)
      writeBlock w n (off + k) (bs.drop k) (writeBytes s w base off new)

/-- A write to a device register, at its offset within the block. -/
def execRegisterWrite (w : Writer) (off : Nat) (size : Nat) (v : BitVec 64) (s : State) : Host.Outcome State Fault Refusal :=
  .next (requested s w (writeBlock w size off (leBytes size v.toNat) s))

/-! ## Accesses by the host and by other packages (R23, R287) -/

/-- Bytes written by an agent that is no hart, performed at system scope. -/
def agentWrite (s : State) (k : Nat) (bs : List Byte) : State := portWrite s k bs

/-- An atomic update of n bytes by an agent that is no hart, which answers with the old value (R176, R282). -/
def agentUpdate (s : State) (k n : Nat) (f : Nat → Option Nat) : State :=
  let r := updateBytes s.dev s.mem none k n f
  { s with mem := r.2, answer := leBytes n r.1 }

/-- The first poisoned byte that an access would read. -/
def agentPoison (m : Mem) (r : Reader) (k : Nat) (op : AgentOp) : Option Nat :=
  match op with
  | .read n => firstPoison m r k n
  | .write _ => none
  | .amo _ _ => firstPoison m r k 8
  | .red _ et _ => firstPoison m r k (etBytes et)
  | .cas _ _ => firstPoison m r k 8

/-- An access to memory by an agent that is no hart; a read of a poisoned byte answers nothing (R394). -/
def agentAccess (s : State) (r : Reader) (k : Nat) (op : AgentOp) : State :=
  if (agentPoison s.mem r k op).isSome then { s with answer := [] }
  else match op with
    | .read n => { s with answer := readBytes s.mem r k n }
    | .write bs => { agentWrite s k bs with answer := [] }
    | .amo op x => agentUpdate s k 8 fun old => some (amoValue op 64 old x.toNat)
    | .red op et x => agentUpdate s k (etBytes et) fun old => some (combineRed op et false old x.toNat)
    | .cas e v => agentUpdate s k 8 fun old => if old = e.toNat then some v.toNat else none

/-- The number of bytes that an access reaches. -/
def agentBytes : AgentOp → Nat
  | .read n => n
  | .write bs => bs.length
  | .amo _ _ => 8
  | .red _ et _ => etBytes et
  | .cas _ _ => 8

/-- An access that arrives from another package on path L, performed here (R285, R287). One that reaches no memory answers
nothing: its report belongs to the package that issued it (R21). -/
def execRemoteAccess (_pkg : Nat) (pa : Nat) (op : AgentOp) (s : State) : Host.Outcome State Fault Refusal :=
  if pkgOf pa = s.dev.pkg.toNat && (unreached s pa (agentBytes op)).isNone then .next (agentAccess s .remote pa op)
  else .next { s with answer := [] }

/-- A host access to the device register block; an atomic reads, and writes what it computes (R452). -/
def hostRegister (s : State) (off : Nat) (op : AgentOp) : State :=
  let update (n : Nat) (f : Nat → Option Nat) : State :=
    let old := deviceBytes s off n
    let s := match f (leValue old) with
      | some v => writeBlock .host n off (leBytes n v) s
      | none => s
    { s with answer := old }
  match op with
  | .read n => { s with answer := deviceBytes s off n }
  | .write bs => { writeBlock .host bs.length off bs s with answer := [] }
  | .amo op x => update 8 fun old => some (amoValue op 64 old x.toNat)
  | .red op et x => update (etBytes et) fun old => some (combineRed op et false old x.toNat)
  | .cas e v => update 8 fun old => if old = e.toNat then some v.toNat else none

/-- What the management controller reads through the sideband (R27); a bank's summary is its status register, and a
temperature is a free value (log 46). -/
def sidebandBytes (s : State) : SidebandItem → List Byte
  | .bootStatus => leBytes 8 s.dev.boot.toNat
  | .startCount => leBytes 8 s.dev.starts.toNat
  | .power => leBytes 8 s.dev.telemetry.toNat
  | .temperature => leBytes 2 (Config.temperature s.fresh).toNat
  | .bank b => leBytes 8 s.dev.banks[b].status.toNat

/-- A reading of bytes of an item; the sideband takes nothing else (R27, R452). -/
def sidebandRead (s : State) (item : SidebandItem) (off : Nat) : AgentOp → State
  | .read n => { s with answer := ((sidebandBytes s item).drop off).take n, fresh := s.fresh + 1 }
  | _ => { s with answer := [] }

/-- An access by the host: to an HBM offset of the package, where one that reaches nothing or reads poison is recorded in
bank 46 (R21, R23, R394, R421), to its own memory, or to the device register block; or a reading of the management
controller. -/
def execHostAccess (sp : HostSpace) (addr : Nat) (op : AgentOp) (s : State) : Host.Outcome State Fault Refusal :=
  match sp with
  | .host => .next (agentAccess s .host (Config.hostBase + addr % 2 ^ 55) op)
  | .device => .next (hostRegister s addr op)
  | .sideband item => .next (sidebandRead s item addr op)
  | .hbm =>
    let k := s.dev.pkg.toNat * 2 ^ 45 + addr
    let bad := if addr + agentBytes op ≤ 8 * Config.stackBytes then unreached s k (agentBytes op) else some k
    match bad with
    | some a => .next { recordUnreachable s 46 0 0 a with answer := [] }
    | none => match agentPoison s.mem .host k op with
      | some a => .next { recordPoison s 46 0 0 (some a) with answer := [] }
      | none => .next (agentAccess s .host k op)

end Machine

end Sys2Proof
end

