-- ==== Sys2Proof/Machine/Start.lean ====
section
/-! DEFINITION. Reset and the start sequence (R13, R22, R27, R28, R440 to R446, R448, R455, R457). -/

namespace Sys2Proof

namespace Machine

/-! ## Package reset (R423, R442, R448, R453) -/

/-- The harts after a package reset; the model's lag stays (log 7). -/
def resetHarts (s : State) : Vector Hart 512 := s.harts.map fun hd => { resetHart with lag := hd.lag }

/-- Memory after a package reset: what has been performed stays, what is on its way is lost (log 18). -/
def resetMemory (m : Mem) : Mem := { resetMem with cells := m.cells, poison := m.poison }

/-- The package in reset: every register at its reset value but the start count, which is in the always-on domain. -/
def wipe (s : State) : State :=
  { s with
    harts := resetHarts s, walks := Vector.replicate 32 [], mem := resetMemory s.mem, sched := resetSched, time := 0, stopped := false
    dev := { resetDevice with starts := s.dev.starts } }

/-! ## Boot status (R441) -/

/-- Boot status with a phase. -/
def atPhase (d : Device) (p : Nat) : Device := { d with boot := putBits d.boot 8 8 p }

/-- Boot status with a bit of its own set or cleared: 0 full, 1 early, 2 minimal. -/
def withBoot (d : Device) (i : Nat) (b : Bool) : Device := { d with boot := putBits d.boot i 1 (ofBool b) }

/-- A stack in service, when it belongs to the interleave set and has not failed in this start. -/
def serveStack (d : Device) (i : Nat) : Device :=
  if bit d.interleave i && !bit d.failedStacks i then { d with boot := putBits d.boot (24 + i) 1 1 } else d

/-- A stack left out of service until the next start, with reason 5 (R445). -/
def failStack (d : Device) (i : Nat) : Device :=
  recordReason { d with boot := putBits d.boot (24 + i) 1 0, failedStacks := putBits d.failedStacks i 1 1 } 5

/-- A stack trained, or left out (R445). -/
def trainStack (d : Device) (i : Nat) (ok : Bool) : Device := if ok then serveStack d i else failStack d i

/-! ## The steps of a start (R443, R444) -/

/-- How a step of the start sequence ends: the start goes on, fails, or halts. -/
inductive StartEnd where
  | goes (d : Device)
  | fails (d : Device)
  | halts (d : Device)

/-- Minimal mode (R444). -/
def minimalMode (d : Device) (i : StartInputs) : Device :=
  let d := recordReason (withBoot (atPhase d 7) 2 true) 1
  trainStack { d with avail := 0xFFFF, interleave := 1 } 0 i.stack0Ok

/-- Step 2: keys and the patch. -/
def patchStep (d : Device) (i : StartInputs) : StartEnd :=
  let d := atPhase d 2
  if !i.pufOk then .halts (recordReason d 7)
  else .goes (if i.patchOk then extendMeasure d 0 i.mPatch else recordReason d 4)

/-- What the configuration image sets (R28, R443): a hart without a clock limit runs up to 940 MHz, and no limit lies below
470 MHz (log 35). -/
def applyImage (d : Device) (c : ConfigImage) : Device :=
  { d with
    avail := c.avail, interleave := c.hbm, pkg := c.pkg
    clockMax := Vector.ofFn fun h =>
      BitVec.ofNat 8 (max 47 (((c.clocks.find? fun p => p.1 == h.val).map (·.2.toNat)).getD 94))
    scaleUp := Vector.ofFn fun n => withBit d.scaleUp[n] 62 (bit c.scaleUpEn n.val)
    farPorts := Vector.ofFn fun m => withBit d.farPorts[m] 62 (bit c.farPortEn m.val)
    parts := Vector.ofFn fun h => ((c.parts.find? fun p => p.1 == h.val).map (·.2)).getD 1
    pool := BitVec.ofNat 64 (min c.poolP 4096), arena := BitVec.ofNat 64 (min c.arenaA 65536) }

/-- Step 3: the configuration image. -/
def imageStep (d : Device) (i : StartInputs) : StartEnd :=
  let d := atPhase d 3
  match i.image with
  | none => .fails (recordReason d 2)
  | some c => .goes (applyImage (extendMeasure d 1 i.mImage) c)

/-- Step 4: circlet 0 and stack 0, and early service. -/
def earlyStep (d : Device) (i : StartInputs) : StartEnd :=
  .goes (trainStack (withBoot (atPhase d 4) 1 true) 0 i.stack0Ok)

/-- Step 5: Filigree is checked and started. -/
def filigreeStep (d : Device) (i : StartInputs) : StartEnd :=
  let d := atPhase d 5
  if !i.filigreeOk then .fails (recordReason d 3) else .goes (extendMeasure d 2 i.mFiligree)

/-- The steps in order. -/
def runSteps : List (Device → StartInputs → StartEnd) → Device → StartInputs → StartEnd
  | [], d, _ => .goes d
  | f :: fs, d, i => match f d i with
    | .goes d => runSteps fs d i
    | r => r

/-- The start count, 8 bits (R441). -/
def startCount (d : Device) : Nat := getBits d.starts 0 8

/-- A start from reset up to the work of Filigree: a failed start leaves the package in reset, and one that halts leaves
it stopped (R443, R445). -/
def startPackage (s : State) (i : StartInputs) : State :=
  let s := wipe s
  let d := atPhase s.dev 1
  if 3 ≤ startCount d then { s with dev := minimalMode d i }
  else
    let d := { d with starts := BitVec.ofNat 64 (min (startCount d + 1) 255) }
    match runSteps [patchStep, imageStep, earlyStep, filigreeStep] d i with
    | .goes d => { s with dev := d }
    | .fails d => wipe { s with dev := d }
    | .halts d => { s with dev := d, stopped := true }

/-- A package reset and the start that follows it. -/
def execPackageReset (i : StartInputs) (s : State) : Host.Outcome State Fault Refusal := .next (startPackage s i)

/-- Power-on: the start count is cleared, and the package is in reset (R442). -/
def execPowerOn (s : State) : Host.Outcome State Fault Refusal := .next (wipe { s with dev := { s.dev with starts := 0 } })

/-- 60 s have passed without full service: unless the package is in minimal mode or halted, it is reset (R443). -/
def execStartTimeout (s : State) : Host.Outcome State Fault Refusal :=
  if bit s.dev.boot 0 || bit s.dev.boot 2 || s.stopped || phaseOf s.dev == 0 then .next s else .next (wipe s)

/-- The management controller requests a package reset through the sideband (R27). -/
def execI3cResetRequest (s : State) : Host.Outcome State Fault Refusal := .next (wipe s)

/-- A stack trained by Filigree at start-up, or that failed training (R445, R446). -/
def execStackTrained (i : Fin 8) (ok : Bool) (s : State) : Host.Outcome State Fault Refusal :=
  .next (if phaseOf s.dev == 5 then { s with dev := trainStack s.dev i.val ok } else s)

/-- The partitions of the launches that wait, each once. -/
def waitingParts (s : State) : List (BitVec 10) := (s.sched.launches.map (·.part)).eraseDups

/-- Full service begins, and with it decisions over every available hart (R442, R443, R446). -/
def execFullService (s : State) : Host.Outcome State Fault Refusal :=
  if phaseOf s.dev != 5 then .next s
  else
    let d := withBoot (withBoot (atPhase s.dev 6) 0 true) 1 false
    .next ((waitingParts s).foldl decide! { s with dev := { d with starts := 0 } })

end Machine

end Sys2Proof
end

