-- ==== Sys2Proof/Machine/Vector.lean ====
section
/-! DEFINITION. The meanings of the vector-side instructions: each is posted to the dispatch queue and performed by the
sequencer (R40, R41). -/

namespace Sys2Proof

namespace Machine

/-! ## Unit VA -/

/-- VADD (R193, R194): its plan is `planVadd`. -/
def execVadd (a : VBin) (s : State) : Host.Outcome State Fault Refusal := .next (postVector s (.vadd a))

/-- VSUB (R193, R194): its plan is `planVsub`. -/
def execVsub (a : VBin) (s : State) : Host.Outcome State Fault Refusal := .next (postVector s (.vsub a))

/-- VRSUB (R193, R194): its plan is `planVrsub`. -/
def execVrsub (a : VBin) (s : State) : Host.Outcome State Fault Refusal := .next (postVector s (.vrsub a))

/-- VMUL (R193, R194): its plan is `planVmul`. -/
def execVmul (a : VBin) (s : State) : Host.Outcome State Fault Refusal := .next (postVector s (.vmul a))

/-- VMULH (R193, R194): its plan is `planVmulh`. -/
def execVmulh (a : VBin) (s : State) : Host.Outcome State Fault Refusal := .next (postVector s (.vmulh a))

/-- VDIV (R193, R194): its plan is `planVdiv`. -/
def execVdiv (a : VBin) (s : State) : Host.Outcome State Fault Refusal := .next (postVector s (.vdiv a))

/-- VREM (R193, R194): its plan is `planVrem`. -/
def execVrem (a : VBin) (s : State) : Host.Outcome State Fault Refusal := .next (postVector s (.vrem a))

/-- VMIN (R193, R194): its plan is `planVmin`. -/
def execVmin (a : VBin) (s : State) : Host.Outcome State Fault Refusal := .next (postVector s (.vmin a))

/-- VMAX (R193, R194): its plan is `planVmax`. -/
def execVmax (a : VBin) (s : State) : Host.Outcome State Fault Refusal := .next (postVector s (.vmax a))

/-- VAND (R193, R194): its plan is `planVand`. -/
def execVand (a : VBin) (s : State) : Host.Outcome State Fault Refusal := .next (postVector s (.vand a))

/-- VOR (R193, R194): its plan is `planVor`. -/
def execVor (a : VBin) (s : State) : Host.Outcome State Fault Refusal := .next (postVector s (.vor a))

/-- VXOR (R193, R194): its plan is `planVxor`. -/
def execVxor (a : VBin) (s : State) : Host.Outcome State Fault Refusal := .next (postVector s (.vxor a))

/-- VSHL (R193, R194): its plan is `planVshl`. -/
def execVshl (a : VBin) (s : State) : Host.Outcome State Fault Refusal := .next (postVector s (.vshl a))

/-- VSHR (R193, R194): its plan is `planVshr`. -/
def execVshr (a : VBin) (s : State) : Host.Outcome State Fault Refusal := .next (postVector s (.vshr a))

/-- VSHA (R193, R194): its plan is `planVsha`. -/
def execVsha (a : VBin) (s : State) : Host.Outcome State Fault Refusal := .next (postVector s (.vsha a))

/-- VSADD (R193, R194): its plan is `planVsadd`. -/
def execVsadd (a : VBin) (s : State) : Host.Outcome State Fault Refusal := .next (postVector s (.vsadd a))

/-- VSSUB (R193, R194): its plan is `planVssub`. -/
def execVssub (a : VBin) (s : State) : Host.Outcome State Fault Refusal := .next (postVector s (.vssub a))

/-- VFMA (R138, R194): its plan is `planVfma`. -/
def execVfma (a : VTern) (s : State) : Host.Outcome State Fault Refusal := .next (postVector s (.vfma a))

/-- VFMS (R138, R194): its plan is `planVfms`. -/
def execVfms (a : VTern) (s : State) : Host.Outcome State Fault Refusal := .next (postVector s (.vfms a))

/-- VFNMA (R138, R194): its plan is `planVfnma`. -/
def execVfnma (a : VTern) (s : State) : Host.Outcome State Fault Refusal := .next (postVector s (.vfnma a))

/-- VFDIV (R138, R194): its plan is `planVfdiv`. -/
def execVfdiv (a : VBin) (s : State) : Host.Outcome State Fault Refusal := .next (postVector s (.vfdiv a))

/-- VFSQRT (R138, R194): its plan is `planVfsqrt`. -/
def execVfsqrt (a : VUn) (s : State) : Host.Outcome State Fault Refusal := .next (postVector s (.vfsqrt a))

/-- VFRSQRT (R138, R194): its plan is `planVfrsqrt`. -/
def execVfrsqrt (a : VUn) (s : State) : Host.Outcome State Fault Refusal := .next (postVector s (.vfrsqrt a))

/-- VFEXP2 (R138, R194): its plan is `planVfexp2`. -/
def execVfexp2 (a : VUn) (s : State) : Host.Outcome State Fault Refusal := .next (postVector s (.vfexp2 a))

/-- VFLOG2 (R138, R194): its plan is `planVflog2`. -/
def execVflog2 (a : VUn) (s : State) : Host.Outcome State Fault Refusal := .next (postVector s (.vflog2 a))

/-- VWADD (R195): its plan is `planVwadd`. -/
def execVwadd (a : VBin) (s : State) : Host.Outcome State Fault Refusal := .next (postVector s (.vwadd a))

/-- VWMUL (R195): its plan is `planVwmul`. -/
def execVwmul (a : VBin) (s : State) : Host.Outcome State Fault Refusal := .next (postVector s (.vwmul a))

/-- VWFMA (R195): its plan is `planVwfma`. -/
def execVwfma (a : VTern) (s : State) : Host.Outcome State Fault Refusal := .next (postVector s (.vwfma a))

/-- VCVT (R196): its plan is `planVcvt`. -/
def execVcvt (a : VUn) (s : State) : Host.Outcome State Fault Refusal := .next (postVector s (.vcvt a))

/-- VWCVT (R196): its plan is `planVwcvt`. -/
def execVwcvt (a : VUn) (s : State) : Host.Outcome State Fault Refusal := .next (postVector s (.vwcvt a))

/-- VNCVT (R196): its plan is `planVncvt`. -/
def execVncvt (a : VUn) (s : State) : Host.Outcome State Fault Refusal := .next (postVector s (.vncvt a))

/-- VQUANT (R197): its plan is `planVquant`. -/
def execVquant (a : VUn) (s : State) : Host.Outcome State Fault Refusal := .next (postVector s (.vquant a))

/-- VDEQUANT (R197): its plan is `planVdequant`. -/
def execVdequant (a : VUn) (s : State) : Host.Outcome State Fault Refusal := .next (postVector s (.vdequant a))

/-- VSEL (R198): its plan is `planVsel`. -/
def execVsel (a : VSelArgs) (s : State) : Host.Outcome State Fault Refusal := .next (postVector s (.vsel a))

/-- VMV (R198): its plan is `planVmv`. -/
def execVmv (a : VMvArgs) (s : State) : Host.Outcome State Fault Refusal := .next (postVector s (.vmv a))

/-! ## Unit VX -/

/-- VGATH (R200): its plan is `planVgath`. -/
def execVgath (a : VVV) (s : State) : Host.Outcome State Fault Refusal := .next (postVector s (.vgath a))

/-- VSLIDEUP (R201): its plan is `planVslideup`. -/
def execVslideup (a : VAmt) (s : State) : Host.Outcome State Fault Refusal := .next (postVector s (.vslideup a))

/-- VSLIDEDN (R201): its plan is `planVslidedn`. -/
def execVslidedn (a : VAmt) (s : State) : Host.Outcome State Fault Refusal := .next (postVector s (.vslidedn a))

/-- VCOMPRESS (R202): its plan is `planVcompress`. -/
def execVcompress (a : VVV) (s : State) : Host.Outcome State Fault Refusal := .next (postVector s (.vcompress a))

/-- VEXPAND (R202): its plan is `planVexpand`. -/
def execVexpand (a : VVV) (s : State) : Host.Outcome State Fault Refusal := .next (postVector s (.vexpand a))

/-- VFPERM (R200): its plan is `planVfperm`. -/
def execVfperm (a : VVV) (s : State) : Host.Outcome State Fault Refusal := .next (postVector s (.vfperm a))

/-- VREDSUM_O (R153, R203): its plan is `planVredsumO`. -/
def execVredsumO (a : VRed) (s : State) : Host.Outcome State Fault Refusal := .next (postVector s (.vredsumO a))

/-- VREDSUM_T (R153, R203): its plan is `planVredsumT`. -/
def execVredsumT (a : VRed) (s : State) : Host.Outcome State Fault Refusal := .next (postVector s (.vredsumT a))

/-- VREDMAX (R153, R203): its plan is `planVredmax`. -/
def execVredmax (a : VRed) (s : State) : Host.Outcome State Fault Refusal := .next (postVector s (.vredmax a))

/-- VREDMIN (R153, R203): its plan is `planVredmin`. -/
def execVredmin (a : VRed) (s : State) : Host.Outcome State Fault Refusal := .next (postVector s (.vredmin a))

/-- VREDAND (R153, R203): its plan is `planVredand`. -/
def execVredand (a : VRed) (s : State) : Host.Outcome State Fault Refusal := .next (postVector s (.vredand a))

/-- VREDOR (R153, R203): its plan is `planVredor`. -/
def execVredor (a : VRed) (s : State) : Host.Outcome State Fault Refusal := .next (postVector s (.vredor a))

/-- VSCAN (R204): its plan is `planVscan`. -/
def execVscan (a : VScanArgs) (s : State) : Host.Outcome State Fault Refusal := .next (postVector s (.vscan a))

/-- VMOVC (R205): its plan is `planVmovc`. -/
def execVmovc (a : VAmt) (s : State) : Host.Outcome State Fault Refusal := .next (postVector s (.vmovc a))

/-- VMOVR (R205): its plan is `planVmovr`. -/
def execVmovr (a : VAmt) (s : State) : Host.Outcome State Fault Refusal := .next (postVector s (.vmovr a))

/-- VCSW (R206): its plan is `planVcsw`. -/
def execVcsw (a : VCswArgs) (s : State) : Host.Outcome State Fault Refusal := .next (postVector s (.vcsw a))

/-- VNORMK (R207): its plan is `planVnormk`. -/
def execVnormk (a : VNormkArgs) (s : State) : Host.Outcome State Fault Refusal := .next (postVector s (.vnormk a))

/-! ## Unit VM -/

/-- VLD (R307): its plan is `planVld`. -/
def execVld (m : VMem) (s : State) : Host.Outcome State Fault Refusal := .next (postVector s (.vld m))

/-- VLDS (R307): its plan is `planVlds`. -/
def execVlds (m : VMem) (xt : XReg) (s : State) : Host.Outcome State Fault Refusal := .next (postVector s (.vlds m xt))

/-- VLDX (R307): its plan is `planVldx`. -/
def execVldx (m : VMem) (vb : VReg) (s : State) : Host.Outcome State Fault Refusal := .next (postVector s (.vldx m vb))

/-- VLDSEG (R309): its plan is `planVldseg`. -/
def execVldseg (m : VMem) (n : BitVec 6) (s : State) : Host.Outcome State Fault Refusal :=
  .next (postVector s (.vldseg m n))

/-- VST (R310, R311): its plan is `planVst`. -/
def execVst (m : VMem) (u : Bool) (s : State) : Host.Outcome State Fault Refusal := .next (postVector s (.vst m u))

/-- VSTS (R310, R311): its plan is `planVsts`. -/
def execVsts (m : VMem) (xt : XReg) (u : Bool) (s : State) : Host.Outcome State Fault Refusal :=
  .next (postVector s (.vsts m xt u))

/-- VSTX (R310, R311): its plan is `planVstx`. -/
def execVstx (m : VMem) (vb : VReg) (u : Bool) (s : State) : Host.Outcome State Fault Refusal :=
  .next (postVector s (.vstx m vb u))

/-- VST_PAIR (R313, R314): its plan is `planVstPair`. -/
def execVstPair (a : VPairArgs) (s : State) : Host.Outcome State Fault Refusal := .next (postVector s (.vstPair a))

/-- VGL (R315): its plan is `planVgl`. -/
def execVgl (m : VMem) (vb : VReg) (s : State) : Host.Outcome State Fault Refusal := .next (postVector s (.vgl m vb))

/-- VSC (R317): its plan is `planVsc`. -/
def execVsc (m : VMem) (vb : VReg) (wd : WReg) (s : State) : Host.Outcome State Fault Refusal :=
  .next (postVector s (.vsc m vb wd))

/-- VAMO (R318): its plan is `planVamo`. -/
def execVamo (a : VAmoArgs) (s : State) : Host.Outcome State Fault Refusal := .next (postVector s (.vamo a))

/-- VSRED (R319): its plan is `planVsred`. -/
def execVsred (a : VSredArgs) (s : State) : Host.Outcome State Fault Refusal := .next (postVector s (.vsred a))

/-- VCOPY (R322): its plan is `planVcopy`. -/
def execVcopy (a : VCopyArgs) (s : State) : Host.Outcome State Fault Refusal := .next (postVector s (.vcopy a))

/-! ## Unit VS -/

/-- SLD (R330): its plan is `planSld`. -/
def execSld (m : VStage) (s : State) : Host.Outcome State Fault Refusal := .next (postVector s (.sld m))

/-- SST (R330): its plan is `planSst`. -/
def execSst (m : VStage) (s : State) : Host.Outcome State Fault Refusal := .next (postVector s (.sst m))

/-- SLDX (R330): its plan is `planSldx`. -/
def execSldx (m : VStage) (vb : VReg) (s : State) : Host.Outcome State Fault Refusal :=
  .next (postVector s (.sldx m vb))

/-- SSTX (R330): its plan is `planSstx`. -/
def execSstx (m : VStage) (vb : VReg) (s : State) : Host.Outcome State Fault Refusal :=
  .next (postVector s (.sstx m vb))

/-- SCOPY (R332): its plan is `planScopy`. -/
def execScopy (a : ScopyArgs) (s : State) : Host.Outcome State Fault Refusal := .next (postVector s (.scopy a))

/-- SCOPY_X (R332): its plan is `planScopyX`. -/
def execScopyX (a : ScopyArgs) (vb : VReg) (s : State) : Host.Outcome State Fault Refusal :=
  .next (postVector s (.scopyX a vb))

/-- SAMO (R331): its plan is `planSamo`. -/
def execSamo (a : SamoArgs) (s : State) : Host.Outcome State Fault Refusal := .next (postVector s (.samo a))

/-- BLD (R335): its plan is `planBld`. -/
def execBld (m : VStage) (s : State) : Host.Outcome State Fault Refusal := .next (postVector s (.bld m))

/-- BST (R335): its plan is `planBst`. -/
def execBst (m : VStage) (s : State) : Host.Outcome State Fault Refusal := .next (postVector s (.bst m))

/-- FCINS (R337): its plan is `planFcins`. -/
def execFcins (a : VVSrc) (s : State) : Host.Outcome State Fault Refusal := .next (postVector s (.fcins a))

/-- FCLOOK (R338): its plan is `planFclook`. -/
def execFclook (a : FcLookArgs) (s : State) : Host.Outcome State Fault Refusal := .next (postVector s (.fclook a))

/-- FCACC (R337): its plan is `planFcacc`. -/
def execFcacc (a : VVSrc) (op : FcOp) (s : State) : Host.Outcome State Fault Refusal :=
  .next (postVector s (.fcacc a op))

/-- FCDRAIN (R339): its plan is `planFcdrain`. -/
def execFcdrain (a : VUn) (s : State) : Host.Outcome State Fault Refusal := .next (postVector s (.fcdrain a))

/-- FCCLR (R339): its plan is `planFcclr`. -/
def execFcclr (ws : WReg) (rm : Rm) (s : State) : Host.Outcome State Fault Refusal :=
  .next (postVector s (.fcclr ws rm))

/-! ## Unit MX -/

/-- MMUL_O (R246): its plan is `planMmulO`. -/
def execMmulO (a : MxArgs) (s : State) : Host.Outcome State Fault Refusal := .next (postVector s (.mmulO a))

/-- MMUL_R (R246): its plan is `planMmulR`. -/
def execMmulR (a : MxArgs) (s : State) : Host.Outcome State Fault Refusal := .next (postVector s (.mmulR a))

/-- MMUL_SP (R258): its plan is `planMmulSp`. -/
def execMmulSp (a : Mx4Args) (s : State) : Host.Outcome State Fault Refusal := .next (postVector s (.mmulSp a))

/-- MMUL_GRP (R255): its plan is `planMmulGrp`. -/
def execMmulGrp (a : Mx4Args) (s : State) : Host.Outcome State Fault Refusal := .next (postVector s (.mmulGrp a))

/-- MLATCH (R252): its plan is `planMlatch`. -/
def execMlatch (a : MlatchArgs) (s : State) : Host.Outcome State Fault Refusal := .next (postVector s (.mlatch a))

/-- MLATCH_STAGE (R252): its plan is `planMlatchStage`. -/
def execMlatchStage (a : MlatchArgs) (s : State) : Host.Outcome State Fault Refusal :=
  .next (postVector s (.mlatchStage a))

/-- MREGROW (R260): its plan is `planMregrow`. -/
def execMregrow (a : MregrowArgs) (s : State) : Host.Outcome State Fault Refusal := .next (postVector s (.mregrow a))

/-! ## Unit WG -/

/-- WCMP_EQ (R226): its plan is `planWcmpEq`. -/
def execWcmpEq (a : WCmpArgs) (s : State) : Host.Outcome State Fault Refusal := .next (postVector s (.wcmpEq a))

/-- WCMP_NE (R226): its plan is `planWcmpNe`. -/
def execWcmpNe (a : WCmpArgs) (s : State) : Host.Outcome State Fault Refusal := .next (postVector s (.wcmpNe a))

/-- WCMP_LT (R226): its plan is `planWcmpLt`. -/
def execWcmpLt (a : WCmpArgs) (s : State) : Host.Outcome State Fault Refusal := .next (postVector s (.wcmpLt a))

/-- WCMP_LE (R226): its plan is `planWcmpLe`. -/
def execWcmpLe (a : WCmpArgs) (s : State) : Host.Outcome State Fault Refusal := .next (postVector s (.wcmpLe a))

/-- WCMP_GT (R226): its plan is `planWcmpGt`. -/
def execWcmpGt (a : WCmpArgs) (s : State) : Host.Outcome State Fault Refusal := .next (postVector s (.wcmpGt a))

/-- WCMP_GE (R226): its plan is `planWcmpGe`. -/
def execWcmpGe (a : WCmpArgs) (s : State) : Host.Outcome State Fault Refusal := .next (postVector s (.wcmpGe a))

/-- WSOFT_GT (R227): its plan is `planWsoftGt`. -/
def execWsoftGt (a : WCmpArgs) (s : State) : Host.Outcome State Fault Refusal := .next (postVector s (.wsoftGt a))

/-- WSOFT_LT (R227): its plan is `planWsoftLt`. -/
def execWsoftLt (a : WCmpArgs) (s : State) : Host.Outcome State Fault Refusal := .next (postVector s (.wsoftLt a))

/-- WCOMP (R228): its plan is `planWcomp`. -/
def execWcomp (a : WW) (s : State) : Host.Outcome State Fault Refusal := .next (postVector s (.wcomp a))

/-- WMUL (R228): its plan is `planWmul`. -/
def execWmul (a : WWW) (s : State) : Host.Outcome State Fault Refusal := .next (postVector s (.wmul a))

/-- WMIN (R228): its plan is `planWmin`. -/
def execWmin (a : WWW) (s : State) : Host.Outcome State Fault Refusal := .next (postVector s (.wmin a))

/-- WMAX (R228): its plan is `planWmax`. -/
def execWmax (a : WWW) (s : State) : Host.Outcome State Fault Refusal := .next (postVector s (.wmax a))

/-- WMV (R228): its plan is `planWmv`. -/
def execWmv (a : WW) (s : State) : Host.Outcome State Fault Refusal := .next (postVector s (.wmv a))

/-- WFROMV (R229): its plan is `planWfromv`. -/
def execWfromv (wd : WReg) (va : VReg) (rm : Rm) (s : State) : Host.Outcome State Fault Refusal :=
  .next (postVector s (.wfromv wd va rm))

/-- WTOV (R229): its plan is `planWtov`. -/
def execWtov (vd : VReg) (wa : WReg) (rm : Rm) (s : State) : Host.Outcome State Fault Refusal :=
  .next (postVector s (.wtov vd wa rm))

/-- WBLEND (R233): its plan is `planWblend`. -/
def execWblend (a : WBlendArgs) (s : State) : Host.Outcome State Fault Refusal := .next (postVector s (.wblend a))

/-- WGRAD_B (R234): its plan is `planWgradB`. -/
def execWgradB (a : WGradBArgs) (s : State) : Host.Outcome State Fault Refusal := .next (postVector s (.wgradB a))

/-- WGRAD_S (R234): its plan is `planWgradS`. -/
def execWgradS (vd va : VReg) (ws : WReg) (rm : Rm) (s : State) : Host.Outcome State Fault Refusal :=
  .next (postVector s (.wgradS vd va ws rm))

/-- WMAXR (R235): its plan is `planWmaxr`. -/
def execWmaxr (xd : XReg) (wa : WReg) (rm : Rm) (s : State) : Host.Outcome State Fault Refusal :=
  .next (postVector s (.wmaxr xd wa rm))

/-- WPOP (R235): its plan is `planWpop`. -/
def execWpop (xd : XReg) (wa : WReg) (rm : Rm) (s : State) : Host.Outcome State Fault Refusal :=
  .next (postVector s (.wpop xd wa rm))

/-! ## Unit NX -/

/-- VST_N (R349): its plan is `planVstN`. -/
def execVstN (xd : XReg) (va : VReg) (ws : WReg) (rm : Rm) (s : State) : Host.Outcome State Fault Refusal :=
  .next (postVector s (.vstN xd va ws rm))

/-- NREL (R351): its plan is `planNrel`. -/
def execNrel (xs : XReg) (ws : WReg) (rm : Rm) (s : State) : Host.Outcome State Fault Refusal :=
  .next (postVector s (.nrel xs ws rm))

/-- NREL_V (R351): its plan is `planNrelV`. -/
def execNrelV (vb : VReg) (ws : WReg) (rm : Rm) (s : State) : Host.Outcome State Fault Refusal :=
  .next (postVector s (.nrelV vb ws rm))

end Machine

end Sys2Proof
end

