-- ==== Sys2Proof/Machine/Dispatch.lean ====
section
/-! DEFINITION. One arm for each constructor of `Instr`: a direct call of its meaning. -/

namespace Sys2Proof

namespace Machine

def exec (i : Instr) (s : State) : Host.Outcome State Fault Refusal :=
  match i with
  | .ldb rd ra imm => Sys2Proof.Machine.execLdb rd ra imm s
  | .ldh rd ra imm => Sys2Proof.Machine.execLdh rd ra imm s
  | .ldw rd ra imm => Sys2Proof.Machine.execLdw rd ra imm s
  | .ldd rd ra imm => Sys2Proof.Machine.execLdd rd ra imm s
  | .ldbn rd ra imm => Sys2Proof.Machine.execLdbn rd ra imm s
  | .ldhn rd ra imm => Sys2Proof.Machine.execLdhn rd ra imm s
  | .ldwn rd ra imm => Sys2Proof.Machine.execLdwn rd ra imm s
  | .stb rb ra imm => Sys2Proof.Machine.execStb rb ra imm s
  | .sth rb ra imm => Sys2Proof.Machine.execSth rb ra imm s
  | .stw rb ra imm => Sys2Proof.Machine.execStw rb ra imm s
  | .std rb ra imm => Sys2Proof.Machine.execStd rb ra imm s
  | .addi rd ra imm => Sys2Proof.Machine.execAddi rd ra imm s
  | .andi rd ra imm => Sys2Proof.Machine.execAndi rd ra imm s
  | .ori rd ra imm => Sys2Proof.Machine.execOri rd ra imm s
  | .xori rd ra imm => Sys2Proof.Machine.execXori rd ra imm s
  | .shli rd ra sh => Sys2Proof.Machine.execShli rd ra sh s
  | .shri rd ra sh => Sys2Proof.Machine.execShri rd ra sh s
  | .shai rd ra sh => Sys2Proof.Machine.execShai rd ra sh s
  | .slti rd ra imm => Sys2Proof.Machine.execSlti rd ra imm s
  | .sltni rd ra imm => Sys2Proof.Machine.execSltni rd ra imm s
  | .add rd ra rb => Sys2Proof.Machine.execAdd rd ra rb s
  | .sub rd ra rb => Sys2Proof.Machine.execSub rd ra rb s
  | .and rd ra rb => Sys2Proof.Machine.execAnd rd ra rb s
  | .or rd ra rb => Sys2Proof.Machine.execOr rd ra rb s
  | .xor rd ra rb => Sys2Proof.Machine.execXor rd ra rb s
  | .shl rd ra rb => Sys2Proof.Machine.execShl rd ra rb s
  | .shr rd ra rb => Sys2Proof.Machine.execShr rd ra rb s
  | .sha rd ra rb => Sys2Proof.Machine.execSha rd ra rb s
  | .slt rd ra rb => Sys2Proof.Machine.execSlt rd ra rb s
  | .sltn rd ra rb => Sys2Proof.Machine.execSltn rd ra rb s
  | .min rd ra rb => Sys2Proof.Machine.execMin rd ra rb s
  | .max rd ra rb => Sys2Proof.Machine.execMax rd ra rb s
  | .minn rd ra rb => Sys2Proof.Machine.execMinn rd ra rb s
  | .maxn rd ra rb => Sys2Proof.Machine.execMaxn rd ra rb s
  | .mul rd ra rb => Sys2Proof.Machine.execMul rd ra rb s
  | .mulh rd ra rb => Sys2Proof.Machine.execMulh rd ra rb s
  | .mulhn rd ra rb => Sys2Proof.Machine.execMulhn rd ra rb s
  | .div rd ra rb => Sys2Proof.Machine.execDiv rd ra rb s
  | .divn rd ra rb => Sys2Proof.Machine.execDivn rd ra rb s
  | .rem rd ra rb => Sys2Proof.Machine.execRem rd ra rb s
  | .remn rd ra rb => Sys2Proof.Machine.execRemn rd ra rb s
  | .beq ra rb off => Sys2Proof.Machine.execBeq ra rb off s
  | .bne ra rb off => Sys2Proof.Machine.execBne ra rb off s
  | .blt ra rb off => Sys2Proof.Machine.execBlt ra rb off s
  | .bge ra rb off => Sys2Proof.Machine.execBge ra rb off s
  | .bltn ra rb off => Sys2Proof.Machine.execBltn ra rb off s
  | .bgen ra rb off => Sys2Proof.Machine.execBgen ra rb off s
  | .jal rd imm => Sys2Proof.Machine.execJal rd imm s
  | .jalr rd ra imm => Sys2Proof.Machine.execJalr rd ra imm s
  | .lhi rd imm => Sys2Proof.Machine.execLhi rd imm s
  | .apc rd imm => Sys2Proof.Machine.execApc rd imm s
  | .csrr rd csr => Sys2Proof.Machine.execCsrr rd csr s
  | .csrw rd ra csr => Sys2Proof.Machine.execCsrw rd ra csr s
  | .csrs rd ra csr => Sys2Proof.Machine.execCsrs rd ra csr s
  | .csrc rd ra csr => Sys2Proof.Machine.execCsrc rd ra csr s
  | .amoadd rd ra rb sc ord => Sys2Proof.Machine.execAmoadd rd ra rb sc ord s
  | .amoswap rd ra rb sc ord => Sys2Proof.Machine.execAmoswap rd ra rb sc ord s
  | .amocas rd ra rb sc ord => Sys2Proof.Machine.execAmocas rd ra rb sc ord s
  | .amomax rd ra rb sc ord => Sys2Proof.Machine.execAmomax rd ra rb sc ord s
  | .amomin rd ra rb sc ord => Sys2Proof.Machine.execAmomin rd ra rb sc ord s
  | .amoand rd ra rb sc ord => Sys2Proof.Machine.execAmoand rd ra rb sc ord s
  | .amoor rd ra rb sc ord => Sys2Proof.Machine.execAmoor rd ra rb sc ord s
  | .fence sc => Sys2Proof.Machine.execFence sc s
  | .fenceX before after sc => Sys2Proof.Machine.execFenceX before after sc s
  | .cwait rd ra rb sc => Sys2Proof.Machine.execCwait rd ra rb sc s
  | .cwaitWake h => Sys2Proof.Machine.execCwaitWake h s
  | .fbar => Sys2Proof.Machine.execFbar s
  | .sys imm => Sys2Proof.Machine.execSys imm s
  | .eret => Sys2Proof.Machine.execEret s
  | .idle => Sys2Proof.Machine.execIdle s
  | .idleTimeout h => Sys2Proof.Machine.execIdleTimeout h s
  | .brk imm => Sys2Proof.Machine.execBrk imm s
  | .yield => Sys2Proof.Machine.execYield s
  | .endHart => Sys2Proof.Machine.execEndHart s
  | .trig => Sys2Proof.Machine.execTrig s
  | .strip rd => Sys2Proof.Machine.execStrip rd s
  | .launch rd ra => Sys2Proof.Machine.execLaunch rd ra s
  | .icinv ra rb => Sys2Proof.Machine.execIcinv ra rb s
  | .tlbinv ra rb => Sys2Proof.Machine.execTlbinv ra rb s
  | .xbind rd ra => Sys2Proof.Machine.execXbind rd ra s
  | .xunpin ra => Sys2Proof.Machine.execXunpin ra s
  | .xpark ra v => Sys2Proof.Machine.execXpark ra v s
  | .xparkResume h => Sys2Proof.Machine.execXparkResume h s
  | .xwake rd v => Sys2Proof.Machine.execXwake rd v s
  | .xwakeW rd v => Sys2Proof.Machine.execXwakeW rd v s
  | .xwakeWWake h => Sys2Proof.Machine.execXwakeWWake h s
  | .xsend v ra rb => Sys2Proof.Machine.execXsend v ra rb s
  | .xsendResume h => Sys2Proof.Machine.execXsendResume h s
  | .xrecv rd v => Sys2Proof.Machine.execXrecv rd v s
  | .ertw ra rb => Sys2Proof.Machine.execErtw ra rb s
  | .setvli rd ra vt => Sys2Proof.Machine.execSetvli rd ra vt s
  | .setvl rd ra rb => Sys2Proof.Machine.execSetvl rd ra rb s
  | .clasp count slots => Sys2Proof.Machine.execClasp count slots s
  | .cAdd rd rs => Sys2Proof.Machine.execCAdd rd rs s
  | .cSub rd rs => Sys2Proof.Machine.execCSub rd rs s
  | .cAnd rd rs => Sys2Proof.Machine.execCAnd rd rs s
  | .cOr rd rs => Sys2Proof.Machine.execCOr rd rs s
  | .cXor rd rs => Sys2Proof.Machine.execCXor rd rs s
  | .cMv rd => Sys2Proof.Machine.execCMv rd s
  | .cAddi rd imm => Sys2Proof.Machine.execCAddi rd imm s
  | .cShli rd imm => Sys2Proof.Machine.execCShli rd imm s
  | .cLd rd imm => Sys2Proof.Machine.execCLd rd imm s
  | .cSt rs imm => Sys2Proof.Machine.execCSt rs imm s
  | .cBeqz off => Sys2Proof.Machine.execCBeqz off s
  | .cBnez off => Sys2Proof.Machine.execCBnez off s
  | .cJ off => Sys2Proof.Machine.execCJ off s
  | .dispatchQueueResume h => Sys2Proof.Machine.execDispatchQueueResume h s
  | .vadd a => Sys2Proof.Machine.execVadd a s
  | .vsub a => Sys2Proof.Machine.execVsub a s
  | .vrsub a => Sys2Proof.Machine.execVrsub a s
  | .vmul a => Sys2Proof.Machine.execVmul a s
  | .vmulh a => Sys2Proof.Machine.execVmulh a s
  | .vdiv a => Sys2Proof.Machine.execVdiv a s
  | .vrem a => Sys2Proof.Machine.execVrem a s
  | .vmin a => Sys2Proof.Machine.execVmin a s
  | .vmax a => Sys2Proof.Machine.execVmax a s
  | .vand a => Sys2Proof.Machine.execVand a s
  | .vor a => Sys2Proof.Machine.execVor a s
  | .vxor a => Sys2Proof.Machine.execVxor a s
  | .vshl a => Sys2Proof.Machine.execVshl a s
  | .vshr a => Sys2Proof.Machine.execVshr a s
  | .vsha a => Sys2Proof.Machine.execVsha a s
  | .vsadd a => Sys2Proof.Machine.execVsadd a s
  | .vssub a => Sys2Proof.Machine.execVssub a s
  | .vfma a => Sys2Proof.Machine.execVfma a s
  | .vfms a => Sys2Proof.Machine.execVfms a s
  | .vfnma a => Sys2Proof.Machine.execVfnma a s
  | .vfdiv a => Sys2Proof.Machine.execVfdiv a s
  | .vfsqrt a => Sys2Proof.Machine.execVfsqrt a s
  | .vfrsqrt a => Sys2Proof.Machine.execVfrsqrt a s
  | .vfexp2 a => Sys2Proof.Machine.execVfexp2 a s
  | .vflog2 a => Sys2Proof.Machine.execVflog2 a s
  | .vwadd a => Sys2Proof.Machine.execVwadd a s
  | .vwmul a => Sys2Proof.Machine.execVwmul a s
  | .vwfma a => Sys2Proof.Machine.execVwfma a s
  | .vcvt a => Sys2Proof.Machine.execVcvt a s
  | .vwcvt a => Sys2Proof.Machine.execVwcvt a s
  | .vncvt a => Sys2Proof.Machine.execVncvt a s
  | .vquant a => Sys2Proof.Machine.execVquant a s
  | .vdequant a => Sys2Proof.Machine.execVdequant a s
  | .vsel a => Sys2Proof.Machine.execVsel a s
  | .vmv a => Sys2Proof.Machine.execVmv a s
  | .vgath a => Sys2Proof.Machine.execVgath a s
  | .vslideup a => Sys2Proof.Machine.execVslideup a s
  | .vslidedn a => Sys2Proof.Machine.execVslidedn a s
  | .vcompress a => Sys2Proof.Machine.execVcompress a s
  | .vexpand a => Sys2Proof.Machine.execVexpand a s
  | .vfperm a => Sys2Proof.Machine.execVfperm a s
  | .vredsumO a => Sys2Proof.Machine.execVredsumO a s
  | .vredsumT a => Sys2Proof.Machine.execVredsumT a s
  | .vredmax a => Sys2Proof.Machine.execVredmax a s
  | .vredmin a => Sys2Proof.Machine.execVredmin a s
  | .vredand a => Sys2Proof.Machine.execVredand a s
  | .vredor a => Sys2Proof.Machine.execVredor a s
  | .vscan a => Sys2Proof.Machine.execVscan a s
  | .vmovc a => Sys2Proof.Machine.execVmovc a s
  | .vmovr a => Sys2Proof.Machine.execVmovr a s
  | .vcsw a => Sys2Proof.Machine.execVcsw a s
  | .vnormk a => Sys2Proof.Machine.execVnormk a s
  | .vld m => Sys2Proof.Machine.execVld m s
  | .vlds m xt => Sys2Proof.Machine.execVlds m xt s
  | .vldx m vb => Sys2Proof.Machine.execVldx m vb s
  | .vldseg m n => Sys2Proof.Machine.execVldseg m n s
  | .vst m u => Sys2Proof.Machine.execVst m u s
  | .vsts m xt u => Sys2Proof.Machine.execVsts m xt u s
  | .vstx m vb u => Sys2Proof.Machine.execVstx m vb u s
  | .vstPair a => Sys2Proof.Machine.execVstPair a s
  | .vgl m vb => Sys2Proof.Machine.execVgl m vb s
  | .vsc m vb wd => Sys2Proof.Machine.execVsc m vb wd s
  | .vamo a => Sys2Proof.Machine.execVamo a s
  | .vsred a => Sys2Proof.Machine.execVsred a s
  | .vsredElementPerform n => Sys2Proof.Machine.execVsredElementPerform n s
  | .vcopy a => Sys2Proof.Machine.execVcopy a s
  | .vcopyCounterIncrement n => Sys2Proof.Machine.execVcopyCounterIncrement n s
  | .sld m => Sys2Proof.Machine.execSld m s
  | .sst m => Sys2Proof.Machine.execSst m s
  | .sldx m vb => Sys2Proof.Machine.execSldx m vb s
  | .sstx m vb => Sys2Proof.Machine.execSstx m vb s
  | .scopy a => Sys2Proof.Machine.execScopy a s
  | .scopyX a vb => Sys2Proof.Machine.execScopyX a vb s
  | .samo a => Sys2Proof.Machine.execSamo a s
  | .bld m => Sys2Proof.Machine.execBld m s
  | .bst m => Sys2Proof.Machine.execBst m s
  | .fcins a => Sys2Proof.Machine.execFcins a s
  | .fclook a => Sys2Proof.Machine.execFclook a s
  | .fcacc a op => Sys2Proof.Machine.execFcacc a op s
  | .fcdrain a => Sys2Proof.Machine.execFcdrain a s
  | .fcclr ws rm => Sys2Proof.Machine.execFcclr ws rm s
  | .mmulO a => Sys2Proof.Machine.execMmulO a s
  | .mmulR a => Sys2Proof.Machine.execMmulR a s
  | .mmulSp a => Sys2Proof.Machine.execMmulSp a s
  | .mmulGrp a => Sys2Proof.Machine.execMmulGrp a s
  | .mlatch a => Sys2Proof.Machine.execMlatch a s
  | .mlatchStage a => Sys2Proof.Machine.execMlatchStage a s
  | .mregrow a => Sys2Proof.Machine.execMregrow a s
  | .wcmpEq a => Sys2Proof.Machine.execWcmpEq a s
  | .wcmpNe a => Sys2Proof.Machine.execWcmpNe a s
  | .wcmpLt a => Sys2Proof.Machine.execWcmpLt a s
  | .wcmpLe a => Sys2Proof.Machine.execWcmpLe a s
  | .wcmpGt a => Sys2Proof.Machine.execWcmpGt a s
  | .wcmpGe a => Sys2Proof.Machine.execWcmpGe a s
  | .wsoftGt a => Sys2Proof.Machine.execWsoftGt a s
  | .wsoftLt a => Sys2Proof.Machine.execWsoftLt a s
  | .wcomp a => Sys2Proof.Machine.execWcomp a s
  | .wmul a => Sys2Proof.Machine.execWmul a s
  | .wmin a => Sys2Proof.Machine.execWmin a s
  | .wmax a => Sys2Proof.Machine.execWmax a s
  | .wmv a => Sys2Proof.Machine.execWmv a s
  | .wfromv wd va rm => Sys2Proof.Machine.execWfromv wd va rm s
  | .wtov vd wa rm => Sys2Proof.Machine.execWtov vd wa rm s
  | .wbr wa off rm => Sys2Proof.Machine.execWbr wa off rm s
  | .wsel wa rm => Sys2Proof.Machine.execWsel wa rm s
  | .wloop wd wa off rm => Sys2Proof.Machine.execWloop wd wa off rm s
  | .wloopDecide h => Sys2Proof.Machine.execWloopDecide h s
  | .wblend a => Sys2Proof.Machine.execWblend a s
  | .wgradB a => Sys2Proof.Machine.execWgradB a s
  | .wgradS vd va ws rm => Sys2Proof.Machine.execWgradS vd va ws rm s
  | .wmaxr xd wa rm => Sys2Proof.Machine.execWmaxr xd wa rm s
  | .wpop xd wa rm => Sys2Proof.Machine.execWpop xd wa rm s
  | .vstN xd va ws rm => Sys2Proof.Machine.execVstN xd va ws rm s
  | .nrel xs ws rm => Sys2Proof.Machine.execNrel xs ws rm s
  | .nrelV vb ws rm => Sys2Proof.Machine.execNrelV vb ws rm s
  | .illegalInstruction bits => Sys2Proof.Machine.execIllegalInstruction bits s
  | .instructionFetchFault cause addr => Sys2Proof.Machine.execInstructionFetchFault cause addr s
  | .schedulerDecision part => Sys2Proof.Machine.execSchedulerDecision part s
  | .decisionTimer part => Sys2Proof.Machine.execDecisionTimer part s
  | .accessPerformed part sc => Sys2Proof.Machine.execAccessPerformed part sc s
  | .preemptionSave h groups => Sys2Proof.Machine.execPreemptionSave h groups s
  | .asyncMachineCheck h point e => Sys2Proof.Machine.execAsyncMachineCheck h point e s
  | .cmcFarmEndTimeout farm => Sys2Proof.Machine.execCmcFarmEndTimeout farm s
  | .fetchComplete entry => Sys2Proof.Machine.execFetchComplete entry s
  | .tokenArrival t => Sys2Proof.Machine.execTokenArrival t s
  | .tokenAck h n => Sys2Proof.Machine.execTokenAck h n s
  | .tokenBusy h n => Sys2Proof.Machine.execTokenBusy h n s
  | .tokenRefuse h n => Sys2Proof.Machine.execTokenRefuse h n s
  | .tokenTimeout h n => Sys2Proof.Machine.execTokenTimeout h n s
  | .remoteAccess pkg pa op => Sys2Proof.Machine.execRemoteAccess pkg pa op s
  | .hostAccess sp addr op => Sys2Proof.Machine.execHostAccess sp addr op s
  | .packageReset inp => Sys2Proof.Machine.execPackageReset inp s
  | .registerWrite w off size v => Sys2Proof.Machine.execRegisterWrite w off size v s
  | .contextTableWrite w ctx image => Sys2Proof.Machine.execContextTableWrite w ctx image s
  | .partitionWrite w h v => Sys2Proof.Machine.execPartitionWrite w h v s
  | .launchDoorbell v => Sys2Proof.Machine.execLaunchDoorbell v s
  | .arithmeticCycle h c => Sys2Proof.Machine.execArithmeticCycle h c s
  | .hbmContainedError e lines slots => Sys2Proof.Machine.execHbmContainedError e lines slots s
  | .poolConfiguration v => Sys2Proof.Machine.execPoolConfiguration v s
  | .expertArena v => Sys2Proof.Machine.execExpertArena v s
  | .contextSwitchHold ctx => Sys2Proof.Machine.execContextSwitchHold ctx s
  | .contextSwitchRelease ctx => Sys2Proof.Machine.execContextSwitchRelease ctx s
  | .linkTrained l info => Sys2Proof.Machine.execLinkTrained l info s
  | .tokenRetransmit h n => Sys2Proof.Machine.execTokenRetransmit h n s
  | .unreachableTimeout n => Sys2Proof.Machine.execUnreachableTimeout n s
  | .linkFailure l => Sys2Proof.Machine.execLinkFailure l s
  | .linkDisable l => Sys2Proof.Machine.execLinkDisable l s
  | .linkRetrain l => Sys2Proof.Machine.execLinkRetrain l s
  | .powerWindow watts => Sys2Proof.Machine.execPowerWindow watts s
  | .fatalError e => Sys2Proof.Machine.execFatalError e s
  | .correctedError e => Sys2Proof.Machine.execCorrectedError e s
  | .stackTrained st ok => Sys2Proof.Machine.execStackTrained st ok s
  | .selfTestComplete h pass item => Sys2Proof.Machine.execSelfTestComplete h pass item s
  | .clockChangeComplete h act => Sys2Proof.Machine.execClockChangeComplete h act s
  | .islandRequest w h req => Sys2Proof.Machine.execIslandRequest w h req s
  | .poolSweep v => Sys2Proof.Machine.execPoolSweep v s
  | .refusalClear v => Sys2Proof.Machine.execRefusalClear v s
  | .idleWake h => Sys2Proof.Machine.execIdleWake h s
  | .attestationDoorbell nonce => Sys2Proof.Machine.execAttestationDoorbell nonce s
  | .measurementExtend r d => Sys2Proof.Machine.execMeasurementExtend r d s
  | .bankStatusWrite w bank status count => Sys2Proof.Machine.execBankStatusWrite w bank status count s
  | .ethPortEnable w p => Sys2Proof.Machine.execEthPortEnable w p s
  | .ethPortDisable w p => Sys2Proof.Machine.execEthPortDisable w p s
  | .ethTxTail w p v => Sys2Proof.Machine.execEthTxTail w p v s
  | .ethRxTail w p v => Sys2Proof.Machine.execEthRxTail w p v s
  | .ethTxComplete p ok => Sys2Proof.Machine.execEthTxComplete p ok s
  | .ethFrameReceived p src flow data => Sys2Proof.Machine.execEthFrameReceived p src flow data s
  | .ethReceiveTimeout p => Sys2Proof.Machine.execEthReceiveTimeout p s
  | .ethLinkChange p up => Sys2Proof.Machine.execEthLinkChange p up s
  | .fetchAdmit => Sys2Proof.Machine.execFetchAdmit s
  | .thermalTrip => Sys2Proof.Machine.execThermalTrip s
  | .powerOn => Sys2Proof.Machine.execPowerOn s
  | .startTimeout => Sys2Proof.Machine.execStartTimeout s
  | .fullService => Sys2Proof.Machine.execFullService s
  | .i3cResetRequest => Sys2Proof.Machine.execI3cResetRequest s
  | .sweepComplete => Sys2Proof.Machine.execSweepComplete s
  | .quoteReady => Sys2Proof.Machine.execQuoteReady s
  | .referenceTick => Sys2Proof.Machine.execReferenceTick s

end Machine

end Sys2Proof
end

