-- ==== Sys2Proof/Machine/Turn.lean ====
section
/-! DEFINITION. A hart's turn (R69 to R73, R391), and the program that `State.withFetchWord` places. -/

namespace Sys2Proof

namespace Machine

/-- A latched trap is to be taken: the hart is in user mode (R383, R391). -/
def trapDue (hd : Hart) : Bool := hd.pendingTrap.isSome && !hd.priv

/-- A hart's turn: it takes a latched trap, or fetches the instruction at its PC and runs it; a fetch fault and a pattern
that is no instruction are steps of their own. A hart that waits, or on which nothing runs, does nothing. -/
def hartTurn (s : State) (h : HartId) : Host.Outcome State Fault Refusal :=
  if s.stopped then .fault .packageStopped
  else if (hartOf s h).run ≠ .running then .next { s with cur := h }
  else if trapDue (hartOf s h) then .next (takePending { s with cur := h } h)
  else
    match fetch { s with cur := h } h with
    | (.instr i _ _, s) => exec i s
    | (.fault c a, s) => exec (.instructionFetchFault c a) s
    | (.illegal b, s) => exec (.illegalInstruction b) s

/-- What can still happen in a package that a fatal error or a halt has stopped: the host and the management controller
read, and a reset or a power-on begins anew (R395, R445). -/
def worksStopped : Instr → Bool
  | .hostAccess _ _ (.read _) => true
  | .i3cResetRequest => true
  | .packageReset _ => true
  | .powerOn => true
  | _ => false

/-! ## A program to fetch (log 14) -/

/-- Where the tables, the completion word, the log and the program of `placeWord` lie in the package's HBM. -/
def demoCells (pkg nbits w : Nat) : List Host.Cell :=
  let base := pkg * 2 ^ 45
  let entry (a v : Nat) : List Host.Cell := cellsAt (base + a) (leBytes 8 v)
  entry 0x1000 (base + 0x2001) ++ entry 0x1800 (base + 0x2001) ++ entry 0x2000 (base + 0x3001)
    ++ entry 0x3000 (base + 0xDF) ++ cellsAt (base + 0x10000) (leBytes 8 (w % 2 ^ nbits))

/-- The context-table image of `placeWord`: valid, partition 1, root table at 0x1000, handler and log in the upper
window over the same pages. -/
def demoContext (pkg : Nat) : BitVec 512 :=
  BitVec.ofNat 512 (pkg * 2 ^ 45 + 0x1000 + 0xFF00000000040000 * 2 ^ 64 + 0xFF00000001000000 * 2 ^ 128
    + 0xFF00000008000000 * 2 ^ 192 + 8 * 2 ^ 256 + 1 * 2 ^ 288 + 1 * 2 ^ 304)

/-- The farm of `placeWord`: one hart, its completion word at 0x20000. -/
def demoFarm (pkg : Nat) (h : HartId) : Farm :=
  { number := 1
    launch := { record := { entry := 0x10000, args := 0, dep := 0, bound := 0, done := 0x20000, strips := 1, farm := 1,
                            prio := 0, ctx := 1 },
                ctx := 1, part := 1, done := pkg * 2 ^ 45 + 0x20000, dep := none, depExpert := false, order := 0, eff := 0, passed := 0,
                sized := false }
    members := [{ hart := some h, slot := none, ended := false, triggered := false, arrived := false, barred := false,
                   sends := [], slots := [], pending := none }]
    next := 0, barrier := 0, arrivals := 0, triggered := false, flags := 0, cause := 0, yielded := false,
    preempt := false, suspended := false, placed := 0, pins := [], ending := false }

/-- The state with an instruction stored where the current hart fetches next: it stands for the load and the launch of a
program of that one instruction (log 14). -/
def placeWord (s : State) (nbits w : Nat) : State :=
  let pkg := s.dev.pkg.toNat
  { s with
    agenda := []
    stopped := false
    mem := { s.mem with cells := storeCells s.mem.cells (demoCells pkg nbits w), flight := [], early := [], poison := [], healing := [] }
    dev := { s.dev with
      interleave := s.dev.interleave ||| 1
      boot := s.dev.boot ||| 0x1000000
      contexts := tset 0 s.dev.contexts 1 (demoContext pkg) }
    sched := { s.sched with farms := [demoFarm pkg s.cur] }
    walks := Vector.replicate 32 []
    harts := s.harts.set s.cur { s.harts[s.cur] with
      pc := 0x10000, priv := false, farmid := 1, ctxid := 1, queue := [], tlb := Vector.replicate 8 [], tlb2 := [],
      icache := [], run := .running,
      pendingTrap := none, wloopPending := false,
      trap := { s.harts[s.cur].trap with evec := 0xFF00000000040000 } } }

end Machine

end Sys2Proof
end

