-- ==== Sys2Proof/Machine/Step.lean ====
section
/-! DEFINITION. One step of the package: the next turn of its agenda, or, when nothing is scheduled, a turn of the current
hart (log 6). -/

namespace Sys2Proof

namespace Machine

/-- One step. In a stopped package an event has no effect unless it works there (R395). -/
def step (s : State) : Host.Outcome State Fault Refusal :=
  match s.agenda with
  | [] => hartTurn s s.cur
  | .hart h :: t => hartTurn { s with agenda := t } h
  | .event i :: t => if s.stopped && !worksStopped i then .next { s with agenda := t } else exec i { s with agenda := t }

/-- The state with an instruction stored where the current hart fetches next: it stands for the load and the launch of a
program of that one instruction (log 14). -/
def State.withFetchWord (s : State) (nbits w : Nat) : State := placeWord s nbits w

end Machine

end Sys2Proof
end

