-- ==== Sys2Proof/Safety.lean ====
section
/-! DEFINITION. What a safe run keeps, and the terms in which claims are stated. -/

namespace Sys2Proof

namespace Safety

open Machine

/-! ## What every step keeps -/

/-- Memory is in its canonical form. -/
def Inv (s : State) : Prop := Memory.wf s.mem = true

/-- A step is safe when it gives a next state that keeps the invariant, or the package is stopped (R395, R445). -/
def SafeStep (s : State) : Prop :=
  match step s with
  | .next t => Inv t
  | .fault r => r = .packageStopped ∧ s.stopped = true
  | .refused _ => False

/-! ## The current hart -/

/-- The hart whose instruction runs. -/
def me (s : State) : Hart := hartOf s s.cur

/-- The state with that hart replaced and everything else as it was. -/
def withMe (s : State) (hd : Hart) : State := { s with harts := s.harts.set s.cur hd }

/-- The state with some hart replaced. -/
def withHart (s : State) (h : HartId) (hd : Hart) : State := { s with harts := s.harts.set h hd }

/-- A performance counter after one committed instruction: it counts when it is enabled for event 2, and in privileged
mode only with its privileged bit (R437 to R439). -/
def counterAfter (hd : Hart) (k : Fin 16) : Word :=
  let e := hd.perf.pevt[k]
  if bit e 16 && getBits e 0 8 == 2 && (!hd.priv || bit e 17) then hd.perf.pcnt[k] + 1 else hd.perf.pcnt[k]

/-- A hart after one committed instruction whose next one is at pc (R167, R438, R439). -/
def committedHart (hd : Hart) (pc : Word) : Hart :=
  { hd with pc := pc, perf := { hd.perf with instret := hd.perf.instret + 1, pcnt := Vector.ofFn (counterAfter hd) } }

/-- A hart after one committed instruction that writes v to x[rd]; x0 discards it and is not named as last written
(R156, R160). -/
def resultHart (hd : Hart) (pc : Word) (rd : XReg) (v : Word) : Hart :=
  { committedHart hd pc with
    x := if rd = 0 then hd.x else hd.x.set rd v
    csr := { hd.csr with xlast := if rd = 0 then hd.csr.xlast else word rd.val } }

/-- From s to t the current hart committed one instruction that writes v to x[rd] and goes on at pc: nothing else of the
machine changed. A destination x0 discards v and is not named as last written (R156, R160, R167). -/
structure Committed (s t : State) (pc : Word) (rd : XReg) (v : Word) : Prop where
  state : t = withMe s (me t)
  hart  : me t = { me s with
    x := (me t).x, pc := pc
    csr := { (me s).csr with xlast := if rd = 0 then (me s).csr.xlast else word rd.val }
    perf := { (me s).perf with instret := (me s).perf.instret + 1, pcnt := (me t).perf.pcnt } }
  regs  : ∀ r : XReg, readX (me t) r = if r = 0 then 0 else if r = rd then v else readX (me s) r
  counters : ∀ k : Fin 16, (me t).perf.pcnt[k] = counterAfter (me s) k

/-! ## Traps (R382, R386) -/

/-- The log slot of the current hart took the record and the images of a trap, and left the state u. -/
def LogWritten (s : State) (i : TrapInfo) (u : State) : Prop :=
  ∃ old s', readSystem s s.cur (me s).ctxid (logSlot s s.cur (me s).ctxid) 4 = (.ok old, s') ∧
    writeSystems s' s.cur (me s).ctxid (trapRecord s' s.cur i ((leValue old + 1) % 2 ^ 32)) = (none, u)

/-- A hart at its handler after a trap of a scalar instruction in user mode; low gives the bits of estatus below wp. -/
def handlerHart (hd : Hart) (cause : Nat) (value epc : Word) (low : Nat) : Hart :=
  { hd with
    trap := { hd.trap with epc := epc, ecause := word cause, evalue := value, evstart := 0
                           estatus := word ((if hd.wloopPending then 2 ^ 16 else 0) + low) }
    csr := { hd.csr with vstart := 0 }
    queue := [], priv := true, pc := hd.trap.evec, run := .running, wloopPending := false }

/-- The state in which the handler of the current hart begins, from the state u in which its record has been written. -/
def entered (s u : State) (cause : Nat) (value : Word) (low : Nat) : State :=
  { u with harts := u.harts.set s.cur (handlerHart (hartOf u s.cur) cause value (me s).pc low)
           mem := dropLinks u.mem s.cur }

end Safety

end Sys2Proof
end

