-- ==== Sys2Proof/Certificates/Slice0/Obligations.lean ====
section
/-! DEFINITION. The statements for the provers. -/

namespace Sys2Proof

namespace Claims

open Machine Safety

/-! ## Tables of the spec that the statements use, over exact integers -/

/-- R168 and R169: destination, registers read and result of an integer instruction. -/
def integerResult (hd : Hart) : Instr → Option (XReg × List XReg × Word)
  | .add rd ra rb => some (rd, [ra, rb], BitVec.ofInt 64 ((readX hd ra).toInt + (readX hd rb).toInt))
  | .sub rd ra rb => some (rd, [ra, rb], BitVec.ofInt 64 ((readX hd ra).toInt - (readX hd rb).toInt))
  | .and rd ra rb => some (rd, [ra, rb], readX hd ra &&& readX hd rb)
  | .or rd ra rb => some (rd, [ra, rb], readX hd ra ||| readX hd rb)
  | .xor rd ra rb => some (rd, [ra, rb], readX hd ra ^^^ readX hd rb)
  | .shl rd ra rb => some (rd, [ra, rb], BitVec.ofNat 64 ((readX hd ra).toNat * 2 ^ ((readX hd rb).toNat % 64)))
  | .shr rd ra rb => some (rd, [ra, rb], BitVec.ofNat 64 ((readX hd ra).toNat / 2 ^ ((readX hd rb).toNat % 64)))
  | .sha rd ra rb => some (rd, [ra, rb], BitVec.ofInt 64 ((readX hd ra).toInt / 2 ^ ((readX hd rb).toNat % 64)))
  | .slt rd ra rb => some (rd, [ra, rb], if (readX hd ra).toInt < (readX hd rb).toInt then 1 else 0)
  | .sltn rd ra rb => some (rd, [ra, rb], if (readX hd ra).toNat < (readX hd rb).toNat then 1 else 0)
  | .min rd ra rb => some (rd, [ra, rb], BitVec.ofInt 64 (min (readX hd ra).toInt (readX hd rb).toInt))
  | .max rd ra rb => some (rd, [ra, rb], BitVec.ofInt 64 (max (readX hd ra).toInt (readX hd rb).toInt))
  | .minn rd ra rb => some (rd, [ra, rb], BitVec.ofNat 64 (min (readX hd ra).toNat (readX hd rb).toNat))
  | .maxn rd ra rb => some (rd, [ra, rb], BitVec.ofNat 64 (max (readX hd ra).toNat (readX hd rb).toNat))
  | .addi rd ra imm => some (rd, [ra], BitVec.ofInt 64 ((readX hd ra).toInt + imm.toInt))
  | .andi rd ra imm => some (rd, [ra], readX hd ra &&& BitVec.ofInt 64 imm.toInt)
  | .ori rd ra imm => some (rd, [ra], readX hd ra ||| BitVec.ofInt 64 imm.toInt)
  | .xori rd ra imm => some (rd, [ra], readX hd ra ^^^ BitVec.ofInt 64 imm.toInt)
  | .shli rd ra sh => some (rd, [ra], BitVec.ofNat 64 ((readX hd ra).toNat * 2 ^ sh.toNat))
  | .shri rd ra sh => some (rd, [ra], BitVec.ofNat 64 ((readX hd ra).toNat / 2 ^ sh.toNat))
  | .shai rd ra sh => some (rd, [ra], BitVec.ofInt 64 ((readX hd ra).toInt / 2 ^ sh.toNat))
  | .slti rd ra imm => some (rd, [ra], if (readX hd ra).toInt < imm.toInt then 1 else 0)
  | .sltni rd ra imm => some (rd, [ra], if (readX hd ra).toNat < (BitVec.ofInt 64 imm.toInt).toNat then 1 else 0)
  | .lhi rd imm => some (rd, [], BitVec.ofInt 64 (imm.toInt * 4096))
  | .apc rd imm => some (rd, [], BitVec.ofInt 64 (hd.pc.toNat + imm.toInt * 4096))
  | _ => none

/-- R170 with R129: multiplication and division. -/
def productResult (hd : Hart) : Instr → Option (XReg × List XReg × Word)
  | .mul rd ra rb => some (rd, [ra, rb], BitVec.ofInt 64 ((readX hd ra).toInt * (readX hd rb).toInt))
  | .mulh rd ra rb => some (rd, [ra, rb], BitVec.ofInt 64 ((readX hd ra).toInt * (readX hd rb).toInt / 2 ^ 64))
  | .mulhn rd ra rb => some (rd, [ra, rb], BitVec.ofNat 64 ((readX hd ra).toNat * (readX hd rb).toNat / 2 ^ 64))
  | .div rd ra rb => some (rd, [ra, rb],
      if (readX hd rb).toInt = 0 then 0xFFFFFFFFFFFFFFFF
      else if (readX hd ra).toInt = -2 ^ 63 ∧ (readX hd rb).toInt = -1 then 0x8000000000000000
      else BitVec.ofInt 64 ((readX hd ra).toInt.tdiv (readX hd rb).toInt))
  | .divn rd ra rb => some (rd, [ra, rb],
      if (readX hd rb).toNat = 0 then 0xFFFFFFFFFFFFFFFF
      else BitVec.ofNat 64 ((readX hd ra).toNat / (readX hd rb).toNat))
  | .rem rd ra rb => some (rd, [ra, rb],
      if (readX hd rb).toInt = 0 then readX hd ra
      else if (readX hd ra).toInt = -2 ^ 63 ∧ (readX hd rb).toInt = -1 then 0
      else BitVec.ofInt 64 ((readX hd ra).toInt.tmod (readX hd rb).toInt))
  | .remn rd ra rb => some (rd, [ra, rb],
      if (readX hd rb).toNat = 0 then readX hd ra
      else BitVec.ofNat 64 ((readX hd ra).toNat % (readX hd rb).toNat))
  | _ => none

/-- R179: the compact forms with a result; they compute on the register that xlast names (R75). -/
def compactResult (hd : Hart) : Instr → Option (XReg × List XReg × Word)
  | .cAdd rd rs => some (rd, [implied hd, rs], BitVec.ofInt 64 ((readX hd (implied hd)).toInt + (readX hd rs).toInt))
  | .cSub rd rs => some (rd, [implied hd, rs], BitVec.ofInt 64 ((readX hd (implied hd)).toInt - (readX hd rs).toInt))
  | .cAnd rd rs => some (rd, [implied hd, rs], readX hd (implied hd) &&& readX hd rs)
  | .cOr rd rs => some (rd, [implied hd, rs], readX hd (implied hd) ||| readX hd rs)
  | .cXor rd rs => some (rd, [implied hd, rs], readX hd (implied hd) ^^^ readX hd rs)
  | .cMv rd => some (rd, [implied hd], readX hd (implied hd))
  | .cAddi rd imm => some (rd, [implied hd], BitVec.ofInt 64 ((readX hd (implied hd)).toInt + imm.toInt))
  | .cShli rd sh => some (rd, [implied hd], BitVec.ofNat 64 ((readX hd (implied hd)).toNat * 2 ^ sh.toNat))
  | _ => none

/-- R171 and R179: registers read, length, offset in halfwords, and whether the branch is taken. -/
def branchOf (hd : Hart) : Instr → Option (List XReg × Nat × Int × Bool)
  | .beq ra rb off => some ([ra, rb], 4, off.toInt, readX hd ra = readX hd rb)
  | .bne ra rb off => some ([ra, rb], 4, off.toInt, readX hd ra ≠ readX hd rb)
  | .blt ra rb off => some ([ra, rb], 4, off.toInt, (readX hd ra).toInt < (readX hd rb).toInt)
  | .bge ra rb off => some ([ra, rb], 4, off.toInt, (readX hd rb).toInt ≤ (readX hd ra).toInt)
  | .bltn ra rb off => some ([ra, rb], 4, off.toInt, (readX hd ra).toNat < (readX hd rb).toNat)
  | .bgen ra rb off => some ([ra, rb], 4, off.toInt, (readX hd rb).toNat ≤ (readX hd ra).toNat)
  | .cBeqz off => some ([implied hd], 2, off.toInt, readX hd (implied hd) = 0)
  | .cBnez off => some ([implied hd], 2, off.toInt, readX hd (implied hd) ≠ 0)
  | .cJ off => some ([], 2, off.toInt, true)
  | _ => none

/-- The SR format of R77 from bits [6:0], f4 and the registers, f6 zero. -/
def srWord (low f4 : Nat) (rd ra rb : XReg) : Nat := low + f4 * 2 ^ 7 + rd.val * 2 ^ 11 + ra.val * 2 ^ 16 + rb.val * 2 ^ 21

/-- The SI and SB formats of R77: an 11-bit field above two registers. -/
def siWord (low f4 : Nat) (r1 r2 : XReg) (field : Nat) : Nat := low + f4 * 2 ^ 7 + r1.val * 2 ^ 11 + r2.val * 2 ^ 16 + field * 2 ^ 21

/-- R168 to R171 and R188 with R77, R80 and R89: the words of these instructions. -/
def codeOf : Instr → Option Nat
  | .add rd ra rb => some (srWord 0x0F 0 rd ra rb)
  | .sub rd ra rb => some (srWord 0x0F 1 rd ra rb)
  | .and rd ra rb => some (srWord 0x0F 2 rd ra rb)
  | .or rd ra rb => some (srWord 0x0F 3 rd ra rb)
  | .xor rd ra rb => some (srWord 0x0F 4 rd ra rb)
  | .shl rd ra rb => some (srWord 0x0F 5 rd ra rb)
  | .shr rd ra rb => some (srWord 0x0F 6 rd ra rb)
  | .sha rd ra rb => some (srWord 0x0F 7 rd ra rb)
  | .slt rd ra rb => some (srWord 0x0F 8 rd ra rb)
  | .sltn rd ra rb => some (srWord 0x0F 9 rd ra rb)
  | .min rd ra rb => some (srWord 0x0F 10 rd ra rb)
  | .max rd ra rb => some (srWord 0x0F 11 rd ra rb)
  | .minn rd ra rb => some (srWord 0x0F 12 rd ra rb)
  | .maxn rd ra rb => some (srWord 0x0F 13 rd ra rb)
  | .addi rd ra imm => some (siWord 0x0B 0 rd ra imm.toNat)
  | .andi rd ra imm => some (siWord 0x0B 1 rd ra imm.toNat)
  | .ori rd ra imm => some (siWord 0x0B 2 rd ra imm.toNat)
  | .xori rd ra imm => some (siWord 0x0B 3 rd ra imm.toNat)
  | .shli rd ra imm => some (siWord 0x0B 4 rd ra imm.toNat)
  | .shri rd ra imm => some (siWord 0x0B 5 rd ra imm.toNat)
  | .shai rd ra imm => some (siWord 0x0B 6 rd ra imm.toNat)
  | .slti rd ra imm => some (siWord 0x0B 7 rd ra imm.toNat)
  | .sltni rd ra imm => some (siWord 0x0B 8 rd ra imm.toNat)
  | .lhi rd imm => some (0x27 + imm.toNat % 16 * 2 ^ 7 + rd.val * 2 ^ 11 + imm.toNat / 16 * 2 ^ 16)
  | .apc rd imm => some (0x2B + imm.toNat % 16 * 2 ^ 7 + rd.val * 2 ^ 11 + imm.toNat / 16 * 2 ^ 16)
  | .mul rd ra rb => some (srWord 0x17 0 rd ra rb)
  | .mulh rd ra rb => some (srWord 0x17 1 rd ra rb)
  | .mulhn rd ra rb => some (srWord 0x17 2 rd ra rb)
  | .div rd ra rb => some (srWord 0x17 3 rd ra rb)
  | .divn rd ra rb => some (srWord 0x17 4 rd ra rb)
  | .rem rd ra rb => some (srWord 0x17 5 rd ra rb)
  | .remn rd ra rb => some (srWord 0x17 6 rd ra rb)
  | .beq ra rb off => some (siWord 0x1B 0 ra rb off.toNat)
  | .bne ra rb off => some (siWord 0x1B 1 ra rb off.toNat)
  | .blt ra rb off => some (siWord 0x1B 2 ra rb off.toNat)
  | .bge ra rb off => some (siWord 0x1B 3 ra rb off.toNat)
  | .bltn ra rb off => some (siWord 0x1B 4 ra rb off.toNat)
  | .bgen ra rb off => some (siWord 0x1B 5 ra rb off.toNat)
  | .setvli rd ra imm => some (0x43 + imm.toNat / 2 ^ 11 * 2 ^ 8 + rd.val * 2 ^ 11 + ra.val * 2 ^ 16 + imm.toNat % 2 ^ 11 * 2 ^ 21)
  | .setvl rd ra rb => some (srWord 0x43 1 rd ra rb)
  | _ => none

/-- R173 and R179: a load's destination, exact address, size, length and extension. -/
def loadOf (hd : Hart) : Instr → Option (XReg × Int × Nat × Nat × (Nat → Int))
  | .ldb rd ra imm => some (rd, (readX hd ra).toNat + imm.toInt, 1, 4, toSigned 8)
  | .ldh rd ra imm => some (rd, (readX hd ra).toNat + imm.toInt, 2, 4, toSigned 16)
  | .ldw rd ra imm => some (rd, (readX hd ra).toNat + imm.toInt, 4, 4, toSigned 32)
  | .ldd rd ra imm => some (rd, (readX hd ra).toNat + imm.toInt, 8, 4, fun x => x)
  | .ldbn rd ra imm => some (rd, (readX hd ra).toNat + imm.toInt, 1, 4, fun x => x)
  | .ldhn rd ra imm => some (rd, (readX hd ra).toNat + imm.toInt, 2, 4, fun x => x)
  | .ldwn rd ra imm => some (rd, (readX hd ra).toNat + imm.toInt, 4, 4, fun x => x)
  | .cLd rd imm => some (rd, (readX hd (implied hd)).toNat + 8 * imm.toNat, 8, 2, fun x => x)
  | _ => none

/-- R173 and R179: a store's register, exact address, size and length. -/
def storeOf (hd : Hart) : Instr → Option (XReg × Int × Nat × Nat)
  | .stb rb ra imm => some (rb, (readX hd ra).toNat + imm.toInt, 1, 4)
  | .sth rb ra imm => some (rb, (readX hd ra).toNat + imm.toInt, 2, 4)
  | .stw rb ra imm => some (rb, (readX hd ra).toNat + imm.toInt, 4, 4)
  | .std rb ra imm => some (rb, (readX hd ra).toNat + imm.toInt, 8, 4)
  | .cSt rs imm => some (rs, (readX hd (implied hd)).toNat + 8 * imm.toNat, 8, 2)
  | _ => none

/-- R176: an atomic's destination, address register, scope, order, and new value of the word from the old one; none where
nothing is written (R177). -/
def atomicOf (hd : Hart) : Instr → Option (XReg × XReg × Scope × Order × (Nat → Option Nat))
  | .amoadd rd ra rb sc ord => some (rd, ra, sc, ord, fun old => some ((old + (readX hd rb).toNat) % 2 ^ 64))
  | .amoswap rd ra rb sc ord => some (rd, ra, sc, ord, fun _ => some (readX hd rb).toNat)
  | .amocas rd ra rb sc ord =>
    some (rd, ra, sc, ord, fun old => if old = (readX hd rd).toNat then some (readX hd rb).toNat else none)
  | .amomax rd ra rb sc ord =>
    some (rd, ra, sc, ord, fun old => some (wrap 64 (max (toSigned 64 old) (readX hd rb).toInt)))
  | .amomin rd ra rb sc ord =>
    some (rd, ra, sc, ord, fun old => some (wrap 64 (min (toSigned 64 old) (readX hd rb).toInt)))
  | .amoand rd ra rb sc ord => some (rd, ra, sc, ord, fun old => some (old &&& (readX hd rb).toNat))
  | .amoor rd ra rb sc ord => some (rd, ra, sc, ord, fun old => some (old ||| (readX hd rb).toNat))
  | _ => none

/-- R162, R163: the CSRs that user mode may read. -/
def userReads (n : Nat) : Bool :=
  n ≤ 9 || (0x010 ≤ n && n ≤ 0x014) || n = 0x018 || n = 0x01C || n = 0x01F || (0x020 ≤ n && n ≤ 0x022)
    || (0x028 ≤ n && n ≤ 0x02A) || (0x030 ≤ n && n ≤ 0x03F) || (0x050 ≤ n && n ≤ 0x067)

/-- R162, R163: those that user mode may write. -/
def userWrites (n : Nat) : Bool :=
  (1 ≤ n && n ≤ 9) || (0x010 ≤ n && n ≤ 0x014) || n = 0x018 || n = 0x01C || n = 0x01F

/-- R162, R163: those that privileged mode may read. -/
def privReads (n : Nat) : Bool := userReads n || (0x040 ≤ n && n ≤ 0x04F) || (0x100 ≤ n && n ≤ 0x106)

/-- R162, R163: those that privileged mode may write: all but the read-only ones. -/
def privWrites (n : Nat) : Bool := privReads n && !(0x020 ≤ n && n ≤ 0x022) && n ≠ 0x029

/-- R178: number, destination, source and written value of a CSR instruction, from the old value. -/
def csrForm (hd : Hart) : Instr → Option (Nat × XReg × XReg × Option (Word → Word))
  | .csrr rd n => some (n.toNat, rd, 0, none)
  | .csrw rd ra n => some (n.toNat, rd, ra, some fun _ => readX hd ra)
  | .csrs rd ra n => some (n.toNat, rd, ra, some fun old => old ||| readX hd ra)
  | .csrc rd ra n => some (n.toNat, rd, ra, some fun old => old &&& ~~~readX hd ra)
  | _ => none

/-- A CSR instruction that the mode of its hart allows (R163). -/
def csrAllowed (hd : Hart) (n : Nat) (write : Bool) : Bool :=
  if hd.priv then (if write then privWrites n else privReads n) else (if write then userWrites n else userReads n)

/-- The bits of an instruction, which evalue holds at an illegal-instruction trap (R379). -/
def bitsOf (i : Instr) : Word := BitVec.ofNat 64 ((encode i).elim 0 (·.2))

/-- The traps that scalar instructions take in user mode by their form alone: cause, evalue and the bits of estatus
below wp (R70, R72, R73, R81, R86, R87, R163, R379, R380). -/
def userTrap (hd : Hart) (i : Instr) : Option (Nat × Word × Nat) :=
  match i with
  | .illegalInstruction bits => some (1, bits, 0)
  | .instructionFetchFault cause addr => some (cause, addr, if cause = 15 then 0x84 else 4)
  | .eret => some (1, bitsOf i, 0)
  | .idle => some (1, bitsOf i, 0)
  | .tlbinv _ _ => some (1, bitsOf i, 0)
  | .ertw _ _ => some (1, bitsOf i, 0)
  | .jalr _ ra imm =>
    let target := readX hd ra + BitVec.ofInt 64 imm.toInt
    if target.toNat % 2 = 1 then some (3, target, 0) else none
  | i => match csrForm hd i with
    | some (n, _, _, f) => if csrAllowed hd n f.isSome then none else some (1, bitsOf i, 0)
    | none => none

/-- What a trap of a scalar instruction records. -/
def trapOf (hd : Hart) (cause : Nat) (value : Word) (fetch : Bool) : TrapInfo :=
  { scalarTrap hd cause value with fetch }

/-- What sys and brk record: they return to the next instruction (R390). -/
def callOf (hd : Hart) (cause : Nat) (value : Word) : TrapInfo :=
  { scalarTrap hd cause value with resume := hd.pc + 4 }

/-- The kind, exact address and size of a scalar access (R173, R177, R429). -/
def accessOf (hd : Hart) (i : Instr) : Option (Kind × Int × Nat) :=
  match loadOf hd i, storeOf hd i with
  | some (_, a, n, _, _), _ => some (.load, a, n)
  | _, some (_, a, n, _) => some (.store, a, n)
  | _, _ => match i with
    | .cwait _ ra _ _ => some (.load, (readX hd ra).toNat, 8)
    | _ => none

/-- A farm's members after one of them has been changed. -/
def withMember (f : Farm) (h : HartId) (g : Member → Member) : Farm :=
  { f with members := f.members.map fun m => if m.hart == some h then g m else m }

/-- The state with the farms of a number changed. -/
def withFarm (s : State) (n : BitVec 32) (g : Farm → Farm) : State :=
  { s with sched := { s.sched with farms := s.sched.farms.map fun f => if f.number == n then g f else f } }

/-- The state with a decision of a partition due (R362). -/
def decisionDue (s : State) (part : BitVec 10) : State :=
  { s with agenda := s.agenda ++ [.event (.schedulerDecision part.toNat)] }

/-- Nothing that the hart issued is outstanding but writes that are not yet performed. -/
def NothingPosted (s : State) : Prop :=
  (s.mem.posted.filter fun p => p.hart == s.cur) = [] ∧ (s.mem.counters.filter fun c => c.hart == s.cur) = [] ∧
    ∀ tags, (me s).trigger ≠ .pending tags

/-- Nothing at all that the hart issued is outstanding. -/
def NothingIssued (s : State) : Prop := NothingPosted s ∧ (s.mem.flight.filter fun a => a.hart == s.cur) = []

/-- Memory after the writes of the current hart on some paths have been performed at a scope (R269, R277). -/
def performed (s : State) (paths : Path → Bool) (sc : Scope) : Mem := performAt s.dev s.mem s.cur (fun a => paths a.path) sc

/-- Memory after what the current hart has observed of other harts has been performed at a scope, as a release asks (R283). -/
def observed (s : State) (m : Mem) (sc : Scope) : Mem := releaseAt s.dev m s.cur (fun _ => false) (scopeLevel sc)

/-- Memory after a release of everything by the current hart at a scope (R283). -/
def released (s : State) (sc : Scope) : Mem := observed s (performed s (fun _ => true) sc) sc

/-- Every write of the current hart in flight on some paths still reaches memory (R21, R270). -/
def allReach (s : State) (paths : Path → Bool) : Prop :=
  ∀ a ∈ s.mem.flight, a.hart = s.cur → paths a.path = true → lost s.dev a = false

/-- The paths of a fence.x mask (R85). -/
def maskHas (mask : BitVec 6) : Path → Bool
  | .V => mask.getLsbD 0
  | .C => mask.getLsbD 1
  | .N => mask.getLsbD 2
  | .F => mask.getLsbD 3
  | .L => mask.getLsbD 4
  | .H => mask.getLsbD 5

/-- R358: the fields of a launch record, by offset. -/
def launchFields (bs : List Byte) : LaunchRecord :=
  { entry := BitVec.ofNat 64 (leValue ((bs.drop 0).take 8)), args := BitVec.ofNat 64 (leValue ((bs.drop 8).take 8))
    dep := BitVec.ofNat 64 (leValue ((bs.drop 16).take 8)), bound := BitVec.ofNat 64 (leValue ((bs.drop 24).take 8))
    done := BitVec.ofNat 64 (leValue ((bs.drop 32).take 8)), strips := BitVec.ofNat 32 (leValue ((bs.drop 40).take 4))
    farm := BitVec.ofNat 16 (leValue ((bs.drop 44).take 2)), prio := BitVec.ofNat 8 (leValue ((bs.drop 46).take 1))
    ctx := BitVec.ofNat 16 (leValue ((bs.drop 48).take 2)) }

/-- R361: the record's own fields are acceptable. -/
def launchable (bs : List Byte) : Bool :=
  let r := launchFields bs
  (bs.drop 47).take 1 == [0] && (bs.drop 50).all (· == 0) && r.prio.toNat < 8 && r.entry.toNat % 2 == 0
    && r.done ≠ 0 && r.done.toNat % 8 == 0

/-- The bytes that an instruction of the current hart loads at one piece: what the hart has read ahead there, and otherwise what
is in memory (log 19). -/
def loaded (s : State) (p : Piece) (n : Nat) : List Byte := hartBytes s.mem s.cur (piecePath s false p) p.key n

/-- Memory once a hart has given up what it has read ahead of some words: its accesses begin anew there (log 19). -/
def begun (m : Mem) (h : HartId) (keys : Nat → Bool) : Mem :=
  { m with early := m.early.filter fun e => !(e.hart == h && keys (8 * e.word)) }

/-- The words that a place touches. -/
def wordsOf (p : Piece) (k : Nat) : Bool := p.key < k + 8 && k < p.key + p.len

/-- The words whose accesses by the current hart, or copies, lie on some paths. -/
def onPaths (s : State) (paths : Path → Bool) (k : Nat) : Bool := paths (pathOf s.dev false k) || paths .C

/-- The state after some hart's counter has counted an event (R438). -/
def counted (s : State) (h : HartId) (code : Nat) : State := withHart s h (count (hartOf s h) code 1)

/-- R371: vN can be used as a group of 32-bit elements: no vill, et n32 or i32, an aligned group within v63. -/
def tokens32 (hd : Hart) (v : VReg) : Prop :=
  vtIll hd.csr.vtype = false ∧ (vtEt hd.csr.vtype = 2 ∨ vtEt hd.csr.vtype = 6) ∧ v.val % vtGrp hd.csr.vtype = 0 ∧
    v.val + vtGrp hd.csr.vtype ≤ 64

/-- The same for 64-bit elements (R376). -/
def tokens64 (hd : Hart) (v : VReg) : Prop :=
  vtIll hd.csr.vtype = false ∧ (vtEt hd.csr.vtype = 3 ∨ vtEt hd.csr.vtype = 7) ∧ v.val % vtGrp hd.csr.vtype = 0 ∧
    v.val + vtGrp hd.csr.vtype ≤ 64

/-- A hart at the end of a token instruction: committed, with vstart 0. -/
def tokenDone (hd : Hart) : Hart :=
  { committedHart hd (hd.pc + 4) with csr := { hd.csr with vstart := 0 }, run := .running }

/-- The largest code among the weights of a register below vl, 0 when there is none (R230, R232). -/
def largestCode (hd : Hart) (w : WReg) : Nat :=
  ((List.range hd.csr.vl.toNat).map fun j => weightGet hd.w w.val j).foldl max 0

/-- A weight register that a scalar-core instruction may read: no vill, no block type, and a weight group that exists
and fits; w0 heads one too (R209, R210, R224, R230). -/
def weightReadable (hd : Hart) (w : WReg) : Prop :=
  vtIll hd.csr.vtype = false ∧ etBlock (vtEt hd.csr.vtype) = false ∧
    ∃ n, weightRegs (vtEt hd.csr.vtype) (vtGrp hd.csr.vtype) (vtBl hd.csr.vtype) = some n ∧ w.val % n = 0 ∧ w.val + n ≤ 16

/-- wctl with its arm register replaced (R230, R231). -/
def withArm (hd : Hart) (w : WReg) : Hart :=
  { hd with csr := { hd.csr with wctl := BitVec.ofNat 64 (w.val + 16 * (hd.csr.wctl.toNat / 16 % 2)) } }

/-- The vector, copy, stage, matrix, weight and nameless instructions, which are posted to the dispatch queue (R40). -/
def queued : Instr → Bool
  | .vadd .. | .vsub .. | .vrsub .. | .vmul .. | .vmulh .. | .vdiv .. | .vrem .. | .vmin .. | .vmax .. | .vand ..
  | .vor .. | .vxor .. | .vshl .. | .vshr .. | .vsha .. | .vsadd .. | .vssub .. | .vfma .. | .vfms .. | .vfnma ..
  | .vfdiv .. | .vfsqrt .. | .vfrsqrt .. | .vfexp2 .. | .vflog2 .. | .vwadd .. | .vwmul .. | .vwfma .. | .vcvt ..
  | .vwcvt .. | .vncvt .. | .vquant .. | .vdequant .. | .vsel .. | .vmv .. | .vgath .. | .vslideup ..
  | .vslidedn .. | .vcompress .. | .vexpand .. | .vfperm .. | .vredsumO .. | .vredsumT .. | .vredmax ..
  | .vredmin .. | .vredand .. | .vredor .. | .vscan .. | .vmovc .. | .vmovr .. | .vcsw .. | .vnormk .. | .vld ..
  | .vlds .. | .vldx .. | .vldseg .. | .vst .. | .vsts .. | .vstx .. | .vstPair .. | .vgl .. | .vsc .. | .vamo ..
  | .vsred .. | .vcopy .. | .sld .. | .sst .. | .sldx .. | .sstx .. | .scopy .. | .scopyX .. | .samo .. | .bld ..
  | .bst .. | .fcins .. | .fclook .. | .fcacc .. | .fcdrain .. | .fcclr .. | .mmulO .. | .mmulR .. | .mmulSp ..
  | .mmulGrp .. | .mlatch .. | .mlatchStage .. | .mregrow .. | .wcmpEq .. | .wcmpNe .. | .wcmpLt .. | .wcmpLe ..
  | .wcmpGt .. | .wcmpGe .. | .wsoftGt .. | .wsoftLt .. | .wcomp .. | .wmul .. | .wmin .. | .wmax .. | .wmv ..
  | .wfromv .. | .wtov .. | .wblend .. | .wgradB .. | .wgradS .. | .wmaxr .. | .wpop .. | .vstN .. | .nrel ..
  | .nrelV .. => true
  | _ => false

/-- R420: the images that ertw refuses for an entry of a context: one in use by another context, being fetched or evicted, or
resident with pins; a reserved byte that is not zero; the key of another entry of the context; a far address outside the attached
far tier or not at a page; a base outside the window, not at 2 MiB, or over another expert; and a size above the arena. -/
def ertRefused (s : State) (ctx : BitVec 16) (idx : Nat) (bs : List Byte) : Prop :=
  let far := leValue ((bs.drop 8).take 8)
  let size := leValue ((bs.drop 16).take 4)
  let base := leValue ((bs.drop 24).take 8)
  let other (e : ErtEntry) : Prop := e.ctx = ctx ∧ ∃ k, k ≠ idx ∧ (k, some e) ∈ s.sched.ert
  (∃ e, ertAt s idx = some e ∧ ((e.ctx ≠ 0 ∧ e.ctx ≠ ctx) ∨ e.state = .fetching ∨ e.state = .evicting ∨
      (e.state = .resident ∧ e.pins ≠ 0))) ∨
    leValue ((bs.drop 5).take 1) ≠ 0 ∨ (∃ b ∈ bs.drop 48, b ≠ 0) ∨
    (∃ e, other e ∧ e.key.toNat = leValue (bs.take 4)) ∨
    far < Config.farBase ∨ Config.farBase + s.dev.farCaps.toList.sum * 2 ^ 20 < far + 4096 * size ∨ far % 4096 ≠ 0 ∨
    base < 0xFF000000000000 ∨ 0xFF100000000000 ≤ base ∨ 0xFF100000000000 < base + 4096 * size ∨ base % 2 ^ 21 ≠ 0 ∨
    (∃ e, other e ∧ 0 < size ∧ 0 < e.size.toNat ∧ e.base.toNat < base + 4096 * size ∧
      base < e.base.toNat + 4096 * e.size.toNat) ∨
    512 * (s.dev.arena.toNat % 2 ^ 17) < size

/-- R99: position k of a convoy of some members fits its slot, where the word there is w: an unused slot is 7, and a used one
names the unit of a 64-bit instruction that is none of wbr, wsel and wloop. -/
def slotFitted (slots : Slots) (members k w : Nat) : Prop :=
  if k ≤ members then
    slotAt slots k ≠ 7 ∧ lengthOf w = 8 ∧ w / 2 ^ 7 % 8 = slotAt slots k ∧
      ¬ (w / 2 ^ 7 % 8 = 5 ∧ 0x10 ≤ w / 2 ^ 10 % 2 ^ 8 ∧ w / 2 ^ 10 % 2 ^ 8 ≤ 0x12)
  else slotAt slots k = 7

/-- What an entry captures when it is posted (R41, R185, R387): a vstart that was written is taken by the first entry of
an empty queue. -/
def captured (hd : Hart) (i : Instr) : Entry :=
  { instr := i, bits := bitsOf i, pc := hd.pc
    op0 := readX hd (operandsOf i).r0, op1 := readX hd (operandsOf i).r1, op2 := readX hd (operandsOf i).r2
    op3 := readX hd (operandsOf i).r3, vtype := hd.csr.vtype, start := if hd.queue = [] then hd.csr.vstart.toNat else 0
    vl := hd.csr.vl.toNat, vrc := hd.csr.vrc.toNat, vslip := BitVec.ofNat 8 hd.csr.vslip.toNat
    wthr := BitVec.ofNat 16 hd.csr.wthr.toNat, fthr := BitVec.ofNat 16 hd.csr.fthr.toNat
    wtemp := BitVec.ofNat 32 hd.csr.wtemp.toNat, wctl := BitVec.ofNat 8 hd.csr.wctl.toNat
    mshape := BitVec.ofNat 24 hd.csr.mshape.toNat, nhint := BitVec.ofNat 9 hd.csr.nhint.toNat
    group := postGroup hd i (if hd.queue = [] then hd.csr.vstart.toNat else 0), joined := false, epoch := hd.epoch }

/-- The hart after posting an instruction: committed, with the entry last in the queue; xlast names the scalar register
that the entry will write (R40, R75). -/
def posted (hd : Hart) (i : Instr) : Hart :=
  { committedHart hd (hd.pc + 8) with
    queue := hd.queue ++ [captured hd i]
    csr := { hd.csr with xlast := if scalarDest i = 0 then hd.csr.xlast else BitVec.ofNat 64 (scalarDest i).val } }

/-- The state in which the entry of the current hart's only posted instruction runs. -/
def issued (s : State) (i : Instr) : State :=
  withMe { s with mem := { s.mem with nextTag := s.mem.nextTag + 1 } } (posted (me s) i)

/-- A hart whose oldest entry has completed (R184, R185, R438). -/
def completed (hd : Hart) : Hart := count { hd with queue := hd.queue.tail, csr := { hd.csr with vstart := 0 } } 3 1

/-- The registers whose pending writes an instruction of the scalar core waits for, and nothing else (R42, R165); none for
those that wait for more. -/
def registersFor (hd : Hart) (i : Instr) : Option (List XReg) :=
  match i with
  | .add rd ra rb | .sub rd ra rb | .and rd ra rb | .or rd ra rb | .xor rd ra rb | .shl rd ra rb | .shr rd ra rb
  | .sha rd ra rb | .slt rd ra rb | .sltn rd ra rb | .min rd ra rb | .max rd ra rb | .minn rd ra rb | .maxn rd ra rb
  | .mul rd ra rb | .mulh rd ra rb | .mulhn rd ra rb | .div rd ra rb | .divn rd ra rb | .rem rd ra rb
  | .remn rd ra rb | .setvl rd ra rb => some [rd, ra, rb]
  | .addi rd ra _ | .andi rd ra _ | .ori rd ra _ | .xori rd ra _ | .shli rd ra _ | .shri rd ra _ | .shai rd ra _
  | .slti rd ra _ | .sltni rd ra _ | .jalr rd ra _ | .setvli rd ra _ | .xbind rd ra => some [rd, ra]
  | .lhi rd _ | .apc rd _ | .jal rd _ | .strip rd => some [rd]
  | .beq ra rb _ | .bne ra rb _ | .blt ra rb _ | .bge ra rb _ | .bltn ra rb _ | .bgen ra rb _ | .icinv ra rb => some [ra, rb]
  | .xunpin ra => some [ra]
  | .cAdd rd rs | .cSub rd rs | .cAnd rd rs | .cOr rd rs | .cXor rd rs => some [rd, implied hd, rs]
  | .cMv rd | .cAddi rd _ | .cShli rd _ => some [rd, implied hd]
  | .cBeqz _ | .cBnez _ => some [implied hd]
  | .csrr rd n => if csrAllowed hd n.toNat false && !csrWaits n.toNat then some [rd, 0] else none
  | .csrw rd ra n | .csrs rd ra n | .csrc rd ra n =>
    if csrAllowed hd n.toNat true && !csrWaits n.toNat then some [rd, ra] else none
  | .ldb .. | .ldh .. | .ldw .. | .ldd .. | .ldbn .. | .ldhn .. | .ldwn .. | .stb .. | .sth .. | .stw .. | .std ..
  | .cLd .. | .cSt .. | .amoadd .. | .amoswap .. | .amocas .. | .amomax .. | .amomin .. | .amoand .. | .amoor ..
  | .fence .. | .fenceX .. | .cwait .. | .fbar | .sys .. | .brk .. | .eret | .idle | .endHart | .trig | .launch ..
  | .tlbinv .. | .xpark .. | .xwake .. | .xwakeW .. | .xsend .. | .xrecv .. | .ertw .. | .wbr ..
  | .illegalInstruction .. | .instructionFetchFault .. => none
  | i => some (postRegs i)

/-- Of an instruction that makes one access: the scalar registers that it names, whether it is a release, its address register and
offset, and its size (R173, R176, R429). -/
def oneAccess (hd : Hart) (i : Instr) : Option (List XReg × Bool × XReg × Int × Nat) :=
  match i with
  | .ldb rd ra imm | .ldbn rd ra imm | .stb rd ra imm => some ([rd, ra], false, ra, imm.toInt, 1)
  | .ldh rd ra imm | .ldhn rd ra imm | .sth rd ra imm => some ([rd, ra], false, ra, imm.toInt, 2)
  | .ldw rd ra imm | .ldwn rd ra imm | .stw rd ra imm => some ([rd, ra], false, ra, imm.toInt, 4)
  | .ldd rd ra imm | .std rd ra imm => some ([rd, ra], false, ra, imm.toInt, 8)
  | .cLd rd imm | .cSt rd imm => some ([rd, implied hd], false, implied hd, 8 * imm.toNat, 8)
  | .amoadd rd ra rb _ ord | .amoswap rd ra rb _ ord | .amocas rd ra rb _ ord | .amomax rd ra rb _ ord
  | .amomin rd ra rb _ ord | .amoand rd ra rb _ ord | .amoor rd ra rb _ ord => some ([rd, ra, rb], releases ord, ra, 0, 8)
  | .cwait rd ra rb _ => some ([rd, ra, rb], false, ra, 0, 8)
  | _ => none

/-- The scalar registers of the instructions that order every older access, and so wait for the entries that access memory
(R42, R356). -/
def orderRegisters (hd : Hart) (i : Instr) : Option (List XReg) :=
  match i with
  | .launch rd ra => some [rd, ra]
  | .trig => some []
  | .tlbinv ra rb | .ertw ra rb => if hd.priv then some [ra, rb] else none
  | _ => none

/-- Whether an instruction waits for an entry of the queue in some state of the hart: one that writes a scalar register that it
names; for an access one that may access its bytes, or for a release its path; for a fence one that may access a path ordered
before it; for an instruction that orders every access one that accesses memory; for a token instruction one that may change its
registers or vl; for wbr one that may write a weight or vl; and any entry for the rest (R42, R43, R48, R165, R277, R356). -/
def waits (h : HartId) (hd : Hart) (i : Instr) (u : State) : Bool :=
  let some_ (test : Entry → Bool) : Bool := (hartOf u h).queue.any test
  match i with
  | .xwake rd v | .xwakeW rd v | .xrecv rd v => some_ fun e =>
    writesX e [rd] || mayTouchV e v.val (vtGrp hd.csr.vtype) || mayTrim e.instr
  | .wbr .. => some_ fun e => mayWriteW e || mayTrim e.instr
  | .fence _ => anyAhead u h fun _ _ => true
  | .fenceX b a _ => if b = 0 ∨ a = 0 then some_ fun _ => true else anyAhead u h fun path _ => maskHas b path
  | i => match oneAccess hd i, registersFor hd i, orderRegisters hd i with
    | some (rs, rel, ra, off, n), _, _ =>
      some_ (writesX · rs) || anyAhead u h (behind u (mayLie u h ((readX (hartOf u h) ra).toNat + off) n) rel)
    | none, some rs, _ => some_ (writesX · rs)
    | none, none, some rs => some_ fun e => writesX e rs || touchesMemory e.instr
    | none, none, none => some_ fun _ => true

/-- An instruction of the current hart waits for entries of the queue (R42, R48, R165). -/
def mustWait (s : State) (i : Instr) : Bool := waits s.cur (me s) i s

/-- The registers of a weight group under a configuration that can hold one (R209, R210). -/
def weightGroup (hd : Hart) (n : Nat) : Prop := weightRegs (vtEt hd.csr.vtype) (vtGrp hd.csr.vtype) (vtBl hd.csr.vtype) = some n

/-- A weight register that heads a group of n. -/
def headsWeights (w : WReg) (n : Nat) : Prop := w.val % n = 0 ∧ w.val + n ≤ 16

/-- The governing weight register: ws, or the arm's (R94). -/
def governor (hd : Hart) (ws : WReg) : Nat := if ws = 0 then hd.csr.wctl.toNat % 16 else ws.val

/-- A vector register that heads the rows of a tile (R32, R97). -/
abbrev headsTile (hd : Hart) (v : VReg) : Prop :=
  v.val % vtGrp hd.csr.vtype = 0 ∧ v.val + vtGrp hd.csr.vtype * hd.csr.vrc.toNat ≤ 64

/-- Two tiles that are the same or share no register (R190). -/
abbrev sameOrApart (hd : Hart) (v u : VReg) : Prop :=
  v = u ∨ v.val + vtGrp hd.csr.vtype * hd.csr.vrc.toNat ≤ u.val ∨ u.val + vtGrp hd.csr.vtype * hd.csr.vrc.toNat ≤ v.val

/-- Element j of row r of a tile. -/
def tileElem (hd : Hart) (v : VReg) (r j : Nat) : Nat :=
  groupGet hd.v (v.val + r * vtGrp hd.csr.vtype) (j * etWidth (vtEt hd.csr.vtype)) (etWidth (vtEt hd.csr.vtype))

/-- Element j of row r of a second operand (R91, R93). -/
def sourceElem (hd : Hart) (b : Src) (r j : Nat) : Nat :=
  match b with
  | .v vb => tileElem hd vb r j
  | .x x => (readX hd x).toNat % 2 ^ etWidth (vtEt hd.csr.vtype)
  | .i imm => wrap (etWidth (vtEt hd.csr.vtype)) imm.toInt

/-- R193: the operands and the result of an integer operation that sets no flag, on elements of an 8- to 64-bit type. -/
def integerElement (et : Nat) : Instr → Option (VBin × (Nat → Nat → Nat))
  | .vadd a => some (a, fun x y => wrap (etWidth et) (intVal et x + intVal et y))
  | .vsub a => some (a, fun x y => wrap (etWidth et) (intVal et x - intVal et y))
  | .vrsub a => some (a, fun x y => wrap (etWidth et) (intVal et y - intVal et x))
  | .vmul a => some (a, fun x y => wrap (etWidth et) (intVal et x * intVal et y))
  | .vmulh a => some (a, fun x y => wrap (etWidth et) (intVal et x * intVal et y / 2 ^ etWidth et))
  | .vmin a => some (a, fun x y => wrap (etWidth et) (min (intVal et x) (intVal et y)))
  | .vmax a => some (a, fun x y => wrap (etWidth et) (max (intVal et x) (intVal et y)))
  | .vand a => some (a, fun x y => x &&& y)
  | .vor a => some (a, fun x y => x ||| y)
  | .vxor a => some (a, fun x y => x ^^^ y)
  | .vshl a => some (a, fun x y => x * 2 ^ (y % etWidth et) % 2 ^ etWidth et)
  | .vshr a => some (a, fun x y => x / 2 ^ (y % etWidth et))
  | .vsha a => some (a, fun x y => wrap (etWidth et) (toSigned (etWidth et) x / 2 ^ (y % etWidth et)))
  | _ => none

/-- The relations of R226 on integers. -/
def relation : Instr → Option (WCmpArgs × (Int → Int → Bool))
  | .wcmpEq a => some (a, fun x y => x = y)
  | .wcmpNe a => some (a, fun x y => x ≠ y)
  | .wcmpLt a => some (a, fun x y => x < y)
  | .wcmpLe a => some (a, fun x y => x ≤ y)
  | .wcmpGt a => some (a, fun x y => y < x)
  | .wcmpGe a => some (a, fun x y => y ≤ x)
  | _ => none

/-! ## What the vector units write to register groups -/

/-- The rows of a destination after an instruction: its first register, the registers of a row, the rows, the element type,
and the elements that a row holds. `elem r j` is what element j of row r is written with, and `scale r f` the two scale bytes
of frame f of a block type; none keeps what stood there. `tail r` says that the bytes of row r after its elements are written
with ones. `flags` are set in vflags. -/
structure Writes where
  base  : Nat
  row   : Nat
  rows  : Nat
  et    : Nat
  count : Nat
  elem  : Nat → Nat → Option Nat
  scale : Nat → Nat → Option Nat := fun _ _ => none
  tail  : Nat → Bool
  flags : FlagSet

/-- The flags of some results together. -/
def flagsOf (fs : List FlagSet) : FlagSet := fs.foldl (· ||| ·) 0

/-- The registers of those rows have changed from one hart to another as they say; nothing is said of others (R189). -/
def RowsWritten (old new : Hart) (w : Writes) : Prop :=
  let bl := vtBl old.csr.vtype
  let frames := (w.count + bl - 1) / bl
  let bytes := if etBlock w.et then frames * frameBytes w.et bl else (w.count * etWidth w.et + 7) / 8
  ∀ r < w.rows,
    (∀ j < w.count, elemPos w.et bl j + etWidth w.et ≤ 9216 * w.row →
      elemGet new.v w.et bl (w.base + r * w.row) j =
        (w.elem r j).getD (elemGet old.v w.et bl (w.base + r * w.row) j)) ∧
    (etBlock w.et = true → ∀ f < frames, groupGet new.v (w.base + r * w.row) (8 * f * frameBytes w.et bl) 16 =
      (w.scale r f).getD (groupGet old.v (w.base + r * w.row) (8 * f * frameBytes w.et bl) 16)) ∧
    ∀ b, bytes ≤ b → b < 1152 * w.row → groupGet new.v (w.base + r * w.row) (8 * b) 8 =
      if w.tail r then 255 else groupGet old.v (w.base + r * w.row) (8 * b) 8

/-- From u, which is what the checks of an instruction leave of s, to t the current hart performed that vector-side instruction,
which writes some rows. Every other vector register is as it was; the rest of the hart is `hd` but for the PC, vstart, vflags,
the dirty marks and the counters; and everything else of the machine is as in u but memory (R184, R189, R192). -/
def WrittenIn (s u t : State) (hd : Hart) (ws : List Writes) : Prop :=
  t = { u with harts := u.harts.set s.cur (me t), mem := t.mem } ∧
  me t = { hd with
    pc := (me s).pc + 8, v := (me t).v, perf := (me t).perf
    csr := { hd.csr with
      vstart := 0, vflags := raiseFlags (me s).csr.vflags (flagsOf (ws.map (·.flags)))
      vhwm := (me t).csr.vhwm, vdirty := (me t).csr.vdirty } } ∧
  (∀ n < 64, (∀ w ∈ ws, ¬ (w.base ≤ n ∧ n < w.base + w.row * w.rows)) → vregAt (me t).v n = vregAt (me s).v n) ∧
  ∀ w ∈ ws, RowsWritten (me s) (me t) w

/-- The memory of a state after an instruction that touches none of it. -/
def sameMem (s : State) : Mem := { s.mem with nextTag := s.mem.nextTag + 1 }

/-- From s to t the current hart performed an instruction that writes those rows and nothing else. -/
def Written (s t : State) (w : Writes) : Prop := WrittenIn s s t (me s) [w] ∧ t.mem = sameMem s

/-- Whether element t of a tile, counted row by row, is at or after the starting element. -/
def started (hd : Hart) (t : Nat) : Bool := decide (hd.csr.vstart.toNat ≤ t)

/-- Element j is active under the governing weight (R54, R216). -/
def activeAt (hd : Hart) (ws : WReg) (j : Nat) : Bool :=
  governor hd ws = 0 || decide (hd.csr.wthr.toNat % 2 ^ 16 < weightGet hd.w (governor hd ws) j)

/-- The destination of an elementwise instruction of a number of rows: every active element from the start on gets its result,
and a row whose last element is performed gets its tail (R189, R192, R216). -/
def elementwise (hd : Hart) (vd : VReg) (ws : WReg) (et row rows : Nat) (f : Nat → Nat → Nat × FlagSet) : Writes :=
  let vl := hd.csr.vl.toNat
  let done (r j : Nat) : Bool := started hd (r * vl + j) && activeAt hd ws j
  { base := vd.val, row, rows, et, count := vl
    elem := fun r j => if done r j then some (f r j).1 else none
    tail := fun r => vtTa hd.csr.vtype && 0 < vl && started hd (r * vl + (vl - 1))
    flags := flagsOf ((List.range rows).flatMap fun r => (List.range vl).map fun j => if done r j then (f r j).2 else 0) }

/-- There is a weight group (R209). -/
abbrev hasWeights (hd : Hart) : Prop := (weightRegs (vtEt hd.csr.vtype) (vtGrp hd.csr.vtype) (vtBl hd.csr.vtype)).isSome = true

/-- A register heads a weight group within w15 (R209, R210). -/
abbrev weights (hd : Hart) (w : Nat) : Prop :=
  (weightRegs (vtEt hd.csr.vtype) (vtGrp hd.csr.vtype) (vtBl hd.csr.vtype)).any (fun n => w % n = 0 ∧ w + n ≤ 16) = true

/-- The governing register can govern (R94, R209, R210). -/
abbrev governs (hd : Hart) (ws : WReg) : Prop :=
  governor hd ws = 0 ∨ weights hd (governor hd ws)

/-- No register governs: neither the instruction's nor the arm's (R94). -/
abbrev ungoverned (hd : Hart) (ws : WReg) : Prop := ws = 0 ∧ hd.csr.wctl.toNat % 16 = 0

/-- A register heads rows of a number of registers each within v63 (R32, R97). -/
abbrev heads (v : VReg) (row rows : Nat) : Prop := v.val % row = 0 ∧ v.val + row * rows ≤ 64

/-- Two ranges of registers share none (R190). -/
abbrev apart (a n b m : Nat) : Prop := a + n ≤ b ∨ b + m ≤ a

/-- A second operand that fits a destination: a tile in place or apart, or an immediate of an integer type (R93, R190). -/
def operandFits (hd : Hart) (vd : VReg) : Src → Bool
  | .v vb => headsTile hd vb ∧ sameOrApart hd vd vb
  | .x _ => true
  | .i _ => etInt (vtEt hd.csr.vtype)

/-- A second operand that fits a wider destination of n registers a row (R190, R195). -/
def operandApart (hd : Hart) (vd : VReg) (n : Nat) : Src → Bool
  | .v vb => headsTile hd vb ∧ apart vd.val (n * hd.csr.vrc.toNat) vb.val (vtGrp hd.csr.vtype * hd.csr.vrc.toNat)
  | .x _ => true
  | .i _ => etInt (vtEt hd.csr.vtype)

/-- The exact value of a floating element under vctl.ftz (R131, R134). -/
def valueOf (hd : Hart) (et x : Nat) : FVal := unpack (fmtOf et) (ftzOf hd) x

/-- An exact result rounded once to a type (R131, R135). -/
def roundedTo (hd : Hart) (rm : Rm) (et : Nat) (r : FVal × FlagSet) : Nat × FlagSet :=
  deliverWith (fmtOf et) (roundMode hd rm) (ftzOf hd) r

/-- R194: the result of a floating operation of two operands. -/
def floatElement (hd : Hart) : Instr → Option (VBin × (Nat → Nat → Nat × FlagSet))
  | .vadd a => some (a, of a fun m x y => exactAdd m x y)
  | .vsub a => some (a, of a fun m x y => exactAdd m x y.negate)
  | .vrsub a => some (a, of a fun m x y => exactAdd m y x.negate)
  | .vmul a => some (a, of a fun _ x y => exactMul x y)
  | .vmin a => some (a, of a fun _ x y => exactMinMax false x y)
  | .vmax a => some (a, of a fun _ x y => exactMinMax true x y)
  | .vfdiv a => some (a, of a fun _ x y => exactDiv x y)
  | _ => none
where
  /-- Two elements as values, the operation, and one rounding. -/
  of (a : VBin) (f : Nat → FVal → FVal → FVal × FlagSet) (x y : Nat) : Nat × FlagSet :=
    let et := vtEt hd.csr.vtype
    roundedTo hd a.rm et (f (roundMode hd a.rm) (valueOf hd et x) (valueOf hd et y))

/-- R129, R193: the integer operations of two operands that set a flag: vsadd and vssub saturate; division by zero gives -1
and the dividend, with DZ. -/
def flaggedElement (et : Nat) : Instr → Option (VBin × (Nat → Nat → Nat × FlagSet))
  | .vsadd a => some (a, fun x y => clamped (intVal et x + intVal et y))
  | .vssub a => some (a, fun x y => clamped (intVal et x - intVal et y))
  | .vdiv a => some (a, fun x y =>
      if y = 0 then (2 ^ etWidth et - 1, flagDZ) else (wrap (etWidth et) ((intVal et x).tdiv (intVal et y)), 0))
  | .vrem a => some (a, fun x y =>
      if y = 0 then (wrap (etWidth et) (intVal et x), flagDZ) else (wrap (etWidth et) ((intVal et x).tmod (intVal et y)), 0))
  | _ => none
where
  /-- The nearest value of the type, with SAT when it differs. -/
  clamped (v : Int) : Nat × FlagSet :=
    let c := max (intMin et) (min (intMax et) v)
    (wrap (etWidth et) c, if c = v then 0 else flagSAT)

/-- The operations that a zero divisor can trap (R129). -/
def divides : Instr → Bool
  | .vdiv _ | .vrem _ => true
  | _ => false

/-- R194: the floating operations of one operand, with the types that they take. -/
def unaryElement : Instr → Option (VUn × (FVal → FVal × FlagSet) × (Nat → Bool))
  | .vfsqrt a => some (a, exactSqrt, etFloat)
  | .vfrsqrt a => some (a, exactRsqrt, tyShort)
  | .vfexp2 a => some (a, exactExp2, tyShort)
  | .vflog2 a => some (a, exactLog2, tyShort)
  | _ => none

/-- R138, R194: the fused operations, from the rounding mode for the sign of a zero sum. -/
def fusedElement : Instr → Option (VTern × (Nat → FVal → FVal → FVal → FVal × FlagSet))
  | .vfma a => some (a, fun m x y z => exactFma m x y z)
  | .vfms a => some (a, fun m x y z => exactFma m x y z.negate)
  | .vfnma a => some (a, fun m x y z => exactFma m x.negate y z)
  | _ => none

/-- R195: vwadd and vwmul: an exact sum or product, written to the type of twice the width. -/
def wideElement (hd : Hart) : Instr → Option (VBin × (Nat → Nat → Nat × FlagSet))
  | .vwadd a => some (a, of a (· + ·) fun m x y => exactAdd m x y)
  | .vwmul a => some (a, of a (· * ·) fun _ x y => exactMul x y)
  | _ => none
where
  /-- The operation on integers or on values. -/
  of (a : VBin) (f : Int → Int → Int) (g : Nat → FVal → FVal → FVal × FlagSet) (x y : Nat) : Nat × FlagSet :=
    let et := vtEt hd.csr.vtype
    if etWide et then (wrap (etWidth (vtEt2 hd.csr.vtype)) (f (intVal et x) (intVal et y)), 0)
    else roundedTo hd a.rm (vtEt2 hd.csr.vtype) (g (roundMode hd a.rm) (valueOf hd et x) (valueOf hd et y))

/-- R128, R196: an element converted from one type to another. -/
def convertedElement (hd : Hart) (et et2 : Nat) (rm : Rm) (x : Nat) : Nat × FlagSet :=
  let m := roundMode hd rm
  if et = et2 then (x, 0)
  else if etInt et ∧ etInt et2 then
    if etWidth et < etWidth et2 then (wrap (etWidth et2) (intVal et x), 0) else flaggedElement.clamped et2 (intVal et x)
  else if etInt et then roundTo (fmtOf et2) m (ftzOf hd) (decide (intVal et x < 0)) (intVal et x).natAbs 1
  else if etPw et then (pwToFloat (fmtOf et2) x, 0)
  else if etInt et2 then floatToInt (fmtOf et) et2 m (ftzOf hd) x
  else if etPw et2 then (floatToPw (fmtOf et) (ftzOf hd) x, 0)
  else floatToFloat (fmtOf et) (fmtOf et2) m (ftzOf hd) x

/-- The conversions, with the widths that they take and whether they may run in place (R190, R196). -/
def conversion (et et2 : Nat) : Instr → Option (VUn × Bool × Bool)
  | .vcvt a => some (a, etWidth et = etWidth et2, true)
  | .vwcvt a => some (a, etWidth et < etWidth et2, false)
  | .vncvt a => some (a, etWidth et2 < etWidth et, false)
  | _ => none

/-- R190, R192, R216: an elementwise operation of two tiles of one shape and type. -/
def binaryForm (hd : Hart) (a : VBin) (f : Nat → Nat → Nat × FlagSet) : Bool × Writes :=
  (governs hd a.ws ∧ headsTile hd a.vd ∧ headsTile hd a.va ∧ sameOrApart hd a.vd a.va ∧ operandFits hd a.vd a.b,
    elementwise hd a.vd a.ws (vtEt hd.csr.vtype) (vtGrp hd.csr.vtype) hd.csr.vrc.toNat fun r j =>
      f (tileElem hd a.va r j) (sourceElem hd a.b r j))

/-- The softness τ of wtemp as a fraction; 1 where wtemp holds no positive number (R211). -/
def temperature (hd : Hart) : Nat × Nat :=
  match unpack (fmtOf 10) false (hd.csr.wtemp.toNat % 2 ^ 32) with
  | .num _ n d => if n = 0 then (1, 1) else (n, d)
  | _ => (1, 1)

/-- The instructions of unit VA that work element by element, and those of WG that write a vector tile (R191 to R198, R229,
R233, R234): when they are legal under a configuration, and what they write. -/
def elementForms (hd : Hart) (i : Instr) : Option (Bool × Writes) :=
  let vt := hd.csr.vtype
  let et := vtEt vt
  let et2 := vtEt2 vt
  let grp := vtGrp vt
  let rows := hd.csr.vrc.toNat
  let tile (vd : VReg) (ws : WReg) := elementwise hd vd ws et grp rows
  let weight (w : WReg) (j : Nat) : Nat := weightGet hd.w w.val j
  if let some (a, f) := integerElement et i then
    if et < 8 then some (binaryForm hd a fun x y => (f x y, 0))
    else (floatElement hd i).map fun p => ((binaryForm hd p.1 p.2).1 ∧ etFloat et = true, (binaryForm hd p.1 p.2).2)
  else if let some (a, f) := floatElement hd i then
    some ((binaryForm hd a f).1 ∧ etFloat et = true, (binaryForm hd a f).2)
  else if let some (a, f) := flaggedElement et i then
    some ((binaryForm hd a f).1 ∧ et < 8 ∧ (dzOf hd = false ∨ divides i = false ∨
        ∀ r < rows, ∀ j < hd.csr.vl.toNat, started hd (r * hd.csr.vl.toNat + j) = true → activeAt hd a.ws j = true →
          sourceElem hd a.b r j ≠ 0), (binaryForm hd a f).2)
  else if let some (a, f, types) := unaryElement i then
    some (types et = true ∧ governs hd a.ws ∧ headsTile hd a.vd ∧ headsTile hd a.va ∧ sameOrApart hd a.vd a.va,
      tile a.vd a.ws fun r j => roundedTo hd a.rm et (f (valueOf hd et (tileElem hd a.va r j))))
  else if let some (a, f) := fusedElement i then
    some (etFloat et = true ∧ governs hd a.ws ∧ headsTile hd a.vd ∧ headsTile hd a.va ∧ sameOrApart hd a.vd a.va ∧
        operandFits hd a.vd (ternB a) ∧ headsTile hd (ternC a) ∧ sameOrApart hd a.vd (ternC a),
      tile a.vd a.ws fun r j => roundedTo hd a.rm et (f (roundMode hd a.rm) (valueOf hd et (tileElem hd a.va r j))
        (valueOf hd et (sourceElem hd (ternB a) r j)) (valueOf hd et (tileElem hd (ternC a) r j))))
  else if let some (a, f) := wideElement hd i then
    some (widerOk et et2 = true ∧ grp ≠ 8 ∧ governs hd a.ws ∧ heads a.vd (2 * grp) rows ∧ headsTile hd a.va ∧
        apart a.vd.val (2 * grp * rows) a.va.val (grp * rows) ∧ operandApart hd a.vd (2 * grp) a.b,
      elementwise hd a.vd a.ws et2 (2 * grp) rows fun r j => f (tileElem hd a.va r j) (sourceElem hd a.b r j))
  else if let some (a, widths, same) := conversion et et2 i then
    (indexRegs (vlmax vt) et2).map fun n =>
      (tyAny et = true ∧ tyAny et2 = true ∧ widths = true ∧ ¬ (etPw et ∧ etInt et2) ∧ ¬ (etInt et ∧ etPw et2) ∧
        governs hd a.ws ∧ heads a.vd n rows ∧ headsTile hd a.va ∧
        (if same then sameOrApart hd a.vd a.va else apart a.vd.val (n * rows) a.va.val (grp * rows)),
      elementwise hd a.vd a.ws et2 n rows fun r j => convertedElement hd et et2 a.rm (tileElem hd a.va r j))
  else match i with
  | .vwfma a =>
    let vc := ternC a
    some (widerFloat et et2 = true ∧ grp ≠ 8 ∧ governs hd a.ws ∧ heads a.vd (2 * grp) rows ∧ headsTile hd a.va ∧
        apart a.vd.val (2 * grp * rows) a.va.val (grp * rows) ∧ operandApart hd a.vd (2 * grp) (ternB a) ∧
        heads vc (2 * grp) rows ∧ (a.vd = vc ∨ apart a.vd.val (2 * grp * rows) vc.val (2 * grp * rows)),
      elementwise hd a.vd a.ws et2 (2 * grp) rows fun r j => roundedTo hd a.rm et2 (exactFma (roundMode hd a.rm)
        (valueOf hd et (tileElem hd a.va r j)) (valueOf hd et (sourceElem hd (ternB a) r j))
        (valueOf hd et2 (groupGet hd.v (vc.val + r * (2 * grp)) (j * etWidth et2) (etWidth et2)))))
  | .vdequant a =>
    (indexRegs (vlmax vt) et2).map fun n =>
      (etBlock et = true ∧ (et2 = 9 ∨ et2 = 10) ∧ ungoverned hd a.ws ∧ heads a.vd n rows ∧ headsTile hd a.va ∧
        apart a.vd.val (n * rows) a.va.val (grp * rows),
      elementwise hd a.vd 0 et2 n rows fun r j => dequantOut et2 (ftzOf hd) (blockElem hd.v et (vtBl vt) (a.va.val + r * grp) j))
  | .vsel a =>
    some (tyAny et = true ∧ governs hd a.ws ∧ headsTile hd a.vd ∧ headsTile hd a.va ∧ headsTile hd a.vb ∧ headsTile hd a.vc ∧
        sameOrApart hd a.vd a.va ∧ sameOrApart hd a.vd a.vb ∧ sameOrApart hd a.vd a.vc,
      tile a.vd a.ws fun r j => (if tileElem hd a.vc r j = 0 then tileElem hd a.vb r j else tileElem hd a.va r j, 0))
  | .vmv (.copy vd va ws _) =>
    some (tyAny et = true ∧ governs hd ws ∧ headsTile hd vd ∧ headsTile hd va ∧ sameOrApart hd vd va,
      tile vd ws fun r j => (tileElem hd va r j, 0))
  | .vmv (.splat vd x ws _) =>
    some (tyAny et = true ∧ governs hd ws ∧ headsTile hd vd, tile vd ws fun _ _ => ((readX hd x).toNat % 2 ^ etWidth et, 0))
  | .vmv (.splatImm vd imm ws _) =>
    some (etInt et = true ∧ governs hd ws ∧ headsTile hd vd, tile vd ws fun _ _ => (wrap (etWidth et) imm.toInt, 0))
  | .wtov vd wa _ =>
    -- a move of row 0 that nothing governs
    some (tyWeightMove et = true ∧ weights hd wa.val ∧ heads vd grp 1,
      elementwise { hd with csr := { hd.csr with wctl := 0 } } vd 0 et grp 1 fun _ j =>
          (if etFloat et then (roundTo (fmtOf et) 1 false false (weight wa j) 0x8000).1 else weight wa j, 0))
  | .wblend a =>
    some (etFloat et = true ∧ weights hd a.ws.val ∧ headsTile hd a.vd ∧ headsTile hd a.va ∧
        headsTile hd a.vb ∧ sameOrApart hd a.vd a.va ∧ sameOrApart hd a.vd a.vb,
      elementwise { hd with csr := { hd.csr with wctl := 0 } } a.vd 0 et grp rows fun r j =>
        let x := valueOf hd et (tileElem hd a.va r j)
        let y := valueOf hd et (tileElem hd a.vb r j)
        let c := weight a.ws j
        roundedTo hd a.rm et
          (if c = 0x8000 then (x, x.nvFlag) else if c = 0 then (y, y.nvFlag)
           else
            let p := exactMul (.num false c 0x8000) x
            let q := exactMul (.num false (0x8000 - c) 0x8000) y
            let z := exactAdd (roundMode hd a.rm) p.1 q.1
            (z.1, p.2 ||| q.2 ||| z.2)))
  | .wgradB a =>
    some (etFloat et = true ∧ hasWeights hd ∧ headsTile hd a.vd ∧ headsTile hd a.va ∧ headsTile hd a.vb ∧
        headsTile hd a.vc ∧ sameOrApart hd a.vd a.va ∧ sameOrApart hd a.vd a.vb ∧ sameOrApart hd a.vd a.vc,
      elementwise { hd with csr := { hd.csr with wctl := 0 } } a.vd 0 et grp rows fun r j =>
        let d := exactAdd (roundMode hd a.rm) (valueOf hd et (tileElem hd a.vb r j))
          (valueOf hd et (tileElem hd a.vc r j)).negate
        let p := exactMul (valueOf hd et (tileElem hd a.va r j)) d.1
        roundedTo hd a.rm et (p.1, d.2 ||| p.2))
  | .wgradS vd va ws rm =>
    some (etFloat et = true ∧ weights hd ws.val ∧ headsTile hd vd ∧ headsTile hd va ∧
        sameOrApart hd vd va,
      elementwise { hd with csr := { hd.csr with wctl := 0 } } vd 0 et grp rows fun r j =>
        -- x times w (1 - w) over τ, rounded once
        let c := weight ws j
        let t := temperature hd
        roundedTo hd rm et (exactMul (valueOf hd et (tileElem hd va r j)) (.num false (c * (0x8000 - c) * t.2) (2 ^ 30 * t.1))))
  | _ => none

/-- R197: vquant: whole blocks of a row, each with its two scales (R146). -/
def quantForm (hd : Hart) (a : VUn) : Option (Bool × Writes) :=
  let vt := hd.csr.vtype
  let et := vtEt vt
  let et2 := vtEt2 vt
  let bl := vtBl vt
  let vl := hd.csr.vl.toNat
  let rows := hd.csr.vrc.toNat
  let done (r f : Nat) : Bool := decide (hd.csr.vstart.toNat < r * vl + min ((f + 1) * bl) vl)
  let block (r f : Nat) : Nat × Nat × List Nat × FlagSet := quantBlock (etWidth et2) ((List.range bl).map fun k =>
    if f * bl + k < vl then valueOf hd et (tileElem hd a.va r (f * bl + k)) else .num false 0 1)
  (frameRegs ((vlmax vt + bl - 1) / bl) et2 bl).map fun n =>
    ((et = 9 ∨ et = 10) ∧ etBlock et2 = true ∧ ungoverned hd a.ws ∧ heads a.vd n rows ∧ headsTile hd a.va ∧
        apart a.vd.val (n * rows) a.va.val (vtGrp vt * rows),
      { base := a.vd.val, row := n, rows, et := et2, count := (vl + bl - 1) / bl * bl
        elem := fun r j => if done r (j / bl) then some ((block r (j / bl)).2.2.1.getD (j % bl) 0) else none
        scale := fun r f => if done r f then some ((block r f).1 + 256 * (block r f).2.1) else none
        tail := fun r => vtTa vt && 0 < vl && started hd (r * vl + (vl - 1))
        flags := flagsOf ((List.range rows).flatMap fun r => (List.range ((vl + bl - 1) / bl)).map fun f =>
          if done r f then (block r f).2.2.2 else 0) })

/-- Row 0 of a group written from the starting element on in one piece, with its tail (R199). -/
def rowForm (hd : Hart) (vd : VReg) (elem : Nat → Option Nat) (flags : FlagSet) : Writes :=
  let vl := hd.csr.vl.toNat
  let runs : Bool := decide (hd.csr.vstart.toNat < vl)
  { base := vd.val, row := vtGrp hd.csr.vtype, rows := 1, et := vtEt hd.csr.vtype, count := vl
    elem := fun _ j => if runs && started hd j then elem j else none
    tail := fun _ => vtTa hd.csr.vtype && runs
    flags := if runs then flags else 0 }

/-- An amount or a column (R102). -/
def amount (hd : Hart) : Amount → Nat
  | .x x => (readX hd x).toNat
  | .i imm => imm.toNat

/-- An immediate amount needs an integer type (R93, R199). -/
def amountFits (hd : Hart) : Amount → Bool
  | .x _ => true
  | .i _ => etInt (vtEt hd.csr.vtype)

/-- Element j of row 0 of an operand. -/
def rowElem (hd : Hart) (v : VReg) (j : Nat) : Nat := elemGet hd.v (vtEt hd.csr.vtype) (vtBl hd.csr.vtype) v.val j

/-- The active, selected positions below a position (R202). -/
def selectedBelow (hd : Hart) (a : VVV) (n : Nat) : List Nat :=
  (List.range n).filter fun j => activeAt hd a.ws j && rowElem hd a.vb j != 0

/-- R203: the operation of a reduction, whether it is the tree sum of R153, and the types that it takes. -/
def reduction : Instr → Option (VRed × Fold × Bool × (Nat → Bool))
  | .vredsumO a => some (a, .sum, false, tyIF)
  | .vredsumT a => some (a, .sum, true, tyIF)
  | .vredmax a => some (a, .max, false, tyIF)
  | .vredmin a => some (a, .min, false, tyIF)
  | .vredand a => some (a, .and, false, etWide)
  | .vredor a => some (a, .or, false, etWide)
  | _ => none

/-- The terms of a reduction or scan: an inactive element counts as the operation's identity (R203). -/
def termsOf (hd : Hart) (op : Fold) (va : VReg) (ws : WReg) : List Nat :=
  (List.range hd.csr.vl.toNat).map fun j =>
    if activeAt hd ws j then rowElem hd va j else foldIdentity op (vtEt hd.csr.vtype)

/-- Terms combined one by one, each result rounded or wrapped to the type (R153). -/
def combined (hd : Hart) (op : Fold) (rm : Rm) (first : Nat) (terms : List Nat) : Nat × FlagSet :=
  terms.foldl (fun acc x =>
    let r := foldStep op (vtEt hd.csr.vtype) (roundMode hd rm) (ftzOf hd) acc.1 x
    (r.1, acc.2 ||| r.2)) (first, 0)

/-- The result of a reduction, which begins with element 0 of vb. -/
def reduced (hd : Hart) (a : VRed) (op : Fold) (tree : Bool) : Nat × FlagSet :=
  if tree then treeFold (vtEt hd.csr.vtype) (roundMode hd a.rm) (ftzOf hd) (rowElem hd a.vb 0) (termsOf hd op a.va a.ws)
  else combined hd op a.rm (rowElem hd a.vb 0) (termsOf hd op a.va a.ws)

/-- Where element j of the output of vcsw comes from: its partner when the pair is exchanged (R206). -/
def exchangedFrom (hd : Hart) (a : VCswArgs) (j : Nat) : Nat :=
  let d := 2 ^ a.j.toNat
  let p := if j / d % 2 = 0 then j + d else j - d
  let lo := min j p
  let hi := max j p
  let less (x y : Nat) : Bool := keyLt (vtEt hd.csr.vtype) (ftzOf hd) (rowElem hd a.va x) (rowElem hd a.va y)
  let ascending : Bool := (lo / 2 ^ a.k.toNat % 2 == 0) != a.inv
  if hd.csr.vl.toNat ≤ hi then j else if (if ascending then less hi lo else less lo hi) then p else j

/-- The instructions of unit VX that write vector registers (R199 to R207), and vquant: when they are legal under a
configuration, and what they write. -/
def crossForms (hd : Hart) (i : Instr) : Option (Bool × Writes) :=
  let vt := hd.csr.vtype
  let et := vtEt vt
  let bl := vtBl vt
  let grp := vtGrp vt
  let vl := hd.csr.vl.toNat
  let st := hd.csr.vstart.toNat
  let rows := hd.csr.vrc.toNat
  let ones := 2 ^ etWidth et - 1
  let row (v : VReg) : Bool := heads v grp 1
  let two (vd va : VReg) : Bool := row vd ∧ row va ∧ apart vd.val grp va.val grp
  let frames (a : VVV) : Option (Bool × Writes) :=
    -- whole frames, chosen by 16-bit numbers
    let n := if vlmax vt / bl ≤ 576 then 1 else 2
    let k (f : Nat) : Nat := groupGet hd.v a.vb.val (16 * f) 16
    let done (f : Nat) : Bool := st < vl && st / bl ≤ f && f < vl / bl
    some (etBlock et = true ∧ ungoverned hd a.ws ∧ two a.vd a.va ∧ heads a.vb n 1 ∧ apart a.vd.val grp a.vb.val n,
      { base := a.vd.val, row := grp, rows := 1, et, count := vl / bl * bl
        elem := fun _ j => if done (j / bl) && started hd j then
          some (if k (j / bl) < vl / bl then rowElem hd a.va (k (j / bl) * bl + j % bl) else 0) else none
        scale := fun _ f => if done f then
          some (if k f < vl / bl then groupGet hd.v a.va.val (8 * k f * frameBytes et bl) 16 else 0) else none
        tail := fun _ => vtTa vt && st < vl
        flags := if (List.range (vl / bl)).any fun f => done f && vl / bl ≤ k f then flagOOR else 0 })
  match i with
  | .vquant a => quantForm hd a
  | .vfperm a => frames a
  | .vgath a =>
    if etBlock et then frames a
    else some (tyCross et = true ∧ governs hd a.ws ∧ two a.vd a.va ∧ two a.vd a.vb,
      elementwise hd a.vd a.ws et grp 1 fun _ j =>
        if rowElem hd a.vb j < vl then (rowElem hd a.va (rowElem hd a.vb j), 0) else (0, flagOOR))
  | .vslideup a =>
    let n := amount hd a.s
    some (tyAny et = true ∧ amountFits hd a.s ∧ governs hd a.ws ∧ two a.vd a.va,
      rowForm hd a.vd (fun j => if n ≤ j && activeAt hd a.ws j then some (rowElem hd a.va (j - n)) else none) 0)
  | .vslidedn a =>
    let n := amount hd a.s
    some (tyAny et = true ∧ amountFits hd a.s ∧ governs hd a.ws ∧ two a.vd a.va,
      elementwise hd a.vd a.ws et grp 1 fun _ j => (if j + n < vl then rowElem hd a.va (j + n) else 0, 0))
  | .vcompress a =>
    let chosen := selectedBelow hd a vl
    some (tyAny et = true ∧ governs hd a.ws ∧ two a.vd a.va ∧ two a.vd a.vb,
      rowForm hd a.vd (fun j =>
        if j < chosen.length then some (rowElem hd a.va (chosen.getD j 0)) else if vtTa vt then some ones else none) 0)
  | .vexpand a =>
    some (tyAny et = true ∧ governs hd a.ws ∧ two a.vd a.va ∧ two a.vd a.vb,
      rowForm hd a.vd (fun j => if activeAt hd a.ws j && rowElem hd a.vb j != 0 then
        some (rowElem hd a.va (selectedBelow hd a j).length) else none) 0)
  | .vscan a =>
    let op := scanFold a.op
    let terms := termsOf hd op a.va a.ws
    let prefix_ (j : Nat) := combined hd op a.rm (terms.headD 0) ((terms.drop 1).take j)
    some ((if op = .and ∨ op = .or then etWide et = true else tyIF et = true) ∧ governs hd a.ws ∧ two a.vd a.va,
      rowForm hd a.vd (fun j => if activeAt hd a.ws j then some (prefix_ j).1 else none) (prefix_ vl).2)
  | .vmovc a =>
    let c := amount hd a.s
    let moved (r : Nat) : Bool := st < rows * vl && started hd r && r < rows && activeAt hd a.ws r
    some (tyCross et = true ∧ amountFits hd a.s ∧ governs hd a.ws ∧ row a.vd ∧ headsTile hd a.va ∧
        apart a.vd.val grp a.va.val (grp * rows),
      { base := a.vd.val, row := grp, rows := 1, et, count := max rows st
        elem := fun _ r => if moved r then some (if c < vl then tileElem hd a.va r c else 0) else none
        tail := fun _ => vtTa vt && st < rows * vl
        flags := if vl ≤ c && (List.range rows).any moved then flagOOR else 0 })
  | .vmovr a =>
    let c := amount hd a.s
    some (tyCross et = true ∧ amountFits hd a.s ∧ governs hd a.ws ∧ headsTile hd a.vd ∧ row a.va ∧
        apart a.vd.val (grp * rows) a.va.val grp,
      { base := a.vd.val, row := grp, rows, et, count := vl
        elem := fun r j => if j = c && started hd (r * vl + c) && activeAt hd a.ws r then some (rowElem hd a.va r) else none
        tail := fun _ => false
        flags := if vl ≤ c && (List.range rows).any fun r => st < (r + 1) * vl && activeAt hd a.ws r then flagOOR else 0 })
  | .vcsw a =>
    some (tyCross et = true ∧ ungoverned hd a.ws ∧ heads a.vd grp 2 ∧ row a.va ∧ row a.vb ∧
        apart a.vd.val (2 * grp) a.va.val grp ∧ apart a.vd.val (2 * grp) a.vb.val grp,
      { rowForm hd a.vd (fun _ => none) 0 with
        rows := 2
        elem := fun r j => if st < vl && started hd j then
          some (rowElem hd (if r = 0 then a.va else a.vb) (exchangedFrom hd a j)) else none })
  | .vnormk a =>
    let k := a.k.toNat
    let code (j : Nat) : Nat := min 0x8000 (rowElem hd a.va j)
    let group (j : Nat) : List Nat := (List.range (min k (vl - j / k * k))).map fun q => code (j / k * k + q)
    some (et = 5 ∧ k ≠ 0 ∧ ungoverned hd a.ws ∧ two a.vd a.va,
      rowForm hd a.vd (fun j =>
          some (if (group j).sum = 0 then pw16 false 1 (group j).length else pw16 false (code j) (group j).sum))
        (if (List.range vl).any fun j => (group j).sum == 0 && st < j / k * k + k then flagZSUM else 0))
  | i => match reduction i with
    | some (a, op, tree, types) => match a.dst with
      | .x _ => none
      | .v vd =>
        let runs : Bool := st < max vl 1
        some (types et = true ∧ governs hd a.ws ∧ two vd a.va ∧ two vd a.vb,
          { base := vd.val, row := grp, rows := 1, et, count := max vl 1
            elem := fun _ j => if !runs then none else if j = 0 then some (reduced hd a op tree).1
              else if vtTa vt && started hd j then some ones else none
            tail := fun _ => vtTa vt && st < vl
            flags := if runs then (reduced hd a op tree).2 else 0 })
    | none => none

/-! ## What the matrix unit writes -/

/-- Rows and columns of C, and the density of a sparse operand (R237). -/
def mshapeRows (hd : Hart) : Nat := hd.csr.mshape.toNat % 2 ^ 8
/-- See `mshapeRows`. -/
def mshapeCols (hd : Hart) : Nat := hd.csr.mshape.toNat / 2 ^ 8 % 2 ^ 8
/-- See `mshapeRows`. -/
def mshapeSparse (hd : Hart) : Nat := hd.csr.mshape.toNat / 2 ^ 16 % 2 ^ 8

/-- The rows of A, from registers or from the operand latch, and of B transposed (R242, R251). -/
def leftRow (hd : Hart) (latched : Bool) (va : VReg) (i : Nat) : RowBits :=
  if latched then latchRow hd i else groupGet hd.v (va.val + i * vtGrp hd.csr.vtype)
/-- See `leftRow`. -/
def rightRow (hd : Hart) (vb : VReg) (j : Nat) : RowBits := groupGet hd.v (vb.val + j * vtGrp hd.csr.vtype)

/-- R150 to R152: an element of C with the products of some terms added: exactly for integers, in order for mmul.o, and in
groups of 24 positions that are summed exactly for mmul.r. `before` are the terms of positions below the start: in a product
of block types a NaN among them has already made the element NaN. -/
def accumulated (hd : Hart) (exact : Bool) (rm : Rm) (a b : RowBits) (before : List (Nat × Nat))
    (groups : List (List (Nat × Nat))) (c : Nat) : Nat × FlagSet :=
  let et := vtEt hd.csr.vtype
  let et2 := vtEt2 hd.csr.vtype
  let bl := vtBl hd.csr.vtype
  let blk := etBlock et
  let prod (t : Nat × Nat) : FVal × FlagSet :=
    mxProduct blk (rowVal a et bl (ftzOf hd) t.1) (rowVal b et2 bl (ftzOf hd) t.2)
  if tyByte et then
    (wrap 32 ((c : Int) + (groups.flatten.map fun t => intVal et (a (8 * t.1) 8) * intVal et2 (b (8 * t.2) 8)).sum), 0)
  else if blk ∧ (before.any fun t => (prod t).1.isNan) then (canonNan (fmtOf 10), 0)
  else orderedSum blk (roundMode hd rm) (ftzOf hd) (c, 0)
    (if exact then groups.map fun g => groupSum (roundMode hd rm) (g.map prod) else groups.flatten.map prod)

/-- Positions lo to hi - 1 in groups of 24. -/
def by24 (lo hi : Nat) : List (List Nat) :=
  (List.range ((hi - lo + 23) / 24)).map fun g => (List.range (min 24 (hi - lo - 24 * g))).map (lo + 24 * g + ·)

/-- The checks of R243 that the products share, for n registers of C. -/
abbrev productFits (hd : Hart) (ws : WReg) (form : BitVec 2) (latched : Bool) (vd va vb : VReg) (n : Nat) : Prop :=
  let vt := hd.csr.vtype
  ungoverned hd ws ∧ form = 0 ∧ mxPair (vtEt vt) (vtEt2 vt) = true ∧
    hd.csr.vl.toNat ≤ vlmaxOf (vtEt2 vt) (vtGrp vt) (vtBl vt) ∧
    (if latched then va = 0 ∧ dataBytes (vtEt vt) (vtBl vt) hd.csr.vl.toNat ≤ 1152
     else va.val % vtGrp vt = 0 ∧ va.val + mshapeRows hd * vtGrp vt ≤ 64 ∧
      apart vd.val n va.val (mshapeRows hd * vtGrp vt)) ∧
    vb.val % vtGrp vt = 0 ∧ vb.val + mshapeCols hd * vtGrp vt ≤ 64 ∧ vd.val + n ≤ 64 ∧
    apart vd.val n vb.val (mshapeCols hd * vtGrp vt)

/-- The chunk Kc of R241 under a configuration. -/
def chunkLength (hd : Hart) : Nat := max (chunkOf (vtEt hd.csr.vtype)) (chunkOf (vtEt2 hd.csr.vtype))

/-- R246, R250: C in one register, with the terms that column j takes from some positions of the sum. -/
def productForm (hd : Hart) (exact latched : Bool) (rm : Rm) (vd va vb : VReg) (terms : Nat → List Nat → List (Nat × Nat)) :
    Writes :=
  let cols := mshapeCols hd
  let vl := hd.csr.vl.toNat
  let st := hd.csr.vstart.toNat
  let n := mshapeRows hd * cols
  let new (x : Nat) : Nat × FlagSet := accumulated hd exact rm (leftRow hd latched va (x / cols)) (rightRow hd vb (x % cols))
    (terms (x % cols) (List.range st)) ((by24 st vl).map (terms (x % cols))) (groupGet hd.v vd.val (32 * x) 32)
  { base := vd.val, row := 1, rows := 1, et := 6, count := n
    elem := fun _ x => if st < vl then some (new x).1 else none
    tail := fun _ => vtTa hd.csr.vtype && st < vl
    flags := if st < vl then flagsOf ((List.range n).map fun x => (new x).2) else 0 }

/-- A position is set in row j of a sparse operand's mask (R257). -/
def setAt (hd : Hart) (mask : VReg) (j p : Nat) : Bool := (vregAt hd.v mask.val).getLsbD (j * hd.csr.vl.toNat + p)

/-- The set positions of the 24-group of a position, in row j, that lie below a bound (R257). -/
def setBelow (hd : Hart) (mask : VReg) (j p bound : Nat) : List Nat :=
  ((List.range 24).map (p / 24 * 24 + ·)).filter fun q => setAt hd mask j q && q < bound

/-- R257 to R259: the shape of a sparse operand. -/
abbrev sparseFits (hd : Hart) : Prop :=
  mshapeSparse hd ∈ [6, 8, 12, 16] ∧ hd.csr.vl.toNat % 24 = 0 ∧ mshapeCols hd * hd.csr.vl.toNat ≤ 9216

/-- R255, R256: the start of group g of a grouped product; that of group vrc is vl. -/
def groupAt (hd : Hart) (offsets : VReg) (g : Nat) : Nat :=
  if g < hd.csr.vrc.toNat then groupGet hd.v offsets.val (32 * g) 32 else hd.csr.vl.toNat

/-- The products (R243 to R259): when they are legal under a configuration and their operands, and what they write. -/
def productForms (hd : Hart) (i : Instr) : Option (Bool × Writes) :=
  let vl := hd.csr.vl.toNat
  let st := hd.csr.vstart.toNat
  let every : Nat → List Nat → List (Nat × Nat) := fun _ ps => ps.map fun p => (p, p)
  let dense (a : MxArgs) (exact : Bool) : Option (Bool × Writes) :=
    some (productFits hd a.ws a.form a.l a.vd a.va a.vb 1 ∧ a.r = false ∧ (st % chunkLength hd = 0 ∨ vl ≤ st),
      productForm hd exact a.l a.rm a.vd a.va a.vb every)
  match i with
  | .mmulO a => dense a false
  | .mmulR a => dense a true
  | .mmulSp a =>
    let n := mshapeSparse hd
    some (productFits hd a.ws a.form a.l a.vd a.va a.vb 1 ∧ sparsePair (vtEt hd.csr.vtype) (vtEt2 hd.csr.vtype) = true ∧
        sparseFits hd ∧ a.vd ≠ a.vc ∧ (st % (chunkLength hd * 24 / n) = 0 ∨ vl ≤ st) ∧
        (∀ j < mshapeCols hd, ∀ p < vl, st ≤ p → (setBelow hd a.vc j p vl).length = n),
      productForm hd a.r a.l a.rm a.vd a.va a.vb fun j ps => ps.filterMap fun p =>
        if setAt hd a.vc j p then some (p, p / 24 * n + (setBelow hd a.vc j p p).length) else none)
  | .mmulGrp a =>
    let rows := hd.csr.vrc.toNat
    let cols := mshapeCols hd
    let n := mshapeRows hd * cols
    let lo := groupAt hd a.vc
    let first := ((List.range rows).find? fun g => lo g ≤ st && st < lo (g + 1)).getD rows
    let idle : Bool := rows * vl ≤ st || 0 < st && vl ≤ st
    let g0 := if st = 0 then 0 else first
    let from_ (g : Nat) : Nat := if g = g0 ∧ 0 < st then st else lo g
    let done (g : Nat) : Bool := !idle && g0 ≤ g && lo g < lo (g + 1)
    let new (g x : Nat) : Nat × FlagSet :=
      accumulated hd a.r a.rm (leftRow hd a.l a.va (x / cols)) (rightRow hd a.vb (x % cols))
        (((List.range (from_ g - lo g)).map (lo g + ·)).map fun p => (p, p))
        ((by24 (from_ g) (lo (g + 1))).map fun ps => ps.map fun p => (p, p)) (groupGet hd.v (a.vd.val + g) (32 * x) 32)
    some (productFits hd a.ws a.form a.l a.vd a.va a.vb rows ∧ apart a.vd.val rows a.vc.val 1 ∧
        (idle = true ∨ ∀ g < rows, g0 ≤ g → lo (g + 1) ≤ vl ∧
          (etBlock (vtEt hd.csr.vtype) = true → lo g < lo (g + 1) → lo g % vtBl hd.csr.vtype = 0)) ∧
        (0 < st → idle = false → first < rows ∧ (st - lo first) % chunkLength hd = 0),
      { base := a.vd.val, row := 1, rows, et := 6, count := n
        elem := fun g x => if done g then some (new g x).1 else none
        tail := fun g => vtTa hd.csr.vtype && done g
        flags := flagsOf ((List.range rows).map fun g =>
          if done g then flagsOf ((List.range n).map fun x => (new g x).2)
          else if !idle && g0 ≤ g && lo (g + 1) < lo g then flagGRP else 0) })
  | _ => none

/-! ## What the memory and local instructions read and write -/

/-- The checks of some units of an instruction pass, one after the other, whatever else a memory that is `safe` holds: `ps` gives
the places of each unit, and the last state is what the checks leave, with its TLBs filled (R174, R305, R409). -/
def Passes {α : Type} (chk : State → α → Except Fail (List Piece) × State) (ps : α → List Piece) (safe : Mem → Prop) :
    List α → State → State → Prop
  | [], s, t => t = s
  | a :: as, s, t => ∃ u, u.mem = s.mem ∧
      (∀ m, safe m → chk { s with mem := m } a = (.ok (ps a), { u with mem := m })) ∧ Passes chk ps safe as u t

/-- A memory that differs from a state's only at some keys, as the package sees it, in what an access check can meet. -/
def differsAt (s : State) (touched : Nat → Prop) (m : Mem) : Prop :=
  m.owners = s.mem.owners ∧ m.badSlots = s.mem.badSlots ∧ m.posted = s.mem.posted ∧ (∀ l ∈ m.poison, l ∈ s.mem.poison) ∧
    ∀ k, ¬ touched k → readByte m .package k = readByte s.mem .package k

/-- The keys of some places, in order. -/
def keysOf (ps : List Piece) : List Nat := ps.flatMap fun p => (List.range p.len).map (p.key + ·)

/-- Bytes written over others one after the other, each where its mask has ones. -/
def overlay (cells : List (Nat × Byte × Byte)) (k : Nat) (old : Byte) : Byte :=
  cells.foldl (fun b c => if c.1 = k then (b &&& ~~~c.2.2) ||| (c.2.1 &&& c.2.2) else b) old

/-- Whole bytes as masked ones. -/
def wholeBytes (bs : List Byte) : List (Byte × Byte) := bs.map fun b => (b, 0xFF)

/-- The current hart as the reader of a key. -/
def own (s : State) (k : Nat) : Reader := .hart s.cur (pathOf s.dev false k)

/-- The byte that an instruction of the current hart reads at a key: what the hart has read ahead there, and otherwise what is in
memory (log 19). -/
def seen (s : State) (m : Mem) (k : Nat) : Byte := hartByte m s.cur (pathOf s.dev false k) k

/-- The first elements of the access units of k elements that hold an active element from the start on (R305). -/
def unitsOf (hd : Hart) (ws : WReg) (k : Nat) : List Nat :=
  let vl := hd.csr.vl.toNat
  ((List.range ((vl + k - 1) / k)).map (· * k)).filter fun u =>
    (List.range k).any fun i => u + i < vl && started hd (u + i) && activeAt hd ws (u + i)

/-- x[xs] + imm10 (R302, R305). -/
def addressOf (hd : Hart) (xs : XReg) (imm : BitVec 10) : Int := (readX hd xs).toNat + imm.toInt

/-- An index (R303). -/
def indexAt (hd : Hart) (vb : VReg) (j : Nat) : Int :=
  let et2 := vtEt2 hd.csr.vtype
  let x := groupGet hd.v vb.val (j * etWidth et2) (etWidth et2)
  if etSigned et2 then toSigned (etWidth et2) x else x

/-- Types of eight bits or more that are no block types. -/
def elementType (et : Nat) : Bool := etInt et && !etPacked et || etFloat et || etF8 et || etPw et

/-- An index group of a legal type, apart from a destination row when there is one (R303, R304). -/
def indexFits (hd : Hart) (vb : VReg) (vd : Option VReg) : Bool :=
  let et2 := vtEt2 hd.csr.vtype
  et2 ∈ [1, 2, 3, 5, 6, 7] && (indexRegs (vlmax hd.csr.vtype) et2).any fun n =>
    heads vb n 1 && vd.all fun vd => apart vd.val (vtGrp hd.csr.vtype) vb.val n

/-- A row, and what governs it: nothing on a block type (R94, R215). -/
def rowFits (hd : Hart) (vd : VReg) (ws : WReg) : Bool :=
  heads vd (vtGrp hd.csr.vtype) 1 && if etBlock (vtEt hd.csr.vtype) then decide (ungoverned hd ws) else decide (governs hd ws)

/-- A load: its units, the bytes and the exact address of one, whether it links (R315), and what it writes from the number
that each unit holds, when only elements below a limit are loaded. -/
structure LoadForm where
  units  : List Nat
  len    : Nat
  addr   : Nat → Int
  linked : Bool := false
  writes : (Nat → Nat) → Nat → Writes

/-- R220: one row loaded unit by unit. A frame of a block type is loaded whole. -/
def rowLoad (hd : Hart) (vd : VReg) (ws : WReg) (addr : Nat → Int) : LoadForm :=
  let et := vtEt hd.csr.vtype
  let k := unitElems et (vtBl hd.csr.vtype)
  let w := etWidth et
  let vl := hd.csr.vl.toNat
  let inside (j : Nat) : Bool := if etBlock et then started hd (min (j / k * k + k) vl - 1) else started hd j && activeAt hd ws j
  { units := unitsOf hd ws k, len := unitBytes et (vtBl hd.csr.vtype), addr
    writes := fun val n =>
      { base := vd.val, row := vtGrp hd.csr.vtype, rows := 1, et, count := n
        elem := fun _ j => if inside j then
          some (val (j / k * k) / 2 ^ ((if etBlock et then 16 else 0) + j % k * w) % 2 ^ w) else none
        scale := fun _ f => if inside (f * k) then some (val (f * k) % 2 ^ 16) else none
        tail := fun _ => vtTa hd.csr.vtype && hd.csr.vstart.toNat < n
        flags := 0 } }

/-- R302 to R309, R315: the loads: when they are legal, and what they load. -/
def loadForms (hd : Hart) (i : Instr) : Option (Bool × LoadForm) :=
  let vt := hd.csr.vtype
  let et := vtEt vt
  let et2 := vtEt2 vt
  let k := unitElems et (vtBl vt)
  match i with
  | .vld m => some (rowFits hd m.vd m.ws, rowLoad hd m.vd m.ws fun u =>
      addressOf hd m.xs m.imm + (u / k * unitBytes et (vtBl vt) : Nat))
  | .vlds m xt => some (elementType et && rowFits hd m.vd m.ws, rowLoad hd m.vd m.ws fun u =>
      addressOf hd m.xs m.imm + u * (readX hd xt).toInt)
  | .vldx m vb => some (elementType et && rowFits hd m.vd m.ws && indexFits hd vb (some m.vd), rowLoad hd m.vd m.ws fun u =>
      addressOf hd m.xs m.imm + indexAt hd vb u)
  | .vgl m vb => some (elementType et && rowFits hd m.vd m.ws && indexFits hd vb (some m.vd),
      { rowLoad hd m.vd m.ws fun u => addressOf hd m.xs m.imm + indexAt hd vb u with linked := true })
  | .vldseg m n =>
    let fields := n.toNat
    let w := etWidth et2
    let done (j : Nat) : Bool := started hd j && activeAt hd m.ws j
    let field (val : Nat → Nat) (f j : Nat) : Nat × FlagSet := convertedElement hd et2 et m.rm (val j / 2 ^ (f * w) % 2 ^ w)
    some (elementType et && elementType et2 && !(etPw et && etInt et2) && !(etInt et && etPw et2) && decide (governs hd m.ws) &&
        decide (heads m.vd (vtGrp vt) fields),
      { units := unitsOf hd m.ws 1, len := fields * etBytes et2
        addr := fun u => addressOf hd m.xs m.imm + (u * (fields * etBytes et2) : Nat)
        writes := fun val c =>
          { base := m.vd.val, row := vtGrp vt, rows := fields, et, count := c
            elem := fun f j => if done j then some (field val f j).1 else none
            tail := fun _ => vtTa vt && hd.csr.vstart.toNat < c
            flags := flagsOf ((List.range fields).flatMap fun f => (List.range c).map fun j =>
              if done j then (field val f j).2 else 0) } })
  | _ => none

/-- The check of a unit of a load. -/
def checkLoad (s : State) (F : LoadForm) (v : State) (u : Nat) : Except Fail (List Piece) × State :=
  if F.linked then checkLinked v s.cur (F.addr u) F.len else check v s.cur .load (F.addr u) F.len

/-- The number that a unit holds, at its places. -/
def unitValue (s : State) (ps : Nat → List Piece) (u : Nat) : Nat := leValue (loadPieces s s.cur false (ps u))

/-- The number that a unit of a load holds; a linking load reads memory as it is now. -/
def loadValue (s : State) (F : LoadForm) (ps : Nat → List Piece) (u : Nat) : Nat :=
  if F.linked then leValue (readPieces s s.cur (ps u)) else unitValue s ps u

/-- A fault of element j with some cause is not dampened (R217). -/
def undampened (hd : Hart) (ws : WReg) (j cause : Nat) : Prop :=
  governor hd ws = 0 ∨ ¬ ((3 ≤ cause ∧ cause ≤ 8) ∨ cause = 11) ∨
    hd.csr.fthr.toNat % 2 ^ 16 ≤ weightGet hd.w (governor hd ws) j

/-- The trap of the only posted entry at a unit, after the writes of the entry so far have been performed (R382, R384). -/
def trapAt (s u : State) (i : Instr) (f : UnitFault) : State :=
  takeTrap { u with mem := performAt u.dev u.mem s.cur (fun a => a.tag == s.mem.nextTag) .system } s.cur
    (entryTrap (me u) (captured (me s) i) f [] [])

/-- R222: an element blended into memory by a weight code, and R133: old + w (new - old), rounded once; at weight 1.0 the new
value. An infinite old sets NV, and an infinite new replaces a finite old. -/
def blended (hd : Hart) (et : Nat) (rm : Rm) (code old new : Nat) : Nat × FlagSet :=
  let x := valueOf hd et old
  let y := valueOf hd et new
  if 0x8000 ≤ code then (if y.isNan then (canonNan (fmtOf et), y.nvFlag) else (new, 0))
  else if x.isInf then (canonNan (fmtOf et), flagNV)
  else if x.isNan ∨ y.isNan then (canonNan (fmtOf et), x.nvFlag ||| y.nvFlag)
  else if y.isInf then (new, 0)
  else
    let d := exactAdd (roundMode hd rm) y x.negate
    roundedTo hd rm et ((exactAdd (roundMode hd rm) x (exactMul (.num false code 0x8000) d.1).1).1, 0)

/-- A store: its units, the bytes and the exact address of one, whether it blends, whether its units must not overlap for the
result to be one value (R222, R275), whether each unit is written whole (R310), and a unit's masked bytes and flags from the
bytes in memory. -/
structure StoreForm where
  units : List Nat
  len   : Nat
  blend : Bool
  alone : Bool
  whole : Bool
  data  : Nat → Nat → List (Byte × Byte) × FlagSet

/-- The ones of a unit's active elements from the start on (R310). -/
def unitMask (hd : Hart) (ws : WReg) (u : Nat) : Nat :=
  let et := vtEt hd.csr.vtype
  let w := etWidth et
  ((List.range (unitElems et (vtBl hd.csr.vtype))).map fun i =>
    if u + i < hd.csr.vl.toNat && started hd (u + i) && activeAt hd ws (u + i) then (2 ^ w - 1) * 2 ^ (i * w) else 0).sum

/-- R221, R222: one row stored unit by unit, under the gate or the blend policy. -/
def rowStore (hd : Hart) (vd : VReg) (ws : WReg) (rm : Rm) (free : Bool) : StoreForm :=
  let et := vtEt hd.csr.vtype
  let k := unitElems et (vtBl hd.csr.vtype)
  let len := unitBytes et (vtBl hd.csr.vtype)
  let blend : Bool := hd.csr.wctl.getLsbD 4 && governor hd ws != 0
  let all := etBlock et || k == 1
  { units := unitsOf hd ws k, len, blend, alone := free || blend
    whole := all || (unitsOf hd ws k).all fun u => unitMask hd ws u == 2 ^ (8 * len) - 1
    data := fun u old =>
      if blend then
        let r := blended hd et rm (weightGet hd.w (governor hd ws) u) old (groupGet hd.v vd.val (u * etWidth et) (etWidth et))
        (wholeBytes (leBytes len r.1), r.2)
      else
        let new := leBytes len (groupGet hd.v vd.val (8 * (u / k * len)) (8 * len))
        (if all then wholeBytes new else new.zip (leBytes len (unitMask hd ws u)), 0) }

/-- A store's row, its weight and, under the blend policy, its floating type (R222). -/
def storeFits (hd : Hart) (vd : VReg) (ws : WReg) : Bool :=
  rowFits hd vd ws && (!hd.csr.wctl.getLsbD 4 || governor hd ws == 0 || etFloat (vtEt hd.csr.vtype) || etF8 (vtEt hd.csr.vtype))

/-- R302 to R311: vst, vsts and vstx: when they are legal, the exact address of a unit, and what they store. -/
def storeForms (hd : Hart) (i : Instr) : Option (Bool × (Nat → Int) × StoreForm) :=
  let et := vtEt hd.csr.vtype
  let k := unitElems et (vtBl hd.csr.vtype)
  match i with
  | .vst m u => some (storeFits hd m.vd m.ws, fun j => addressOf hd m.xs m.imm + (j / k * unitBytes et (vtBl hd.csr.vtype) : Nat),
      rowStore hd m.vd m.ws m.rm u)
  | .vsts m xt u => some (elementType et && storeFits hd m.vd m.ws, fun j => addressOf hd m.xs m.imm + j * (readX hd xt).toInt,
      rowStore hd m.vd m.ws m.rm u)
  | .vstx m vb u => some (elementType et && storeFits hd m.vd m.ws && indexFits hd vb none,
      fun j => addressOf hd m.xs m.imm + indexAt hd vb j, rowStore hd m.vd m.ws m.rm u)
  | _ => none

/-- An instruction that writes no vector register. -/
def noRows (flags : FlagSet) : Writes :=
  { base := 0, row := 0, rows := 0, et := 0, count := 0, elem := fun _ _ => none, tail := fun _ => false, flags }

/-- The bytes that some units write at their places, in element order. -/
def unitCells (keys : Nat → List Nat) (data : Nat → List (Byte × Byte)) (units : List Nat) : List (Nat × Byte × Byte) :=
  units.flatMap fun u => (keys u).zip (data u)

/-- No two of some units share a place. -/
def unitsApart (keys : Nat → List Nat) (units : List Nat) : Prop :=
  units.Pairwise fun a b => ∀ k ∈ keys a, k ∉ keys b

/-- R313: a unit of vst.pair: the copy, plain or transposed, its row and its first column or column and first row. -/
structure PairUnit where
  plain : Bool
  outer : Nat
  inner : Nat

/-- The units of vst.pair, of n elements each, in their order: the plain copy row by row, then the transposed one (R313, R314). -/
def pairUnits (hd : Hart) (n : Nat) : List PairUnit :=
  ((List.range hd.csr.vrc.toNat).flatMap fun r => (List.range (hd.csr.vl.toNat / n)).map fun b => ⟨true, r, b * n⟩) ++
    (List.range hd.csr.vl.toNat).flatMap fun c => (List.range (hd.csr.vrc.toNat / n)).map fun b => ⟨false, c, b * n⟩

/-- The elements of a unit of vst.pair: one, or a block. -/
def pairCount (hd : Hart) : Nat := if etBlock (vtEt2 hd.csr.vtype) then vtBl hd.csr.vtype else 1

/-- The bytes of n elements of the alternate type, one after the other (R148). -/
def packedBytes (hd : Hart) (n : Nat) : Nat :=
  let et2 := vtEt2 hd.csr.vtype
  if etBlock et2 then n / vtBl hd.csr.vtype * frameBytes et2 (vtBl hd.csr.vtype) else n * etWidth et2 / 8

/-- Where a unit of vst.pair goes. -/
def pairPlace (hd : Hart) (a : VPairArgs) (u : PairUnit) : Int :=
  if u.plain then (readX hd a.xs).toNat + (u.outer * packedBytes hd hd.csr.vl.toNat + packedBytes hd u.inner : Nat)
  else (readX hd a.xt).toNat + (u.outer * packedBytes hd hd.csr.vrc.toNat + packedBytes hd u.inner : Nat)

/-- What a unit of vst.pair writes (R146, R313). -/
def pairBits (hd : Hart) (a : VPairArgs) (u : PairUnit) : List Byte × FlagSet :=
  let et := vtEt hd.csr.vtype
  let et2 := vtEt2 hd.csr.vtype
  let len := packedBytes hd (pairCount hd)
  let xs := (List.range (pairCount hd)).map fun k =>
    if u.plain then tileElem hd a.vd u.outer (u.inner + k) else tileElem hd a.vd (u.inner + k) u.outer
  if etBlock et2 then
    let q := quantBlock (etWidth et2) (xs.map (valueOf hd et))
    let codes := (List.range xs.length).map fun k => q.2.2.1.getD k 0 * 2 ^ (k * etWidth et2)
    (leBytes len (q.1 + 2 ^ 8 * q.2.1 + 2 ^ 16 * codes.sum), q.2.2.2)
  else
    let r := convertedElement hd et et2 a.rm (xs.getD 0 0)
    (leBytes len r.1, r.2)

/-- R313: when vst.pair is legal. -/
def pairFits (hd : Hart) (a : VPairArgs) : Bool :=
  let et := vtEt hd.csr.vtype
  let et2 := vtEt2 hd.csr.vtype
  (etInt et && !etPacked et || etFloat et) &&
    (et2 == et || (et == 9 || et == 10) && (etFloat et2 || etF8 et2 || etBlock et2)) && decide (ungoverned hd a.ws) &&
    decide (headsTile hd a.vd) &&
    (!etBlock et2 || hd.csr.vl.toNat % vtBl hd.csr.vtype == 0 && hd.csr.vrc.toNat == vtBl hd.csr.vtype)

/-- The accesses of vst.pair in order: its counter word checked as a store, the units, and the counter word raised (R314). -/
inductive PairStep where
  | counter
  | unit (u : PairUnit)
  | raise

/-- The check of such an access. -/
def checkPair (s : State) (a : VPairArgs) (v : State) : PairStep → Except Fail (List Piece) × State
  | .counter => check v s.cur .store (readX (me s) a.xc).toNat 8
  | .unit u => check v s.cur .store (pairPlace (me s) a u) (packedBytes (me s) (pairCount (me s)))
  | .raise => checkAtomic v s.cur (me s).ctxid (me s).priv (readX (me s) a.xc).toNat 8

/-- The weight register that a memory instruction names (R94). -/
def vmemWeight : Instr → Option WReg
  | .vld m | .vlds m _ | .vldx m _ | .vldseg m _ | .vst m _ | .vsts m _ _ | .vstx m _ _ | .vgl m _ => some m.ws
  | _ => none

/-- The weights of a group after an instruction: `elem j` is what weight j below vl gets; none keeps it. The weights at and
beyond vl get ones when `tail` says so, and w0 takes nothing (R210, R214). -/
def WeightsWritten (old new : Hart) (wd : WReg) (elem : Nat → Option Nat) (tail : Bool) : Prop :=
  ∀ n, weightGroup old n → (∀ k < 16, ¬ (wd ≠ 0 ∧ wd.val ≤ k ∧ k < wd.val + n) → wregAt new.w k = wregAt old.w k) ∧
    (wd ≠ 0 → ∀ j < 1152 * n, weightGet new.w wd.val j =
      if old.csr.vl.toNat ≤ j then (if tail then 0x8000 else weightGet old.w wd.val j)
      else (elem j).getD (weightGet old.w wd.val j))

/-- The elements of row 0 that an instruction performs: active and from the start on. -/
def performedOf (hd : Hart) (ws : WReg) : List Nat :=
  (List.range hd.csr.vl.toNat).filter fun j => started hd j && activeAt hd ws j

/-- The integer types of the element atomics (R318). -/
def atomicType (et : Nat) : Bool := et ∈ [2, 3, 6, 7]

/-- R318, R331: the new value of an element of an element atomic. -/
def amoResult (op : AmoOp) (w old x : Nat) : Nat :=
  match op with
  | .add => (old + x) % 2 ^ w
  | .swap => x
  | .max => wrap w (max (toSigned w old) (toSigned w x))
  | .min => wrap w (min (toSigned w old) (toSigned w x))
  | .and => old &&& x
  | .or => old ||| x
  | .maxn => max old x
  | .minn => min old x

/-- A row whose performed elements get some values, with the tail of a row that is performed to its end. -/
def rowOf (hd : Hart) (vd : VReg) (ws : WReg) (flags : FlagSet) (f : Nat → Nat) : Writes :=
  { base := vd.val, row := vtGrp hd.csr.vtype, rows := 1, et := vtEt hd.csr.vtype, count := hd.csr.vl.toNat
    elem := fun _ j => if started hd j && activeAt hd ws j then some (f j) else none
    tail := fun _ => vtTa hd.csr.vtype && hd.csr.vstart.toNat < hd.csr.vl.toNat
    flags }

/-- A memory after writes that every reader sees at once. -/
def writtenAt (m n : Mem) (new : Nat → Option Byte) : Prop := ∀ r k, readByte n r k = (new k).getD (readByte m r k)

/-- The number of the n bytes from a key that elements write, least significant first: what each key holds then. -/
def wordsAt (key : Nat → Nat) (n : Nat) (value : Nat → Nat) (js : List Nat) (k : Nat) : Option Byte :=
  (js.find? fun j => decide (key j ≤ k ∧ k < key j + n)).map fun j => BitVec.ofNat 8 (value j / 2 ^ (8 * (k - key j)))

/-- R322: the first bytes of the runs of a vcopy of n bytes, which end at the 64-byte boundaries of both sides. -/
def copyStarts (hd : Hart) (a : VCopyArgs) : List Nat :=
  (List.range (readX hd a.xn).toNat).filter fun b => hd.csr.vstart.toNat ≤ b && (b == hd.csr.vstart.toNat ||
    ((readX hd a.xs).toNat + b) % 64 == 0 || ((readX hd a.xt).toNat + b) % 64 == 0)

/-- The bytes of the run that begins at byte b. -/
def copyLength (hd : Hart) (a : VCopyArgs) (b : Nat) : Nat :=
  min ((readX hd a.xn).toNat - b) (min (64 - ((readX hd a.xs).toNat + b) % 64) (64 - ((readX hd a.xt).toNat + b) % 64))

/-- The accesses of vcopy in order: its counter word checked as a store, and of each run the source and the destination. -/
inductive CopyStep where
  | counter
  | source (b : Nat)
  | dest (b : Nat)

/-- The check of such an access (R305, R323). -/
def checkCopy (s : State) (a : VCopyArgs) (v : State) : CopyStep → Except Fail (List Piece) × State
  | .counter => check v s.cur .store (readX (me s) a.xc).toNat 8
  | .source b => check v s.cur .copy ((readX (me s) a.xt).toNat + (b : Int)) (copyLength (me s) a b)
  | .dest b => check v s.cur .store ((readX (me s) a.xs).toNat + (b : Int)) (copyLength (me s) a b)

/-! ## Stage memory, beads and the Facet store -/

/-- n bytes of stage memory from an address; none when they do not all lie in it (R325). -/
def stagePlace (a : Int) (n : Nat) : Option (List Nat) :=
  if 0 ≤ a ∧ a + n ≤ 294912 then some ((List.range n).map (a.toNat + ·)) else none

/-- R325, R335: the stage addresses of n bytes at byte p of a group, at a bead offset: byte p lies in lane p mod 192 / 8, whose
bead byte b is byte b mod 8 of word 1024 + b / 8 of the lane. -/
def beadPlace (offset : Int) (p n : Nat) : Option (List Nat) :=
  let b := offset + (8 * (p / 192) + p % 8 : Nat)
  if 0 ≤ b ∧ b + n ≤ 4096 then
    some ((List.range n).map fun k => ((1024 + (b.toNat + k) / 8) * 24 + p % 192 / 8) * 8 + (b.toNat + k) % 8)
  else none

/-- R329, R330, R335: the local loads (false) and stores: when they are legal, their register and weight, and the place of a
unit. -/
def localForms (hd : Hart) (i : Instr) : Option (Bool × Bool × VReg × WReg × (Nat → Option (List Nat))) :=
  let et := vtEt hd.csr.vtype
  let bl := vtBl hd.csr.vtype
  let row (m : VStage) (u : Nat) := stagePlace (addressOf hd m.xs m.imm + (u / unitElems et bl * unitBytes et bl : Nat)) (unitBytes et bl)
  let indexed (m : VStage) (vb : VReg) (u : Nat) := stagePlace (addressOf hd m.xs m.imm + 8 * indexAt hd vb u) (etBytes et)
  let bead (m : VStage) (u : Nat) := beadPlace (addressOf hd m.xs m.imm) (u * etBytes et) (etBytes et)
  match i with
  | .sld m => some (rowFits hd m.vd m.ws, false, m.vd, m.ws, row m)
  | .sst m => some (storeFits hd m.vd m.ws, true, m.vd, m.ws, row m)
  | .sldx m vb => some (elementType et && rowFits hd m.vd m.ws && indexFits hd vb (some m.vd), false, m.vd, m.ws, indexed m vb)
  | .sstx m vb => some (elementType et && storeFits hd m.vd m.ws && indexFits hd vb none, true, m.vd, m.ws, indexed m vb)
  | .bld m => some (elementType et && rowFits hd m.vd m.ws, false, m.vd, m.ws, bead m)
  | .bst m => some (elementType et && storeFits hd m.vd m.ws, true, m.vd, m.ws, bead m)
  | _ => none

/-- The number that stage bytes hold; 0 when they are out of range (R330). -/
def stageValue (hd : Hart) (p : Option (List Nat)) : Nat := leValue ((p.getD []).map fun a => tget 0 hd.stage a)

/-- The hart with another stage memory, and its marks of changed blocks (R67). -/
def withStage (hd new : Hart) : Hart := { hd with stage := new.stage, blocks := new.blocks }

/-- OOR when something is out of range (R330). -/
def oorIf (b : Bool) : FlagSet := if b then flagOOR else 0

/-- R332: the rows, the bytes of a row and the low word of a row descriptor. -/
def rowFields (hd : Hart) (a : ScopyArgs) : Nat × Nat × Nat :=
  ((readX hd a.xn).toNat / 2 ^ 48, (readX hd a.xn).toNat / 2 ^ 32 % 2 ^ 16, (readX hd a.xn).toNat % 2 ^ 32)

/-- R332, R333: the stage addresses of a row; none when the row, padded to words, is out of range. -/
def rowPlace (hd : Hart) (a : ScopyArgs) (r : Nat) : Option (List Nat) :=
  let n := (rowFields hd a).2.1
  let stride := 8 * ((n + 7) / 8)
  let base := (readX hd a.xs).toNat + r * stride
  if base + stride ≤ 294912 then
    some ((List.range n).map fun b => base + 8 * (if a.swz then b / 8 ^^^ r % 8 else b / 8) + b % 8)
  else none

/-- R332, R334: where a row lies in device memory; none for an index at or above the limit. -/
def rowAddress (hd : Hart) (a : ScopyArgs) (index : Option VReg) (r : Nat) : Option Int :=
  let (_, n, low) := rowFields hd a
  match index with
  | none => some ((readX hd a.xt).toNat + r * toSigned 32 low)
  | some vb =>
    let idx := groupGet hd.v vb.val (32 * r) 32
    if idx < low then some ((readX hd a.xt).toNat + (idx * n : Nat)) else none

/-- R336, R337: the Facet store with a key added or updated, and the flags: no key of all ones is added, and none to a set of
8 entries. -/
def facetWith (t : List (Nat × Option (BitVec 32)) × FlagSet) (key x : Nat) (update : Nat → Nat × FlagSet) :
    List (Nat × Option (BitVec 32)) × FlagSet :=
  let set (k : Nat) : Nat := k * 0x9E3779B1 % 2 ^ 32 / 2 ^ 23
  if key = 0xFFFFFFFF then (t.1, t.2 ||| flagOOR)
  else match tget none t.1 key with
    | some v => (tset none t.1 key (some (BitVec.ofNat 32 (update v.toNat).1)), t.2 ||| (update v.toNat).2)
    | none =>
      if 8 ≤ (t.1.filter fun p => set p.1 == set key).length then (t.1, t.2 ||| flagOOR)
      else (tset none t.1 key (some (BitVec.ofNat 32 x)), t.2)

/-- R337: the updates of fcins and fcacc. -/
def facetUpdate (hd : Hart) (i : Instr) (x old : Nat) : Nat × FlagSet :=
  let et := vtEt hd.csr.vtype
  match i with
  | .fcacc a op =>
    let m := roundMode hd a.rm
    if et = 10 then roundedTo hd a.rm 10 (match op with
      | .add => exactAdd m (valueOf hd 10 old) (valueOf hd 10 x)
      | .max => exactMinMax true (valueOf hd 10 old) (valueOf hd 10 x)
      | .min => exactMinMax false (valueOf hd 10 old) (valueOf hd 10 x))
    else (match op with
      | .add => (old + x) % 2 ^ 32
      | .max => wrap 32 (max (intVal et old) (intVal et x))
      | .min => wrap 32 (min (intVal et old) (intVal et x)), 0)
  | _ => (x, 0)

/-- The types of the Facet instructions (R336). -/
def facetType (et : Nat) : Bool := et ∈ [2, 6, 10]

/-! ## The operand latch and mregrow -/

/-- R252: the address of a row for the latch: 64 bits in device memory, 18 in stage memory. -/
def latchAddress (hd : Hart) (stage : Bool) (a : MlatchArgs) (r : Nat) : Nat :=
  if stage then ((readX hd a.xs).toNat + groupGet hd.v a.vb.val (32 * r) 32) % 2 ^ 18
  else ((readX hd a.xs).toNat + groupGet hd.v a.vb.val (64 * r) 64) % 2 ^ 64

/-- The bytes of a latched row (R252). -/
def latchLength (hd : Hart) : Nat :=
  let et := vtEt hd.csr.vtype
  let vl := hd.csr.vl.toNat
  if etBlock et then vl / vtBl hd.csr.vtype * frameBytes et (vtBl hd.csr.vtype) else (vl * etWidth et + 7) / 8

/-- The rows that mlatch loads: those below mrows from the start on. -/
def latchRows (hd : Hart) : List Nat := (List.range (min 16 (mshapeRows hd))).filter (hd.csr.vstart.toNat ≤ ·)

/-- The hart after mlatch, but for its latch: the entry is kept for replay (R254). -/
def latched (hd : Hart) (old : Hart) (i : Instr) (rows : Fin 16 → BitVec 9216) : Hart :=
  { hd with latch := Vector.ofFn rows, lastMlatch := some { captured old i with start := 0 } }

/-- R257, R260: the positions of a 24-group of row j, set or not. -/
def groupWhere (hd : Hart) (mask : VReg) (set : Bool) (j g : Nat) : List Nat :=
  ((List.range 24).map (24 * g + ·)).filter fun p => setAt hd mask j p == set

/-- R258, R260: the value that position p of a row has in the live rows or the shadow rows. -/
def positionValue (hd : Hart) (a : MregrowArgs) (j p : Nat) : Nat :=
  let n := mshapeSparse hd
  let w := etWidth (vtEt2 hd.csr.vtype)
  let rank (set : Bool) : Nat := ((groupWhere hd a.vb set j (p / 24)).filter (· < p)).length
  if setAt hd a.vb j p then groupGet hd.v (a.vd.val + j * vtGrp hd.csr.vtype) ((p / 24 * n + rank true) * w) w
  else groupGet hd.v (a.va.val + j * vtGrp hd.csr.vtype) ((p / 24 * (24 - n) + rank false) * w) w

/-- The magnitude of such a value. -/
def magnitude (hd : Hart) (x : Nat) : FVal :=
  let et2 := vtEt2 hd.csr.vtype
  (if etInt et2 then .num false (intVal et2 x).natAbs 1 else valueOf hd et2 x).withSign false

/-- A position of a group holds a NaN. -/
def groupNan (hd : Hart) (a : MregrowArgs) (j g : Nat) : Bool :=
  (List.range 24).any fun k => (magnitude hd (positionValue hd a j (24 * g + k))).isNan

/-- R260, R261: the set positions of a group after mregrow: the lowest of the least live magnitudes gives way to the lowest of
the greatest shadow magnitudes where that is greater, and no value of the group is a NaN. -/
def regrown (hd : Hart) (a : MregrowArgs) (j g : Nat) : List Nat :=
  let live := groupWhere hd a.vb true j g
  let dead := groupWhere hd a.vb false j g
  let less (p q : Nat) : Bool := valLt false (magnitude hd (positionValue hd a j p)) (magnitude hd (positionValue hd a j q))
  let least := live.find? fun p => live.all fun q => !less q p
  let greatest := dead.find? fun p => dead.all fun q => !less p q
  match least, greatest with
  | some p, some q =>
    if groupNan hd a j g = false ∧ less p q then
      ((List.range 24).map (24 * g + ·)).filter fun k => k == q || live.contains k && k != p
    else live
  | _, _ => live

/-- What mregrow writes: the mask, the live rows and the shadow rows, every position keeping its value (R260). -/
def regrowWrites (hd : Hart) (a : MregrowArgs) : List Writes :=
  let n := mshapeSparse hd
  let vl := hd.csr.vl.toNat
  let cols := mshapeCols hd
  let et2 := vtEt2 hd.csr.vtype
  let runs : Bool := hd.csr.vstart == 0 && 0 < vl
  let group (g : Nat) : List Nat := (List.range 24).map (24 * g + ·)
  let rest (j g : Nat) : List Nat := (group g).filter fun p => !(regrown hd a j g).contains p
  let bitAt (b : Nat) : Bool :=
    if b < cols * vl then (regrown hd a (b / vl) (b % vl / 24)).contains (b % vl) else (vregAt hd.v a.vb.val).getLsbD b
  let row (v : VReg) (per : Nat) (ps : Nat → Nat → List Nat) : Writes :=
    { base := v.val, row := vtGrp hd.csr.vtype, rows := cols, et := et2, count := vl / 24 * per
      elem := fun j q => if runs then some (positionValue hd a j ((ps j (q / per)).getD (q % per) 0)) else none
      tail := fun _ => false
      flags := 0 }
  [{ base := a.vb.val, row := 1, rows := 1, et := 4, count := 1152
     elem := fun _ k => if runs then
       some (((List.range 8).map fun b => if bitAt (8 * k + b) then 2 ^ b else 0).sum) else none
     tail := fun _ => false
     flags := if runs && (List.range cols).any fun j => (List.range (vl / 24)).any fun g => groupNan hd a j g then flagNV else 0 },
   row a.vd n (regrown hd a), row a.va (24 - n) rest]

/-- R257, R260: when mregrow is legal, with whole groups in its mask. -/
def regrowFits (hd : Hart) (a : MregrowArgs) : Bool :=
  let et2 := vtEt2 hd.csr.vtype
  let n := mshapeCols hd * vtGrp hd.csr.vtype
  let vl := hd.csr.vl.toNat
  decide (ungoverned hd a.ws) && a.form == 0 && a.ud == 0 && (et2 ∈ [0, 4, 8, 9, 12, 13]) && decide (sparseFits hd) &&
    vl ≤ vlmaxOf et2 (vtGrp hd.csr.vtype) (vtBl hd.csr.vtype) && decide (heads a.vd (vtGrp hd.csr.vtype) (mshapeCols hd)) &&
    decide (heads a.va (vtGrp hd.csr.vtype) (mshapeCols hd)) && decide (apart a.vd.val n a.va.val n) &&
    decide (apart a.vd.val n a.vb.val 1) && decide (apart a.va.val n a.vb.val 1) &&
    (List.range (mshapeCols hd)).all fun j => (List.range (vl / 24)).all fun g =>
      (groupWhere hd a.vb true j g).length == mshapeSparse hd

/-! ## What unit WG writes to weights -/

/-- R226: how two elements of a type compare: -1, 0 or 1. -/
def compared (hd : Hart) (et x y : Nat) : Int :=
  if etInt et then (intVal et x - intVal et y).sign
  else if etPw et then ((min x 0x8000 : Nat) - (min y 0x8000 : Nat) : Int).sign
  else if valLt false (valueOf hd et x) (valueOf hd et y) then -1
  else if valLt false (valueOf hd et y) (valueOf hd et x) then 1
  else 0

/-- R226: a compare of two elements. A NaN makes ne true and every other relation false; the ordered ones then set NV. -/
def compareWeight (hd : Hart) (et : Nat) (i : Instr) (f : Int → Int → Bool) (x y : Nat) : Nat × FlagSet :=
  let p := valueOf hd et x
  let q := valueOf hd et y
  if (etFloat et || etF8 et) && (p.isNan || q.isNan) then
    match i with
    | .wcmpNe _ => (0x8000, p.nvFlag ||| q.nvFlag)
    | .wcmpEq _ => (0, p.nvFlag ||| q.nvFlag)
    | _ => (0, flagNV)
  else (if f (compared hd et x y) 0 then 0x8000 else 0, 0)

/-- R227: the weight of a difference: that over τ to f32, to nearest, then the logistic function, to nearest. A NaN gives 0. -/
def softOf (hd : Hart) (d : FVal) : Nat :=
  match d with
  | .num neg n m =>
    match unpack (fmtOf 10) false (roundTo (fmtOf 10) 1 false neg (n * (temperature hd).2) (m * (temperature hd).1)).1 with
    | .num neg n m => sigmoidPw neg n m
    | .inf neg => if neg then 0 else 0x8000
    | .nan _ => 0
  | .inf neg => if neg then 0 else 0x8000
  | .nan _ => 0

/-- R227: wsoft of two elements; NV where the difference has no real value. -/
def softElement (hd : Hart) (et x y : Nat) : Nat × FlagSet :=
  let value (a : Nat) : FVal := if etInt et then .num (decide (intVal et a < 0)) (intVal et a).natAbs 1 else valueOf hd et a
  let d := (exactAdd 1 (value x) (value y).negate).1
  (softOf hd d, if d.isNan then flagNV else 0)

/-- R224 to R229: the instructions that write a weight group: when they are legal, the destination, and weight j with the flags
that it sets. Products round to nearest, ties to even. -/
def weightForms (hd : Hart) (i : Instr) : Option (Bool × WReg × (Nat → Nat × FlagSet)) :=
  let et := vtEt hd.csr.vtype
  let grp := vtGrp hd.csr.vtype
  let plain : Bool := et < 22 && !etBlock et
  let weight (w : WReg) (j : Nat) : Nat := weightGet hd.w w.val j
  let fits (b : CmpSrc) : Bool := match b with
    | .v vb => decide (heads vb grp 1)
    | .x _ => true
  let second (b : CmpSrc) (j : Nat) : Nat := match b with
    | .v vb => tileElem hd vb 0 j
    | .x x => (readX hd x).toNat % 2 ^ etWidth et
  match relation i, i with
  | some (a, f), _ => some (plain && decide (weights hd a.wd.val) && decide (heads a.va grp 1) && fits a.b, a.wd,
      fun j => compareWeight hd et i f (tileElem hd a.va 0 j) (second a.b j))
  | none, .wsoftGt a => some (plain && !etPw et && decide (weights hd a.wd.val) && decide (heads a.va grp 1) && fits a.b, a.wd,
      fun j => softElement hd et (tileElem hd a.va 0 j) (second a.b j))
  | none, .wsoftLt a => some (plain && !etPw et && decide (weights hd a.wd.val) && decide (heads a.va grp 1) && fits a.b, a.wd,
      fun j => softElement hd et (second a.b j) (tileElem hd a.va 0 j))
  | none, .wcomp a => some (plain && decide (weights hd a.wd.val) && decide (weights hd a.wa.val), a.wd,
      fun j => (0x8000 - weight a.wa j, 0))
  | none, .wmv a => some (plain && decide (weights hd a.wd.val) && decide (weights hd a.wa.val), a.wd, fun j => (weight a.wa j, 0))
  | none, .wmin a => some (plain && decide (weights hd a.wd.val) && decide (weights hd a.wa.val) && decide (weights hd a.wb.val), a.wd,
      fun j => (min (weight a.wa j) (weight a.wb j), 0))
  | none, .wmax a => some (plain && decide (weights hd a.wd.val) && decide (weights hd a.wa.val) && decide (weights hd a.wb.val), a.wd,
      fun j => (max (weight a.wa j) (weight a.wb j), 0))
  | none, .wmul a => some (plain && decide (weights hd a.wd.val) && decide (weights hd a.wa.val) && decide (weights hd a.wb.val), a.wd,
      fun j =>
        let p := weight a.wa j * weight a.wb j
        let q := p / 2 ^ 15
        (if 2 ^ 14 < p % 2 ^ 15 ∨ (p % 2 ^ 15 = 2 ^ 14 ∧ q % 2 = 1) then q + 1 else q, 0))
  | none, .wfromv wd va _ => some (tyWeightMove et && decide (weights hd wd.val) && decide (heads va grp 1), wd, fun j =>
      let x := tileElem hd va 0 j
      (if etFloat et then
        match valueOf hd et x with
        | .num neg n d => if neg then 0 else min 0x8000 (roundInt 1 false (n * 0x8000) d).1
        | .inf neg => if neg then 0 else 0x8000
        | .nan _ => 0
      else min x 0x8000, 0))
  | none, _ => none

/-- The element type needs nothing that early service refuses (R446), and the configuration is legal. -/
def plainType (s : State) : Prop := vtIll (me s).csr.vtype = false ∧ earlyService s = false

/-- The current hart has nothing posted and its sequencer runs each entry as it is posted (log 7). -/
def runsAtOnce (s : State) : Prop := (me s).queue = [] ∧ (me s).lag = 0

/-- The package in reset: everything at its reset value but the start count, the cells and poison of HBM (log 18), and
the model's own fields. -/
def inReset (s : State) (starts : BitVec 64) : State :=
  { State.reset with
    cur := s.cur, agenda := s.agenda, fresh := s.fresh, answer := s.answer
    harts := s.harts.map fun hd => { resetHart with lag := hd.lag }
    mem := { resetMem with cells := s.mem.cells, poison := s.mem.poison }
    dev := { resetDevice with starts := starts } }

/-- Boot status from phase, flags, stack 0 in service, and the highest reason code (R441, R445). -/
def bootWord (phase flags : Nat) (stack0 : Bool) (reason : Nat) : BitVec 64 :=
  BitVec.ofNat 64 (flags + phase * 2 ^ 8 + (if stack0 then 2 ^ 24 else 0) + reason * 2 ^ 32)

/-- Filigree runs: in phases 5 and 6 (R443, R444). -/
abbrev filigreeOn (s : State) : Prop := s.dev.boot.toNat / 2 ^ 8 % 2 ^ 8 = 5 ∨ s.dev.boot.toNat / 2 ^ 8 % 2 ^ 8 = 6

/-- What a write or a request of an agent comes to: Filigree makes none while it does not run (R444). -/
def asked (s : State) (w : Writer) (t : State) : State := if w = .filigree ∧ ¬ filigreeOn s then s else t

/-- n bits of a word from a bit on replaced by those of a number, and every other bit kept. -/
def FieldSet (b c : BitVec 64) (lo n v : Nat) : Prop :=
  ∀ k < 64, c.getLsbD k = if lo ≤ k ∧ k < lo + n then v.testBit (k - lo) else b.getLsbD k

/-- R422, R423: a bank after an error: a corrected error is counted; the record is taken when the bank is not valid or
holds a lower class, and otherwise only the overflow bit is set. -/
def noted (b : Bank) (cls unit code : Nat) (addr : Option Nat) (syn : BitVec 64) (poison : Bool) (cause : Nat) : Bank :=
  let b := if cls = 1 then { b with count := BitVec.ofNat 64 (min (b.count.toNat % 2 ^ 32 + 1) 0xFFFFFFFF) } else b
  if b.status.getLsbD 63 = false ∨ b.status.toNat / 2 ^ 60 % 4 < cls then
    { b with
      status := BitVec.ofNat 64 (2 ^ 63 + (if b.status.getLsbD 62 then 2 ^ 62 else 0) + cls % 4 * 2 ^ 60
        + (if addr.isSome then 2 ^ 59 else 0) + (if poison then 2 ^ 58 else 0) + unit % 2 ^ 8 * 2 ^ 40 + cause % 2 ^ 8 * 2 ^ 32
        + code % 2 ^ 16)
      addr := BitVec.ofNat 64 (addr.getD 0 % 2 ^ 55), syn }
  else { b with status := b.status ||| 0x4000000000000000 }

/-- The state with a bank changed; banks 62 and 63 stand for no unit and stay zero (R421). -/
def withBank (s : State) (b : Fin 64) (g : Bank → Bank) : State :=
  if b.val < 62 then { s with dev := { s.dev with banks := s.dev.banks.set b (g s.dev.banks[b]) } } else s

/-- The state with a scale-up link register changed. -/
def withLink (s : State) (n : Fin 24) (v : Word) : State := { s with dev := { s.dev with scaleUp := s.dev.scaleUp.set n v } }

/-- The state with a far-tier port register changed. -/
def withPort (s : State) (m : Fin 4) (v : Word) : State := { s with dev := { s.dev with farPorts := s.dev.farPorts.set m v } }

/-- The refusal register names a write that was not carried out; Bezel's are not recorded (R452, R453). -/
def refused (s : State) (w : Writer) (off : Nat) : State :=
  match w with
  | .host => { s with dev := { s.dev with refusal := BitVec.ofNat 64 (2 ^ 63 + 2 ^ 60 + off % 2 ^ 32) } }
  | .filigree => { s with dev := { s.dev with refusal := BitVec.ofNat 64 (2 ^ 63 + 2 * 2 ^ 60 + off % 2 ^ 32) } }
  | .bezel => s

/-- The state with an island changed. -/
def withIsland (s : State) (h : HartId) (i : Island) : State := { s with dev := { s.dev with islands := s.dev.islands.set h i } }

/-- R438: what an arithmetic cycle counts, by event code. -/
def cycleCount (hd : Hart) (c : CycleInfo) (event : Nat) : Nat :=
  let when_ (p : Prop) [Decidable p] : Nat := if p then 1 else 0
  match event with
  | 1 => 1
  | 6 => when_ (c.fullQueue = true ∨ hd.run = .waiting .queueFull)
  | 7 => c.tlbMiss
  | 8 => c.tlb2Miss
  | 9 => c.walks
  | 10 => c.dcMiss
  | 11 => c.l2Miss
  | 12 => match hd.run with
    | .waiting (.cwait ..) => 1
    | _ => 0
  | 13 => when_ (hd.run = .waiting .fbar)
  | 16 => when_ (c.laneBarrier = true)
  | 17 => when_ (c.bankConflict = true)
  | _ => 0

/-- A performance counter is enabled in the hart's mode (R437, R439). -/
def counting (hd : Hart) (k : Fin 16) : Prop :=
  hd.perf.pevt[k].getLsbD 16 = true ∧ (hd.priv = false ∨ hd.perf.pevt[k].getLsbD 17 = true)

/-- An island that a power window may lower: a hart of a running farm above 470 MHz, no running farm with such an island
having a lower priority (R17, log 17). -/
def lowered (s : State) (h : HartId) : Prop :=
  ∃ f ∈ s.sched.farms, h ∈ farmHarts f ∧ 47 < s.dev.islands[h].act.toNat ∧
    ∀ g ∈ s.sched.farms, (∃ k ∈ farmHarts g, 47 < s.dev.islands[k].act.toNat) →
      f.launch.record.prio.toNat % 8 ≤ g.launch.record.prio.toNat % 8

/-- The state with an Ethernet port replaced. -/
def withEth (s : State) (p : Fin 8) (e : EthPort) : State := { s with dev := { s.dev with eth := s.dev.eth.set p e } }

/-- A power of two from 16 to 65,536 (R458). -/
def ringSize (n : BitVec 32) : Prop := ∃ k, 4 ≤ k ∧ k ≤ 16 ∧ n.toNat = 2 ^ k

/-- The key that an encoded address names: host memory, or an offset of the package's own HBM (R454, R458). -/
def encodedKey (s : State) (v : Word) : Nat :=
  (if v.getLsbD 63 then Config.hostBase else s.dev.pkg.toNat * 2 ^ 45) + v.toNat / 64 % 2 ^ 49 * 64

/-- Every byte of a range reaches memory (R21). -/
def reachable (s : State) (k n : Nat) : Prop := ∀ a, k ≤ a → a < k + n → reaches s.dev false a = true

/-- The counter word of a copy, as the copy reads it, is first poisoned at a byte (R394). -/
def unpoisonedFrom (s : State) (c : CopyCounter) (b : Nat) : Prop := firstPoison s.mem (.hart c.hart .C) c.addr 8 = some b

/-- No byte of a range is poisoned for a reader (R394). -/
def unpoisoned (s : State) (r : Reader) (k n : Nat) : Prop := firstPoison s.mem r k n = none

/-- Bytes written from a key on and performed at system scope (R459); a line covered whole is no longer poisoned. -/
def stored (s : State) (k : Nat) (bs : List Byte) : State :=
  { s with mem := clearPoisonAt (commitCells s.mem none (cellsAt k bs)) (cellsAt k bs) }

/-- A descriptor of a ring (R459). -/
def descriptorAt (s : State) (base : Word) (size i : BitVec 32) : Nat := encodedKey s base + 32 * (i.toNat % max size.toNat 1)

/-- A field of a descriptor as the port reads it. -/
def descriptorField (s : State) (d off n : Nat) : Nat := leValue (readBytes s.mem .package (d + off) n)

/-- A frame put into a receive descriptor (R459): the buffer, the length, the flow and source, and then the flags. -/
def frameStored (s : State) (d buf : Nat) (src : BitVec 48) (flow : BitVec 16) (data : List Byte) : State :=
  stored (stored (stored (stored s buf data) (d + 8) (leBytes 4 data.length)) (d + 16)
    (leBytes 8 (flow.toNat * 2 ^ 48 + src.toNat))) (d + 12) (leBytes 4 (2 ^ 30))

/-- A context has a farm running, placed or suspended, or a launch queued (R354, R401). -/
def inUse (s : State) (ctx : BitVec 16) : Prop :=
  (∃ f ∈ s.sched.farms, f.launch.ctx = ctx) ∨ ∃ l ∈ s.sched.launches, l.ctx = ctx

/-- The bits of a context table image that are no reserved bits (R401). -/
def imageBit (k : Nat) : Bool := (12 ≤ k && k < 55) || (64 ≤ k && k < 305) || (320 ≤ k && k < 400)

/-- n bits of a context table image from a bit on. -/
def imageField (img : BitVec 512) (lo n : Nat) : Nat := img.toNat / 2 ^ lo % 2 ^ n

/-- R401: the filter's condition on a write of a context's entry. -/
def imageAllowed (s : State) (ctx : Nat) (img : BitVec 512) : Prop :=
  0 < ctx ∧ ctx < 1024 ∧ ¬ inUse s (BitVec.ofNat 16 ctx) ∧
    (img.getLsbD 304 = true → imageField img 288 16 ≠ 0 ∧
      (imageField img 320 64 ≠ 0 → 1 ≤ imageField img 384 16 ∧ imageField img 384 16 ≤ 64))

/-- R452: 8-byte registers of the block and the values they hold, by offset. -/
def blockRegisters (s : State) : List (Nat × Word) :=
  [(0x0, s.dev.boot), (0x8, s.dev.starts), (0x10, s.dev.powerLimit), (0x18, s.dev.telemetry), (0x20, s.dev.interval),
   (0x300, s.dev.pool), (0x308, s.dev.sweep), (0x310, s.dev.arena), (0x318, s.dev.refusal), (0x408, s.dev.launch),
   (0x520, s.dev.pkg.setWidth 64), (0x2000, s.dev.scaleUp[0]), (0x20B8, s.dev.scaleUp[23]), (0x20C0, s.dev.farPorts[0]),
   (0x20D8, s.dev.farPorts[3]), (0x20E0, s.dev.hostLink), (0x3000, s.dev.eth[0].txbase), (0x31F0, s.dev.eth[7].status),
   (0x100000, s.dev.banks[0].status), (0x100F58, s.dev.banks[61].count), (0x200040, BitVec.ofNat 64 (imageField (ctxImage s 1) 0 64)),
   (0x28, 0), (0x400, 0), (0x500, 0), (0x510, 0), (0x3038, 0)]
/-- A hart on which a farm of a partition may be placed (R13, R35, R446, R455). -/
def canTake (s : State) (p : BitVec 10) (h : HartId) : Prop :=
  (hartOf s h).run = .free ∧ p ≠ 0 ∧ s.dev.parts[h] = p ∧ s.dev.avail.getLsbD h.val = true ∧
    (s.dev.boot.getLsbD 1 = true → h.val / 16 = 0)

/-- The last context switch request has not been carried out (R456). -/
def switching (s : State) : Prop :=
  s.dev.switch.getLsbD 63 = true ∧
    ∃ f ∈ s.sched.farms, f.preempt = true ∧ f.launch.ctx.toNat = s.dev.switch.toNat % 2 ^ 16

/-- The state with a context switch status and a list of held contexts, and a decision due in a context's partition. -/
def switched (s : State) (status : Nat) (holds : List (BitVec 16)) (ctx : BitVec 16) : State :=
  decisionDue { s with dev := { s.dev with switch := BitVec.ofNat 64 (status * 2 ^ 62 + ctx.toNat) }
                       sched := { s.sched with holds := holds } } (ctxPart (ctxImage s ctx.toNat))

/-- A farm that runs whole and may be ordered to be pre-empted. -/
def whole (f : Farm) : Bool := !f.suspended && !f.preempt && !f.ending

/-- The launch status after a doorbell write of a state (R454). -/
def rung (s t : State) (status : Nat) : Host.Outcome State Fault Refusal :=
  .next { t with dev := { t.dev with
    launch := BitVec.ofNat 64 ((s.dev.launch.toNat / 2 ^ 32 % 2 ^ 16 + 1) % 2 ^ 16 * 2 ^ 32 + status) } }

/-- What the scheduler, the fetch engines or the host link record of an access that fails (R421, R422): unreachable, or a read
of poison; the syndrome is open. -/
def accessNoted (s : State) (bank : Fin 64) (code addr : Nat) : State :=
  withBank s bank (noted · 2 0 code (some addr) (Config.syndrome code addr) false 0)
/-- The state with a bank's record of a contained machine check at a hart (R391, R423). -/
def checkNoted (s : State) (e : ErrorReport) : State :=
  withBank s e.bank (noted · 2 e.unit.toNat e.code.toNat (e.addr.map (·.toNat)) e.syn false 15)

/-- What an asynchronous machine check records on a hart whose queue is empty (R386, R391). -/
def checkInfo (hd : Hart) (e : ErrorReport) : TrapInfo :=
  { scalarTrap hd 15 ((e.addr.map (·.setWidth 64)).getD 0) with vstart := hd.csr.vstart.toNat, async := true }
/-- The record that a token leaves in its hart's log slot (R377, R386, R392). -/
def tokenRecord (s : State) (h : HartId) (t : SendToken) (inner seq : Nat) : List Byte :=
  let hd := hartOf s h
  (headerOf seq 14 inner 1 t.pc 0 t.xa (BitVec.ofNat 64 t.index) 0 hd.farmid
    (((farmOf s hd.farmid).map (indexOf · h)).getD 0) h 0 0).take 56 ++ List.replicate 8 0

/-- A slot of a receive ring as an accepted token fills it (R375). -/
def tokenSlot (m : TokenMsg) : List Byte :=
  leBytes 4 m.tag.toNat ++ leBytes 2 m.src ++ leBytes 2 (m.payload.length / 64) ++ List.replicate 56 0 ++ m.payload
/-- No hart has a trigger that waits. -/
def untriggered (s : State) : Prop := ∀ h tags, (hartOf s h).trigger ≠ .pending tags

/-- The number of bytes that an access of the host or of another package reaches. -/
def opBytes : AgentOp → Nat
  | .read n => n
  | .write bs => bs.length
  | .amo .. => 8
  | .red _ et _ => etBytes et
  | .cas .. => 8

/-- Whether such an access reads memory. -/
def opReads : AgentOp → Prop
  | .write _ => False
  | _ => True

/-- The state once the writes of n bytes that come before an update of them have been performed everywhere (R176, R271). -/
def settled (s : State) (k n : Nat) : State :=
  { s with mem := settleBytes s.dev s.mem none (cellsAt k (List.replicate n 0)) }

/-- An update of n bytes by an agent that is no hart: the old value is answered, and the new one, if any, stored (R176). -/
def updated (s : State) (k n : Nat) (f : Nat → Option Nat) : State :=
  let t := settled s k n
  let old := coherentBytes t.mem k n
  match f (leValue old) with
  | some v => { stored t k (leBytes n v) with answer := old }
  | none => { t with answer := old }

/-- Such an access performed at a key (R176, R287): what it answers, and what it writes at system scope. -/
def opDone (s : State) (r : Reader) (k : Nat) : AgentOp → State
  | .read n => { s with answer := readBytes s.mem r k n }
  | .write bs => { stored s k bs with answer := [] }
  | .amo op x => updated s k 8 fun old => some (amoValue op 64 old x.toNat)
  | .red op et x => updated s k (etBytes et) fun old => some (combineRed op et false old x.toNat)
  | .cas e v => updated s k 8 fun old => if old = e.toNat then some v.toNat else none

/-- Words written out in the spec, with their lengths and what they stand for (R76 to R107). -/
def specWords : List (Nat × Nat × Instr) :=
  [(4, 0x0500600B, .addi 12 0 40), (2, 0x09A1, .cAddi 13 2), (4, 0x014A6043, .setvli 12 10 0x0A),
   (4, 0x0120602F, .csrr 12 9), (4, 0xFF00689B, .bne 13 0 0x7F8), (4, 0x49AA6633, .amocas 12 10 13 .package .ar),
   (4, 0x090600B7, .fenceX 2 16 .domain), (4, 0x000A6C3B, .launch 13 10), (4, 0x29CD02BF, .xsend 10 13 14),
   (4, 0x0FFA08FB, .clasp 1 ⟨2, 0, 2, 7, 7, 7⟩), (8, 0x000001024840447F, .vfma ⟨16, 8, .v 9 16, 0, 0⟩),
   (8, 0x4400000248503CFF, .vcsw ⟨20, 8, 9, true, 1, 0, 0, 0⟩), (8, 0x0000C0B00020017F, .vld ⟨8, 11, 0, false, 0, 0⟩),
   (8, 0x0000C0D00000077F, .nrel 13 0 0), (8, 0x000000081000027F, .mmulO ⟨0, 16, 32, false, false, 0, 0, 0⟩),
   (8, 0x00000002010042FF, .wbr 1 8 0)]

/-- The hart whose turn it is, and the state in which it takes it. -/
def turnOf (s u : State) : Prop :=
  (s.agenda = [] ∧ u = s) ∨ ∃ h t, s.agenda = .hart h :: t ∧ u = { s with agenda := t, cur := h }

/-- Nothing keeps the current hart from fetching: the package and the hart run, and no latched trap is to be taken. -/
def fetches (u : State) : Prop :=
  u.stopped = false ∧ (me u).run = .running ∧ ((me u).pendingTrap = none ∨ (me u).priv = true)

/-- n parcels of the instruction at an address, read in order, with the state that the reads leave. -/
def parcelsAt (u : State) (a n : Nat) (bs : List Byte) (t : State) : Prop := fetchParcels u u.cur a n = (.ok bs, t)

/-- R345, R351: a name is that of a slot of the pool. -/
def wellFormedName (s : State) (n : Nat) : Prop := windowOf n = .nameless ∧ n % 1024 = 0 ∧ slotExists s.dev (slotOf n) = true

/-- R351: the owners of the slots after some names have been relinquished; 0 is none. -/
def ownersAfter (owners : List (Nat × BitVec 16)) (names : List Nat) : List (Nat × BitVec 16) :=
  names.foldl (fun o n => if n = 0 then o else tset 0 o (slotOf n) 0) owners

/-- R351: the state in which the names of an nrel or nrel.v before one have been relinquished; and that one can be. -/
def relinquished (s u : State) (names : List Nat) : State := { u with mem := { u.mem with owners := ownersAfter s.mem.owners names } }

/-- See `relinquished`. -/
def canRelinquish (s : State) (names : List Nat) (n : Nat) : Prop :=
  n = 0 ∨ (wellFormedName s n ∧ (me s).ctxid ≠ 0 ∧ tget 0 (ownersAfter s.mem.owners names) (slotOf n) = (me s).ctxid)

/-- R271, R274: what keeps a later write of a hart from being performed before another: the order of the units of one
instruction, and an older instruction's write of the same bytes on its path, one that a fence has ordered, or where a fence has
ordered the later one (log 19). -/
def comesFirst (b a : Access) : Prop :=
  let share := ∃ c ∈ b.cells, (cellAt c.1 a.cells).isSome = true
  b.hart = a.hart ∧
    ((b.tag = a.tag ∧ b.unit < a.unit ∧ (a.order = .ascending ∨ (a.order = .bytes ∧ share))) ∨
      (b.tag < a.tag ∧ b.level < 2 ∧ (b.path = a.path ∨ b.level = 1 ∨ a.level = 1) ∧ share))

/-- What still takes place in a stopped package: reads by the host or by the management controller, a reset and power-on (R395, R445,
log 42). -/
def stillWorks : Instr → Bool
  | .hostAccess _ _ (.read _) | .i3cResetRequest | .packageReset _ | .powerOn => true
  | _ => false

end Claims

end Sys2Proof

open Sys2Proof Sys2Proof.Machine Sys2Proof.Safety Sys2Proof.Claims

/-- R168 to R170, R179: the integer instructions, lhi, apc, multiply and divide: their words and their results; and the
compact forms that write a register. -/
def Obligations.IntegerResults : Prop :=
  (∀ (i : Instr) (s : State) (rd : XReg) (rs : List XReg) (v : Word),
    integerResult (me s) i = some (rd, rs, v) ∨ productResult (me s) i = some (rd, rs, v) →
    (∃ w, codeOf i = some w ∧ encode i = some (4, w)) ∧
    (pendingX (me s) (rd :: rs) = false → ∃ t, exec i s = .next t ∧ Committed s t ((me s).pc + 4) rd v)) ∧
  ∀ (i : Instr) (s : State) (rd : XReg) (rs : List XReg) (v : Word),
    compactResult (me s) i = some (rd, rs, v) → pendingX (me s) (rd :: rs) = false →
    ∃ t, exec i s = .next t ∧ Committed s t ((me s).pc + 2) rd v

/-- R171, R172, R179: branches, taken and not, and jumps to an even target; a branch writes no register and leaves
xlast. That a target past 2^64 wraps is log 24's choice. -/
def Obligations.ControlFlow : Prop :=
  (∀ (i : Instr) (s : State) (rs : List XReg) (len : Nat) (off : Int) (taken : Bool),
    branchOf (me s) i = some (rs, len, off, taken) →
    (len = 4 → ∃ w, codeOf i = some w ∧ encode i = some (4, w)) ∧
    (pendingX (me s) rs = false → ∃ t, exec i s = .next t ∧
      Committed s t (if taken then (me s).pc + BitVec.ofInt 64 (2 * off) else (me s).pc + BitVec.ofNat 64 len) 0 0)) ∧
  (∀ (s : State) (rd : XReg) (imm : BitVec 20), pendingX (me s) [rd] = false →
    ∃ t, exec (.jal rd imm) s = .next t ∧
      Committed s t ((me s).pc + BitVec.ofInt 64 (2 * imm.toInt)) rd ((me s).pc + 4)) ∧
  (∀ (s : State) (rd ra : XReg) (imm : BitVec 11), pendingX (me s) [rd, ra] = false →
    (readX (me s) ra + BitVec.ofInt 64 imm.toInt).toNat % 2 = 0 →
    ∃ t, exec (.jalr rd ra imm) s = .next t ∧
      Committed s t (readX (me s) ra + BitVec.ofInt 64 imm.toInt) rd ((me s).pc + 4))

/-- R173 to R175: a load whose checks pass reads its bytes, little-endian, as the hart sees memory. That a word may have been read
ahead of the load is log 19's choice, and which entries it waits for log 20's. Here its queue is empty. -/
def Obligations.Loads : Prop :=
  ∀ (i : Instr) (s s' : State) (rd : XReg) (a : Int) (n len : Nat) (ext : Nat → Int) (p : Piece),
    loadOf (me s) i = some (rd, a, n, len, ext) → (me s).queue = [] → a % n = 0 →
    check s s.cur .load a n = (.ok [p], s') →
    ∃ t, exec i s = .next t ∧
      Committed (countRemote s' s.cur [p]) t ((me s).pc + BitVec.ofNat 64 len) rd
        (BitVec.ofInt 64 (ext (leValue (hartBytes s'.mem s.cur (piecePath s' false p) p.key n))))

/-- R173 to R175, R266, R271: a store whose checks pass writes the low bytes of its register at the place that the checks
give: its own hart reads them at once, also where it has read the word ahead, every other byte reads as before, and no other
agent sees them yet. That a store waits and that a word is read ahead is log 19's choice. -/
def Obligations.Stores : Prop :=
  ∀ (i : Instr) (s s' : State) (rb : XReg) (a : Int) (n len : Nat) (p : Piece),
    storeOf (me s) i = some (rb, a, n, len) → (me s).queue = [] → a % n = 0 →
    check s s.cur .store a n = (.ok [p], s') →
    ∃ t m, exec i s = .next t ∧
      Committed { countRemote s' s.cur [p] with mem := m } t ((me s).pc + BitVec.ofNat 64 len) 0 0 ∧
      m = { s'.mem with flight := m.flight, early := m.early, nextId := s'.mem.nextId + 1, nextTag := s'.mem.nextTag + 1 } ∧
      (∀ k, readByte m (.hart s.cur (piecePath s' false p)) k =
        if p.key ≤ k ∧ k < p.key + n then BitVec.ofNat 8 ((readX (me s) rb).toNat / 2 ^ (8 * (k - p.key)))
        else readByte s'.mem (.hart s.cur (piecePath s' false p)) k) ∧
      (∀ k, hartByte m s.cur (piecePath s' false p) k =
        if p.key ≤ k ∧ k < p.key + n then BitVec.ofNat 8 ((readX (me s) rb).toNat / 2 ^ (8 * (k - p.key)))
        else hartByte s'.mem s.cur (piecePath s' false p) k) ∧
      (∀ h q k, h ≠ s.cur ∨ q = .C → hartByte m h q k = hartByte s'.mem h q k) ∧
      (∀ r k, r ≠ .hart s.cur (piecePath s' false p) → readByte m r k = readByte s'.mem r k)

/-- R174, R177, R361, R420: the first check that fails raises its fault; the access performs nothing. A load, a store, a cwait and
a scalar atomic trap with evalue = A, and launch's read of its record and ertw's of its image with the first failing byte. That an
A with no 64-bit form is reported modulo 2^64 is log 52's choice. -/
def Obligations.ScalarAccessFaults : Prop :=
  (∀ (i : Instr) (s : State) (k : Kind) (a : Int) (n : Nat),
    accessOf (me s) i = some (k, a, n) → (me s).queue = [] →
    (a % n ≠ 0 → exec i s = .next (takeTrap s s.cur (scalarTrap (me s) 3 (BitVec.ofInt 64 a)))) ∧
    (∀ f s', a % n = 0 → check s s.cur k a n = (.error f, s') →
      exec i s = .next (takeTrap s' s.cur { scalarTrap (me s') f.cause (BitVec.ofInt 64 a) with bank := f.bank }))) ∧
  (∀ (i : Instr) (s s' : State) (rd ra : XReg) (sc : Scope) (ord : Order) (g : Nat → Option Nat) (f : Fail),
    atomicOf (me s) i = some (rd, ra, sc, ord, g) → (me s).queue = [] →
    ((readX (me s) ra).toNat % 8 ≠ 0 → exec i s = .next (takeTrap s s.cur (scalarTrap (me s) 3 (readX (me s) ra)))) ∧
    (checkAtomic s s.cur (me s).ctxid (me s).priv (readX (me s) ra).toNat 8 = (.error f, s') →
      exec i s = .next (takeTrap s' s.cur { scalarTrap (me s') f.cause (readX (me s) ra) with bank := f.bank }))) ∧
  (∀ (s s' : State) (rd ra : XReg) (f : Fail), (me s).queue = [] → NothingPosted s → allReach s (fun _ => true) →
    let u := { s with mem := released s .system }
    ((readX (me s) ra).toNat % 64 ≠ 0 → exec (.launch rd ra) s = .next (takeTrap u s.cur (scalarTrap (me s) 3 (readX (me s) ra)))) ∧
    ((readX (me s) ra).toNat % 64 = 0 → check u s.cur .load (readX (me s) ra).toNat 64 = (.error f, s') →
      exec (.launch rd ra) s = .next
        (takeTrap s' s.cur { scalarTrap (me s') f.cause (BitVec.ofNat 64 f.value) with bank := f.bank }))) ∧
  ∀ (s s' : State) (ra rb : XReg) (f : Fail), (me s).queue = [] → (me s).priv = true → (readX (me s) ra).toNat < 8192 →
    ((readX (me s) rb).toNat % 64 ≠ 0 → exec (.ertw ra rb) s = .next (takeTrap s s.cur (scalarTrap (me s) 3 (readX (me s) rb)))) ∧
    ((readX (me s) rb).toNat % 64 = 0 → check s s.cur .load (readX (me s) rb).toNat 64 = (.error f, s') →
      exec (.ertw ra rb) s = .next
        (takeTrap s' s.cur { scalarTrap (me s') f.cause (BitVec.ofNat 64 f.value) with bank := f.bank }))

/-- R176, R177: a scalar atomic whose checks pass, with nothing in flight to its word: it returns the old value and
writes the new one for every reader at once, and every other byte reads as before; a failed amocas writes nothing. The hart's
later accesses to the word begin after it, and behind an acquire those on its path. That the new value is performed at every scope
at once, that a release waits for a lost write's report, and that words are read ahead, is log 19's choice. -/
def Obligations.Atomics : Prop :=
  ∀ (i : Instr) (s s' s'' : State) (rd ra : XReg) (sc : Scope) (ord : Order) (f : Nat → Option Nat) (p : Piece),
    atomicOf (me s) i = some (rd, ra, sc, ord, f) → (me s).queue = [] →
    checkAtomic s s.cur (me s).ctxid (me s).priv (readX (me s) ra).toNat 8 = (.ok [p], s') →
    releaseBefore s' s.cur ord (piecePath s' false p) sc = s'' → farmGone s' s'' s.cur = false → s''.cur = s.cur →
    (releases ord = true → anyLost s''.dev s''.mem s.cur (·.path == piecePath s' false p) = false) →
    (∀ x ∈ s''.mem.flight, ∀ c ∈ x.cells, ¬ (p.key ≤ c.1 ∧ c.1 < p.key + 8)) → Memory.wf s''.mem = true →
    ∃ t m, exec i s = .next t ∧
      Committed { countRemote s'' s.cur [p] with mem := m } t ((me s'').pc + 4) rd
        (BitVec.ofNat 64 (leValue (readBytes s''.mem .host p.key 8))) ∧
      (f (leValue (readBytes s''.mem .host p.key 8)) = none → m = { s''.mem with early := m.early }) ∧
      (∀ v, f (leValue (readBytes s''.mem .host p.key 8)) = some v → ∀ r k,
        readByte m r k = if p.key ≤ k ∧ k < p.key + 8 then BitVec.ofNat 8 (v / 2 ^ (8 * (k - p.key)))
          else readByte s''.mem r k) ∧
      (∀ q k, (p.key ≤ k → k < p.key + 8 → hartByte m s.cur q k = readByte m .host k) ∧
        (acquires ord = false → ¬ (p.key ≤ k ∧ k < p.key + 8) → hartByte m s.cur q k = hartByte s''.mem s.cur q k)) ∧
      (acquires ord = true → ∀ e ∈ m.early, e.hart = s.cur →
        pathOf s''.dev false (8 * e.word) ≠ piecePath s' false p)

/-- R163, R178: a CSR instruction that its mode allows returns the old value and stores the written one by the field
rules; every other CSR but xlast, instret and the counters keeps its value, and a write of vtype clears vl (R164). That a write of
vl takes its reserved bits into the AVL is log 54's choice. -/
def Obligations.CsrInstructions : Prop :=
  ∀ (i : Instr) (s : State) (n : Nat) (rd ra : XReg) (f : Option (Word → Word)),
    csrForm (me s) i = some (n, rd, ra, f) → csrAllowed (me s) n f.isSome = true → mustWait s i = false →
    (f = none → ∃ t, exec i s = .next t ∧ Committed s t ((me s).pc + 4) rd (csrRead s s.cur n)) ∧
    (∀ g, f = some g → ∃ t, exec i s = .next t ∧ t = withMe s (me t) ∧ (me t).pc = (me s).pc + 4 ∧
      (me t).priv = (me s).priv ∧ (me t).v = (me s).v ∧ (me t).w = (me s).w ∧ (me t).run = (me s).run ∧
      (∀ r, readX (me t) r = if r = 0 then 0 else if r = rd then csrRead s s.cur n else readX (me s) r) ∧
      (n ≠ 0x01F → csrRead t s.cur 0x01F = if rd = 0 then csrRead s s.cur 0x01F else BitVec.ofNat 64 rd.val) ∧
      (n ≠ 0x02A → ¬ (0x030 ≤ n ∧ n < 0x040) → csrRead t s.cur n = csrRule (me s) n (g (csrRead s s.cur n))) ∧
      (n ≠ 0x02A → csrRead t s.cur 0x02A = csrRead s s.cur 0x02A + 1) ∧
      (∀ k, k ≠ n → k ≠ 0x01F → k ≠ 0x02A → ¬ (0x030 ≤ k ∧ k < 0x040) →
        csrRead t s.cur k = if n = 1 ∧ k = 0 then 0 else csrRead s s.cur k))

/-- R188: setvl and setvli write vtype and vl and return vl; an illegal configuration sets vill and grants 0. -/
def Obligations.VectorConfiguration : Prop :=
  ∀ (i : Instr) (s : State) (rd ra : XReg) (v : Word),
    ((∃ imm : BitVec 14, i = .setvli rd ra imm ∧ v = BitVec.ofNat 64 imm.toNat) ∨
      (∃ rb, i = .setvl rd ra rb ∧ v = readX (me s) rb)) → mustWait s i = false →
    let vt : Word := if vtEt v < 22 ∧ vtEt2 v < 22 ∧ v.toNat < 2 ^ 14 then v else 0x8000000000000000
    let avl := (readX (me s) ra).toNat
    let vl : Word := BitVec.ofNat 64
      (if vtIll vt ∨ avl = 0 then 0
       else if avl < vlGrain vt then vlGrain vt
       else min avl (vlmax vt) / vlGrain vt * vlGrain vt)
    (∃ w, codeOf i = some w ∧ encode i = some (4, w)) ∧
      exec i s = .next (withMe s (resultHart { me s with csr := { (me s).csr with vtype := vt, vl := vl }
                                                         epoch := (me s).epoch + 1 } ((me s).pc + 4) rd vl))

/-- R382, R383, R390: sys and brk in user mode record cause 16 or 17 with their number, and the handler begins: pc = evec in
privileged mode, epc at the instruction, every x register, xlast and every vector register as they were. So do the traps that
a scalar instruction takes in user mode by its form: illegal patterns, fetch faults, privileged instructions, forbidden CSR
accesses and odd jump targets. A contained machine check also stops the farm's other harts (R393). In privileged mode a trap
enters no handler: the farm ends, and its harts are given back. -/
def Obligations.TrapEntries : Prop :=
  (∀ (s u : State) (imm : BitVec 11), (me s).priv = false → (me s).queue = [] →
    (LogWritten s (callOf (me s) 16 (imm.setWidth 64)) u →
      exec (.sys imm) s = .next (entered s u 16 (imm.setWidth 64) 0)) ∧
    (LogWritten s (callOf (me s) 17 (imm.setWidth 64)) u →
      exec (.brk imm) s = .next (entered s u 17 (imm.setWidth 64) 0))) ∧
  (∀ (i : Instr) (s u : State) (cause : Nat) (value : Word) (low : Nat),
    (me s).priv = false → (me s).queue = [] → userTrap (me s) i = some (cause, value, low) →
    LogWritten s (trapOf (me s) cause value (low ≠ 0)) u →
    exec i s = .next (if cause = 15 then stopFarm (entered s u cause value low) s.cur else entered s u cause value low)) ∧
  ∀ (i : Instr) (s : State) (f : Farm) (cause : Nat) (value : Word) (imm : BitVec 11),
    (me s).priv = true → (me s).queue = [] → farmOf s (me s).farmid = some f →
    (i = .sys imm ∨ i = .brk imm ∨ i = .illegalInstruction value ∨ i = .instructionFetchFault cause value ∨
      (∃ n rd ra g, csrForm (me s) i = some (n, rd, ra, g) ∧ csrAllowed (me s) n g.isSome = false)) →
    ∃ t, exec i s = .next t ∧ (∀ g ∈ t.sched.farms, g.number ≠ f.number) ∧
      ∀ h ∈ farmHarts f, (hartOf t h).run = .free

/-- R389: eret posts the images of the record in memory that are not skipped, goes on at its resume PC in the saved
mode, and breaks the link set (R316); here the hart's timing choice lets the images wait in the queue (log 7). -/
def Obligations.EretReturns : Prop :=
  ∀ (s u u' : State) (r : List Byte) (es : List Entry),
    (me s).priv = true → (me s).queue = [] → (me s).trap.estatus.getLsbD 7 = false →
    let s1 := withMe s (committedHart (me s) ((me s).pc + 4))
    let base := logSlot s1 s.cur (me s).ctxid
    readSystem s1 s.cur (me s).ctxid base 64 = (.ok r, u) →
    fieldAt r 58 2 ≤ 128 → fieldAt r 56 2 ≤ fieldAt r 58 2 →
    readImages u s.cur (me s).ctxid (base + 0x100 + 128 * fieldAt r 56 2) (me s).epoch
      (fieldAt r 58 2 - fieldAt r 56 2) = (.ok es, u') →
    (hartOf u' s.cur).queue = [] → es.length ≤ (hartOf u' s.cur).lag →
    exec .eret s = .next { u' with
      harts := u'.harts.set s.cur { hartOf u' s.cur with
        queue := es, pc := BitVec.ofNat 64 (fieldAt r 16 8)
        priv := (hartOf u' s.cur).trap.estatus.getLsbD 0
        wloopPending := (hartOf u' s.cur).trap.estatus.getLsbD 16 }
      mem := dropLinks u'.mem s.cur }

/-- R367, R368, R390: strip takes the farm's next index, or all ones when none remains; yield stops the hart until the
decision that it causes, at which its farm is pre-emptible; idle stops issue after itself until it is woken or its time
passes, and the hart then goes on. -/
def Obligations.WaitsAndStrips : Prop :=
  (∀ s : State, (me s).priv = true → (me s).queue = [] →
    exec .idle s = .next (withMe s { committedHart (me s) ((me s).pc + 4) with run := .waiting .idle })) ∧
  (∀ (s : State) (h : HartId), (hartOf s h).run = .waiting .idle →
    exec (.idleTimeout h.val) s = .next (withHart s h { hartOf s h with run := .running }) ∧
    exec (.idleWake (BitVec.ofNat 9 h.val)) s = .next (withHart s h { hartOf s h with run := .running })) ∧
  (∀ (s : State) (h : HartId), (hartOf s h).run ≠ .waiting .idle →
    exec (.idleTimeout h.val) s = .next s ∧ exec (.idleWake (BitVec.ofNat 9 h.val)) s = .next s) ∧
  (∀ (s : State) (rd : XReg) (f : Farm), pendingX (me s) [rd] = false → farmOf s (me s).farmid = some f →
    (f.next < f.launch.record.strips.toNat → ∃ t, exec (.strip rd) s = .next t ∧
      Committed (withFarm s (me s).farmid fun f => { f with next := f.next + 1 }) t ((me s).pc + 4) rd
        (BitVec.ofNat 64 f.next)) ∧
    (f.launch.record.strips.toNat ≤ f.next → ∃ t, exec (.strip rd) s = .next t ∧
      Committed s t ((me s).pc + 4) rd 0xFFFFFFFFFFFFFFFF)) ∧
  (∀ (s : State) (f : Farm), farmOf s (me s).farmid = some f →
    exec .yield s = .next (decisionDue (withFarm (withMe s { committedHart (me s) ((me s).pc + 4) with
      run := .waiting .yield }) f.number fun f => { f with yielded := true }) f.launch.part))

/-- R276 to R279: with no posted operation outstanding and every write still reached, a fence performs the hart's older
writes on its paths at its scope, and the hart's accesses on the paths ordered after it begin anew; it changes nothing else.
Afterwards every write of the hart on those paths has been performed there. That it performs them within its own step, and that
words are read ahead, is log 19's choice. -/
def Obligations.Fences : Prop :=
  ∀ (i : Instr) (s : State) (paths after : Path → Bool) (sc : Scope),
    (i = .fence sc ∧ paths = (fun _ => true) ∧ after = (fun _ => true)) ∨
      (∃ b a, i = .fenceX b a sc ∧ b ≠ 0 ∧ a ≠ 0 ∧ paths = maskHas b ∧ after = maskHas a) →
    (me s).queue = [] → NothingPosted s → allReach s paths →
    exec i s = .next (withMe { s with mem := begun (performed s paths sc) s.cur (onPaths s after) }
      (committedHart (me s) ((me s).pc + 4))) ∧
    ((s.mem.flight.map (·.id)).Nodup → ∀ a ∈ (performed s paths sc).flight, a.hart = s.cur → paths a.path = true →
      levelFor sc a.path ≤ a.level)

/-- R281, R287, R429, R430: cwait returns its word, as it is now, when it has reached the bound, and the hart's accesses on its path
begin after it; otherwise it waits. A write to the word makes it read again, as one access. That words are read ahead is log 19's
choice. -/
def Obligations.CounterWaits : Prop :=
  (∀ (s s' : State) (rd ra rb : XReg) (sc : Scope) (p : Piece), (me s).queue = [] → (readX (me s) ra).toNat % 8 = 0 →
    check s s.cur .load (readX (me s) ra).toNat 8 = (.ok [p], s') →
    let v := leValue (readBytes s'.mem (.hart s.cur (piecePath s' false p)) p.key 8)
    let u := countRemote s' s.cur [p]
    let read := begun u.mem s.cur (wordsOf p)
    exec (.cwait rd ra rb sc) s = .next
      (if (readX (me s) rb).toNat ≤ v then
        withHart { u with mem := begun read s.cur fun k => pathOf s'.dev false k == piecePath s' false p } s.cur
          { resultHart (hartOf u s.cur) ((me s).pc + 4) rd (BitVec.ofNat 64 v) with run := .running }
       else withHart { u with mem := read } s.cur { hartOf u s.cur with run := .waiting (.cwait rd ra rb sc) })) ∧
  (∀ (s s' : State) (h : HartId) (rd ra rb : XReg) (sc : Scope) (p : Piece),
    (hartOf s h).run = .waiting (.cwait rd ra rb sc) → (readX (hartOf s h) ra).toNat % 8 = 0 →
    check s h .load (readX (hartOf s h) ra).toNat 8 = (.ok [p], s') →
    let v := leValue (readBytes s'.mem (.hart h (piecePath s' false p)) p.key 8)
    let read := begun s'.mem h (wordsOf p)
    exec (.cwaitWake h.val) s = .next
      (if (readX (hartOf s h) rb).toNat ≤ v then
        withHart { s' with mem := begun read h fun k => pathOf s'.dev false k == piecePath s' false p } h
          { resultHart (hartOf s' h) ((hartOf s h).pc + 4) rd (BitVec.ofNat 64 v) with run := .running }
       else withHart { s' with mem := read } h { hartOf s' h with run := .waiting (.cwait rd ra rb sc) }))

/-- R286, R431, R432: a hart with nothing posted arrives at fbar; it waits until the arrivals and the ended harts reach F,
and with the last one every waiting hart goes on after its fbar, where its accesses begin. That fbar performs what it releases
within its own step, and that words are read ahead, is log 19's choice. -/
def Obligations.FarmBarrier : Prop :=
  ∀ (s : State) (f : Farm), (me s).queue = [] → NothingPosted s → allReach s (fun _ => true) →
    farmOf s (me s).farmid = some f →
    let arrived := withFarm (withMe { s with mem := released s .package }
        { me s with run := .waiting .fbar }) f.number fun g =>
      { withMember g s.cur fun m => { m with arrived := true } with arrivals := g.arrivals + 1 }
    (f.arrivals + 1 + (f.members.filter (·.ended)).length < f.members.length → exec .fbar s = .next arrived) ∧
    (f.members.length ≤ f.arrivals + 1 + (f.members.filter (·.ended)).length →
      ∃ t, exec .fbar s = .next t ∧ t.dev = s.dev ∧
        t.mem = { arrived.mem with early := arrived.mem.early.filter fun e =>
          !((farmHarts f).contains e.hart && (hartOf arrived e.hart).run == .waiting .fbar) } ∧
        (∀ g ∈ t.sched.farms, g.number = f.number → g.arrivals = 0) ∧
        (∀ h ∈ farmHarts f, (hartOf arrived h).run = .waiting .fbar →
          hartOf t h = { committedHart (hartOf arrived h) ((hartOf arrived h).pc + 4) with run := .running }) ∧
        (∀ h, h ∉ farmHarts f → hartOf t h = hartOf arrived h))

/-- R63, R281, R369: trig of a hart with nothing outstanding takes effect at once, as a release; the farm triggers with its
last hart. That the release is performed within the step is log 19's choice. -/
def Obligations.Trigger : Prop :=
  ∀ (s : State) (f : Farm), (me s).queue = [] → NothingIssued s → (me s).trigger = .no →
    farmOf s (me s).farmid = some f →
    let u := withFarm (withMe { s with mem := observed s s.mem .system }
        { committedHart (me s) ((me s).pc + 4) with trigger := .done }) f.number fun g =>
      withMember g s.cur fun m => { m with triggered := true }
    (f.triggered = true ∨ (∃ m ∈ f.members, m.hart ≠ some s.cur ∧ m.triggered = false ∧ m.ended = false) →
      exec .trig s = .next u) ∧
    (f.triggered = false → (∀ m ∈ f.members, m.hart = some s.cur ∨ m.triggered = true ∨ m.ended = true) →
      reaches s.dev false f.launch.done = true →
      exec .trig s = .next (decisionDue { withFarm u f.number (fun g => { g with triggered := true }) with
        mem := commitCells u.mem none (cellsAt f.launch.done (leBytes 8 1)) } f.launch.part))

/-- R60, R62, R63, R370: end of a hart with nothing outstanding, of a farm that other harts keep alive: the hart is given
back and its flags and cause go to the farm. A farm that has not triggered does so with its last hart that had not. That
the hart's release is performed within the step is log 19's choice. -/
def Obligations.HartEnds : Prop :=
  ∀ (s : State) (f : Farm), (me s).queue = [] → (me s).sends = [] → NothingIssued s →
    farmOf s (me s).farmid = some f → f.ending = false → f.arrivals = 0 → f.preempt = false →
    (∃ m ∈ f.members, m.hart ≠ some s.cur ∧ m.ended = false) →
    let waits := f.triggered = true ∨ ∃ m ∈ f.members, m.hart ≠ some s.cur ∧ m.triggered = false ∧ m.ended = false
    let farms (triggered : Farm → Bool) : List Farm := s.sched.farms.map fun g => if g.number == f.number then
        { withMember g s.cur fun m => { m with ended := true, triggered := true, hart := none } with
          flags := g.flags ||| (me s).csr.vflags.setWidth 12, triggered := triggered g
          cause := if (me s).cause = 0 then g.cause else (me s).cause } else g
    ∃ t, exec .endHart s = .next t ∧ (me t).run = .free ∧ (∀ h, h ≠ s.cur → hartOf t h = hartOf s h) ∧
      (waits → t.mem.cells = (observed s s.mem .system).cells ∧ t.dev = s.dev ∧ t.agenda = s.agenda ∧
        t.sched.farms = farms (·.triggered)) ∧
      (¬ waits → reaches s.dev false f.launch.done = true → Memory.wf s.mem = true →
        leValue (readBytes t.mem .host f.launch.done 8) = 1 ∧ t.dev = s.dev ∧
        t.agenda = s.agenda ++ [.event (.schedulerDecision f.launch.part.toNat)] ∧ t.sched.farms = farms fun _ => true)

/-- R63, R360, R370: the end of a farm's last hart completes the farm, whether it had triggered or not: it is removed, its
completion word holds count 2 with the flags and cause of every hart, and a decision is due. That the hart's release is
performed within the step is log 19's choice. -/
def Obligations.FarmCompletes : Prop :=
  ∀ (s : State) (f : Farm), (me s).queue = [] → (me s).sends = [] → NothingIssued s →
    farmOf s (me s).farmid = some f → f.ending = false → f.arrivals = 0 → Memory.wf s.mem = true →
    (∀ m ∈ f.members, m.hart = some s.cur ∨ (m.ended = true ∧ m.hart = none)) →
    reaches s.dev false f.launch.done = true →
    ∃ t, exec .endHart s = .next t ∧ (me t).run = .free ∧ (∀ g ∈ t.sched.farms, g.number ≠ f.number) ∧
      (∀ h, h ≠ s.cur → (hartOf t h).run = (hartOf s h).run ∧ (hartOf t h).x = (hartOf s h).x) ∧
      t.agenda.getLast? = some (.event (.schedulerDecision f.launch.part.toNat)) ∧
      leValue (readBytes t.mem .host f.launch.done 8) =
        2 + ((if (me s).cause = 0 then f.cause else (me s).cause).toNat * 2 ^ 24)
          + (f.flags ||| (me s).csr.vflags.setWidth 12).toNat * 2 ^ 32

/-- R358, R361: launch reads its record once everything older is performed at system scope and answers 2 for a bad field,
3 for another context, 1 for a full queue, and 0 when the record is queued with its completion word cleared and the place of
its dependence word. That it performs the older writes within its own step, and that words are read ahead, is log 19's choice, and
which entries it waits for log 20's. -/
def Obligations.Launches : Prop :=
  ∀ (s u : State) (rd ra : XReg) (p : Piece), (me s).queue = [] → NothingPosted s → allReach s (fun _ => true) →
    (readX (me s) ra).toNat % 64 = 0 →
    check { s with mem := released s .system } s.cur .load (readX (me s) ra).toNat 64 = (.ok [p], u) →
    let u := countRemote u s.cur [p]
    let bs := readBytes u.mem (.hart s.cur (piecePath u false p)) p.key 64
    let u := { u with mem := begun u.mem s.cur (wordsOf p) }
    let r := launchFields bs
    let answer (t : State) (v : Nat) : Host.Outcome State Fault Refusal :=
      .next (withHart t s.cur (resultHart (hartOf t s.cur) ((me s).pc + 4) rd (BitVec.ofNat 64 v)))
    (launchable bs = false → exec (.launch rd ra) s = answer u 2) ∧
    (launchable bs = true → r.ctx ≠ 0 → r.ctx ≠ (me s).ctxid → exec (.launch rd ra) s = answer u 3) ∧
    (∀ q u₁ u' dep, launchable bs = true → r.ctx = 0 ∨ r.ctx = (me s).ctxid → ctxValid (ctxImage u (me s).ctxid.toNat) = true →
      check u s.cur .store r.done.toNat 8 = (.ok [q], u₁) →
      (r.dep = 0 ∧ u' = u₁ ∧ dep = none) ∨
        (r.dep ≠ 0 ∧ r.dep.toNat % 8 = 0 ∧ ∃ d, check u₁ s.cur .locate r.dep.toNat 8 = (.ok [d], u') ∧ dep = some d.key) →
      let part := ctxPart (ctxImage u (me s).ctxid.toNat)
      let queued := (u.sched.launches.filter fun l => l.part == part).length
      (4096 ≤ queued → exec (.launch rd ra) s = answer u' 1) ∧
      (queued < 4096 → exec (.launch rd ra) s = answer (decisionDue { u' with
        mem := commitCells u'.mem none (cellsAt q.key (leBytes 8 0))
        sched := { u'.sched with
          launches := u'.sched.launches ++ [{ record := r, ctx := (me s).ctxid, part, done := q.key, dep
                                              depExpert := windowOf r.dep.toNat == .expert
                                              order := u'.sched.accepted, eff := r.prio.toNat % 8, passed := 0, sized := false }]
          accepted := u'.sched.accepted + 1 } } part) 0))

/-- R357, R411: icinv drops the lines of its range from the hart's own instruction cache, of 64 bytes by log 9 (PRESUMED);
tlbinv drops the translations of its context's pages from every TLB and its context from every walk cache, and performs the
hart's and all older stores at package scope, by log 19's choice within its own step and when none of them is lost. -/
def Obligations.CacheMaintenance : Prop :=
  (∀ (s : State) (ra rb : XReg), pendingX (me s) [ra, rb] = false → ∃ c,
    exec (.icinv ra rb) s = .next (withMe s { committedHart (me s) ((me s).pc + 4) with icache := c }) ∧
    (readX (me s) rb = 0 → c = (me s).icache) ∧
    (readX (me s) rb ≠ 0 → ∀ e, e ∈ c ↔ e ∈ (me s).icache ∧
      (readX (me s) ra).toNat + (readX (me s) rb).toNat ≤ 2 ^ 64 ∧
      ¬ (e.1 / 64 * 64 < (readX (me s) ra).toNat + (readX (me s) rb).toNat ∧
        (readX (me s) ra).toNat < e.1 / 64 * 64 + 64))) ∧
  (∀ (s : State) (ra rb : XReg), (me s).priv = true → (me s).queue = [] → NothingPosted s → s.mem.counters = [] →
    (∀ a ∈ s.mem.flight, lost s.dev a = false) →
    let kept (e : TlbEntry) : Bool := !tlbNamed (me s).ctxid (ctxPart (ctxImage s (me s).ctxid.toNat))
      (readX (me s) ra).toNat (readX (me s) rb).toNat e
    ∃ t, exec (.tlbinv ra rb) s = .next t ∧ t.sched = s.sched ∧ t.dev = s.dev ∧
      (me t).x = (me s).x ∧ (me t).csr = (me s).csr ∧ (me t).pc = (me s).pc + 4 ∧
      (∀ h, (∀ k : Fin 8, (hartOf t h).tlb[k] = (hartOf s h).tlb[k].filter kept) ∧
        (hartOf t h).tlb2 = (hartOf s h).tlb2.filter kept) ∧
      (∀ c : Fin 32, t.walks[c] = s.walks[c].filter fun w => w.ctx ≠ (me s).ctxid) ∧
      (∀ h, h ≠ s.cur → hartOf t h = { hartOf s h with tlb := (hartOf t h).tlb, tlb2 := (hartOf t h).tlb2 }) ∧
      ((s.mem.flight.map (·.id)).Nodup → ∀ a ∈ t.mem.flight, levelFor .package a.path ≤ a.level))

/-- R416, R417: xbind of a resident expert takes a pin and returns its base; of one being fetched it returns the fetch's
ticket; of an absent one it queues a fetch and returns the new ticket. xunpin drops one pin of the farm. -/
def Obligations.ExpertBinding : Prop :=
  (∀ (s : State) (rd ra : XReg) (i : Nat) (e : ErtEntry) (f : Farm), pendingX (me s) [rd, ra] = false →
    earlyService s = false → farmOf s (me s).farmid = some f →
    ertFind s (me s).ctxid ((readX (me s) ra).setWidth 32) = some (i, e) →
    let key := (readX (me s) ra).toNat % 2 ^ 32
    (e.state = .resident → tget 0 f.pins key ≠ 0 ∨ f.pins.length < 256 →
      ∃ t, exec (.xbind rd ra) s = .next t ∧ readX (me t) rd = (if rd = 0 then 0 else e.base) ∧
        ertAt t i = some { e with pins := BitVec.ofNat 32 (min (e.pins.toNat + 1) 0xFFFFFFFF), last := s.time } ∧
        t.mem = s.mem ∧ (me t).pc = (me s).pc + 4) ∧
    (e.state = .fetching → exec (.xbind rd ra) s = .next (counted
      (withMe s (resultHart (me s) ((me s).pc + 4) rd (BitVec.ofNat 64 (e.gen.toNat * 2 ^ 32 + i * 2 + 1)))) s.cur 19)) ∧
    (e.state = .absent ∨ e.state = .evicting →
      ∃ t, exec (.xbind rd ra) s = .next t ∧
        readX (me t) rd = (if rd = 0 then 0 else BitVec.ofNat 64 ((e.gen + 1).toNat * 2 ^ 32 + i * 2 + 1)) ∧
        ertAt t i = some { e with gen := e.gen + 1, state := .fetching } ∧
        t.sched.fetchQueue = s.sched.fetchQueue ++ [i] ∧ t.mem = s.mem ∧ (me t).pc = (me s).pc + 4)) ∧
  (∀ (s : State) (ra : XReg) (i : Nat) (e : ErtEntry) (f : Farm), pendingX (me s) [ra] = false →
    farmOf s (me s).farmid = some f → ertFind s (me s).ctxid ((readX (me s) ra).setWidth 32) = some (i, e) →
    let key := (readX (me s) ra).toNat % 2 ^ 32
    tget 0 f.pins key ≠ 0 →
    ∃ t, exec (.xunpin ra) s = .next t ∧ (me t) = committedHart (me s) ((me s).pc + 4) ∧ t.mem = s.mem ∧
      ertAt t i = some { e with pins := if e.pins.toNat = 0xFFFFFFFF then e.pins else BitVec.ofNat 32 (e.pins.toNat - 1) } ∧
      farmOf t f.number = some { f with pins := tset 0 f.pins key (tget 0 f.pins key - 1) })

/-- R372: xpark under the ticket of a fetch parks elements vstart to vl - 1 in order, as far as the circlet's wait queue has
room; it stalls at the first that finds none, and goes on from there. When the fetch has finished, the ticket is ready at
once and pins its expert, unless it was ready already. R372 says elements 0 to vl − 1: that xpark begins at vstart and leaves
vstart 0 is log 30's choice. -/
def Obligations.Parking : Prop :=
  ∀ (s : State) (ra : XReg) (v : VReg) (h : HartId) (e : ErtEntry) (i : Instr),
    (i = .xpark ra v ∧ h = s.cur ∧ (me s).queue = [] ∧ tokens32 (me s) v) ∨
      (i = .xparkResume h.val ∧ (hartOf s h).run = .waiting (.xpark ra v)) →
    ticketEntry s (hartOf s h).ctxid (readX (hartOf s h) ra) = some e →
    let first := (hartOf s h).csr.vstart.toNat
    let room := 4096 - (s.sched.parked.filter fun p => p.circlet == h.val / 16).length
    let n := min ((hartOf s h).csr.vl.toNat - first) room
    let ticket := readX (hartOf s h) ra
    let parked := s.sched.parked ++ (List.range n).map fun k =>
      { circlet := h.val / 16, farm := (hartOf s h).farmid, ticket
        token := BitVec.ofNat 32 (groupGet (hartOf s h).v v.val (32 * (first + k)) 32) }
    ∃ t, exec i s = .next t ∧ t.mem = s.mem ∧ t.dev = s.dev ∧
      (e.state = .fetching → t.sched = { s.sched with parked }) ∧
      (e.state = .resident → ∀ f, farmOf s (hartOf s h).farmid = some f → f.launch.ctx = (hartOf s h).ctxid →
        t.sched.parked = parked ∧ t.sched.farms = s.sched.farms ∧
        (0 < n → ((hartOf s h).ctxid, ticket) ∉ s.sched.ticketPins →
          t.sched.ready = s.sched.ready ++ [((hartOf s h).ctxid, ticket)] ∧
          t.sched.ticketPins = s.sched.ticketPins ++ [((hartOf s h).ctxid, ticket)] ∧
          ertAt t (ticket.toNat / 2 % 2 ^ 13) = some { e with pins := BitVec.ofNat 32 (min (e.pins.toNat + 1) 0xFFFFFFFF) }) ∧
        (n = 0 ∨ ((hartOf s h).ctxid, ticket) ∈ s.sched.ticketPins →
          t.sched.ready = s.sched.ready ∧ t.sched.ticketPins = s.sched.ticketPins ∧ t.sched.ert = s.sched.ert)) ∧
      (∀ g, g ≠ h → hartOf t g = hartOf s g) ∧
      (if first + n < (hartOf s h).csr.vl.toNat then
        (hartOf t h).run = .waiting (.xpark ra v) ∧ (hartOf t h).csr.vstart = BitVec.ofNat 64 (first + n) ∧
          (hartOf t h).pc = (hartOf s h).pc
       else (hartOf t h).run = .running ∧ (hartOf t h).csr = { (hartOf s h).csr with vstart := 0 } ∧
          (hartOf t h).pc = (hartOf s h).pc + 4)

/-- R373, R415: xwake and xwake.w pop at most VLMAX tokens of the farm's first ready ticket in parking order: their payloads
become the elements of vN, vl their number, the ticket is returned, and the farm takes a pin on the expert, whose last use is
now. With the last token under the ticket its readiness goes, and its own pin. With none ready xwake returns 0 with vl 0, and
xwake.w waits while its farm has a token parked. -/
def Obligations.Waking : Prop :=
  ∀ (s : State) (rd : XReg) (v : VReg) (h : HartId) (i : Instr),
    (i = .xwake rd v ∧ h = s.cur ∧ (me s).queue = [] ∧ tokens32 (me s) v) ∨
      (i = .xwakeW rd v ∧ h = s.cur ∧ (me s).queue = [] ∧ tokens32 (me s) v) ∨
      (i = .xwakeWWake h.val ∧ (hartOf s h).run = .waiting (.xwakeW rd v)) →
    (∀ ticket, readyFor s (hartOf s h).ctxid (hartOf s h).farmid = some ticket →
      ∀ e f, ertAt s (ticketIndex ticket) = some e → farmOf s (hartOf s h).farmid = some f →
      tget 0 f.pins e.key.toNat ≠ 0 ∨ f.pins.length < 256 → tokens32 (hartOf s h) v →
      let mine (p : Parked) : Bool := p.farm == (hartOf s h).farmid && p.ticket == ticket
      let got := (s.sched.parked.filter mine).take (vlmax (hartOf s h).csr.vtype)
      ∃ t, exec i s = .next t ∧ t.mem = s.mem ∧ (hartOf t h).run = .running ∧ (hartOf t h).pc = (hartOf s h).pc + 4 ∧
        (rd ≠ 0 → readX (hartOf t h) rd = ticket) ∧ (hartOf t h).csr.vl = BitVec.ofNat 64 got.length ∧
        (∀ k (hk : k < got.length), groupGet (hartOf t h).v v.val (32 * k) 32 = got[k].token.toNat) ∧
        (∀ p ∈ t.sched.parked, p ∈ s.sched.parked) ∧
        t.sched.parked.filter mine = (s.sched.parked.filter mine).drop got.length ∧
        t.sched.parked.filter (!mine ·) = s.sched.parked.filter (!mine ·) ∧
        (∃ g, farmOf t f.number = some g ∧ tget 0 g.pins e.key.toNat = tget 0 f.pins e.key.toNat + 1) ∧
        ∃ d, ertAt t (ticketIndex ticket) = some d ∧ d.last = s.time ∧
          let raised := min (e.pins.toNat + 1) 0xFFFFFFFF
          ((∃ p ∈ t.sched.parked, mine p = true) → f.launch.ctx = (hartOf s h).ctxid →
            t.sched.ready = s.sched.ready ∧ t.sched.ticketPins = s.sched.ticketPins ∧ d.pins.toNat = raised) ∧
          ((∀ p ∈ t.sched.parked, p.ticket = ticket → ∀ g, farmOf s p.farm = some g → g.launch.ctx ≠ (hartOf s h).ctxid) →
            t.sched.ready = s.sched.ready.filter (· ≠ ((hartOf s h).ctxid, ticket)) ∧
            t.sched.ticketPins = s.sched.ticketPins.filter (· ≠ ((hartOf s h).ctxid, ticket)) ∧
            d.pins.toNat = if ((hartOf s h).ctxid, ticket) ∈ s.sched.ticketPins ∧ raised ≠ 0xFFFFFFFF then raised - 1 else raised)) ∧
    (readyFor s (hartOf s h).ctxid (hartOf s h).farmid = none →
      let none_ := withHart s h { resultHart { hartOf s h with csr := { (hartOf s h).csr with vl := 0 }
                                                               epoch := (hartOf s h).epoch + 1 }
        ((hartOf s h).pc + 4) rd 0 with run := .running }
      (i = .xwake rd v → exec i s = .next none_) ∧
      (i ≠ .xwake rd v → (∀ p ∈ s.sched.parked, p.farm ≠ (hartOf s h).farmid) → exec i s = .next none_) ∧
      (i ≠ .xwake rd v → (∃ p ∈ s.sched.parked, p.farm = (hartOf s h).farmid) →
        exec i s = .next (withHart s h { hartOf s h with run := .waiting (.xwakeW rd v) })))

/-- R174, R374: xsend queues its tokens from vstart on for their destination, each with the payload at x[xb] + i × L; with the
send queue full the hart stalls at that element, and a payload that cannot be read traps there. That it starts at vstart, and
that a payload is one access of L bytes, whose address must be a multiple of L, is log 30's choice. -/
def Obligations.Sending : Prop :=
  ∀ (s : State) (v : VReg) (ra rb : XReg) (h : HartId) (i : Instr),
    (i = .xsend v ra rb ∧ h = s.cur ∧ (me s).queue = [] ∧ tokens32 (me s) v ∧ sendOk (readX (me s) ra) = true) ∨
      (i = .xsendResume h.val ∧ (hartOf s h).run = .waiting (.xsend v ra rb)) →
    let hd := hartOf s h
    let first := hd.csr.vstart.toNat
    let len : Nat := (readX hd ra).toNat / 2 ^ 16 % 2 ^ 16
    let stalled (u : State) (k : Nat) : State := withHart u h { hartOf u h with
      run := .waiting (.xsend v ra rb), csr := { (hartOf u h).csr with vstart := BitVec.ofNat 64 k } }
    (∀ k u, sendFrom s h v (readX hd ra) (readX hd rb) (hd.csr.vl.toNat - first) first = .at_ k u →
      exec i s = .next (if k < hd.csr.vl.toNat then stalled u k else withHart u h (tokenDone (hartOf u h)))) ∧
    (∀ k f u, sendFrom s h v (readX hd ra) (readX hd rb) (hd.csr.vl.toNat - first) first = .fault k f u →
      exec i s = .next (takeTrap u h { scalarTrap (hartOf u h) f.cause (BitVec.ofNat 64 f.value) with vstart := k, bank := f.bank })) ∧
    (hd.csr.vl.toNat ≤ first → exec i s = .next (withHart s h (tokenDone hd))) ∧
    (first < hd.csr.vl.toNat → 256 ≤ hd.sends.length → exec i s = .next (stalled s first)) ∧
    (first < hd.csr.vl.toNat → hd.sends.length < 256 → ((readX hd rb).toNat + first * len) % len ≠ 0 →
      exec i s = .next (takeTrap s h { scalarTrap hd 3 (BitVec.ofNat 64 ((readX hd rb).toNat + first * len)) with
        vstart := first })) ∧
    (∀ ps u, first + 1 = hd.csr.vl.toNat → hd.sends.length < 256 → ((readX hd rb).toNat + first * len) % len = 0 →
      check s h .load ((readX hd rb).toNat + (first * len : Nat)) len = (.ok ps, u) →
      let u := countRemote u h ps
      exec i s = .next (withHart u h (tokenDone { hartOf u h with sends := (hartOf u h).sends ++
        [{ dest := (readX hd ra).toNat % 2 ^ 10, pc := hd.pc, xa := readX hd ra, index := first, busy := false
           msg := { ctx := hd.ctxid.toNat, src := s.dev.pkg.toNat
                    tag := BitVec.ofNat 32 (groupGet hd.v v.val (32 * first) 32)
                    payload := loadPieces u h false ps } }] })))

/-- R376: xrecv frees the slots that the hart's last one returned and takes the tokens that have arrived, in their order,
up to VLMAX: the elements of vN are the addresses of their slots, it returns their number, and the slots are the hart's. It is an
acquire: the hart's accesses on path V, on which the slots lie, begin after it. That words are read ahead is log 19's choice. -/
def Obligations.Receiving : Prop :=
  ∀ (s : State) (rd : XReg) (v : VReg), (me s).queue = [] → tokens64 (me s) v →
    let c := (me s).ctxid.toNat
    let ring := ringOf s c
    let got := ring.arrived.take (vlmax (me s).csr.vtype)
    ∃ t, exec (.xrecv rd v) s = .next t ∧ t.mem = begun s.mem s.cur (fun k => pathOf s.dev false k == .V) ∧ t.dev = s.dev ∧
      (me t).pc = (me s).pc + 4 ∧
      (rd ≠ 0 → readX (me t) rd = BitVec.ofNat 64 got.length) ∧ (me t).csr.vl = BitVec.ofNat 64 got.length ∧
      (me t).slots = got ∧
      (∀ k (hk : k < got.length), groupGet (me t).v v.val (64 * k) 64 =
        (imageField (ctxImage s c) 320 64 + got[k] * (64 * (1 + imageField (ctxImage s c) 384 16))) % 2 ^ 64) ∧
      ringOf t c = { ring with
        arrived := ring.arrived.drop got.length, held := (ring.held.filter fun k => !(me s).slots.contains k) ++ got }

/-- R420: ertw in privileged mode writes an entry from its image: an unused or absent entry of the context takes the
key, far address, size and base, absent and without pins; a fetch may then be admitted. An image that the rule does not allow
traps; that one of size 0 is judged by every check is log 31's choice. -/
def Obligations.ErtWrites : Prop :=
  ∀ (s u t' : State) (ra rb : XReg) (p : Piece), (me s).priv = true → (me s).queue = [] →
    (readX (me s) ra).toNat < 8192 → (readX (me s) rb).toNat % 64 = 0 →
    check s s.cur .load (readX (me s) rb).toNat 64 = (.ok [p], u) →
    let u := countRemote u s.cur [p]
    let bs := loaded u p 64
    let idx := (readX (me s) ra).toNat
    (ertRefused u (me s).ctxid idx bs ↔ writeErt u (me s).ctxid idx bs = none) ∧
    (writeErt u (me s).ctxid idx bs = none → exec (.ertw ra rb) s = .next (takeTrap u s.cur (scalarTrap (me s) 13 (readX (me s) ra)))) ∧
    (writeErt u (me s).ctxid idx bs = some t' →
      exec (.ertw ra rb) s = .next { withHart t' s.cur (committedHart (hartOf t' s.cur) ((me s).pc + 4)) with
        agenda := t'.agenda ++ [.event .fetchAdmit] } ∧
      ∃ e, ertAt t' idx = some e ∧ e.key.toNat = leValue (bs.take 4) ∧ e.state = .absent ∧ e.pins = 0 ∧
        e.frames = [] ∧ e.far.toNat = leValue ((bs.drop 8).take 8) ∧ e.size.toNat = leValue ((bs.drop 16).take 4) ∧
        e.base.toNat = leValue ((bs.drop 24).take 8) ∧ e.ctx = (if e.size = 0 then 0 else (me s).ctxid))

/-- R98 to R100: a legal clasp commits, and its members are posted at once when the queue has room for all of them;
otherwise the hart waits. One that is not legal posts nothing: it traps at the clasp when its PC is no multiple of 4, it has
more than six members, or a position does not fit its slot, the first such position in its value; otherwise the first member
that is no instruction traps at that member's own PC with cause 1 and its bits.
That a fetch fault is found at its position is log 50's choice; here every member can be fetched. -/
def Obligations.Clasps : Prop :=
  (∀ (s u : State) (n : BitVec 3) (slots : Slots) (is : List Instr),
    checkClasp s s.cur (me s).pc.toNat n slots = (.members is, u) → u.cur = s.cur →
    (∀ i ∈ is, pendingX (me u) (postRegs i) = false) →
    (Config.queueDepth < (me u).queue.length + is.length →
      exec (.clasp n slots) s = .next (withMe u { me u with run := .waiting .queueFull })) ∧
    ((me u).queue.length + is.length ≤ Config.queueDepth → (me u).queue.length + is.length ≤ (me u).lag →
      ∃ t, exec (.clasp n slots) s = .next t ∧ t.mem = u.mem ∧ t.sched = u.sched ∧ t.dev = u.dev ∧
        (me t).pc = (me u).pc + 4 + 8 * BitVec.ofNat 64 is.length ∧
        (me t).perf.instret = (me u).perf.instret + 1 + BitVec.ofNat 64 is.length ∧
        (me t).queue.take (me u).queue.length = (me u).queue ∧
        ((me t).queue.drop (me u).queue.length).map (·.instr) = is ∧
        ((me t).queue.drop (me u).queue.length).map (·.joined) = is.zipIdx.map fun p => p.2 != 0)) ∧
  (∀ (s : State) (pc : Nat) (n : BitVec 3) (slots : Slots),
    (pc % 4 ≠ 0 ∨ 4 < n.toNat → checkClasp s s.cur pc n slots = (.badConvoy 0, s)) ∧
    ∀ w : Nat → Nat, pc % 4 = 0 → n.toNat ≤ 4 →
      (∀ k, 1 ≤ k → k ≤ n.toNat + 2 → memberBits s s.cur (pc + 4 + 8 * (k - 1)) = (.ok (w k), s)) →
      (∀ k, 1 ≤ k → k ≤ 6 → ¬ slotFitted slots (n.toNat + 2) k (w k) →
        (∀ j, 1 ≤ j → j < k → slotFitted slots (n.toNat + 2) j (w j)) →
        checkClasp s s.cur pc n slots = (.badConvoy k, s)) ∧
      ((∀ k, 1 ≤ k → k ≤ 6 → slotFitted slots (n.toNat + 2) k (w k)) →
        (∀ is : List Instr, is.length = n.toNat + 2 → (∀ k (hk : k < is.length), decode64 (w (k + 1)) = .ok is[k]) →
          checkClasp s s.cur pc n slots = (.members is, s)) ∧
        ∀ k r, 1 ≤ k → k ≤ n.toNat + 2 → decode64 (w k) = .error r →
          (∀ j, 1 ≤ j → j < k → ∃ i, decode64 (w j) = .ok i) →
          checkClasp s s.cur pc n slots = (.illegal (pc + 4 + 8 * (k - 1)) (BitVec.ofNat 64 (w k)), s))) ∧
  (∀ (s u : State) (n : BitVec 3) (slots : Slots) (k : Nat),
    checkClasp s s.cur (me s).pc.toNat n slots = (.badConvoy k, u) → (hartOf u s.cur).queue = [] →
    exec (.clasp n slots) s = .next (takeTrap u s.cur
      (scalarTrap (hartOf u s.cur) 2 (BitVec.ofNat 64 ((bitsOf (.clasp n slots)).toNat + k * 2 ^ 32))))) ∧
  ∀ (s u : State) (n : BitVec 3) (slots : Slots) (a : Nat) (w : Word),
    checkClasp s s.cur (me s).pc.toNat n slots = (.illegal a w, u) → (hartOf u s.cur).queue = [] →
    exec (.clasp n slots) s = .next (takeTrap u s.cur
      { scalarTrap (hartOf u s.cur) 1 w with epc := BitVec.ofNat 64 a, resume := BitVec.ofNat 64 a })

/-- R209, R230 to R232: wbr skips its arm when no code below vl exceeds wthr and selects the weight otherwise; wsel selects;
wloop posts its entry once and decides when the queue is empty. -/
def Obligations.ArmsAndLoops : Prop :=
  (∀ (s : State) (w : WReg) (off : BitVec 22) (rm : Rm), (me s).queue = [] → weightReadable (me s) w →
    exec (.wbr w off rm) s = .next (withMe s
      (if (me s).csr.wthr.toNat < largestCode (me s) w then withArm (committedHart (me s) ((me s).pc + 8)) w
       else committedHart (me s) ((me s).pc + BitVec.ofInt 64 (2 * off.toInt))))) ∧
  (∀ (s : State) (w : WReg) (off : BitVec 22) (rm : Rm), (me s).queue = [] → ¬ weightReadable (me s) w →
    exec (.wbr w off rm) s = .next (takeTrap s s.cur (scalarTrap (me s) 1 (bitsOf (.wbr w off rm))))) ∧
  (∀ (s : State) (w : WReg) (rm : Rm),
    exec (.wsel w rm) s = .next (withMe s (withArm (committedHart (me s) ((me s).pc + 8)) w))) ∧
  (∀ (s : State) (wd wa : WReg) (off : BitVec 22) (rm : Rm), (me s).queue = [] → (me s).wloopPending = true →
    exec (.wloop wd wa off rm) s = .next (withMe s
      { committedHart (me s) (if (me s).csr.wthr.toNat < largestCode (me s) wd then (me s).pc + BitVec.ofInt 64 (2 * off.toInt)
          else (me s).pc + 8) with wloopPending := false, run := .running })) ∧
  (∀ (s : State) (wd wa : WReg) (off : BitVec 22) (rm : Rm), (me s).queue.length < Config.queueDepth →
    (me s).queue.length < (me s).lag → (me s).wloopPending = false →
    exec (.wloop wd wa off rm) s = .next (withMe s
      { me s with queue := (me s).queue ++ [entryFor (me s) (.wloop wd wa off rm) false], wloopPending := true
                  run := .waiting .wloop })) ∧
  (∀ (s u : State) (h : HartId) (wd wa : WReg) (off : BitVec 22) (rm : Rm) (len bits : Nat),
    (hartOf s h).run = .waiting .wloop → (hartOf s h).queue = [] →
    fetch s h = (.instr (.wloop wd wa off rm) len bits, u) →
    exec (.wloopDecide h.val) s = .next (withHart u h
      { committedHart (hartOf u h) (if (hartOf u h).csr.wthr.toNat < largestCode (hartOf u h) wd
          then (hartOf u h).pc + BitVec.ofInt 64 (2 * off.toInt) else (hartOf u h).pc + 8) with
        wloopPending := false, run := .running }))

/-- R371 to R374, R376, R416, R417, R420: a token or expert instruction that may not run traps at its PC and changes
nothing else; xbind and xwake also when their pin would be the farm's 257th key. -/
def Obligations.TokenAndExpertTraps : Prop :=
  ∀ (s : State), (me s).queue = [] →
    let trap (cause : Nat) (value : Word) : Host.Outcome State Fault Refusal :=
      .next (takeTrap s s.cur (scalarTrap (me s) cause value))
    (∀ ra v, ¬ tokens32 (me s) v → exec (.xpark ra v) s = trap 1 (bitsOf (.xpark ra v))) ∧
    (∀ rd v, ¬ tokens32 (me s) v → exec (.xwake rd v) s = trap 1 (bitsOf (.xwake rd v)) ∧
      exec (.xwakeW rd v) s = trap 1 (bitsOf (.xwakeW rd v))) ∧
    (∀ v ra rb, ¬ tokens32 (me s) v ∨ sendOk (readX (me s) ra) = false →
      exec (.xsend v ra rb) s = trap 1 (bitsOf (.xsend v ra rb))) ∧
    (∀ rd v, ¬ tokens64 (me s) v → exec (.xrecv rd v) s = trap 1 (bitsOf (.xrecv rd v))) ∧
    (∀ ra v, tokens32 (me s) v → ticketEntry s (me s).ctxid (readX (me s) ra) = none →
      exec (.xpark ra v) s = trap 13 (readX (me s) ra)) ∧
    (∀ rd ra, earlyService s = true ∨ ertFind s (me s).ctxid ((readX (me s) ra).setWidth 32) = none →
      exec (.xbind rd ra) s = trap 13 (BitVec.ofNat 64 ((readX (me s) ra).toNat % 2 ^ 32))) ∧
    (∀ ra f, farmOf s (me s).farmid = some f → tget 0 f.pins ((readX (me s) ra).toNat % 2 ^ 32) = 0 →
      exec (.xunpin ra) s = trap 13 (BitVec.ofNat 64 ((readX (me s) ra).toNat % 2 ^ 32))) ∧
    (∀ ra rb, (me s).priv = true → 8192 ≤ (readX (me s) ra).toNat →
      exec (.ertw ra rb) s = trap 1 (bitsOf (.ertw ra rb))) ∧
    ∀ f, farmOf s (me s).farmid = some f → 256 ≤ f.pins.length →
      (∀ rd ra i e, earlyService s = false → ertFind s (me s).ctxid ((readX (me s) ra).setWidth 32) = some (i, e) →
        e.state = .resident → tget 0 f.pins ((readX (me s) ra).toNat % 2 ^ 32) = 0 →
        exec (.xbind rd ra) s = trap 1 (bitsOf (.xbind rd ra))) ∧
      ∀ rd v ticket e, tokens32 (me s) v → readyFor s (me s).ctxid (me s).farmid = some ticket →
        ertAt s (ticketIndex ticket) = some e → tget 0 f.pins e.key.toNat = 0 →
        exec (.xwake rd v) s = trap 1 (bitsOf (.xwake rd v)) ∧ exec (.xwakeW rd v) s = trap 1 (bitsOf (.xwakeW rd v)) ∧
        ((me s).run = .waiting (.xwakeW rd v) →
          exec (.xwakeWWake s.cur.val) s = trap 1 (bitsOf (.xwakeW rd v)))

/-- R42, R43, R48, R165, R356: an instruction that must wait for entries of the queue has them run first, in order, and is then
executed on what they leave; when an older entry traps, that trap is taken in its place. What an entry may access, and which
entries each instruction waits for beyond those cases, is log 20's choice. -/
def Obligations.OlderEntriesFirst : Prop :=
  ∀ (i : Instr) (s t : State) (ok : Bool), mustWait s i = true →
    runWhile s.cur (waits s.cur (me s) i) (me s).queue.length s = (ok, t) →
    (ok = false → exec i s = .next t) ∧
    (ok = true → t.cur = s.cur → mustWait t i = false → (me t).csr.xlast = (me s).csr.xlast →
      (me t).priv = (me s).priv → exec i s = exec i t)

/-- R40, R41, R430: a vector-side instruction is posted with its configuration captured, and the scalar core goes on; with 128
entries in the queue it waits, and goes on once its oldest entry has completed. The oldest entry of a placed hart that nothing has
stopped completes, whatever the hart waits for. -/
def Obligations.Posting : Prop :=
  (∀ (i : Instr) (s : State), queued i = true → pendingX (me s) (postRegs i) = false →
    (128 ≤ (me s).queue.length → exec i s = .next (withMe s { me s with run := .waiting .queueFull })) ∧
    ((me s).queue.length < 128 → (me s).queue.length < (me s).lag → exec i s = .next (withMe s (posted (me s) i)))) ∧
  ∀ (s t : State) (h : HartId) (ok : Bool), runFront s h = (ok, t) →
    let moves := (hartOf s h).run ≠ .free ∧ (hartOf s h).run ≠ .stopped ∧ ((hartOf s h).pendingTrap = none ∨ (hartOf s h).priv = true)
    (¬ moves → exec (.dispatchQueueResume h.val) s = .next s) ∧
    (moves → exec (.dispatchQueueResume h.val) s = .next
      (if (hartOf t h).run = .waiting .queueFull then withHart t h { hartOf t h with run := .running } else t))

/-- R189 to R198, R128, R129, R138, R216, R229, R233, R234: the instructions that work element by element: those of unit VA, and
the weight instructions that write a vector tile. Every active element from the start on gets its result; every other element
keeps its value, the tail is kept or written with ones, flags are raised, and nothing else changes. An integer division by zero
at the first element performed, under vctl.dz, traps with cause 8. That the entry runs at once is log 7's choice, that vsel and vmv
move the bits of a pw16 code log 33's, that the operand which wblend does not take sets no flag log 48's, and the tails of rows below
a written vstart and imm10 on narrow types are those of logs 49 and 48. -/
def Obligations.VectorElements : Prop :=
  (∀ (i : Instr) (s : State) (w : Writes), elementForms (me s) i = some (true, w) → runsAtOnce s → plainType s →
    (me s).csr.vl.toNat ≤ vlmax (me s).csr.vtype → ∃ t, exec i s = .next t ∧ Written s t w) ∧
  ∀ (i : Instr) (s : State) (a : VBin) (r j : Nat), i = .vdiv a ∨ i = .vrem a → runsAtOnce s → plainType s →
    vtEt (me s).csr.vtype < 8 → dzOf (me s) = true → (binaryForm (me s) a fun _ _ => (0, 0)).1 = true →
    r < (me s).csr.vrc.toNat → j < (me s).csr.vl.toNat → (me s).csr.vstart.toNat = r * (me s).csr.vl.toNat + j →
    activeAt (me s) a.ws j = true → sourceElem (me s) a.b r j = 0 → undampened (me s) a.ws j 8 →
    let u := issued s i
    let hd := { me u with csr := { (me u).csr with vflags := raiseFlags (me s).csr.vflags flagDZ } }
    exec i s = .next (trapAt s (withMe u hd) i (faultAt (me s).csr.vstart.toNat 8 1 none))

/-- R199 to R207, R153, R197: the cross-lane instructions that write vector registers, and vquant. Each reads its sources whole
and writes the elements from the start on; nothing else changes. A reduction to a scalar register writes its result, extended by
the sign of a signed type, and names the register in xlast. Log 7 says that the entry runs at once, log 33 that element 0 of vscan
passes as it is, without rounding, NaN conversion or flag, and log 49 what the tails, scales and flags below a written vstart are. -/
def Obligations.CrossLaneElements : Prop :=
  (∀ (i : Instr) (s : State) (w : Writes), crossForms (me s) i = some (true, w) → runsAtOnce s → plainType s →
    (me s).csr.vl.toNat ≤ vlmax (me s).csr.vtype → (me s).csr.vl.toNat % vlGrain (me s).csr.vtype = 0 →
    ∃ t, exec i s = .next t ∧ Written s t w) ∧
  ∀ (i : Instr) (s : State) (a : VRed) (op : Fold) (tree : Bool) (types : Nat → Bool) (xd : XReg),
    reduction i = some (a, op, tree, types) → a.dst = .x xd → runsAtOnce s → plainType s →
    (me s).csr.vl.toNat ≤ vlmax (me s).csr.vtype → types (vtEt (me s).csr.vtype) = true → governs (me s) a.ws →
    heads a.va (vtGrp (me s).csr.vtype) 1 → heads a.vb (vtGrp (me s).csr.vtype) 1 →
    let runs := (me s).csr.vstart.toNat < max (me s).csr.vl.toNat 1
    let r := reduced (me s) a op tree
    let v : Word := if etSigned (vtEt (me s).csr.vtype) then BitVec.ofInt 64 (toSigned (etWidth (vtEt (me s).csr.vtype)) r.1)
      else BitVec.ofNat 64 r.1
    ∃ t, exec i s = .next t ∧ t.mem = sameMem s ∧
      WrittenIn s s t { me s with
        x := if xd = 0 ∨ ¬ runs then (me s).x else (me s).x.set xd v
        csr := { (me s).csr with xlast := if xd = 0 then (me s).csr.xlast else BitVec.ofNat 64 xd.val } }
        [noRows (if runs then r.2 else 0)]

/-- R220, R302 to R309, R315: the loads of unit VM. The elements of the destination get the bytes at the addresses that the rules
give, read as the hart sees memory; memory is unchanged, and vgl replaces the hart's link set by the lines of the elements that
it loaded. A unit beyond the first that meets a fault, or a page that must not be read ahead, ends the load and trims vl to its
first element (R307, R308); a fault of the first unit traps there. Log 7 says that the entry runs at once, log 19 that its reads
are one step but for words that the hart has read ahead, which vgl does not take, and log 49 that a frame in which it starts is
loaded whole. -/
def Obligations.VectorLoads : Prop :=
  ∀ (i : Instr) (s : State) (F : LoadForm), loadForms (me s) i = some (true, F) → runsAtOnce s → plainType s →
    (me s).csr.vl.toNat ≤ vlmax (me s).csr.vtype → (me s).csr.vl.toNat % vlGrain (me s).csr.vtype = 0 →
    (∀ ps u, Passes (checkLoad s F) ps (· = s.mem) F.units s u → (∀ k ∈ F.units.tail, ∀ p ∈ ps k, p.nospec = false) →
      ∃ t, exec i s = .next t ∧ WrittenIn s u t (me u) [F.writes (loadValue s F ps) (me s).csr.vl.toNat] ∧
        t.mem = { sameMem s with links := t.mem.links, early := t.mem.early } ∧
        (F.linked = false → t.mem.links = s.mem.links ∧ t.mem.early = s.mem.early) ∧
        (F.linked = true → t.mem.early = (begun s.mem s.cur fun k => F.units.any fun u => (ps u).any (wordsOf · k)).early) ∧
        (F.linked = true → F.units.length ≤ 256 → tableWf [] s.mem.links = true → ∀ h k, linked t.mem h k =
          if h = s.cur then F.units.any fun u => ((ps u).take 1).any fun p => lineOf p.key == lineOf k
          else linked s.mem h k)) ∧
    (∀ ps us k rest v, F.units = us ++ k :: rest → us ≠ [] → Passes (checkLoad s F) ps (· = s.mem) us s v →
      (∀ j ∈ us.tail, ∀ p ∈ ps j, p.nospec = false) →
      (∃ f, (checkLoad s F v k).1 = .error f) ∨ (∃ qs, (checkLoad s F v k).1 = .ok qs ∧ ∃ q ∈ qs, q.nospec = true ∧
        q.page ∉ pagesOf v s.cur (F.addr (us.headD 0)) F.len) →
      ∃ t, exec i s = .next t ∧
        WrittenIn s v t { me v with csr := { (me v).csr with vl := BitVec.ofNat 64 k } } [F.writes (loadValue s F ps) k] ∧
        t.mem = { sameMem s with links := t.mem.links, early := t.mem.early } ∧
        (F.linked = false → t.mem.links = s.mem.links ∧ t.mem.early = s.mem.early)) ∧
    ∀ k j f u, F.units.head? = some k → (me s).csr.vstart.toNat < k + unitElems (vtEt (me s).csr.vtype) (vtBl (me s).csr.vtype) →
      k ≤ (me s).csr.vstart.toNat → ((List.range (me s).csr.vl.toNat).find? fun j =>
        started (me s) j && ∃ ws ∈ vmemWeight i, activeAt (me s) ws j) = some j →
      (∀ ws, vmemWeight i = some ws → undampened (me s) ws j f.cause) →
      checkLoad s F (if F.linked then { issued s i with mem := dropLinks (issued s i).mem s.cur } else issued s i) k = (.error f, u) →
      exec i s = .next (trapAt s u i (faultAt k f.cause (BitVec.ofNat 64 f.value) f.bank))

/-- R221 to R223, R272 to R275, R302 to R314: the stores of unit VM. The hart itself reads at once, at the addresses that the
rules give, the bytes of its elements, each over those of lower elements; every other byte reads as before, and until they are
performed no other agent sees units written whole. A blended element is its blend with what stood there. vst.pair writes its tile
row by row at xs and transposed at xt, and raises its counter word by one for every reader after the data has been performed at
package scope. A fault of the first unit traps there. Log 7 says that the entry runs at once, log 19 how its writes wait and words
are read ahead, log 48 what a blend at weight 1.0 stores, and log 49 that a frame in which it starts is stored whole. -/
def Obligations.VectorStores : Prop :=
  (∀ (i : Instr) (s : State) (addr : Nat → Int) (F : StoreForm), storeForms (me s) i = some (true, addr, F) → runsAtOnce s →
    plainType s → (me s).csr.vl.toNat ≤ vlmax (me s).csr.vtype → (me s).csr.vl.toNat % vlGrain (me s).csr.vtype = 0 →
    let chk (v : State) (k : Nat) := check v s.cur (if F.blend then .blend else .store) (addr k) F.len
    (∀ ps u, let keys (k : Nat) := keysOf (ps k)
      Passes chk ps (differsAt s fun k => ∃ j ∈ F.units, k ∈ keys j) F.units s u →
      F.alone = false ∨ unitsApart keys F.units → F.whole = true ∨ (s.mem.flight = [] ∧ Memory.wf s.mem = true) →
      let data (k : Nat) := F.data k (unitValue s ps k)
      let cells := unitCells keys (fun k => (data k).1) F.units
      ∃ t, exec i s = .next t ∧ WrittenIn s u t (me u) [noRows (flagsOf (F.units.map fun k => (data k).2))] ∧
        t.mem = { sameMem s with
          cells := t.mem.cells, flight := t.mem.flight, early := t.mem.early, nextId := t.mem.nextId, links := t.mem.links
          poison := t.mem.poison, healing := t.mem.healing } ∧
        (∀ k, readByte t.mem (own s k) k = overlay cells k (readByte s.mem (own s k) k)) ∧
        (F.whole = true ∨ (∀ e ∈ s.mem.early, e.hart ≠ s.cur) → ∀ k, seen s t.mem k = overlay cells k (seen s s.mem k)) ∧
        (F.whole = true → t.mem.links = s.mem.links ∧ t.mem.poison = s.mem.poison ∧
          ∀ r k, r ≠ own s k → readByte t.mem r k = readByte s.mem r k)) ∧
    ∀ k j f u, F.units.head? = some k → (me s).csr.vstart.toNat < k + unitElems (vtEt (me s).csr.vtype) (vtBl (me s).csr.vtype) →
      k ≤ (me s).csr.vstart.toNat → ((List.range (me s).csr.vl.toNat).find? fun j =>
        started (me s) j && ∃ ws ∈ vmemWeight i, activeAt (me s) ws j) = some j →
      (∀ ws, vmemWeight i = some ws → undampened (me s) ws j f.cause) → chk (issued s i) k = (.error f, u) →
      exec i s = .next (trapAt s u i (faultAt k f.cause (BitVec.ofNat 64 f.value) f.bank))) ∧
  ∀ (s : State) (a : VPairArgs), runsAtOnce s → plainType s → (me s).csr.vl.toNat ≤ vlmax (me s).csr.vtype →
    (me s).csr.vstart = 0 → pairFits (me s) a = true →
    let units := pairUnits (me s) (pairCount (me s))
    let steps := if a.xc = 0 then units.map .unit else .counter :: units.map .unit ++ [.raise]
    ∀ ps u, let keys (k : PairUnit) := keysOf (ps (.unit k))
      let word := ((ps .raise).map (·.key)).headD 0
      let inWord (k : Nat) : Prop := a.xc ≠ 0 ∧ word ≤ k ∧ k < word + 8
      (a.xc ≠ 0 → s.mem.flight = [] ∧ Memory.wf s.mem = true ∧ (readX (me s) a.xc).toNat % 8 = 0 ∧ ∀ j ∈ units, ∀ k ∈ keys j, ¬ inWord k) →
      Passes (checkPair s a) ps (differsAt s fun k => inWord k ∨ ∃ j ∈ units, k ∈ keys j) steps s u →
      let cells := units.flatMap fun j => (keys j).zip (wholeBytes (pairBits (me s) a j).1)
      ∃ t, exec (.vstPair a) s = .next t ∧
        WrittenIn s u t (me u) [noRows (flagsOf (units.map fun j => (pairBits (me s) a j).2))] ∧
        t.mem = { sameMem s with
          cells := t.mem.cells, flight := t.mem.flight, early := t.mem.early, nextId := t.mem.nextId, links := t.mem.links
          poison := t.mem.poison, healing := t.mem.healing } ∧
        (∀ k, ¬ inWord k → readByte t.mem (own s k) k = overlay cells k (readByte s.mem (own s k) k) ∧
          seen s t.mem k = overlay cells k (seen s s.mem k)) ∧
        (∀ k, inWord k → seen s t.mem k = readByte t.mem .host k) ∧
        (a.xc = 0 → ∀ r k, r ≠ own s k → readByte t.mem r k = readByte s.mem r k) ∧
        (a.xc ≠ 0 → (∀ k, ¬ inWord k → readByte t.mem .package k = overlay cells k (readByte s.mem .package k)) ∧
          ∀ r, leValue (readBytes t.mem r word 8) = (leValue (readBytes s.mem .host word 8) + 1) % 2 ^ 64)

/-- R315 to R323, R272: the other memory instructions of unit VM. vamo returns the old elements and writes the new ones, and vsc
writes the elements whose lines are still linked and says in wd which, both for every reader at once; vsc ends with the link set
broken. vsred issues its elements. vcopy writes the bytes of its source to its destination on path C, and its counter word is
still to be raised. All other memory reads as before. Log 7 says that the entry runs at once, log 19 that an atomic is performed at
every scope, a copy waits and words are read ahead, and log 34 which elements vsc takes to be earlier: those that it performs, from
vstart on. -/
def Obligations.VectorUpdates : Prop :=
  (∀ (s : State) (a : VAmoArgs) (ps : Nat → List Piece) (u : State), runsAtOnce s → plainType s →
    (me s).csr.vl.toNat ≤ vlmax (me s).csr.vtype → atomicType (vtEt (me s).csr.vtype) = true → rowFits (me s) a.vd a.ws = true →
    heads a.va (vtGrp (me s).csr.vtype) 1 → (a.vd = a.va ∨ apart a.vd.val (vtGrp (me s).csr.vtype) a.va.val (vtGrp (me s).csr.vtype)) →
    indexFits (me s) a.vb (some a.vd) = true → s.mem.flight = [] → Memory.wf s.mem = true →
    (releases a.ord = true → ∀ p ∈ s.mem.posted, p.hart ≠ s.cur) →
    let n := etBytes (vtEt (me s).csr.vtype)
    let els := performedOf (me s) a.ws
    let key (j : Nat) := ((ps j).map (·.key)).headD 0
    let old (j : Nat) := leValue (readBytes s.mem .host (key j) n)
    (∀ j ∈ els, (ps j).length = 1) → unitsApart (fun j => keysOf (ps j)) els →
    Passes (fun v j => checkAtomic v s.cur (me s).ctxid (me s).priv ((readX (me s) a.xs).toNat + indexAt (me s) a.vb j) n) ps
      (differsAt s fun k => ∃ j ∈ els, k ∈ keysOf (ps j)) els s u →
    ∃ t, exec (.vamo a) s = .next t ∧ WrittenIn s u t (me u) [rowOf (me s) a.vd a.ws 0 old] ∧
      t.mem = { sameMem s with cells := t.mem.cells, early := t.mem.early, links := t.mem.links } ∧
      let new := wordsAt key n (fun j => amoResult a.op (8 * n) (old j) (rowElem (me s) a.va j)) els
      writtenAt s.mem t.mem new ∧
      (∀ q k, (∀ x, new k = some x → hartByte t.mem s.cur q k = x) ∧
        (acquires a.ord = false → new k = none → hartByte t.mem s.cur q k = hartByte s.mem s.cur q k)) ∧
      (acquires a.ord = true → ∀ e ∈ t.mem.early, e.hart = s.cur → ∀ j ∈ els,
        pathOf s.dev false (8 * e.word) ≠ pathOf s.dev false (key j))) ∧
  (∀ (s : State) (m : VMem) (vb : VReg) (wd : WReg) (ps : Nat → List Piece) (u : State), runsAtOnce s → plainType s →
    (me s).csr.vl.toNat ≤ vlmax (me s).csr.vtype → elementType (vtEt (me s).csr.vtype) = true → rowFits (me s) m.vd m.ws = true →
    indexFits (me s) vb none = true → weights (me s) wd.val → s.mem.flight = [] → Memory.wf s.mem = true → tableWf [] s.mem.links = true →
    let n := etBytes (vtEt (me s).csr.vtype)
    let addr (j : Nat) := addressOf (me s) m.xs m.imm + indexAt (me s) vb j
    let els := (performedOf (me s) m.ws).filter fun j => (performedOf (me s) m.ws).all fun k => !(k < j && addr k == addr j)
    let key (j : Nat) := ((ps j).map (·.key)).headD 0
    let hits := els.filter fun j => linked s.mem s.cur (key j)
    (∀ j ∈ els, (ps j).length = 1 ∧ addr j % n = 0) → unitsApart (fun j => keysOf (ps j)) els →
    Passes (fun v j => check v s.cur .store (addr j) n) ps (differsAt s fun k => ∃ j ∈ els, k ∈ keysOf (ps j)) els s u →
    ∃ t, exec (.vsc m vb wd) s = .next t ∧
      WrittenIn s u t { me u with w := (me t).w, csr := { (me u).csr with vdirtyw := (me t).csr.vdirtyw } } [noRows 0] ∧
      WeightsWritten (me s) (me t) wd (fun j => if started (me s) j then some (if j ∈ hits then 0x8000 else 0) else none)
        (vtTa (me s).csr.vtype && (me s).csr.vstart.toNat < (me s).csr.vl.toNat) ∧
      t.mem = { sameMem s with cells := t.mem.cells, early := t.mem.early, links := t.mem.links } ∧
      (∀ k, linked t.mem s.cur k = false) ∧ writtenAt s.mem t.mem (wordsAt key n (rowElem (me s) m.vd) hits) ∧
      ∀ q k, hartByte t.mem s.cur q k = (wordsAt key n (rowElem (me s) m.vd) hits k).getD (hartByte s.mem s.cur q k)) ∧
  (∀ (s : State) (a : VSredArgs), runsAtOnce s → plainType s → (me s).csr.vl.toNat ≤ vlmax (me s).csr.vtype →
    atomicType (vtEt (me s).csr.vtype) = true ∨ (vtEt (me s).csr.vtype = 10 ∧ a.op ≠ .and ∧ a.op ≠ .or) →
    rowFits (me s) a.va a.ws = true → indexFits (me s) a.vb none = true →
    let els := performedOf (me s) a.ws
    let record : Posted :=
      { tag := s.mem.nextTag, hart := s.cur, farm := (me s).farmid, ctx := (me s).ctxid, priv := (me s).priv, pc := (me s).pc
        op := a.op, et := vtEt (me s).csr.vtype, scope := a.sc, ftz := ftzOf (me s), failed := none
        elems := els.map fun j => ⟨j, (readX (me s) a.xs).toNat + indexAt (me s) a.vb j, BitVec.ofNat 64 (rowElem (me s) a.va j)⟩ }
    ∃ t, exec (.vsred a) s = .next t ∧ WrittenIn s s t (me s) [noRows 0] ∧
      t.mem = { sameMem s with posted := s.mem.posted ++ if els = [] then [] else [record] }) ∧
  ∀ (s : State) (a : VCopyArgs) (ps : CopyStep → List Piece) (u : State), runsAtOnce s → earlyService s = false →
    ungoverned (me s) a.ws → (readX (me s) a.xn).toNat < 2 ^ 32 →
    ((readX (me s) a.xn).toNat = 0 ∨ apart (readX (me s) a.xs).toNat (readX (me s) a.xn).toNat (readX (me s) a.xt).toNat (readX (me s) a.xn).toNat) →
    let runs := copyStarts (me s) a
    let steps := (if a.xc = 0 then [] else [CopyStep.counter]) ++ runs.flatMap fun b => [.source b, .dest b]
    let keys (b : Nat) := keysOf (ps (.dest b))
    (a.xc ≠ 0 → (readX (me s) a.xc).toNat % 8 = 0) → (∀ b ∈ runs, ∀ c ∈ runs, ∀ k ∈ keys b, k ∉ keysOf (ps (.source c))) →
    Passes (checkCopy s a) ps (differsAt s fun _ => False) steps s u →
    let cells := unitCells keys (fun b => wholeBytes (loadPieces s s.cur true (ps (.source b)))) runs
    ∃ t, exec (.vcopy a) s = .next t ∧ WrittenIn s u t (me u) [noRows 0] ∧
      t.mem = { sameMem s with
        flight := t.mem.flight, early := t.mem.early, nextId := t.mem.nextId
        counters := s.mem.counters ++ if a.xc = 0 then [] else
          [⟨s.cur, s.mem.nextTag, ((ps .counter).map (·.key)).headD 0, a.sc⟩] } ∧
      (∀ k, readByte t.mem (.hart s.cur .C) k = overlay cells k (readByte s.mem (.hart s.cur .C) k)) ∧
      (∀ r k, r ≠ .hart s.cur .C → readByte t.mem r k = readByte s.mem r k) ∧
      ∀ q k, hartByte t.mem s.cur q k = if q = .C then overlay cells k (hartByte s.mem s.cur .C k) else hartByte s.mem s.cur q k

/-- R324 to R340: unit VS. A local load puts the stage or bead bytes of its units into its elements, zeros for a unit out of
range, and a local store puts its elements there and nowhere else; samo updates elements in place; scopy and scopy.x move rows
between stage memory and device memory; the Facet instructions add to, look up, drain and clear the Facet store. Everything else
is as it was. Log 7 says that the entry runs at once, log 48 what a blend at weight 1.0 keeps, log 49 that a frame in which a load
or store starts moves whole, and log 19 that a copy waits and words are read ahead. -/
def Obligations.LocalMemory : Prop :=
  (∀ (i : Instr) (s : State) (store : Bool) (vd : VReg) (ws : WReg) (place : Nat → Option (List Nat)),
    localForms (me s) i = some (true, store, vd, ws, place) → runsAtOnce s → plainType s →
    (me s).csr.vl.toNat ≤ vlmax (me s).csr.vtype → (me s).csr.vl.toNat % vlGrain (me s).csr.vtype = 0 →
    (store = false →
      let L := rowLoad (me s) vd ws fun _ => 0
      ∃ t, exec i s = .next t ∧ Written s t { L.writes (fun u => stageValue (me s) (place u)) (me s).csr.vl.toNat with
        flags := oorIf (L.units.any fun u => (place u).isNone) }) ∧
    (store = true → tableWf 0 (me s).stage = true →
      let F := rowStore (me s) vd ws 0 false
      let data (u : Nat) := F.data u (stageValue (me s) (place u))
      let units := F.units.filter fun u => (place u).isSome
      (F.blend = false ∨ unitsApart (fun u => (place u).getD []) units) →
      ∃ t, exec i s = .next t ∧ t.mem = sameMem s ∧ WrittenIn s s t (withStage (me s) (me t))
          [noRows (flagsOf (oorIf (F.units.any fun u => (place u).isNone) :: units.map fun u => (data u).2))] ∧
        ∀ k, tget 0 (me t).stage k = overlay (unitCells (fun u => (place u).getD []) (fun u => (data u).1) units) k (tget 0 (me s).stage k))) ∧
  (∀ (s : State) (a : SamoArgs), runsAtOnce s → plainType s → (me s).csr.vl.toNat ≤ vlmax (me s).csr.vtype →
    atomicType (vtEt (me s).csr.vtype) = true → rowFits (me s) a.vd a.ws = true → heads a.va (vtGrp (me s).csr.vtype) 1 →
    apart a.vd.val (vtGrp (me s).csr.vtype) a.va.val (vtGrp (me s).csr.vtype) → indexFits (me s) a.vb (some a.vd) = true →
    tableWf 0 (me s).stage = true →
    let n := etBytes (vtEt (me s).csr.vtype)
    let els := performedOf (me s) a.ws
    let addr (j : Nat) : Int := (readX (me s) a.xs).toNat + 8 * indexAt (me s) a.vb j
    let hits := els.filter fun j => (stagePlace (addr j) n).isSome
    let old (j : Nat) := stageValue (me s) (stagePlace (addr j) n)
    (∀ j ∈ hits, addr j % n = 0) → unitsApart (fun j => (stagePlace (addr j) n).getD []) hits →
    ∃ t, exec (.samo a) s = .next t ∧ t.mem = sameMem s ∧
      WrittenIn s s t (withStage (me s) (me t)) [rowOf (me s) a.vd a.ws (oorIf (els.any fun j => (stagePlace (addr j) n).isNone)) old] ∧
      ∀ k, tget 0 (me t).stage k = ((wordsAt (fun j => (addr j).toNat) n
        (fun j => amoResult a.op (8 * n) (old j) (rowElem (me s) a.va j)) hits) k).getD (tget 0 (me s).stage k)) ∧
  (∀ (i : Instr) (s : State) (a : ScopyArgs) (index : Option VReg) (ps : Nat → List Piece) (u : State),
    (i = .scopy a ∧ index = none) ∨ (∃ vb, i = .scopyX a vb ∧ index = some vb ∧ (rowFields (me s) a).1 ≤ 288) → runsAtOnce s →
    earlyService s = false → ungoverned (me s) a.ws → (a.swz = true → (rowFields (me s) a).2.1 % 64 = 0) →
    tableWf 0 (me s).stage = true →
    let n := (rowFields (me s) a).2.1
    let rows := (List.range (rowFields (me s) a).1).filter (started (me s))
    let fits := rows.filter fun r => (rowPlace (me s) a r).isSome
    let moved := fits.filter fun r => (rowAddress (me s) a index r).isSome && n != 0
    let flags := oorIf (rows.any fun r => (rowPlace (me s) a r).isNone || (rowAddress (me s) a index r).isNone)
    let place (r : Nat) := (rowPlace (me s) a r).getD []
    Passes (fun v r => check v s.cur (if a.out then .store else .copy) ((rowAddress (me s) a index r).getD 0) n) ps
      (differsAt s fun _ => False) moved s u →
    ∃ t, exec i s = .next t ∧
      (a.out = false → t.mem = sameMem s ∧ WrittenIn s u t (withStage (me u) (me t)) [noRows flags] ∧
        ∀ k, tget 0 (me t).stage k = overlay (unitCells place (fun r => wholeBytes (if r ∈ moved then
          loadPieces s s.cur true (ps r) else List.replicate n 0)) fits) k (tget 0 (me s).stage k)) ∧
      (a.out = true → WrittenIn s u t (me u) [noRows flags] ∧
        t.mem = { sameMem s with flight := t.mem.flight, early := t.mem.early, nextId := t.mem.nextId } ∧
        let cells := unitCells (fun r => keysOf (ps r)) (fun r => wholeBytes ((place r).map fun p => tget 0 (me s).stage p)) moved
        (∀ k, readByte t.mem (.hart s.cur .C) k = overlay cells k (readByte s.mem (.hart s.cur .C) k)) ∧
        (∀ r k, r ≠ .hart s.cur .C → readByte t.mem r k = readByte s.mem r k) ∧
        ∀ q k, hartByte t.mem s.cur q k =
          if q = .C then overlay cells k (hartByte s.mem s.cur .C k) else hartByte s.mem s.cur q k)) ∧
  ∀ (s : State), runsAtOnce s → earlyService s = false →
    (∀ (ws : WReg) (rm : Rm), ungoverned (me s) ws → ∃ t, exec (.fcclr ws rm) s = .next t ∧ t.mem = sameMem s ∧
      WrittenIn s s t { me s with facet := [] } [noRows 0]) ∧
    (plainType s → (me s).csr.vl.toNat ≤ vlmax (me s).csr.vtype → facetType (vtEt (me s).csr.vtype) = true →
      (∀ (i : Instr) (a : VVSrc), i = .fcins a ∨ (∃ op, i = .fcacc a op) → rowFits (me s) a.va a.ws = true →
        heads a.vb (vtGrp (me s).csr.vtype) 1 →
        let after := (performedOf (me s) a.ws).foldl (fun t j =>
          facetWith t (rowElem (me s) a.va j) (rowElem (me s) a.vb j) (facetUpdate (me s) i (rowElem (me s) a.vb j))) ((me s).facet, 0)
        ∃ t, exec i s = .next t ∧ t.mem = sameMem s ∧ WrittenIn s s t { me s with facet := after.1 } [noRows after.2]) ∧
      (∀ a : FcLookArgs, rowFits (me s) a.vd a.ws = true → heads a.va (vtGrp (me s).csr.vtype) 1 →
        apart a.vd.val (vtGrp (me s).csr.vtype) a.va.val (vtGrp (me s).csr.vtype) → weights (me s) a.wd.val →
        let found (j : Nat) := tget none (me s).facet (rowElem (me s) a.va j)
        ∃ t, exec (.fclook a) s = .next t ∧ t.mem = sameMem s ∧
          WrittenIn s s t { me s with w := (me t).w, csr := { (me s).csr with vdirtyw := (me t).csr.vdirtyw } }
            [rowOf (me s) a.vd a.ws 0 fun j => ((found j).getD 0).toNat] ∧
          WeightsWritten (me s) (me t) a.wd
            (fun j => if started (me s) j then some (if activeAt (me s) a.ws j && (found j).isSome then 0x8000 else 0) else none)
            (vtTa (me s).csr.vtype && (me s).csr.vstart.toNat < (me s).csr.vl.toNat)) ∧
      ∀ a : VUn, ungoverned (me s) a.ws → heads a.vd (vtGrp (me s).csr.vtype) 1 → heads a.va (vtGrp (me s).csr.vtype) 1 →
        apart a.vd.val (vtGrp (me s).csr.vtype) a.va.val (vtGrp (me s).csr.vtype) →
        let entry (j : Nat) := (me s).facet[j - (me s).csr.vstart.toNat]?
        ∃ t, exec (.fcdrain a) s = .next t ∧ t.mem = sameMem s ∧
          WrittenIn s s t { me s with facet := (me s).facet.drop ((me s).csr.vl.toNat - (me s).csr.vstart.toNat) }
            [rowOf (me s) a.vd 0 0 fun j => (entry j).elim 0xFFFFFFFF (·.1),
             rowOf (me s) a.va 0 0 fun j => (entry j).elim 0 fun p => (p.2.getD 0).toNat])

/-- R243 to R261, R150 to R152: unit MX. The products add the exact terms of each element of C, in the order and with the
roundings that the rules give, dense, sparse or grouped, from registers or the operand latch; a group of a sparse mask that does
not hold msp positions traps. mlatch fills the latch from device memory and mlatch.stage from stage memory, and both are kept for
replay; mregrow swaps one live position of a group for a greater shadow, every position keeping its value. Log 7 says that the
entry runs at once, log 32 that mlatch with vl = 0 fills the latch with zeros where R185 keeps it, log 33 what a NaN accumulator
gives, and log 48 what an infinite accumulator, a group with a NaN and a sum that goes on from one keep. -/
def Obligations.MatrixProducts : Prop :=
  (∀ (i : Instr) (s : State) (w : Writes), productForms (me s) i = some (true, w) → runsAtOnce s → plainType s →
    (me s).csr.vl.toNat ≤ vlmax (me s).csr.vtype → (me s).csr.vl.toNat % vlGrain (me s).csr.vtype = 0 →
    ∃ t, exec i s = .next t ∧ Written s t w) ∧
  (∀ (s : State) (a : Mx4Args) (j g : Nat), runsAtOnce s → plainType s → (me s).csr.vl.toNat ≤ vlmax (me s).csr.vtype →
    productFits (me s) a.ws a.form a.l a.vd a.va a.vb 1 → sparsePair (vtEt (me s).csr.vtype) (vtEt2 (me s).csr.vtype) = true →
    sparseFits (me s) → a.vd ≠ a.vc → (me s).csr.vstart = 0 → j < mshapeCols (me s) → g < (me s).csr.vl.toNat / 24 →
    (groupWhere (me s) a.vc true j g).length ≠ mshapeSparse (me s) →
    (∀ k h, k < mshapeCols (me s) → h < (me s).csr.vl.toNat / 24 → (k < j ∨ (k = j ∧ h < g)) →
      (groupWhere (me s) a.vc true k h).length = mshapeSparse (me s)) →
    exec (.mmulSp a) s = .next (trapAt s (issued s (.mmulSp a)) (.mmulSp a)
      (faultAt 0 9 (BitVec.ofNat 64 (j * 2 ^ 16 + g)) none))) ∧
  (∀ (i : Instr) (s : State) (a : MlatchArgs), i = .mlatch a ∨ i = .mlatchStage a → runsAtOnce s → plainType s →
    ungoverned (me s) a.ws → a.form = 3 → latchLength (me s) ≤ 1152 →
    let n := latchLength (me s)
    let addr := latchAddress (me s) (i == .mlatchStage a) a
    (∀ r ∈ latchRows (me s), addr r % 8 = 0) →
    let row (bytes : Nat → List Byte) (r : Fin 16) : BitVec 9216 :=
      if r.val < (me s).csr.vstart.toNat then (me s).latch[r]
      else if mshapeRows (me s) ≤ r.val then 0 else BitVec.ofNat 9216 (leValue (bytes r.val))
    (∀ ps u, i = .mlatch a → Passes (fun v r => if n = 0 then (.ok [], v) else check v s.cur .load (addr r) n) ps (· = s.mem)
        (latchRows (me s)) s u →
      ∃ t, exec i s = .next t ∧ t.mem = sameMem s ∧
        WrittenIn s u t (latched (me u) (me s) i (row fun r => loadPieces s s.cur false (ps r))) [noRows 0]) ∧
    (i = .mlatchStage a →
      ∃ t, exec i s = .next t ∧ t.mem = sameMem s ∧
        WrittenIn s s t (latched (me s) (me s) i (row fun r => ((stagePlace (addr r) n).getD []).map fun k => tget 0 (me s).stage k))
          [noRows (oorIf ((latchRows (me s)).any fun r => (stagePlace (addr r) n).isNone))])) ∧
  ∀ (s : State) (a : MregrowArgs), runsAtOnce s → plainType s → regrowFits (me s) a = true →
    ∃ t, exec (.mregrow a) s = .next t ∧ t.mem = sameMem s ∧ WrittenIn s s t (me s) (regrowWrites (me s) a)

/-- R210, R214, R224 to R229: the instructions that write a weight group: the compares, the soft compares, the weight arithmetic
and wfromv. Weights vstart to vl - 1 of the destination get their results and set their flags; the others keep their codes unless
the tail is agnostic, and w0 takes nothing. wfromv keeps the bits of n16 and pw16 as they are. That the entry runs at once is log
7's choice. -/
def Obligations.WeightElements : Prop :=
  (∀ (i : Instr) (s : State) (wd : WReg) (f : Nat → Nat × FlagSet), weightForms (me s) i = some (true, wd, f) → runsAtOnce s →
    plainType s → (me s).csr.vl.toNat ≤ vlmax (me s).csr.vtype →
    ∃ t, exec i s = .next t ∧ t.mem = sameMem s ∧
      WrittenIn s s t { me s with w := (me t).w, csr := { (me s).csr with vdirtyw := (me t).csr.vdirtyw } }
        [noRows (flagsOf (((List.range (me s).csr.vl.toNat).filter (started (me s))).map fun j => (f j).2))] ∧
      WeightsWritten (me s) (me t) wd (fun j => if started (me s) j then some (f j).1 else none)
        (vtTa (me s).csr.vtype && (me s).csr.vstart.toNat < (me s).csr.vl.toNat)) ∧
  ∀ (s : State) (wd : WReg) (va : VReg) (rm : Rm) (f : Nat → Nat × FlagSet), weightForms (me s) (.wfromv wd va rm) = some (true, wd, f) →
    runsAtOnce s → plainType s → (me s).csr.vl.toNat ≤ vlmax (me s).csr.vtype → etFloat (vtEt (me s).csr.vtype) = false → wd ≠ 0 →
    ∃ t, exec (.wfromv wd va rm) s = .next t ∧ ∀ j, (me s).csr.vstart.toNat ≤ j → j < (me s).csr.vl.toNat →
      getBits (wregAt (me t).w (wd.val + j / 1152)) (16 * (j % 1152)) 16 = tileElem (me s) va 0 j

/-- R198, R235, R349 to R352: the vector-side instructions whose result is one scalar register or one name. vmv reads an
element, wmaxr and wpop read weights, vst.n fills a free slot of the pool with its register's bytes and returns its name, or
finds the pool empty and then returns 0 or, under vctl.npt, traps; nrel and nrel.v free slots of their context, and trap with
cause 11 at a name that is no slot's and 12 at one that the context does not own, the names before it being relinquished. That
the entry runs at once is log 7's choice, and that vmv, wmaxr and wpop write their result, and the scalar nrel relinquishes its
name, whatever vstart holds is log 49's. -/
def Obligations.ScalarOfVector : Prop :=
  ∀ (s : State), runsAtOnce s → earlyService s = false →
    let vl := (me s).csr.vl.toNat
    let et := vtEt (me s).csr.vtype
    let legal := vtIll (me s).csr.vtype = false
    let s1 := { s with mem := { s.mem with nextTag := s.mem.nextTag + 1 } }
    let answer (u : State) (i : Instr) (xd : XReg) (v : Word) (fl : FlagSet) : State :=
      withMe u { me u with
        pc := (me s).pc + 8, x := if xd = 0 then (me s).x else (me s).x.set xd v
        csr := { (me s).csr with vstart := 0, xlast := if xd = 0 then (me s).csr.xlast else BitVec.ofNat 64 xd.val
                                 vflags := raiseFlags (me s).csr.vflags fl }
        perf := (completed (posted (me s) i)).perf }
    (∀ (xd : XReg) (va : VReg) (idx : BitVec 10) (rm : Rm), legal → etBlock et = false →
      va.val % vtGrp (me s).csr.vtype = 0 → va.val + vtGrp (me s).csr.vtype ≤ 64 → et < 22 →
      let x := groupGet (me s).v va.val (idx.toNat * etWidth et) (etWidth et)
      let i : Instr := .vmv (.toX xd va idx 0 rm)
      exec i s = .next (if idx.toNat < vl then
          answer s1 i xd (if etSigned et then BitVec.ofInt 64 (toSigned (etWidth et) x) else BitVec.ofNat 64 x) 0
        else answer s1 i xd 0 flagOOR)) ∧
    (∀ (xd : XReg) (wa : WReg) (rm : Rm) (n : Nat), legal → etBlock et = false → et < 22 → weightGroup (me s) n → headsWeights wa n →
      exec (.wmaxr xd wa rm) s = .next (answer s1 (.wmaxr xd wa rm) xd (BitVec.ofNat 64 (largestCode (me s) wa)) 0) ∧
      exec (.wpop xd wa rm) s = .next (answer s1 (.wpop xd wa rm) xd (BitVec.ofNat 64
        ((List.range vl).filter fun j => (me s).csr.wthr.toNat % 2 ^ 16 < weightGet (me s).w wa.val j).length) 0)) ∧
    (∀ (xd : XReg) (va : VReg) (rm : Rm), legal → (me s).csr.wctl.toNat % 16 = 0 → et < 22 → Memory.wf s.mem = true →
      va.val % vtGrp (me s).csr.vtype = 0 → va.val + vtGrp (me s).csr.vtype ≤ 64 →
      let len := if etBlock et then vl / vtBl (me s).csr.vtype * frameBytes et (vtBl (me s).csr.vtype) else (vl * etWidth et + 7) / 8
      len ≤ 1024 →
      (∀ slot, chooseSlot s1 (BitVec.ofNat 9 (me s).csr.nhint.toNat) = some slot →
        ∃ t, exec (.vstN xd va 0 rm) s = .next t ∧ (me t).pc = (me s).pc + 8 ∧ (me t).v = (me s).v ∧
          (me t).csr = { (me s).csr with vstart := 0, xlast := if xd = 0 then (me s).csr.xlast else BitVec.ofNat 64 xd.val } ∧
          (∀ r, readX (me t) r = if r = 0 then 0 else if r = xd then nameOf slot else readX (me s) r) ∧
          t.mem.owners = tset 0 s.mem.owners slot (me s).ctxid ∧
          ∀ k, readByte t.mem .host k =
            if poolKey (nameOf slot).toNat ≤ k ∧ k < poolKey (nameOf slot).toNat + 1024 then
              if k - poolKey (nameOf slot).toNat < len then
                BitVec.ofNat 8 (groupGet (me s).v va.val (8 * (k - poolKey (nameOf slot).toNat)) 8)
              else 0
            else readByte s.mem .host k) ∧
      (chooseSlot s1 (BitVec.ofNat 9 (me s).csr.nhint.toNat) = none → bit (me s).csr.vctl 5 = false →
        ∃ t, exec (.vstN xd va 0 rm) s = .next t ∧ (me t).pc = (me s).pc + 8 ∧ (me t).v = (me s).v ∧ t.mem = s1.mem ∧
          (∀ r, readX (me t) r = if r = xd then 0 else readX (me s) r) ∧
          (me t).csr = { (me s).csr with vstart := 0, xlast := if xd = 0 then (me s).csr.xlast else BitVec.ofNat 64 xd.val
                                         vflags := raiseFlags (me s).csr.vflags flagNPOOL }) ∧
      (chooseSlot s1 (BitVec.ofNat 9 (me s).csr.nhint.toNat) = none → bit (me s).csr.vctl 5 = true →
        let i : Instr := .vstN xd va 0 rm
        let u := { issued s i with fresh := s.fresh + 1 }
        exec i s = .next (trapAt s (withMe u { me u with csr := { (me u).csr with
          vflags := raiseFlags (me s).csr.vflags flagNPOOL } }) i (faultAt 0 8 11 none)))) ∧
    ∀ rm : Rm, (me s).csr.wctl.toNat % 16 = 0 →
      (∀ xs : XReg,
        let i : Instr := .nrel xs 0 rm
        let name := readX (me s) xs
        (canRelinquish s [] name.toNat → exec i s = .next (answer (relinquished s s1 [name.toNat]) i 0 0 0)) ∧
        (name ≠ 0 → ¬ wellFormedName s name.toNat → exec i s = .next (trapAt s (issued s i) i (faultAt 0 11 name none))) ∧
        (name ≠ 0 → wellFormedName s name.toNat → ¬ canRelinquish s [] name.toNat →
          exec i s = .next (trapAt s (issued s i) i (faultAt 0 12 name none)))) ∧
      ∀ vb : VReg, legal → et = 3 ∨ et = 7 → heads vb (vtGrp (me s).csr.vtype) 1 → vl ≤ vlmax (me s).csr.vtype →
        let i : Instr := .nrelV vb 0 rm
        let names (n : Nat) := ((List.range n).filter (started (me s))).map (rowElem (me s) vb)
        ((∀ j < vl, started (me s) j = true → canRelinquish s (names j) (rowElem (me s) vb j)) →
          exec i s = .next (answer (relinquished s s1 (names vl)) i 0 0 0)) ∧
        ∀ j < vl, started (me s) j = true → (∀ k < j, started (me s) k = true → canRelinquish s (names k) (rowElem (me s) vb k)) →
          ¬ canRelinquish s (names j) (rowElem (me s) vb j) →
          ∃ c, (wellFormedName s (rowElem (me s) vb j) → c = 12) ∧ (¬ wellFormedName s (rowElem (me s) vb j) → c = 11) ∧
            exec i s = .next (trapAt s (relinquished s (issued s i) (names j)) i
              (faultAt j c (BitVec.ofNat 64 (rowElem (me s) vb j)) none))

/-- R22, R441 to R445, R448, R455, R457: a start from reset up to Filigree's work. With fewer than three starts counted it
counts one, measures and applies the configuration image, and reaches phase 5 in early service; a missing image or a Filigree
that fails its check puts the package back in reset; keys that cannot be formed halt it; and with three starts counted it
enters minimal mode. That the resets of one start are one step, that a patch which fails is left unmeasured, and how a pool
size, an arena size or a clock limit of the image beyond its range is clipped, is log 35's choice. -/
def Obligations.PackageStarts : Prop :=
  ∀ (s : State) (i : StartInputs),
    let n := s.dev.starts.toNat % 2 ^ 8
    let started := inReset s (BitVec.ofNat 64 (n + 1))
    (n < 3 → i.pufOk = false → exec (.packageReset i) s = .next
      { started with stopped := true, dev := { started.dev with boot := bootWord 2 0 false 7 } }) ∧
    (n < 3 → i.pufOk = true → i.image = none ∨ i.filigreeOk = false → exec (.packageReset i) s = .next started) ∧
    (∀ c, n < 3 → i.pufOk = true → i.image = some c → i.filigreeOk = true → exec (.packageReset i) s = .next
      { started with dev := { started.dev with
        boot := bootWord 5 2 (i.stack0Ok && c.hbm.getLsbD 0) (max (if i.patchOk then 0 else 4) (if i.stack0Ok then 0 else 5))
        avail := c.avail, interleave := c.hbm, pkg := c.pkg
        failedStacks := if i.stack0Ok then 0 else 1
        clockMax := Vector.ofFn fun h => BitVec.ofNat 8 (max 47 (((c.clocks.find? fun p => p.1 == h.val).map (·.2.toNat)).getD 94))
        scaleUp := Vector.ofFn fun n => BitVec.ofNat 64 (if c.scaleUpEn.getLsbD n.val then 2 ^ 62 else 0)
        farPorts := Vector.ofFn fun m => BitVec.ofNat 64 (if c.farPortEn.getLsbD m.val then 2 ^ 62 else 0)
        pool := BitVec.ofNat 64 (min c.poolP 4096), arena := BitVec.ofNat 64 (min c.arenaA 65536)
        parts := Vector.ofFn fun h => ((c.parts.find? fun p => p.1 == h.val).map (·.2)).getD 1
        measure := Vector.ofFn fun k =>
          if k = 0 then (if i.patchOk then sm3Extend 0 i.mPatch else 0)
          else if k = 1 then sm3Extend 0 i.mImage
          else if k = 2 then sm3Extend 0 i.mFiligree else 0 } }) ∧
    (3 ≤ n → exec (.packageReset i) s = .next
      { inReset s s.dev.starts with dev := { resetDevice with
        starts := s.dev.starts, boot := bootWord 7 4 i.stack0Ok (if i.stack0Ok then 1 else 5), avail := 0xFFFF, interleave := 1,
        failedStacks := if i.stack0Ok then 0 else 1 } })

/-- R27, R441 to R443, R445, R446, R453: power-on, a reset request and the 60 s limit put the package in reset; power-on alone
clears the start count, and the limit does nothing in full service, minimal mode, a halt or a package already in reset. What
HBM holds then is log 18's choice. In phase 5 a stack of the interleave set that trains goes into service, one that fails
leaves reason 5, and full service ends the start: phase 6, full, no longer early, start count 0, and a decision for every
partition in which a launch waits. In another phase neither does anything. The controller's reads of the sideband change
nothing; that they are accesses of a space of their own, and what bytes answer them, is log 46's choice. -/
def Obligations.ResetAndService : Prop :=
  ∀ s : State,
    exec .powerOn s = .next (inReset s 0) ∧
    exec .i3cResetRequest s = .next (inReset s s.dev.starts) ∧
    (∀ (item : SidebandItem) (off : Nat),
      let bytes : List Byte := match item with
        | .bootStatus => leBytes 8 s.dev.boot.toNat
        | .startCount => leBytes 8 s.dev.starts.toNat
        | .power => leBytes 8 s.dev.telemetry.toNat
        | .temperature => leBytes 2 (Config.temperature s.fresh).toNat
        | .bank b => leBytes 8 s.dev.banks[b].status.toNat
      (∀ n, exec (.hostAccess (.sideband item) off (.read n)) s =
        .next { s with fresh := s.fresh + 1, answer := (bytes.drop off).take n }) ∧
      ∀ op : AgentOp, (∀ n, op ≠ .read n) → exec (.hostAccess (.sideband item) off op) s = .next { s with answer := [] }) ∧
    exec .startTimeout s = .next
      (if s.dev.boot.getLsbD 0 = true ∨ s.dev.boot.getLsbD 2 = true ∨ s.stopped = true ∨ s.dev.boot.toNat / 2 ^ 8 % 2 ^ 8 = 0
       then s else inReset s s.dev.starts) ∧
    (s.dev.boot.toNat / 2 ^ 8 % 2 ^ 8 ≠ 5 →
      (∀ (k : Fin 8) (ok : Bool), exec (.stackTrained k ok) s = .next s) ∧ exec .fullService s = .next s) ∧
    (s.dev.boot.toNat / 2 ^ 8 % 2 ^ 8 = 5 →
      (∀ k : Fin 8,
        let serves := s.dev.interleave.getLsbD k.val = true ∧ s.dev.failedStacks.getLsbD k.val = false
        (∃ b : BitVec 64, exec (.stackTrained k true) s = .next { s with dev := { s.dev with boot := b } } ∧
          (serves → FieldSet s.dev.boot b (24 + k.val) 1 1) ∧ (¬ serves → b = s.dev.boot)) ∧
        ∃ (b : BitVec 64) (f : BitVec 8),
          exec (.stackTrained k false) s = .next { s with dev := { s.dev with boot := b, failedStacks := f } } ∧
          (∀ j < 8, f.getLsbD j = (s.dev.failedStacks.getLsbD j || j == k.val)) ∧
          ∀ j < 64, b.getLsbD j =
            if 32 ≤ j ∧ j < 48 then (max 5 (s.dev.boot.toNat / 2 ^ 32 % 2 ^ 16)).testBit (j - 32)
            else if j = 24 + k.val then false else s.dev.boot.getLsbD j) ∧
      ∃ (b : BitVec 64) (ps : List (BitVec 10)), exec .fullService s = .next
          { s with dev := { s.dev with boot := b, starts := 0 }
                   agenda := s.agenda ++ ps.map fun p : BitVec 10 => .event (.schedulerDecision p.toNat) } ∧
        (∀ p, p ∈ ps ↔ ∃ l ∈ s.sched.launches, l.part = p) ∧ ps.Nodup ∧
        ∀ k < 64, b.getLsbD k =
          if 8 ≤ k ∧ k < 16 then (6 : Nat).testBit (k - 8) else if k = 0 then true else if k = 1 then false
          else s.dev.boot.getLsbD k)

/-- R17, R394, R395, R421 to R423: a corrected error is counted in its bank and reaches no program; a fatal error and a
junction at 110 °C stop the package; a contained error in HBM poisons the package's own lines and the pool slots that it
names. The unit and syndrome of the thermal record are log 51's choice. -/
def Obligations.MachineCheckReports : Prop :=
  ∀ (s : State) (e : ErrorReport),
    exec (.correctedError e) s = .next
      (withBank s e.bank (noted · 1 e.unit.toNat e.code.toNat (e.addr.map (·.toNat)) e.syn false 0)) ∧
    exec (.fatalError e) s = .next
      { withBank s e.bank (noted · 3 e.unit.toNat e.code.toNat (e.addr.map (·.toNat)) e.syn false 0) with stopped := true } ∧
    exec .thermalTrip s = .next { withBank s 58 (noted · 3 0 6 none 0 false 0) with stopped := true } ∧
    ∀ lines slots : List Nat,
      let own (l : Nat) : Prop := (Config.poolBase ≤ 64 * l ∧ 64 * l < Config.poolBase + 2 ^ 36) ∨
        (64 * l / 2 ^ 45 = s.dev.pkg.toNat ∧ 64 * l % 2 ^ 45 < 8 * Config.stackBytes)
      ∃ t poisoned, exec (.hbmContainedError e lines slots) s = .next t ∧
        t = { withBank s e.bank (noted · 2 e.unit.toNat e.code.toNat (e.addr.map (·.toNat)) e.syn poisoned 0) with mem := t.mem } ∧
        (poisoned = true ↔ ∃ l ∈ lines, own l) ∧
        t.mem = { s.mem with poison := t.mem.poison, badSlots := t.mem.badSlots,
                             healing := s.mem.healing.filter fun p => ¬ (p.2 / 64 ∈ lines ∧ own (p.2 / 64)) } ∧
        (∀ l, l ∈ t.mem.poison ↔ l ∈ s.mem.poison ∨ (l ∈ lines ∧ own l)) ∧
        ∀ n, n ∈ t.mem.badSlots ↔ n ∈ s.mem.badSlots ∨ (n ∈ slots ∧ n < 2 ^ 26)

/-- R21, R24, R445, R457: a link that completes training is up with its lanes and peer, its port kind and accepted capacity,
or its width and rate; a failure takes it down, and one in phase 5 of a link that was down leaves reason 6; Filigree's writes
of en take it down, and the host link, which has none, refuses them. The count of trainings, that a write of en = 1 takes the
link down, and how a capacity is clipped, is log 38's choice. -/
def Obligations.LinkSteps : Prop :=
  ∀ (s : State) (i : LinkInfo),
    let trains := filigreeOn s
    (∀ n : Fin 24,
      let v := s.dev.scaleUp[n]
      let again := v.toNat / 2 ^ 58 % 2 ^ 4 ≠ 0
      let count := v.toNat / 2 ^ 40 % 2 ^ 8
      (¬ (trains ∧ v.getLsbD 62 = true) → exec (.linkTrained (.scaleUp n) i) s = .next s) ∧
      (trains → v.getLsbD 62 = true → exec (.linkTrained (.scaleUp n) i) s = .next (withLink s n (BitVec.ofNat 64
        (2 ^ 63 + 2 ^ 62 + min i.lanes.toNat 4 * 2 ^ 58 + i.peer.toNat * 2 ^ 48
          + (if again then min (count + 1) 255 else count) * 2 ^ 40)))) ∧
      ∃ a b c d, exec (.linkFailure (.scaleUp n)) s = .next
          (if v.getLsbD 63 = false ∧ s.dev.boot.toNat / 2 ^ 8 % 2 ^ 8 = 5 then
            { withLink s n a with dev := { (withLink s n a).dev with boot := d } }
           else withLink s n a) ∧ FieldSet v a 63 1 0 ∧
        FieldSet s.dev.boot d 32 16 (max 6 (s.dev.boot.toNat / 2 ^ 32 % 2 ^ 16)) ∧
        exec (.linkDisable (.scaleUp n)) s = .next (asked s .filigree (withLink s n b)) ∧ FieldSet v b 62 2 0 ∧
        exec (.linkRetrain (.scaleUp n)) s = .next (asked s .filigree (withLink s n c)) ∧ FieldSet v c 62 2 1) ∧
    (∀ m : Fin 4,
      let v := s.dev.farPorts[m]
      (¬ (trains ∧ v.getLsbD 62 = true) → exec (.linkTrained (.farPort m) i) s = .next s) ∧
      (trains → v.getLsbD 62 = true → ∃ ports caps, exec (.linkTrained (.farPort m) i) s = .next
          { s with dev := { s.dev with farPorts := ports, farCaps := caps } } ∧
        (s.dev.boot.getLsbD 0 = true → caps = s.dev.farCaps) ∧
        (s.dev.boot.getLsbD 0 = false → ((s.dev.farCaps.set m i.cap).toList.sum ≤ 2 ^ 24 → caps = s.dev.farCaps.set m i.cap) ∧
          caps.toList.sum ≤ 2 ^ 24 ∧ ∀ k : Fin 4, caps[k] ≤ (s.dev.farCaps.set m i.cap)[k]) ∧
        ∀ k : Fin 4, ∀ j < 64, ports[k].getLsbD j =
          if j < 32 then caps[k].testBit j
          else if k = m ∧ 52 ≤ j ∧ j < 56 then i.kind.toNat.testBit (j - 52)
          else if k = m ∧ j = 63 then true else s.dev.farPorts[k].getLsbD j) ∧
      ∃ a b c d, exec (.linkFailure (.farPort m)) s = .next
          (if v.getLsbD 63 = false ∧ s.dev.boot.toNat / 2 ^ 8 % 2 ^ 8 = 5 then
            { withPort s m a with dev := { (withPort s m a).dev with boot := d } }
           else withPort s m a) ∧ FieldSet v a 63 1 0 ∧
        FieldSet s.dev.boot d 32 16 (max 6 (s.dev.boot.toNat / 2 ^ 32 % 2 ^ 16)) ∧
        exec (.linkDisable (.farPort m)) s = .next (asked s .filigree (withPort s m b)) ∧ FieldSet v b 62 2 0 ∧
        exec (.linkRetrain (.farPort m)) s = .next (asked s .filigree (withPort s m c)) ∧ FieldSet v c 62 2 1) ∧
    exec (.linkTrained .hostLink i) s = .next { s with dev := { s.dev with
      hostLink := BitVec.ofNat 64 (2 ^ 63 + min i.width.toNat 16 * 2 ^ 48 + i.rate.toNat * 2 ^ 40) } } ∧
    (∃ a d, exec (.linkFailure .hostLink) s = .next
        (if s.dev.hostLink.getLsbD 63 = false ∧ s.dev.boot.toNat / 2 ^ 8 % 2 ^ 8 = 5 then
          { s with dev := { s.dev with hostLink := a, boot := d } }
         else { s with dev := { s.dev with hostLink := a } }) ∧
      FieldSet s.dev.hostLink a 63 1 0 ∧ FieldSet s.dev.boot d 32 16 (max 6 (s.dev.boot.toNat / 2 ^ 32 % 2 ^ 16))) ∧
    exec (.linkDisable .hostLink) s = .next (asked s .filigree (refused s .filigree 0x20E0)) ∧
    exec (.linkRetrain .hostLink) s = .next (asked s .filigree (refused s .filigree 0x20E0))

/-- R15 to R17, R166, R262, R436, R438, R444, R446, R450, R451: island requests and clocks, the power window (which islands it
lowers is log 17's choice, and that a limit of 0 is 1,800 W log 3's), the 100 MHz reference, an arithmetic cycle of a hart of
a running farm, and the end of a self-test item. When a clock may change and how often the window acts is log 40's choice. -/
def Obligations.ClocksAndTime : Prop :=
  (∀ (s : State) (w : Writer) (h : HartId) (req : BitVec 8),
    (w = .filigree → exec (.islandRequest w h.val req) s = .next (asked s w (refused s w (0x300000 + 8 * h.val)))) ∧
    (w ≠ .filigree → exec (.islandRequest w h.val req) s = .next (withIsland s h { s.dev.islands[h] with
      req := if 47 ≤ req.toNat ∧ req.toNat ≤ 94 then req else 0 }))) ∧
  (∀ (s : State) (h : HartId) (act : BitVec 8),
    let allowed := 47 ≤ act.toNat ∧ act.toNat ≤ 94 ∧
      (s.dev.islands[h].req = 0 ∨ act.toNat ≤ s.dev.islands[h].req.toNat) ∧ act.toNat ≤ s.dev.clockMax[h].toNat ∧
      ((s.dev.boot.getLsbD 1 = false ∧ s.dev.boot.getLsbD 2 = false) ∨ act = 47)
    (allowed → exec (.clockChangeComplete h.val act) s = .next (withIsland s h { s.dev.islands[h] with act := act })) ∧
    (¬ allowed → exec (.clockChangeComplete h.val act) s = .next s)) ∧
  (∀ (s : State) (watts : Nat), (s.sched.farms.flatMap farmHarts).Nodup →
    let limit := if s.dev.powerLimit.toNat % 2 ^ 11 = 0 then 1800 else s.dev.powerLimit.toNat % 2 ^ 11
    let filigree := filigreeOn s
    ∃ islands, exec (.powerWindow watts) s = .next
        { s with dev := { s.dev with telemetry := BitVec.ofNat 64 watts, islands := islands } } ∧
      (watts ≤ limit ∨ ¬ filigree → islands = s.dev.islands) ∧
      (limit < watts → filigree → ∀ h : HartId,
        (lowered s h → islands[h] = { s.dev.islands[h] with act := s.dev.islands[h].act - 1 }) ∧
        (¬ lowered s h → islands[h] = s.dev.islands[h]))) ∧
  (∀ s : State, exec .referenceTick s = .next { s with time := s.time + 1 }) ∧
  (∀ (s : State) (h : HartId) (c : CycleInfo),
    ((hartOf s h).run = .free → exec (.arithmeticCycle h.val c) s = .next s) ∧
    ((hartOf s h).run ≠ .free → ∃ p, exec (.arithmeticCycle h.val c) s = .next (withHart s h { hartOf s h with perf := p }) ∧
      p.cycle = (hartOf s h).perf.cycle + 1 ∧ p.instret = (hartOf s h).perf.instret ∧ p.pevt = (hartOf s h).perf.pevt ∧
      (∀ l : Fin 24, p.idle[l] =
        if c.idle.getLsbD l.val then (hartOf s h).perf.idle[l] + 1 else (hartOf s h).perf.idle[l]) ∧
      ∀ k : Fin 16,
        (counting (hartOf s h) k → p.pcnt[k] = (hartOf s h).perf.pcnt[k]
          + BitVec.ofNat 64 (cycleCount (hartOf s h) c ((hartOf s h).perf.pevt[k].toNat % 2 ^ 8))) ∧
        (¬ counting (hartOf s h) k → p.pcnt[k] = (hartOf s h).perf.pcnt[k]))) ∧
  (∀ (s : State) (h : HartId) (pass : Bool) (item : BitVec 64),
    (s.dev.islands[h].testing = false → exec (.selfTestComplete h.val pass item) s = .next s) ∧
    (s.dev.islands[h].testing = true →
      let t := withIsland s h { s.dev.islands[h] with
        testing := false, stres := if pass then 1 else 2, tested := s.time
        stn := BitVec.ofNat 32 (min (s.dev.islands[h].stn.toNat + 1) 0xFFFFFFFF) }
      (pass = true → exec (.selfTestComplete h.val pass item) s = .next t) ∧
      (pass = false → ∃ avail, exec (.selfTestComplete h.val pass item) s = .next
          { withBank t 60 (noted · 2 (h.val % 16) 7 none item false 0) with
            dev := { (withBank t 60 (noted · 2 (h.val % 16) 7 none item false 0)).dev with avail := avail } } ∧
        ∀ k : HartId, avail.getLsbD k.val = if k = h then false else s.dev.avail.getLsbD k.val)))

/-- R401, R422, R423, R447, R448, R455: a context table entry, a partition register and a bank's status and count written
through the filter, or refused and recorded; a nonce waits for its quote, which Bezel forms of the nonce, the measurement
registers, boot status, starts and the availability map; a measurement register is extended by its digest. That what Bezel's
writes meet in the filter is not recorded is log 36's choice, that a nonce written meanwhile waits and a later one replaces it
log 12's, and the digest's byte order log 16's. -/
def Obligations.TablesAndQuotes : Prop :=
  (∀ (s : State) (w : Writer) (ctx : Nat) (bytes : List Byte), ∃ img : BitVec 512,
    (∀ k < 512, img.getLsbD k = (imageBit k && (leValue bytes).testBit k)) ∧
    (w = .filigree ∨ ¬ imageAllowed s ctx img →
      exec (.contextTableWrite w ctx bytes) s = .next (asked s w (refused s w (0x200000 + 64 * ctx)))) ∧
    (w ≠ .filigree → imageAllowed s ctx img → ∃ rings,
      exec (.contextTableWrite w ctx bytes) s = .next { s with
        dev := { s.dev with contexts := tset 0 s.dev.contexts ctx img }, sched := { s.sched with rings } } ∧
      (img.getLsbD 304 = false ∨ (ctxImage s ctx).getLsbD 304 = true → rings = s.sched.rings) ∧
      (img.getLsbD 304 = true → (ctxImage s ctx).getLsbD 304 = false →
        rings = tset none s.sched.rings ctx (some ⟨0, [], []⟩)))) ∧
  (∀ (s : State) (w : Writer) (h : HartId) (v : BitVec 16),
    (w ≠ .filigree → (hartOf s h).run = .free → exec (.partitionWrite w h v) s = .next
      { s with dev := { s.dev with parts := s.dev.parts.set h (v.setWidth 10) } }) ∧
    (w = .filigree ∨ (hartOf s h).run ≠ .free →
      exec (.partitionWrite w h v) s = .next (asked s w (refused s w (0x1000 + 2 * h.val))))) ∧
  (∀ (s : State) (w : Writer) (b : Fin 64) (status count : Option (BitVec 64)),
    (w ≠ .filigree → exec (.bankStatusWrite w b status count) s = .next (withBank s b fun k => { k with
      status := (status.map (· &&& 0xFC00FFFF0000FFFF)).getD k.status
      count := (count.map (· &&& 0xFFFFFFFF)).getD k.count })) ∧
    (w = .filigree → exec (.bankStatusWrite w b status count) s = .next (asked s w
      (if count.isSome then refused s w (0x100000 + 64 * b.val + 24)
       else if status.isSome then refused s w (0x100000 + 64 * b.val) else s)))) ∧
  (∀ (s : State) (nonce : BitVec 256), ∃ m : BitVec 512,
    (∀ k < 512, m.getLsbD k = if k < 256 then nonce.getLsbD k else s.dev.mailbox.getLsbD k) ∧
    (s.dev.nonce = none →
      exec (.attestationDoorbell nonce) s = .next { s with dev := { s.dev with mailbox := m, nonce := some nonce } } ∧
      exec .quoteReady s = .next s) ∧
    ∀ n, s.dev.nonce = some n →
      exec (.attestationDoorbell nonce) s = .next { s with dev := { s.dev with mailbox := m, nextNonce := some nonce } } ∧
      exec .quoteReady s = .next { s with dev := { s.dev with
        mailbox := Config.quote n (s.dev.measure.toList ++ [s.dev.boot.setWidth 256, s.dev.starts.setWidth 256,
          BitVec.ofNat 256 s.dev.avail.toNat, BitVec.ofNat 256 (s.dev.avail.toNat / 2 ^ 256)])
        nonce := s.dev.nextNonce, nextNonce := none } }) ∧
  ∀ (s : State) (w : Writer) (i : Fin 8) (d : BitVec 256), exec (.measurementExtend ⟨w, i⟩ d) s = .next
    (if w = .bezel ∨ (w = .filigree ∧ 4 ≤ i.val ∧ filigreeOn s) then
      { s with dev := { s.dev with measure := s.dev.measure.set i (sm3Extend s.dev.measure[i] d) } }
     else s)

/-- R342, R354, R412, R441, R450 to R457: the pool and arena registers take a size within range while nothing uses what it
names, and otherwise only set refused; a sweep frees every slot of a context that is not in use; a write of 0 clears the
refusal register. Writes of whole registers: the host's through the filter are the steps of their rules, plain registers take
the written field, Bezel writes the availability map, and what an agent may not write is refused and recorded. How reserved
bits and the bits beyond a field are taken, and which registers Bezel writes, is log 36's choice, that a sweep frees within its
step log 39's, and that a write of the mailbox while a quote is being formed is the next quote's nonce, whose bytes are the low 32
of it, log 12's. -/
def Obligations.RegisterWrites : Prop :=
  ∀ (s : State) (v : BitVec 64),
    (let p := v.toNat % 2 ^ 13
     let owned := ∃ e ∈ s.mem.owners, e.2 ≠ 0
     (p ≤ 4096 → ¬ owned → exec (.poolConfiguration v) s = .next { s with dev := { s.dev with pool := BitVec.ofNat 64 p } }) ∧
     (4096 < p ∨ owned → exec (.poolConfiguration v) s = .next (refused
       { s with dev := { s.dev with pool := s.dev.pool ||| 0x8000000000000000 } } .host 0x300))) ∧
    (let a := v.toNat % 2 ^ 17
     let used := ∃ e ∈ s.sched.ert, ∃ x, e.2 = some x ∧ x.state ≠ .absent
     (a ≤ 65536 → ¬ used → exec (.expertArena v) s = .next { s with dev := { s.dev with arena := BitVec.ofNat 64 a } }) ∧
     (65536 < a ∨ used → exec (.expertArena v) s = .next (refused
       { s with dev := { s.dev with arena := s.dev.arena ||| 0x8000000000000000 } } .host 0x310))) ∧
    (let ctx := v.setWidth 16
     (ctx ≠ 0 → s.dev.sweep.getLsbD 63 = false → ¬ inUse s ctx → exec (.poolSweep v) s = .next { s with
       dev := { s.dev with sweep := BitVec.ofNat 64 (2 ^ 63 + ctx.toNat) }
       mem := { s.mem with owners := s.mem.owners.filter fun e => e.2 ≠ ctx } }) ∧
     (ctx = 0 ∨ s.dev.sweep.getLsbD 63 = true ∨ inUse s ctx → exec (.poolSweep v) s = .next (refused
       { s with dev := { s.dev with sweep := s.dev.sweep ||| 0x4000000000000000 } } .host 0x308))) ∧
    (∃ w, exec .sweepComplete s = .next { s with dev := { s.dev with sweep := w } } ∧ FieldSet s.dev.sweep w 63 1 0) ∧
    (v = 0 → exec (.refusalClear v) s = .next { s with dev := { s.dev with refusal := 0 } }) ∧
    (v ≠ 0 → exec (.refusalClear v) s = .next s) ∧
    (exec (.registerWrite .host 0x300 8 v) s = exec (.poolConfiguration v) s ∧
     exec (.registerWrite .host 0x308 8 v) s = exec (.poolSweep v) s ∧
     exec (.registerWrite .host 0x310 8 v) s = exec (.expertArena v) s ∧
     exec (.registerWrite .host 0x318 8 v) s = exec (.refusalClear v) s ∧
     exec (.registerWrite .host 0x400 8 v) s = exec (.launchDoorbell v) s ∧
     exec (.registerWrite .host 0x500 8 v) s =
       (if v.getLsbD 16 then exec (.contextSwitchHold (v.setWidth 16)) s else exec (.contextSwitchRelease (v.setWidth 16)) s) ∧
     exec (.registerWrite .host 0x510 8 v) s = exec (.idleWake (v.setWidth 9)) s) ∧
    (∀ h : HartId, exec (.registerWrite .host (0x300000 + 8 * h.val) 8 v) s =
      exec (.islandRequest .host h.val (v.setWidth 8)) s) ∧
    (∀ w : Writer, w ≠ .filigree →
      exec (.registerWrite w 0x8 8 v) s = .next { s with dev := { s.dev with starts := BitVec.ofNat 64 (v.toNat % 2 ^ 8) } } ∧
      exec (.registerWrite w 0x10 8 v) s = .next
        { s with dev := { s.dev with powerLimit := BitVec.ofNat 64 (min v.toNat 1800) } } ∧
      exec (.registerWrite w 0x20 8 v) s = .next
        { s with dev := { s.dev with interval := BitVec.ofNat 64 (v.toNat % 2 ^ 32) } }) ∧
    (∀ k : Fin 8, exec (.registerWrite .host (0x40 + 8 * k.val) 8 v) s = .next (refused s .host (0x40 + 8 * k.val)) ∧
      ∃ avail, exec (.registerWrite .bezel (0x40 + 8 * k.val) 8 v) s = .next { s with dev := { s.dev with avail := avail } } ∧
        ∀ b < 512, avail.getLsbD b = if b / 64 = k.val then v.getLsbD (b % 64) else s.dev.avail.getLsbD b) ∧
    (∀ k : Fin 16, exec (.registerWrite .host (0x40 + 4 * k.val) 4 v) s = .next (refused s .host (0x40 + 4 * k.val))) ∧
    exec (.registerWrite .bezel 0x318 8 v) s = .next s ∧
    (∀ n : Fin 24, exec (.registerWrite .filigree (0x2000 + 8 * n.val) 8 v) s =
        (if v.getLsbD 62 then exec (.linkRetrain (.scaleUp n)) s else exec (.linkDisable (.scaleUp n)) s) ∧
      exec (.registerWrite .host (0x2000 + 8 * n.val) 8 v) s = .next (refused s .host (0x2000 + 8 * n.val))) ∧
    (∀ off ∈ [0x0, 0x18, 0x28, 0x408, 0x508, 0x520, 0x20E0], exec (.registerWrite .host off 8 v) s = .next (refused s .host off)) ∧
    (∀ off ∈ [0x8, 0x10, 0x20, 0x300, 0x308, 0x310, 0x318, 0x400, 0x500, 0x510],
      exec (.registerWrite .filigree off 8 v) s = .next (asked s .filigree (refused s .filigree off))) ∧
    (let put (d : Device) : Host.Outcome State Fault Refusal := .next { s with dev := d }
     exec (.registerWrite .bezel 0x0 8 v) s = put { s.dev with boot := v &&& 0x0000FFFFFF00FF07 } ∧
     exec (.registerWrite .bezel 0x18 8 v) s = put { s.dev with telemetry := v } ∧
     exec (.registerWrite .bezel 0x408 8 v) s = put { s.dev with launch := v &&& 0x8000FFFF00000007 } ∧
     exec (.registerWrite .bezel 0x508 8 v) s = put { s.dev with switch := v &&& 0xC00000000000FFFF } ∧
     exec (.registerWrite .bezel 0x520 8 v) s = put { s.dev with pkg := v.setWidth 10 } ∧
     exec (.registerWrite .bezel 0x20E0 8 v) s = put { s.dev with hostLink := v &&& 0x80FFFF0000000000 }) ∧
    -- the model's choice (log 12): a nonce written to the mailbox while a quote is being formed is the next quote's
    ∀ k : Fin 4, ∃ m : BitVec 512, (∀ j < 512, m.getLsbD j = if 64 * k.val ≤ j ∧ j < 64 * k.val + 64 then v.getLsbD (j - 64 * k.val)
        else s.dev.mailbox.getLsbD j) ∧
      exec (.registerWrite .host (0x200 + 8 * k.val) 8 v) s = .next { s with dev := { s.dev with
        mailbox := m, nextNonce := if s.dev.nonce.isSome then some (m.setWidth 256) else s.dev.nextNonce } }

/-- R26, R452, R458, R459: an Ethernet port reads its settings when en rises, stops when en falls, after the transmit descriptor in
hand, and takes tails; a frame fills the next receive descriptor, waits for one, or is dropped and counted; a transmit descriptor
completes. Which descriptor is in hand, which frames wait and which are dropped, and that a port that is not enabled takes nothing,
is log 37's choice. -/
def Obligations.EthernetPorts : Prop :=
  ∀ (s : State) (w : Writer) (p : Fin 8),
    let e := s.dev.eth[p]
    let on := e.ctl.getLsbD 0
    (on = true → exec (.ethPortEnable w p) s = .next s) ∧
    (on = false → ringSize e.txsize → ringSize e.rxsize → exec (.ethPortEnable w p) s = .next (asked s w (withEth s p
      { e with ctl := e.ctl ||| 1, live := some (e.txbase, e.rxbase, e.txsize, e.rxsize, e.ctl.getLsbD 1) }))) ∧
    (on = false → ¬ (ringSize e.txsize ∧ ringSize e.rxsize) → exec (.ethPortEnable w p) s = .next (asked s w (withEth s p
      { e with status := e.status ||| 0x4000000000000000 }))) ∧
    exec (.ethPortDisable w p) s = .next (asked s w (withEth s p
      { e with ctl := e.ctl &&& 0xFFFFFFFFFFFFFFFE, live := if e.txhead = e.txtail then none else e.live })) ∧
    (∀ v : BitVec 32, exec (.ethTxTail w p v) s = .next (asked s w (withEth s p { e with txtail := v })) ∧
      (e.waiting = [] ∨ on = false ∨ e.live = none ∨ e.rxhead = v →
        exec (.ethRxTail w p v) s = .next (asked s w (withEth s p { e with rxtail := v })))) ∧
    (∀ up : Bool, ∃ st, exec (.ethLinkChange p up) s = .next (withEth s p { e with status := st }) ∧
      FieldSet e.status st 63 1 (if up then 1 else 0)) ∧
    (e.waiting = [] → exec (.ethReceiveTimeout p) s = .next s) ∧
    (∀ m ms, e.waiting = m :: ms → ∃ st, exec (.ethReceiveTimeout p) s = .next (withEth s p { e with status := st, waiting := ms }) ∧
      FieldSet e.status st 0 32 (min (e.status.toNat % 2 ^ 32 + 1) 0xFFFFFFFF)) ∧
    (∀ (src : BitVec 48) (flow : BitVec 16) (data : List Byte),
      (on = false → exec (.ethFrameReceived p src flow data) s = .next s) ∧
      (on = true → e.live = none ∨ e.rxhead = e.rxtail → exec (.ethFrameReceived p src flow data) s = .next
        (withEth s p { e with waiting := e.waiting ++ [(src, flow, data)] })) ∧
      ∀ tb rb ts rs rt, on = true → e.live = some (tb, rb, ts, rs, rt) → e.rxhead ≠ e.rxtail → e.waiting = [] →
        let d := descriptorAt s rb rs e.rxhead
        let buf := encodedKey s (BitVec.ofNat 64 (descriptorField s d 0 8))
        reachable s d 32 → unpoisoned s .package d 32 →
        (descriptorField s d 8 4 < data.length → ∃ st, exec (.ethFrameReceived p src flow data) s = .next
          (withEth s p { e with status := st }) ∧ FieldSet e.status st 0 32 (min (e.status.toNat % 2 ^ 32 + 1) 0xFFFFFFFF)) ∧
        (data.length ≤ descriptorField s d 8 4 → reachable s buf data.length → exec (.ethFrameReceived p src flow data) s = .next
          (withEth (frameStored s d buf src flow data) p
            { e with rxhead := BitVec.ofNat 32 ((e.rxhead.toNat + 1) % max rs.toNat 1) }))) ∧
    ∀ ok : Bool,
      (e.live = none ∨ e.txhead = e.txtail → exec (.ethTxComplete p ok) s = .next s) ∧
      ∀ tb rb ts rs rt, e.live = some (tb, rb, ts, rs, rt) → e.txhead ≠ e.txtail →
        let d := descriptorAt s tb ts e.txhead
        let buf := encodedKey s (BitVec.ofNat 64 (descriptorField s d 0 8))
        reachable s d 32 → unpoisoned s .package d 32 → reachable s buf (descriptorField s d 8 4) →
        unpoisoned s .package buf (descriptorField s d 8 4) →
        exec (.ethTxComplete p ok) s = .next (withEth (stored s (d + 12) (leBytes 4 (if ok then 2 ^ 30 else 2 ^ 29))) p
          { e with txhead := BitVec.ofNat 32 ((e.txhead.toNat + 1) % max ts.toNat 1), live := if on then e.live else none })

/-- R35 to R37, R362, R364, R455: the timer makes a decision while a launch waits; a decision with nothing to do changes
nothing; one eligible launch that can never be placed is finalised with the size error, and one for which harts are free
is placed on them, each starting at the entry with its index. Placement takes free, available harts of the partition in
ascending order, whole circlets before partial ones. -/
def Obligations.SchedulerDecisions : Prop :=
  (∀ (s : State) (n : Nat),
    let p := BitVec.ofNat 10 n
    ((∀ l ∈ s.sched.launches, l.part ≠ p) → exec (.decisionTimer n) s = .next s) ∧
    ((∃ l ∈ s.sched.launches, l.part = p) → exec (.decisionTimer n) s = exec (.schedulerDecision n) s) ∧
    (s.dev.interval.toNat % 2 ^ 32 = 0 →
      (∀ f ∈ s.sched.farms, f.launch.part = p → f.suspended = false ∧ f.yielded = false) →
      ((∀ l ∈ s.sched.launches, l.part ≠ p) → exec (.schedulerDecision n) s = .next s) ∧
      ∀ l : Launch, s.sched.launches = [l] → l.part = p → l.dep = none → l.ctx ∉ s.sched.holds →
        let size := l.record.farm.toNat
        let available := ((List.finRange 512).filter fun h : HartId =>
          decide (p ≠ 0 ∧ s.dev.parts[h] = p ∧ s.dev.avail.getLsbD h.val = true)).length
        (l.sized = false → size = 0 ∨ available < size → reaches s.dev false l.done = true →
          exec (.schedulerDecision n) s = .next (decisionDue { s with
            mem := commitCells s.mem none (cellsAt l.done (leBytes 8 (2 + 2 ^ 16)))
            sched := { s.sched with launches := [] } } p)) ∧
        (∀ hs, 0 < size → size ≤ available → pickHarts s p size = some hs →
          ∃ t f, exec (.schedulerDecision n) s = .next t ∧
            t.sched.farms = s.sched.farms ++ [f] ∧ t.sched.launches = [] ∧ t.mem = s.mem ∧ t.agenda = s.agenda ∧
            f.launch = { l with sized := true } ∧ f.members.map (·.hart) = hs.map some ∧
            (∀ m ∈ f.members, m.ended = false ∧ m.triggered = false) ∧ f.next = 0 ∧ f.arrivals = 0 ∧ f.suspended = false ∧
            (s.sched.farms.length < 2 ^ 32 → ∀ g ∈ s.sched.farms, g.number ≠ f.number) ∧
            (∀ h, h ∉ hs → hartOf t h = hartOf s h) ∧
            ∀ (k : Nat) (hk : k < hs.length),
              hartOf t hs[k] = { resetHart with
                x := (hartOf t hs[k]).x, pc := l.record.entry, run := .running, farmid := f.number, ctxid := l.ctx
                lag := (hartOf s hs[k]).lag
                trap := { resetTrap with
                  evec := BitVec.ofNat 64 (imageField (ctxImage s l.ctx.toNat) 64 64) &&& 0xFFFFFFFFFFFFFFFE } } ∧
              ∀ r : XReg, readX (hartOf t hs[k]) r = if r = 4 then l.record.args else if r = 5 then BitVec.ofNat 64 k
                else if r = 6 then BitVec.ofNat 64 size else 0))) ∧
  ∀ (s : State) (p : BitVec 10) (n : Nat),
    (∀ hs, pickHarts s p n = some hs → hs.length = n ∧ hs.Pairwise (fun g h => g.val < h.val) ∧ (∀ h ∈ hs, canTake s p h) ∧
      ∀ h ∈ hs, ∀ g : HartId, (∀ k : HartId, k.val / 16 = g.val / 16 → canTake s p k) → g ∉ hs →
        (∀ k : HartId, k.val / 16 = h.val / 16 → canTake s p k) ∧ h.val / 16 ≤ g.val / 16) ∧
    (∀ hs : List HartId, hs.Nodup → (∀ h ∈ hs, canTake s p h) → hs.length = n → (pickHarts s p n).isSome = true)

/-- R396, R454, R456: a context switch request while the last one is under way is refused; a hold suspends the context's farm
when save slots are free and otherwise reports failure; a release ends the hold. A doorbell write is refused while busy reads 1,
and otherwise reads its record and counts:
a record that cannot be read, a malformed one, one whose context is 0 or invalid, a full queue, or the launch queued. How the
doorbell's addresses are checked is log 25's choice, that a hold which fails holds nothing log 26's, and whose refusal a busy
request is log 36's. -/
def Obligations.HostRequests : Prop :=
  (∀ (s : State) (ctx : BitVec 16),
    let held := if ctx ∈ s.sched.holds then s.sched.holds else s.sched.holds ++ [ctx]
    (switching s → exec (.contextSwitchHold ctx) s = .next (refused s .host 0x500) ∧
      exec (.contextSwitchRelease ctx) s = .next (refused s .host 0x500)) ∧
    (¬ switching s →
      exec (.contextSwitchRelease ctx) s = .next (switched s 0 (s.sched.holds.filter (· ≠ ctx)) ctx) ∧
      ((s.sched.farms.filter fun f => f.launch.ctx == ctx && whole f) = [] →
        exec (.contextSwitchHold ctx) s = .next (switched s 2 held ctx)) ∧
      ∀ f, (s.sched.farms.filter fun f => f.launch.ctx == ctx && whole f) = [f] →
        let live := (f.members.filter fun m => !m.ended).length
        let slots := freeSaveSlots s ctx live
        (slots.length < live → exec (.contextSwitchHold ctx) s = .next (switched s 1 s.sched.holds ctx)) ∧
        (live ≤ slots.length → exec (.contextSwitchHold ctx) s = .next (switched
          (withFarm s f.number fun g => { g with preempt := true, members := giveSlots g.members slots }) 2 held ctx)))) ∧
  (∀ (s : State) (ctx : BitVec 16) (n : Nat), (freeSaveSlots s ctx n).Nodup ∧ (freeSaveSlots s ctx n).length ≤ n ∧
    ∀ k ∈ freeSaveSlots s ctx n, k < imageField (ctxImage s ctx.toNat) 256 32 ∧ k ∉ slotsUsed s ctx) ∧
  (∀ (s : State) (v : BitVec 64), s.dev.launch.getLsbD 63 = true → exec (.launchDoorbell v) s = .next (refused s .host 0x400)) ∧
  ∀ (s : State) (v : BitVec 64), s.dev.launch.getLsbD 63 = false →
    let k := encodedKey s v
    let read := v.getLsbD 63 = true ∨ (v.toNat / 64 % 2 ^ 49 * 64 < 8 * Config.stackBytes ∧ reaches s.dev false k = true)
    let bs := readBytes s.mem .package k 64
    let r := launchFields bs
    let img := ctxImage s r.ctx.toNat
    (¬ read → exec (.launchDoorbell v) s = rung s (accessNoted s 61 4 k) 4) ∧
    (∀ b, read → firstPoison s.mem .package k 64 = some b → exec (.launchDoorbell v) s = rung s (accessNoted s 61 1 b) 4) ∧
    (read → unpoisoned s .package k 64 →
      (launchable bs = false → exec (.launchDoorbell v) s = rung s s 2) ∧
      (launchable bs = true → r.ctx = 0 ∨ img.getLsbD 304 = false → exec (.launchDoorbell v) s = rung s s 3) ∧
      (launchable bs = true → r.ctx ≠ 0 → img.getLsbD 304 = true →
        (∀ u, contextPlace s r.ctx .store r.done = (none, u) → exec (.launchDoorbell v) s = rung s u 4) ∧
        ∀ d u, contextPlace s r.ctx .store r.done = (some d, u) → r.dep = 0 →
          let queued := (u.sched.launches.filter fun l => l.part == ctxPart img).length
          (4096 ≤ queued → exec (.launchDoorbell v) s = rung s u 1) ∧
          (queued < 4096 → exec (.launchDoorbell v) s = rung s (decisionDue { u with
            mem := commitCells u.mem none (cellsAt d (leBytes 8 0))
            sched := { u.sched with
              launches := u.sched.launches ++ [{ record := r, ctx := r.ctx, part := ctxPart img, done := d, dep := none
                                                 depExpert := windowOf r.dep.toNat == .expert, order := u.sched.accepted
                                                 eff := r.prio.toNat % 8, passed := 0, sized := false }]
              accepted := u.sched.accepted + 1 } } (ctxPart img)) 0)))

/-- R66, R294, R365, R383, R391, R393, R396 to R398: a hart of a farm whose pre-emption is ordered, with nothing outstanding,
writes its state to its save slot and leaves; with the last one the farm is suspended. A machine check at a hart is recorded; an
asynchronous one traps a hart in user mode asynchronously, one tied to the instruction at the PC traps there, and either ends the
farm of a hart in privileged mode, also one that is ending; a tied one there is a failure on the trap path, which its bank names.
The farm of a trapped hart ends at the latest with the 1 ms limit, its completion word holding count 2, cause 15 and the flags
gathered. What stays with the saved farm is log 27's choice, and the
record of the asynchronous trap and what a tied check does to the entry it affects are those of logs 28 and 44. -/
def Obligations.PreemptionAndChecks : Prop :=
  (∀ (s : State) (h : HartId) (groups : Nat),
    let hd := hartOf s h
    ((∀ f, farmOf s hd.farmid = some f → f.preempt = false ∨ f.ending = true) ∨ hd.run = .free ∨
        (hd.priv = true ∧ hd.run ≠ .waiting .idle) → exec (.preemptionSave h.val groups) s = .next s) ∧
    ∀ (f : Farm) (m : Member) (k : Nat) (u : State), farmOf s hd.farmid = some f → f.preempt = true → f.ending = false →
      f.members.find? (fun m => m.hart == some h) = some m → m.slot = some k → hd.run ≠ .free → hd.run ≠ .waiting .idle →
      hd.priv = false → hd.pendingTrap = none → hd.queue = [] → NothingIssued { s with cur := h } →
      writeSystems { s with fresh := s.fresh + 16512 } h hd.ctxid
        (saveWrites (imageField (ctxImage s hd.ctxid.toNat) 192 64 + k * 2 ^ 19) (indexOf f h) s.fresh hd [] none) = (none, u) →
      let last := f.members.all fun m => m.hart == none || m.hart == some h
      ∃ t, exec (.preemptionSave h.val groups) s = .next t ∧ t.mem = begun (dropLinks u.mem h) h (fun _ => true) ∧
        (hartOf t h).run = .free ∧
        (∀ g, g ≠ h → hartOf t g = hartOf s g) ∧ t.dev = s.dev ∧
        t.agenda = s.agenda ++ (if last then [.event (.schedulerDecision f.launch.part.toNat)] else []) ∧
        farmOf t f.number = some { f with
          cause := if hd.cause = 0 then f.cause else hd.cause, preempt := !last, suspended := last || f.suspended
          members := f.members.map fun m => if m.hart == some h then
            { m with hart := none, barred := decide (hd.run = .waiting .fbar), sends := hd.sends, slots := hd.slots
                     pending := none } else m }) ∧
  (∀ (base x5 fresh : Nat) (hd : Hart) (images : List (List Byte)),
    let w := saveWrites base x5 fresh hd images none
    (∃ header, (base, header) ∈ w ∧ leValue (header.take 4) = hd.farmid.toNat ∧
      leValue ((header.drop 4).take 2) = x5 % 2 ^ 16 ∧ leValue ((header.drop 6).take 2) = images.length % 2 ^ 16 ∧
      leValue ((header.drop 8).take 8) = hd.pc.toNat) ∧
    (∃ xs, (base + 0x100, xs) ∈ w ∧ ∀ r : XReg, leValue ((xs.drop (8 * r.val)).take 8) = (readX hd r).toNat) ∧
    ∀ n < 64, hd.csr.vdirty.getLsbD n = true →
      (base + 0x5000 + 1152 * n, vecBytes (vregAt hd.v n) 0 (192 * hd.csr.vhwm.toNat)) ∈ w) ∧
  (∀ (s : State) (h : HartId) (groups : Nat) (tied : Bool) (e : ErrorReport),
    let hd := hartOf s h
    let i : Instr := .asyncMachineCheck h.val ⟨groups, tied⟩ e
    let works := hd.run ≠ .free ∧ hd.run ≠ .stopped
    let latches := tied = false ∨ ¬ works
    let value := (e.addr.map (·.setWidth 64)).getD 0
    let trapped (t : State) (f : Farm) : Prop :=
      (me t).priv = true ∧ (me t).pc = hd.trap.evec ∧ (me t).trap.epc = hd.pc ∧ (me t).trap.ecause = 15 ∧ (me t).trap.evalue = value ∧
        (∀ g ∈ farmHarts f, g ≠ s.cur → (hartOf t g).run = .stopped) ∧ ∃ g, farmOf t f.number = some g ∧ g.ending = true
    (latches → farmOf s hd.farmid = none → exec i s = .next (checkNoted s e)) ∧
    (tied = true → works → hd.priv = true → farmOf s hd.farmid = none →
      exec i s = .next (checkNoted (withBank s ⟨h.val / 16, by omega⟩ (noted · 2 (h.val % 16) 8 none 15 false 15)) e)) ∧
    ∀ f, farmOf s hd.farmid = some f →
      (hd.run = .free ∨ (latches ∧ hd.priv = false ∧ f.ending = true) → exec i s = .next (checkNoted s e)) ∧
      (hd.run ≠ .free → hd.priv = true → ∃ t, exec i s = .next t ∧
        farmOf t f.number = none ∧ ∀ g ∈ farmHarts f, (hartOf t g).run = .free) ∧
      (∀ u, tied = false → hd.run ≠ .free → f.ending = false → hd.priv = false → h = s.cur → hd.queue = [] → hd.pendingTrap = none →
        LogWritten (checkNoted s e) (checkInfo hd e) u → ∃ t, exec i s = .next t ∧ trapped t f ∧ (me t).pendingTrap = none) ∧
      ∀ u, tied = true → hd.run = .running → f.ending = false → hd.priv = false → h = s.cur → hd.queue = [] →
        LogWritten (checkNoted s e) (scalarTrap hd 15 value) u → ∃ t, exec i s = .next t ∧ trapped t f) ∧
  ∀ (s : State) (n : Nat),
    ((∀ f, farmOf s (BitVec.ofNat 32 n) = some f → f.ending = false) → exec (.cmcFarmEndTimeout n) s = .next s) ∧
    ∀ f, farmOf s (BitVec.ofNat 32 n) = some f → f.ending = true → ∃ t, exec (.cmcFarmEndTimeout n) s = .next t ∧
      farmOf t f.number = none ∧ (∀ g ∈ farmHarts f, (hartOf t g).run = .free) ∧
      (Inv s → reaches s.dev false f.launch.done = true →
        leValue (coherentBytes t.mem f.launch.done 8) = 2 + 15 * 2 ^ 24 + f.flags.toNat * 2 ^ 32)

/-- R292, R372, R415, R418, R421: the fetch at the head of the queue is admitted on a free stream, evicting just as many
unpinned resident experts as it needs, the longest unused first, or it waits; when it completes, its bytes lie in its frames,
it is resident, and its ticket is ready and pins it if tokens are parked under it. That the lowest free frames are taken, that
eviction is part of the step, and that a fetch which reaches an arena or far tier out of service stays, is log 31's
choice. -/
def Obligations.ExpertFetches : Prop :=
  (∀ s : State,
    (s.sched.fetchQueue = [] ∨ 4 ≤ s.sched.fetching.length → exec .fetchAdmit s = .next s) ∧
    ∀ i rest, s.sched.fetchQueue = i :: rest → s.sched.fetching.length < 4 →
      (ertAt s i = none → exec .fetchAdmit s = .next { s with sched := { s.sched with fetchQueue := rest } }) ∧
      ∀ e, ertAt s i = some e →
        let need := (e.size.toNat + 511) / 512
        let room (j : Nat) := (freeFrames s).length + (((evictable s).take j).map fun p => p.2.frames.length).sum
        (room (evictable s).length < need → exec .fetchAdmit s = .next s) ∧
        ∀ j ≤ (evictable s).length, need ≤ room j → (∀ k < j, room k < need) →
          let u := (((evictable s).take j).map (·.1)).foldl evictEntry s
          let v := setErt u i (some { e with frames := (freeFrames u).take need })
          exec .fetchAdmit s = .next { v with
            sched := { v.sched with fetchQueue := rest, fetching := s.sched.fetching ++ [i] }
            agenda := s.agenda ++ [.event .fetchAdmit] }) ∧
  (∀ s : State, (∀ k, k ∈ freeFrames s ↔ k < s.dev.arena.toNat % 2 ^ 17 ∧ ∀ p ∈ ertEntries s, k ∉ p.2.frames) ∧
    (∀ p, p ∈ evictable s ↔ p ∈ ertEntries s ∧ p.2.state = .resident ∧ p.2.pins = 0) ∧
    (evictable s).Pairwise fun p q => p.2.last.toNat ≤ q.2.last.toNat) ∧
  ∀ (s : State) (n : Nat),
    (n ∉ s.sched.fetching ∨ ertAt s n = none → exec (.fetchComplete n) s = .next s) ∧
    ∀ e, n ∈ s.sched.fetching → ertAt s n = some e →
      let far (p : Nat) := s.dev.pkg.toNat * 2 ^ 45 + e.far.toNat + 4096 * p
      let ticket : Word := BitVec.ofNat 64 (e.gen.toNat * 2 ^ 32 + n * 2 + 1)
      let takes := parkedUnder s e.ctx ticket && !s.sched.ticketPins.contains (e.ctx, ticket)
      let frame (p : Nat) := s.dev.pkg.toNat * 2 ^ 45 + arenaBase s.dev + e.frames.getD (p / 512) 0 * 2 ^ 21 + p % 512 * 4096
      let reached (p : Nat) : Prop := reaches s.dev false (far p) = true ∧ reaches s.dev true (frame p) = true
      (∀ p < e.size.toNat, (∀ q < p, reached q) →
        (reaches s.dev false (far p) = false → exec (.fetchComplete n) s = .next (accessNoted s 61 4 (far p))) ∧
        (reaches s.dev false (far p) = true → reaches s.dev true (frame p) = false →
          exec (.fetchComplete n) s = .next (accessNoted s 61 4 (frame p)))) ∧
      ((∀ p < e.size.toNat, reached p) → ∃ t, exec (.fetchComplete n) s = .next t ∧
        ertAt t n = some { e with state := .resident, pins := if takes then raisePins e.pins else e.pins } ∧
        t.sched.fetching = s.sched.fetching.filter (· ≠ n) ∧ t.sched.fetchQueue = s.sched.fetchQueue ∧
        t.sched.ready = s.sched.ready ++ (if takes then [(e.ctx, ticket)] else []) ∧
        t.agenda = s.agenda ++ [.event .fetchAdmit] ∧ t.harts = s.harts ∧ t.dev = s.dev ∧
        (Inv s → s.mem.flight = [] → e.frames.Nodup → (∀ f ∈ e.frames, f < 65536) → e.size.toNat ≤ 512 * e.frames.length →
          Config.farBase ≤ e.far.toNat → e.far.toNat + 4096 * e.size.toNat ≤ Config.farEnd →
          ∀ p < e.size.toNat, ∀ b < 4096,
            readByte t.mem .package (frame p + b) = readByte s.mem .package (far p + b)))

/-- R375, R377, R392: a token that is acknowledged leaves its send queue; one that is busy or is sent again stays; one that is
refused or gets no answer leaves and is reported in its hart's log slot, with cause 14. A token that arrives is refused,
dropped as a duplicate, answered busy, or written to the next ring slot. The order of these answers, and how a ring's slot is
translated, is log 30's choice. -/
def Obligations.TokenAnswers : Prop :=
  (∀ (s : State) (h n : Nat), exec (.tokenRetransmit h n) s = .next s) ∧
  (∀ (s : State) (h : HartId) (n : Nat),
    ((hartOf s h).sends.length ≤ n → exec (.tokenAck h.val n) s = .next s ∧ exec (.tokenBusy h.val n) s = .next s ∧
      exec (.tokenRefuse h.val n) s = .next s ∧ exec (.tokenTimeout h.val n) s = .next s) ∧
    ∀ t, (hartOf s h).sends[n]? = some t →
      let gone : Hart := { hartOf s h with sends := (hartOf s h).sends.eraseIdx n }
      exec (.tokenAck h.val n) s = .next (withHart s h gone) ∧
      exec (.tokenBusy h.val n) s = .next (withHart s h { hartOf s h with sends := (hartOf s h).sends.set n { t with busy := true } }) ∧
      (t.busy = true → exec (.tokenTimeout h.val n) s = .next s) ∧
      ∀ (i : Instr) (inner : Nat) (old : List Byte) (v u : State),
        (i = .tokenRefuse h.val n ∧ inner = 5) ∨ (i = .tokenTimeout h.val n ∧ inner = 15 ∧ t.busy = false) →
        let base := logSlot s h (hartOf s h).ctxid
        let seq := (leValue old + 1) % 2 ^ 32
        readSystem (withHart s h { gone with cause := 14 }) h (hartOf s h).ctxid base 4 = (.ok old, v) →
        writeSystems v h (hartOf s h).ctxid
          [(base, leBytes 4 seq), (base + 0x7E00 + 64 * (seq % 8), tokenRecord s h t inner seq)] = (none, u) →
        exec i s = .next u) ∧
  ∀ (s : State) (m : TokenMsg),
    let img := ctxImage s m.ctx
    let ring := ringOf s m.ctx
    let bytes := 64 * (1 + imageField img 384 16)
    let slot := imageField img 320 64 + ring.fill * bytes
    let tags := tget [] s.sched.tags m.src
    let bad := img.getLsbD 304 = false ∨ imageField img 320 64 = 0 ∨ 64 * imageField img 384 16 < m.payload.length
    (bad → exec (.tokenArrival m) s = .next { s with answer := [3] }) ∧
    (∀ u, ¬ bad → ringRuns s (BitVec.ofNat 16 m.ctx) (runs slot bytes) = (none, u) →
      exec (.tokenArrival m) s = .next { u with answer := [3] }) ∧
    ∀ places u, ¬ bad → ringRuns s (BitVec.ofNat 16 m.ctx) (runs slot bytes) = (some places, u) →
      (m.tag ∈ tags → exec (.tokenArrival m) s = .next { u with answer := [1] }) ∧
      (m.tag ∉ tags → ring.fill ∈ ring.arrived ∨ ring.fill ∈ ring.held →
        exec (.tokenArrival m) s = .next { u with answer := [2] }) ∧
      (m.tag ∉ tags → ring.fill ∉ ring.arrived → ring.fill ∉ ring.held →
        exec (.tokenArrival m) s = .next { fillRing u places (tokenSlot m) with
          answer := [1]
          sched := { u.sched with
            rings := tset none u.sched.rings m.ctx
              (some { ring with fill := (ring.fill + 1) % 4096, arrived := ring.arrived ++ [ring.fill] })
            tags := tset [] u.sched.tags m.src ((m.tag :: tags).take 4096) } })

/-- R21, R269 to R275, R319 to R323, R394: an issued write that still reaches memory is performed at a scope, whole or one byte at
a time, and then read by every reader that the scope reaches; it waits for the writes that must come first. A word read for a
hart's coming instructions is what they read there then. An element of a posted reduction combines into its word; a copy's counter
rises by 1, unless its word is poisoned, which is recorded; a write or a counter that can no longer be reached is not performed and
leaves with its report. That a write waits in flight, its levels, what orders it, and that a word of eight bytes is read ahead, are
log 19's choice, how a lost one is dropped is log 28's, and its syndrome log 5's. -/
def Obligations.AccessesPerformed : Prop :=
  (∀ (s : State) (id byte : Nat) (sc : Scope), untriggered s →
    let perform : Host.Outcome State Fault Refusal := exec (.accessPerformed (.write id byte) sc) s
    ((∀ a ∈ s.mem.flight, a.id ≠ id) → perform = .next s) ∧
    (∀ a, s.mem.flight = [a] → a.id = id →
      (lost s.dev a = true → a.whole = true ∨ a.cells.length ≤ 1 → perform = .next s) ∧
      (lost s.dev a = false → a.whole = true ∨ a.cells.length ≤ 1 →
        (levelFor sc a.path ≤ a.level → perform = .next s) ∧
        (a.level < levelFor sc a.path → ∃ m, perform = .next { s with mem := m } ∧
          (levelFor sc a.path < 5 → m.cells = s.mem.cells ∧ m.flight = [{ a with level := levelFor sc a.path }]) ∧
          (5 ≤ levelFor sc a.path → m.flight = [] ∧ (Inv s → (a.cells.map (·.1)).Nodup →
            ∀ r k, readByte m r k = (cellAt k a.cells).getD (tget Config.emptyByte s.mem.cells k))))) ∧
      ∀ c, a.whole = false → 2 ≤ a.cells.length → a.cells[byte]? = some c →
        (c.1 < Config.poolBase → reaches s.dev false c.1 = false → perform = .next s) ∧
        (Config.poolBase ≤ c.1 ∨ reaches s.dev false c.1 = true → id < s.mem.nextId → a.level < levelFor sc a.path → Inv s →
          (a.cells.map (·.1)).Nodup →
        ∃ m, perform = .next { s with mem := m } ∧ ∀ r k, readByte m r k =
          if k = c.1 ∧ (5 ≤ levelFor sc a.path ∨ sees r { a with level := levelFor sc a.path } = true) then c.2
          else readByte s.mem r k)) ∧
    ∀ a b, s.mem.flight = [b, a] → a.id = id → b.id ≠ id → comesFirst b a → a.whole = true ∨ a.cells.length ≤ 1 →
      b.level < levelFor sc a.path → perform = .next s) ∧
  (∀ (s : State) (h : HartId) (word : Nat) (sc : Scope),
    let k := 8 * word
    let reads : Bool := decide ((hartOf s h).run ≠ .free) && wordReads s h k
    (reads = false → exec (.accessPerformed (.read h word) sc) s = .next s) ∧
    (reads = true → ∃ m, exec (.accessPerformed (.read h word) sc) s = .next { s with mem := m } ∧
      m = { s.mem with early := m.early } ∧
      (∀ q j, k ≤ j → j < k + 8 → hartByte m h q j = readByte s.mem (.hart h (if q = .C then .C else pathOf s.dev false k)) j) ∧
      ∀ g q j, g ≠ h ∨ ¬ (k ≤ j ∧ j < k + 8) → hartByte m g q j = hartByte s.mem g q j)) ∧
  (∀ (s : State) (n : Nat), untriggered s → s.mem.posted = [] → exec (.vsredElementPerform n) s = .next s) ∧
  (∀ (s u : State) (p : Posted) (e : RedElem) (q : Piece) (qs : List Piece), untriggered s → Inv s → s.mem.flight = [] →
    s.mem.posted = [p] → p.elems = [e] → p.failed = none →
    checkAtomic s p.hart p.ctx p.priv e.addr (etBytes p.et) = (.ok (q :: qs), u) →
    ∃ t, exec (.vsredElementPerform 0) s = .next t ∧ t.mem.posted = [] ∧ t.dev = s.dev ∧ t.sched = s.sched ∧
      leValue (coherentBytes t.mem q.key (etBytes p.et)) =
        combineRed p.op p.et p.ftz (leValue (coherentBytes u.mem q.key (etBytes p.et))) e.value.toNat % 2 ^ (8 * etBytes p.et)) ∧
  (∀ (s : State) (n : Nat), untriggered s →
    (s.mem.counters[n]? = none → exec (.vcopyCounterIncrement n) s = .next s) ∧
    ∀ c, s.mem.counters[n]? = some c → s.mem.flight = [] →
      (c.addr < Config.poolBase → reaches s.dev false c.addr = false → exec (.vcopyCounterIncrement n) s = .next s) ∧
      (∀ b, c.addr < Config.poolBase → reaches s.dev false c.addr = true → unpoisonedFrom s c b →
        farmOf s (hartOf s c.hart).farmid = none → exec (.vcopyCounterIncrement n) s = .next (withBank
          { s with mem := { s.mem with counters := s.mem.counters.filter fun d => d.tag ≠ c.tag } }
          ⟨c.hart.val / 16, by omega⟩ (noted · 2 (c.hart.val % 16) 1 (some b) (Config.syndrome 1 b) false 15))) ∧
      (Config.poolBase ≤ c.addr ∨ reaches s.dev false c.addr = true → counterPoison s c = none → Inv s → ∃ m,
      exec (.vcopyCounterIncrement n) s = .next { s with mem := m } ∧
      m.counters = s.mem.counters.filter (fun d => d.tag ≠ c.tag) ∧
      leValue (coherentBytes m c.addr 8) = (leValue (coherentBytes s.mem c.addr 8) + 1) % 2 ^ 64)) ∧
  ∀ (s : State) (n : Nat),
    let note (t : State) (h : HartId) (k : Nat) : State := withBank t ⟨h.val / 16, by omega⟩
      (noted · 2 (h.val % 16) 4 (some k) (Config.syndrome 4 k) false 15)
    (∀ a, s.mem.flight[n]? = some a →
      (lost s.dev a = false → exec (.unreachableTimeout n) s = .next s) ∧
      ∀ c, a.cells.head? = some c → lost s.dev a = true → untriggered s → farmOf s (hartOf s a.hart).farmid = none →
        exec (.unreachableTimeout n) s = .next (note { s with mem := { s.mem with
          flight := s.mem.flight.filter fun b => b.id ≠ a.id, counters := s.mem.counters.filter fun d => d.tag ≠ a.tag } } a.hart c.1)) ∧
    (s.mem.flight[n]? = none →
      (s.mem.counters[n - s.mem.flight.length]? = none → exec (.unreachableTimeout n) s = .next s) ∧
      ∀ c, s.mem.counters[n - s.mem.flight.length]? = some c →
        (Config.poolBase ≤ c.addr ∨ reaches s.dev false c.addr = true → exec (.unreachableTimeout n) s = .next s) ∧
        (c.addr < Config.poolBase → reaches s.dev false c.addr = false → untriggered s → farmOf s (hartOf s c.hart).farmid = none →
          exec (.unreachableTimeout n) s = .next (note { s with mem := { s.mem with
            counters := s.mem.counters.filter fun d => d.tag ≠ c.tag } } c.hart c.addr)))

/-- R21, R23, R285, R287, R394, R452: an access from another package or from the host that reaches memory and reads no poison
is performed; another answers nothing, and one of the host's to HBM, whose stacks may be out of service, is recorded in bank
46 with the first byte that is not reached. The host reads the registers of the block, and its writes there are register
writes. The record that a read of poisoned bytes leaves is log 5's choice, a combine without ftz is log 33's, and a host-space
access that always reaches its memory is log 47's. -/
def Obligations.AgentAccesses : Prop :=
  (∀ (s : State) (pkg pa : Nat) (op : AgentOp),
    (pa / 2 ^ 45 = s.dev.pkg.toNat → reachable s pa (opBytes op) → (opReads op → unpoisoned s .remote pa (opBytes op)) →
      exec (.remoteAccess pkg pa op) s = .next (opDone s .remote pa op)) ∧
    (pa / 2 ^ 45 ≠ s.dev.pkg.toNat ∨ (0 < opBytes op ∧ reaches s.dev false pa = false) ∨
        (opReads op ∧ ¬ unpoisoned s .remote pa (opBytes op)) →
      exec (.remoteAccess pkg pa op) s = .next { s with answer := [] })) ∧
  (∀ (s : State) (addr : Nat) (op : AgentOp),
    let k := Config.hostBase + addr % 2 ^ 55
    ((opReads op → unpoisoned s .host k (opBytes op)) → exec (.hostAccess .host addr op) s = .next (opDone s .host k op)) ∧
    let k := s.dev.pkg.toNat * 2 ^ 45 + addr
    (addr + opBytes op ≤ 8 * Config.stackBytes → reachable s k (opBytes op) → (opReads op → unpoisoned s .host k (opBytes op)) →
      exec (.hostAccess .hbm addr op) s = .next (opDone s .host k op)) ∧
    (8 * Config.stackBytes < addr + opBytes op →
      exec (.hostAccess .hbm addr op) s = .next { accessNoted s 46 4 k with answer := [] }) ∧
    (∀ a, addr + opBytes op ≤ 8 * Config.stackBytes → k ≤ a → a < k + opBytes op → reaches s.dev false a = false →
      (∀ b, k ≤ b → b < a → reaches s.dev false b = true) →
      exec (.hostAccess .hbm addr op) s = .next { accessNoted s 46 4 a with answer := [] }) ∧
    (∀ b, addr + opBytes op ≤ 8 * Config.stackBytes → reachable s k (opBytes op) → opReads op →
      firstPoison s.mem .host k (opBytes op) = some b →
      exec (.hostAccess .hbm addr op) s = .next { accessNoted s 46 1 b with answer := [] })) ∧
  (∀ s : State, ∀ p ∈ blockRegisters s,
    exec (.hostAccess .device p.1 (.read 8)) s = .next { s with answer := leBytes 8 p.2.toNat }) ∧
  ∀ (s t : State) (off : Nat) (v : BitVec 64), exec (.registerWrite .host off 8 v) s = .next t →
    exec (.hostAccess .device off (.write (leBytes 8 v.toNat))) s = .next { t with answer := [] }

/-- R69, R73: decoding the bytes of an encoded well-formed instruction gives it back, with its length and whatever
follows it, for every instruction and every operand that has an encoding. -/
def Obligations.DecodeEncode : Prop :=
  ∀ (i : Instr) (len w : Nat) (rest : List Byte), i.wellFormed = true → encode i = some (len, w) →
    decodeBytes (leBytes len w ++ rest) = .ok (i, len, rest)

/-- R73: whatever decodes is a well-formed instruction and is the encoding of it, so every other pattern is refused, and
no two patterns of one length are one instruction. -/
def Obligations.DecodeCanonical : Prop :=
  ∀ (bs : List Byte) (i : Instr) (len : Nat) (rest : List Byte), decodeBytes bs = .ok (i, len, rest) →
    i.wellFormed = true ∧ ∃ w, encode i = some (len, w) ∧ bs = leBytes len w ++ rest

/-- R69, R76 to R107: words that the spec writes out decode to the instructions that they stand for. -/
def Obligations.DecodedWords : Prop := ∀ p ∈ specWords, decodeWord p.1 p.2.1 = .ok p.2.2

/-- R69 to R73, R391, R395: when the bytes at the program counter decode to an instruction, a step of that hart is exec of
it, in the state that fetching leaves; nothing is added around it. The other turns: a failed fetch of a parcel, a pattern
that is no instruction and an unaligned 64-bit instruction are steps of their own; a stopped package gives the model's
one fault; a hart that does not run does nothing; a latched trap is taken first; and a scheduled event is exec of it, but in a
stopped package only the events that log 42 names take place. -/
def Obligations.StepRunsDecoded : Prop :=
  (∀ (s u t v : State) (b0 b1 : List Byte) (i : Instr) (len : Nat) (rest : List Byte), turnOf s u → fetches u →
    parcelsAt u (me u).pc.toNat 1 b0 t → (lengthOf (leValue b0) = 8 → (me u).pc.toNat % 4 = 0) →
    fetchParcels t u.cur ((me u).pc.toNat + 2) (lengthOf (leValue b0) / 2 - 1) = (.ok b1, v) →
    decodeBytes (b0 ++ b1) = .ok (i, len, rest) →
    step s = exec i v) ∧
  (∀ (s : State) (i : Instr) (t : List Turn), s.agenda = .event i :: t →
    step s = if s.stopped = false ∨ stillWorks i = true then exec i { s with agenda := t } else .next { s with agenda := t }) ∧
  ∀ (s u : State), turnOf s u →
    (u.stopped = true → step s = .fault .packageStopped) ∧
    (u.stopped = false → (me u).run ≠ .running → step s = .next u) ∧
    (∀ e, u.stopped = false → (me u).run = .running → (me u).pendingTrap = some e → (me u).priv = false →
      step s = .next (takePending u u.cur)) ∧
    (fetches u →
      (∀ c a t, fetchParcels u u.cur (me u).pc.toNat 1 = (.error (c, a), t) →
        step s = exec (.instructionFetchFault c (BitVec.ofNat 64 a)) t) ∧
      (∀ b0 t, parcelsAt u (me u).pc.toNat 1 b0 t →
        (∀ c a v, (lengthOf (leValue b0) = 8 → (me u).pc.toNat % 4 = 0) →
          fetchParcels t u.cur ((me u).pc.toNat + 2) (lengthOf (leValue b0) / 2 - 1) = (.error (c, a), v) →
          step s = exec (.instructionFetchFault c (BitVec.ofNat 64 a)) v) ∧
        (∀ b1 r v, (lengthOf (leValue b0) = 8 → (me u).pc.toNat % 4 = 0) →
          fetchParcels t u.cur ((me u).pc.toNat + 2) (lengthOf (leValue b0) / 2 - 1) = (.ok b1, v) →
          decodeBytes (b0 ++ b1) = .error r →
          step s = exec (.illegalInstruction (BitVec.ofNat 64 (leValue (b0 ++ b1)))) v) ∧
        (lengthOf (leValue b0) = 8 → (me u).pc.toNat % 4 ≠ 0 →
          (∀ b1 v, fetchParcels t u.cur ((me u).pc.toNat + 2) 1 = (.ok b1, v) →
            step s = exec (.illegalInstruction (BitVec.ofNat 64 (leValue b0 + leValue b1 * 2 ^ 16))) v) ∧
          (∀ c a v, fetchParcels t u.cur ((me u).pc.toNat + 2) 1 = (.error (c, a), v) →
            step s = exec (.illegalInstruction (BitVec.ofNat 64 (leValue b0))) v))))

/-- R269, logs 2 and 6: every step, of a hart or of an event, keeps memory in its canonical form; a step never refuses,
and it stops only when the package is stopped. -/
def Obligations.StepsAreSafe : Prop := ∀ s : State, Inv s → SafeStep s

/-- R37, R208, R400, R422, R442, R450, R457: the machine right after power-on, before its first start: no farm, launch, held
entry, expert, token or message, registers at the values that the spec states, and an empty memory in its canonical form. What
an unlisted byte reads as is log 2's choice; that a hart holds at power-on what R37, R155, R162 and R208 give it at the start of
a farm is log 1's choice. -/
def Obligations.ResetState : Prop :=
  Inv State.reset ∧ State.reset.stopped = false ∧ State.reset.time = 0 ∧
    State.reset.dev.boot = 0 ∧ State.reset.dev.starts = 0 ∧
    (let c := State.reset.sched
     c.farms = [] ∧ c.launches = [] ∧ c.holds = [] ∧ c.ert = [] ∧ c.fetchQueue = [] ∧ c.fetching = [] ∧ c.parked = [] ∧
       c.ready = [] ∧ c.ticketPins = [] ∧ c.rings = [] ∧ c.tags = [] ∧ c.accepted = 0 ∧ c.placed = 0) ∧
    (∀ c : Fin 32, State.reset.walks[c] = []) ∧
    (∀ b : Fin 64, State.reset.dev.banks[b] = ⟨0, 0, 0, 0⟩) ∧
    (∀ h : Fin 512, State.reset.dev.islands[h].act = 47 ∧ State.reset.dev.islands[h].req = 0) ∧
    (∀ n : Fin 24, State.reset.dev.scaleUp[n] = 0x4000000000000000) ∧
    (∀ k, readByte State.reset.mem .host k = Config.emptyByte) ∧
    ∀ h : HartId, (hartOf State.reset h).run = .free ∧ (hartOf State.reset h).queue = [] ∧
      (∀ j < 1152, weightGet (hartOf State.reset h).w 0 j = 0x8000) ∧
      (hartOf State.reset h).csr.vrc = 1 ∧ (hartOf State.reset h).csr.fthr = 0x2000 ∧
      (hartOf State.reset h).csr.wtemp = 0x3F800000 ∧ (hartOf State.reset h).csr.mshape = 0x1010 ∧
      vtIll (hartOf State.reset h).csr.vtype = true
end

