-- ==== Sys2Proof/Laws/Tables.lean ====
section
/-! SUPPORT. Sorted tables: what a write gives back, and that every operation keeps the canonical form. -/

namespace Sys2Proof

namespace Machine

theorem tableWf_cons {α : Type} [DecidableEq α] (d : α) (k : Nat) (v : α) (t : List (Nat × α)) :
    tableWf d ((k, v) :: t) = true ↔ v ≠ d ∧ (∀ p ∈ t, k < p.1) ∧ tableWf d t = true := by
  simp [tableWf, Bool.and_eq_true, and_assoc]

/-- A key below every listed one is not listed. -/
theorem tget_below {α : Type} (d : α) (t : List (Nat × α)) (q : Nat) (h : ∀ p ∈ t, q < p.1) : tget d t q = d := by
  cases t with
  | nil => rfl
  | cons p t =>
    obtain ⟨k, v⟩ := p
    have : q < k := h (k, v) (by simp)
    have n : q ≠ k := by omega
    simp [tget, n, this]

/-- What a table gives after a write. -/
theorem tget_tset {α : Type} [DecidableEq α] (d : α) (t : List (Nat × α)) (k q : Nat) (v : α)
    (h : tableWf d t = true) : tget d (tset d t k v) q = if q = k then v else tget d t q := by
  induction t with
  | nil =>
    by_cases hv : v = d
    · simp [tset, tget, hv]
    · by_cases hq : q = k <;> simp [tset, tget, hv, hq]
  | cons p t ih =>
    obtain ⟨k', v'⟩ := p
    obtain ⟨hd, hlt, hwf⟩ := (tableWf_cons d k' v' t).1 h
    have ih := ih hwf
    unfold tset
    by_cases h1 : k < k'
    · simp only [h1, if_true]
      by_cases hv : v = d
      · simp only [hv, if_true]
        by_cases hq : q = k
        · subst hq
          have n : q ≠ k' := by omega
          simp [tget, n, h1]
        · simp [hq]
      · by_cases hq : q = k
        · simp [hv, hq, tget]
        · by_cases hl : q < k
          · have n : q ≠ k' := by omega
            have l : q < k' := by omega
            simp [hv, hq, tget, hl, n, l]
          · simp [hv, hq, tget, hl]
    · by_cases h2 : k = k'
      · subst h2
        simp only [Nat.lt_irrefl, if_false, if_true]
        by_cases hv : v = d
        · simp only [hv, if_true]
          by_cases hq : q = k
          · subst hq; simp [tget_below d t q hlt]
          · by_cases hl : q < k
            · simp only [hq, if_false, tget, hl, if_true]
              exact tget_below d t q fun p hp => by have := hlt p hp; omega
            · simp [hq, tget, hl]
        · by_cases hq : q = k <;> simp [hv, hq, tget]
      · simp only [h1, h2, if_false]
        by_cases hq : q = k'
        · have n : q ≠ k := by omega
          simp [tget, hq, show k' ≠ k by omega]
        · by_cases hl : q < k'
          · have n : q ≠ k := by omega
            simp [tget, hq, hl, n]
          · simp [tget, hq, hl, ih]

theorem tset_keys {α : Type} [DecidableEq α] (d : α) (t : List (Nat × α)) (k b : Nat) (v : α)
    (hk : b < k) (h : ∀ p ∈ t, b < p.1) : ∀ p ∈ tset d t k v, b < p.1 := by
  induction t with
  | nil =>
    intro p hp
    simp only [tset] at hp
    split at hp
    · simp at hp
    · simp at hp; subst hp; exact hk
  | cons c t ih =>
    obtain ⟨k', v'⟩ := c
    have hk' : b < k' := h (k', v') (by simp)
    have ht : ∀ p ∈ t, b < p.1 := fun p hp => h p (by simp [hp])
    intro p hp
    unfold tset at hp
    split at hp
    · split at hp
      · exact h p hp
      · rcases List.mem_cons.1 hp with rfl | hp
        · exact hk
        · exact h p hp
    · split at hp
      · split at hp
        · exact ht p hp
        · rcases List.mem_cons.1 hp with rfl | hp
          · exact hk
          · exact ht p hp
      · rcases List.mem_cons.1 hp with rfl | hp
        · exact hk'
        · exact ih ht p hp

/-- A write keeps the canonical form. -/
theorem tableWf_tset {α : Type} [DecidableEq α] (d : α) (t : List (Nat × α)) (k : Nat) (v : α)
    (h : tableWf d t = true) : tableWf d (tset d t k v) = true := by
  induction t with
  | nil => by_cases hv : v = d <;> simp [tset, tableWf, hv]
  | cons p t ih =>
    obtain ⟨k', v'⟩ := p
    obtain ⟨hd, hlt, hwf⟩ := (tableWf_cons d k' v' t).1 h
    unfold tset
    split
    · split
      · exact h
      · rename_i h1 hv
        refine (tableWf_cons d k v _).2 ⟨hv, ?_, h⟩
        intro p hp
        rcases List.mem_cons.1 hp with rfl | hp
        · exact h1
        · have := hlt p hp; omega
    · split
      · rename_i h2
        subst h2
        split
        · exact hwf
        · rename_i hv
          exact (tableWf_cons d k v _).2 ⟨hv, hlt, hwf⟩
      · rename_i h1 h2
        exact (tableWf_cons d k' v' _).2 ⟨hd, tset_keys d t k k' v (by omega) hlt, ih hwf⟩

/-- A part of a table in its order is in the canonical form. -/
theorem tableWf_filter {α : Type} [DecidableEq α] (d : α) (t : List (Nat × α)) (f : Nat × α → Bool)
    (h : tableWf d t = true) : tableWf d (t.filter f) = true := by
  induction t with
  | nil => rfl
  | cons p t ih =>
    obtain ⟨k, v⟩ := p
    obtain ⟨hd, hlt, hwf⟩ := (tableWf_cons d k v t).1 h
    simp only [List.filter]
    split
    · exact (tableWf_cons d k v _).2 ⟨hd, fun p hp => hlt p (List.mem_filter.1 hp).1, ih hwf⟩
    · exact ih hwf

/-- Equal contents are equal lists. -/
theorem table_ext {α : Type} [DecidableEq α] (d : α) (t u : List (Nat × α)) (ht : tableWf d t = true)
    (hu : tableWf d u = true) (h : ∀ k, tget d t k = tget d u k) : t = u := by
  induction t generalizing u with
  | nil =>
    cases u with
    | nil => rfl
    | cons p u =>
      obtain ⟨k, v⟩ := p
      obtain ⟨hv, -, -⟩ := (tableWf_cons d k v u).1 hu
      have := h k
      simp [tget] at this
      exact absurd this.symm hv
  | cons p t ih =>
    obtain ⟨k, v⟩ := p
    obtain ⟨hv, hlt, hwf⟩ := (tableWf_cons d k v t).1 ht
    cases u with
    | nil =>
      have := h k
      simp [tget] at this
      exact absurd this hv
    | cons q u =>
      obtain ⟨k', v'⟩ := q
      obtain ⟨hv', hlt', hwf'⟩ := (tableWf_cons d k' v' u).1 hu
      have e : k = k' := by
        rcases Nat.lt_trichotomy k k' with l | e | l
        · have := h k
          simp [tget, show k ≠ k' by omega, l] at this
          exact absurd this hv
        · exact e
        · have := h k'
          simp [tget, show k' ≠ k by omega, l] at this
          exact absurd this.symm hv'
      subst e
      have e : v = v' := by have := h k; simpa [tget] using this
      subst e
      congr 1
      refine ih u hwf hwf' fun q => ?_
      by_cases hq : k < q
      · have := h q
        simpa [tget, show q ≠ k by omega, show ¬ q < k by omega] using this
      · rw [tget_below d t q fun p hp => by have := hlt p hp; omega,
          tget_below d u q fun p hp => by have := hlt' p hp; omega]

end Machine

end Sys2Proof
end

