-- ==== Sys2Proof/Laws/Memory.lean ====
section
/-! SUPPORT. Memory: what is read after a write is issued or performed, and that every memory operation keeps the
canonical form. -/

namespace Sys2Proof

namespace Machine

/-! ## Cells -/

/-- The byte that consecutive cells give a key. -/
theorem cellAt_cellsAt (k q : Nat) (bs : List Byte) :
    cellAt q (cellsAt k bs) = if k ≤ q then bs[q - k]? else none := by
  induction bs generalizing k with
  | nil => simp [cellsAt, cellAt]
  | cons b bs ih =>
    simp only [cellsAt, cellAt]
    by_cases e : k = q
    · subst e; simp
    · simp only [e, if_false, ih]
      by_cases h : k ≤ q
      · have h1 : k + 1 ≤ q := by omega
        obtain ⟨n, hn⟩ : ∃ n, q - k = n + 1 := ⟨q - k - 1, by omega⟩
        have hm : q - (k + 1) = n := by omega
        simp [h, h1, hn, hm]
      · have h1 : ¬ k + 1 ≤ q := by omega
        simp [h, h1]

/-- A table of bytes after consecutive cells are stored. -/
theorem tget_storeCells (t : List Host.Cell) (k q : Nat) (bs : List Byte) (h : tableWf Config.emptyByte t = true) :
    tget Config.emptyByte (storeCells t (cellsAt k bs)) q =
      (cellAt q (cellsAt k bs)).getD (tget Config.emptyByte t q) := by
  induction bs generalizing k t with
  | nil => rfl
  | cons b bs ih =>
    simp only [cellsAt, storeCells, cellAt]
    rw [ih _ _ (tableWf_tset _ _ _ _ h), cellAt_cellsAt, tget_tset _ _ _ _ _ h]
    by_cases e : k = q
    · subst e
      simp
    · have e' : ¬ q = k := fun x => e x.symm
      simp [e, e']

theorem storeCells_wf (t cs : List Host.Cell) (h : tableWf Config.emptyByte t = true) :
    tableWf Config.emptyByte (storeCells t cs) = true := by
  induction cs generalizing t with
  | nil => exact h
  | cons c cs ih => exact ih _ (tableWf_tset _ _ _ _ h)

/-! ## Every operation keeps the canonical form -/

theorem breakLinks_cells (m : Mem) (w : Option HartId) (cs : List Host.Cell) : (breakLinks m w cs).cells = m.cells := by
  unfold breakLinks; split <;> rfl

theorem breakLinks_wf (m : Mem) (w : Option HartId) (cs : List Host.Cell) :
    Memory.wf (breakLinks m w cs) = Memory.wf m := by simp only [Memory.wf, breakLinks_cells]

theorem dropLinks_wf (m : Mem) (h : HartId) : Memory.wf (dropLinks m h) = Memory.wf m := rfl

theorem link_wf (m : Mem) (h : HartId) (k : Nat) : Memory.wf (link m h k) = Memory.wf m := by
  unfold link; simp only; split <;> rfl

theorem issueCells_wf (m : Mem) (h : HartId) (p : Path) (cs : List Host.Cell) (tag u : Nat) (o : ElemOrder) (w : Bool) :
    Memory.wf (issueCells m h p cs tag u o w) = Memory.wf m := rfl

theorem newTag_wf (m : Mem) : Memory.wf (newTag m).2 = Memory.wf m := rfl

theorem clearPoisonAt_wf (m : Mem) (cs : List Host.Cell) : Memory.wf (clearPoisonAt m cs) = Memory.wf m := by
  unfold clearPoisonAt; split <;> rfl

/-- From m to n, only bytes, writes in flight, early reads, poison and link sets changed, and the canonical form was kept. -/
structure MemFrame (m n : Mem) : Prop where
  eq : n = { m with cells := n.cells, flight := n.flight, early := n.early, poison := n.poison, healing := n.healing
                    links := n.links }
  wf : Memory.wf m = true → Memory.wf n = true

theorem MemFrame.refl (m : Mem) : MemFrame m m := ⟨rfl, id⟩

theorem MemFrame.trans {a b c : Mem} (h : MemFrame a b) (k : MemFrame b c) : MemFrame a c :=
  ⟨by rw [k.eq, h.eq], k.wf ∘ h.wf⟩

theorem heal_frame (m : Mem) (tag : Nat) (cs : List Host.Cell) : MemFrame m (heal m tag cs) := by
  unfold heal; split <;> exact ⟨rfl, id⟩

theorem healUnder_frame (cs : List Host.Cell) (as : List Access) (m : Mem) : MemFrame m (healUnder m cs as) := by
  induction as generalizing m with
  | nil => exact .refl m
  | cons a as ih =>
    unfold healUnder
    split
    · exact (heal_frame m _ _).trans (ih _)
    · exact ih m

theorem breakLinks_frame (m : Mem) (w : Option HartId) (cs : List Host.Cell) : MemFrame m (breakLinks m w cs) :=
  ⟨by unfold breakLinks; split <;> rfl, by rw [breakLinks_wf]; exact id⟩

/-- Cells stored and the flight changed in one. -/
theorem store_frame (m : Mem) (cs : List Host.Cell) (f : List Access) :
    MemFrame m { m with cells := storeCells m.cells cs, flight := f } := ⟨rfl, storeCells_wf _ _⟩

theorem flight_frame (m : Mem) (f : List Access) : MemFrame m { m with flight := f } := ⟨rfl, id⟩

theorem commitCells_frame (m : Mem) (w : Option HartId) (cs : List Host.Cell) : MemFrame m (commitCells m w cs) :=
  ((healUnder_frame cs m.flight m).trans (store_frame _ _ _)).trans (breakLinks_frame _ _ _)

theorem raiseTo_frame (m : Mem) (id level : Nat) : MemFrame m (raiseTo m id level) := by
  unfold raiseTo
  split
  · exact .refl m
  · rename_i a _
    split
    · exact .refl m
    · split
      · exact flight_frame _ _
      · have h1 : MemFrame m (if (a.level < 3 && 3 ≤ level) = true then heal m a.tag a.cells else m) := by
          split
          · exact heal_frame _ _ _
          · exact .refl m
        refine h1.trans ?_
        generalize (if (a.level < 3 && 3 ≤ level) = true then heal m a.tag a.cells else m) = n
        simp only []
        have h2 : ∀ q, MemFrame n q → MemFrame n (if (a.level < 3 && 3 ≤ level) = true then breakLinks q (some a.hart) a.cells else q) := by
          intro q h
          split
          · exact h.trans (breakLinks_frame _ _ _)
          · exact h
        apply h2
        split
        · split
          · exact flight_frame _ _
          · exact (flight_frame _ _).trans (commitCells_frame _ _ _)
        · split
          · exact flight_frame _ _
          · exact (healUnder_frame _ _ _).trans (store_frame _ _ _)

theorem raiseAll_frame (l : List (Access × Nat)) (m : Mem) : MemFrame m (raiseAll m l) := by
  induction l generalizing m with
  | nil => exact .refl m
  | cons p l ih => exact (raiseTo_frame m _ _).trans (ih _)

theorem performWant_frame (d : Device) (m : Mem) (want : Access → Nat) : MemFrame m (performWant d m want) :=
  raiseAll_frame _ m

theorem performAt_frame (d : Device) (m : Mem) (h : HartId) (p : Access → Bool) (sc : Scope) :
    MemFrame m (performAt d m h p sc) := performWant_frame d m _

theorem releaseAt_frame (d : Device) (m : Mem) (h : HartId) (p : Access → Bool) (level : Nat) :
    MemFrame m (releaseAt d m h p level) := performWant_frame d m _

/-- Giving up early reads changes only them. -/
theorem forget_frame (m : Mem) (h : HartId) (p : Nat → Bool) : MemFrame m (forget m h p) := ⟨rfl, id⟩

theorem seenBy_frame (m : Mem) (own : Option (HartId × Path)) (cs : List Host.Cell) : MemFrame m (seenBy m own cs) := by
  cases own <;> exact ⟨rfl, id⟩

theorem updateBytes_frame (d : Device) (m : Mem) (own : Option (HartId × Path)) (k n : Nat) (f : Nat → Option Nat) :
    MemFrame m (updateBytes d m own k n f).2 := by
  unfold updateBytes
  simp only []
  split
  · exact (performWant_frame d m _).trans (seenBy_frame _ _ _)
  · exact ((performWant_frame d m _).trans (commitCells_frame _ _ _)).trans (seenBy_frame _ _ _)

theorem atomicUpdate_frame (d : Device) (m : Mem) (h : HartId) (p : Path) (k n : Nat) (f : Nat → Option Nat) :
    MemFrame m (atomicUpdate d m h p k n f).2 := updateBytes_frame d m _ k n f

/-- With nothing in flight nothing is left to perform. -/
theorem performWant_nil (d : Device) (m : Mem) (want : Access → Nat) (e : m.flight = []) : performWant d m want = m := by
  simp [performWant, e, demands, raiseAll]

/-! ## Reading after a write -/

theorem flightByte_append (p : Access → Bool) (k : Nat) (as bs : List Access) :
    flightByte p k (as ++ bs) = (flightByte p k bs).or (flightByte p k as) := by
  induction as with
  | nil => cases h : flightByte p k bs <;> simp [flightByte, h]
  | cons a as ih =>
    simp only [List.cons_append, flightByte, ih]
    cases h : flightByte p k bs <;> simp

/-- What a reader reads after a hart issued a write. -/
theorem readByte_issueCells (m : Mem) (r : Reader) (h : HartId) (p : Path) (k q : Nat) (bs : List Byte) (tag u : Nat)
    (o : ElemOrder) (w : Bool) :
    readByte (issueCells m h p (cellsAt k bs) tag u o w) r q =
      if r = .hart h p ∧ k ≤ q ∧ q < k + bs.length then bs[q - k]?.getD 0 else readByte m r q := by
  have hs : sees r { id := m.nextId, hart := h, path := p, cells := cellsAt k bs, level := 0, tag, unit := u, order := o,
                     whole := w } = decide (r = .hart h p) := by
    cases r with
    | hart g q =>
      by_cases e : h = g
      · subst e; simp [sees, eq_comm]; rfl
      · by_cases c : circletOf h = circletOf g <;> simp [sees, e, c, Ne.symm e]
    | package => simp [sees]
    | remote => simp [sees]
    | host => simp [sees]
  simp only [readByte, issueCells, flightByte_append, flightByte, hs, cellAt_cellsAt]
  by_cases e : r = .hart h p
  · by_cases l : k ≤ q
    · by_cases u : q < k + bs.length
      · have : q - k < bs.length := by omega
        simp [e, l, u, this]
      · have : bs.length ≤ q - k := by omega
        simp [e, l, u, this]
    · simp [e, l]
  · simp [e]

/-! ## Early reads -/

/-- Giving up early reads changes no byte of memory. -/
@[simp] theorem readByte_forget (m : Mem) (h : HartId) (p : Nat → Bool) (r : Reader) (k : Nat) :
    readByte (forget m h p) r k = readByte m r k := rfl

@[simp] theorem coherentByte_forget (m : Mem) (h : HartId) (p : Nat → Bool) (k : Nat) :
    coherentByte (forget m h p) k = coherentByte m k := rfl

/-- A hart without an early read of a word reads there what its path sees. -/
theorem hartByte_eq (m : Mem) (h : HartId) (p : Path) (k : Nat) (e : earlyOf m h k = none) :
    hartByte m h p k = readByte m (.hart h p) k := by simp [hartByte, e]

theorem earlyOf_nil (m : Mem) (h : HartId) (k : Nat) (e : m.early = []) : earlyOf m h k = none := by simp [earlyOf, e]

/-- With no early read at all, a hart reads what its path sees. -/
theorem hartBytes_eq (m : Mem) (h : HartId) (p : Path) (k n : Nat) (e : m.early = []) :
    hartBytes m h p k n = readBytes m (.hart h p) k n := by
  induction n generalizing k with
  | zero => rfl
  | succ n ih => simp [hartBytes, readBytes, ih, hartByte_eq m h p k (earlyOf_nil m h k e)]

@[simp] theorem forget_nil (m : Mem) (h : HartId) (p : Nat → Bool) (e : m.early = []) : forget m h p = m := by
  cases m; subst e; rfl

/-- The early read of a word is there until that word is given up. -/
theorem earlyOf_forget (m : Mem) (h g : HartId) (p : Nat → Bool) (k : Nat) :
    earlyOf (forget m h p) g k = if h = g ∧ p (8 * (k / 8)) = true then none else earlyOf m g k := by
  simp only [earlyOf, forget, List.find?_filter]
  split
  · rename_i c
    obtain ⟨rfl, c⟩ := c
    rw [List.find?_eq_none]
    intro e _
    by_cases w : e.word = k / 8 <;> simp [w, c]
  · rename_i c
    congr 1
    funext e
    by_cases a : e.hart = g
    · by_cases w : e.word = k / 8
      · subst a
        by_cases b : e.hart = h
        · subst b
          have c : p (8 * (k / 8)) = false := by simpa using c
          simp [w, c]
        · simp [w, b]
      · simp [w]
    · simp [a]

/-! ## Bytes of numbers -/

theorem leBytes_getElem (n w i : Nat) (h : i < n) : (leBytes n w)[i]? = some (BitVec.ofNat 8 (w / 2 ^ (8 * i))) := by
  induction n generalizing w i with
  | zero => omega
  | succ n ih =>
    cases i with
    | zero => simp [leBytes]
    | succ i =>
      have e : w / 256 / 2 ^ (8 * i) = w / 2 ^ (8 * (i + 1)) := by
        rw [Nat.div_div_eq_div_mul, Nat.mul_add, Nat.pow_add]; ring_nf
      simp [leBytes, ih _ i (by omega), e]

end Machine

end Sys2Proof
end

