-- ==== Sys2Proof/Laws/State.lean ====
section
/-! SUPPORT. What the updates of a hart and of a state leave as it was, one lemma for each field. -/

namespace Sys2Proof

namespace Machine

/-! ## Harts of a state -/

@[simp] theorem hartOf_modHart_self (s : State) (h : HartId) (f : Hart → Hart) :
    hartOf (modHart s h f) h = f (hartOf s h) := by simp [hartOf, modHart]

theorem hartOf_modHart_ne (s : State) (h g : HartId) (f : Hart → Hart) (n : h ≠ g) :
    hartOf (modHart s h f) g = hartOf s g := by
  simp only [hartOf, modHart, Fin.getElem_fin]
  rw [Vector.getElem_set_ne]
  exact fun e => n (Fin.ext e)

theorem hartOf_modHart (s : State) (h g : HartId) (f : Hart → Hart) :
    hartOf (modHart s h f) g = if h = g then f (hartOf s g) else hartOf s g := by
  split
  · rename_i e; subst e; simp
  · rename_i e; exact hartOf_modHart_ne s h g f e

/-- Two changes of one hart are one. -/
theorem modHart_modHart (s : State) (h : HartId) (f g : Hart → Hart) :
    modHart (modHart s h f) h g = modHart s h fun hd => g (f hd) := by
  simp [modHart]

/-! ## Fields of a state after `modHart` -/

@[simp] theorem modHart_cur (s : State) (h : HartId) (f : Hart → Hart) : (modHart s h f).cur = s.cur := rfl
@[simp] theorem modHart_agenda (s : State) (h : HartId) (f : Hart → Hart) : (modHart s h f).agenda = s.agenda := rfl
@[simp] theorem modHart_mem (s : State) (h : HartId) (f : Hart → Hart) : (modHart s h f).mem = s.mem := rfl
@[simp] theorem modHart_sched (s : State) (h : HartId) (f : Hart → Hart) : (modHart s h f).sched = s.sched := rfl
@[simp] theorem modHart_dev (s : State) (h : HartId) (f : Hart → Hart) : (modHart s h f).dev = s.dev := rfl
@[simp] theorem modHart_time (s : State) (h : HartId) (f : Hart → Hart) : (modHart s h f).time = s.time := rfl
@[simp] theorem modHart_walks (s : State) (h : HartId) (f : Hart → Hart) : (modHart s h f).walks = s.walks := rfl
@[simp] theorem modHart_stopped (s : State) (h : HartId) (f : Hart → Hart) : (modHart s h f).stopped = s.stopped := rfl
@[simp] theorem modHart_fresh (s : State) (h : HartId) (f : Hart → Hart) : (modHart s h f).fresh = s.fresh := rfl
@[simp] theorem modHart_answer (s : State) (h : HartId) (f : Hart → Hart) : (modHart s h f).answer = s.answer := rfl

/-! ## Fields of a state after `modFarm` and `setErt` -/

@[simp] theorem modFarm_cur (s : State) (n : BitVec 32) (g : Farm → Farm) : (modFarm s n g).cur = s.cur := rfl
@[simp] theorem modFarm_agenda (s : State) (n : BitVec 32) (g : Farm → Farm) : (modFarm s n g).agenda = s.agenda := rfl
@[simp] theorem modFarm_harts (s : State) (n : BitVec 32) (g : Farm → Farm) : (modFarm s n g).harts = s.harts := rfl
@[simp] theorem modFarm_mem (s : State) (n : BitVec 32) (g : Farm → Farm) : (modFarm s n g).mem = s.mem := rfl
@[simp] theorem modFarm_dev (s : State) (n : BitVec 32) (g : Farm → Farm) : (modFarm s n g).dev = s.dev := rfl
@[simp] theorem modFarm_time (s : State) (n : BitVec 32) (g : Farm → Farm) : (modFarm s n g).time = s.time := rfl
@[simp] theorem modFarm_walks (s : State) (n : BitVec 32) (g : Farm → Farm) : (modFarm s n g).walks = s.walks := rfl
@[simp] theorem modFarm_stopped (s : State) (n : BitVec 32) (g : Farm → Farm) : (modFarm s n g).stopped = s.stopped := rfl
@[simp] theorem modFarm_fresh (s : State) (n : BitVec 32) (g : Farm → Farm) : (modFarm s n g).fresh = s.fresh := rfl
@[simp] theorem modFarm_answer (s : State) (n : BitVec 32) (g : Farm → Farm) : (modFarm s n g).answer = s.answer := rfl
@[simp] theorem setErt_cur (s : State) (i : Nat) (e : Option ErtEntry) : (setErt s i e).cur = s.cur := rfl
@[simp] theorem setErt_agenda (s : State) (i : Nat) (e : Option ErtEntry) : (setErt s i e).agenda = s.agenda := rfl
@[simp] theorem setErt_harts (s : State) (i : Nat) (e : Option ErtEntry) : (setErt s i e).harts = s.harts := rfl
@[simp] theorem setErt_mem (s : State) (i : Nat) (e : Option ErtEntry) : (setErt s i e).mem = s.mem := rfl
@[simp] theorem setErt_dev (s : State) (i : Nat) (e : Option ErtEntry) : (setErt s i e).dev = s.dev := rfl
@[simp] theorem setErt_time (s : State) (i : Nat) (e : Option ErtEntry) : (setErt s i e).time = s.time := rfl
@[simp] theorem setErt_walks (s : State) (i : Nat) (e : Option ErtEntry) : (setErt s i e).walks = s.walks := rfl
@[simp] theorem setErt_stopped (s : State) (i : Nat) (e : Option ErtEntry) : (setErt s i e).stopped = s.stopped := rfl
@[simp] theorem setErt_fresh (s : State) (i : Nat) (e : Option ErtEntry) : (setErt s i e).fresh = s.fresh := rfl
@[simp] theorem setErt_answer (s : State) (i : Nat) (e : Option ErtEntry) : (setErt s i e).answer = s.answer := rfl

/-! ## Fields of a hart after a committed instruction -/

@[simp] theorem commitAt_x (hd : Hart) (pc : Word) : (commitAt hd pc).x = hd.x := rfl
@[simp] theorem commitAt_priv (hd : Hart) (pc : Word) : (commitAt hd pc).priv = hd.priv := rfl
@[simp] theorem commitAt_csr (hd : Hart) (pc : Word) : (commitAt hd pc).csr = hd.csr := rfl
@[simp] theorem commitAt_trap (hd : Hart) (pc : Word) : (commitAt hd pc).trap = hd.trap := rfl
@[simp] theorem commitAt_farmid (hd : Hart) (pc : Word) : (commitAt hd pc).farmid = hd.farmid := rfl
@[simp] theorem commitAt_ctxid (hd : Hart) (pc : Word) : (commitAt hd pc).ctxid = hd.ctxid := rfl
@[simp] theorem commitAt_v (hd : Hart) (pc : Word) : (commitAt hd pc).v = hd.v := rfl
@[simp] theorem commitAt_w (hd : Hart) (pc : Word) : (commitAt hd pc).w = hd.w := rfl
@[simp] theorem commitAt_latch (hd : Hart) (pc : Word) : (commitAt hd pc).latch = hd.latch := rfl
@[simp] theorem commitAt_stage (hd : Hart) (pc : Word) : (commitAt hd pc).stage = hd.stage := rfl
@[simp] theorem commitAt_blocks (hd : Hart) (pc : Word) : (commitAt hd pc).blocks = hd.blocks := rfl
@[simp] theorem commitAt_facet (hd : Hart) (pc : Word) : (commitAt hd pc).facet = hd.facet := rfl
@[simp] theorem commitAt_lastMlatch (hd : Hart) (pc : Word) : (commitAt hd pc).lastMlatch = hd.lastMlatch := rfl
@[simp] theorem commitAt_queue (hd : Hart) (pc : Word) : (commitAt hd pc).queue = hd.queue := rfl
@[simp] theorem commitAt_epoch (hd : Hart) (pc : Word) : (commitAt hd pc).epoch = hd.epoch := rfl
@[simp] theorem commitAt_lag (hd : Hart) (pc : Word) : (commitAt hd pc).lag = hd.lag := rfl
@[simp] theorem commitAt_tlb (hd : Hart) (pc : Word) : (commitAt hd pc).tlb = hd.tlb := rfl
@[simp] theorem commitAt_tlb2 (hd : Hart) (pc : Word) : (commitAt hd pc).tlb2 = hd.tlb2 := rfl
@[simp] theorem commitAt_icache (hd : Hart) (pc : Word) : (commitAt hd pc).icache = hd.icache := rfl
@[simp] theorem commitAt_run (hd : Hart) (pc : Word) : (commitAt hd pc).run = hd.run := rfl
@[simp] theorem commitAt_trigger (hd : Hart) (pc : Word) : (commitAt hd pc).trigger = hd.trigger := rfl
@[simp] theorem commitAt_cause (hd : Hart) (pc : Word) : (commitAt hd pc).cause = hd.cause := rfl
@[simp] theorem commitAt_sends (hd : Hart) (pc : Word) : (commitAt hd pc).sends = hd.sends := rfl
@[simp] theorem commitAt_slots (hd : Hart) (pc : Word) : (commitAt hd pc).slots = hd.slots := rfl
@[simp] theorem commitAt_pendingTrap (hd : Hart) (pc : Word) : (commitAt hd pc).pendingTrap = hd.pendingTrap := rfl
@[simp] theorem commitAt_wloopPending (hd : Hart) (pc : Word) : (commitAt hd pc).wloopPending = hd.wloopPending := rfl
@[simp] theorem commitAt_pc (hd : Hart) (pc : Word) : (commitAt hd pc).pc = pc := rfl
@[simp] theorem count_x (hd : Hart) (c n : Nat) : (count hd c n).x = hd.x := rfl
@[simp] theorem count_pc (hd : Hart) (c n : Nat) : (count hd c n).pc = hd.pc := rfl
@[simp] theorem count_priv (hd : Hart) (c n : Nat) : (count hd c n).priv = hd.priv := rfl
@[simp] theorem count_csr (hd : Hart) (c n : Nat) : (count hd c n).csr = hd.csr := rfl
@[simp] theorem count_trap (hd : Hart) (c n : Nat) : (count hd c n).trap = hd.trap := rfl
@[simp] theorem count_farmid (hd : Hart) (c n : Nat) : (count hd c n).farmid = hd.farmid := rfl
@[simp] theorem count_ctxid (hd : Hart) (c n : Nat) : (count hd c n).ctxid = hd.ctxid := rfl
@[simp] theorem count_v (hd : Hart) (c n : Nat) : (count hd c n).v = hd.v := rfl
@[simp] theorem count_w (hd : Hart) (c n : Nat) : (count hd c n).w = hd.w := rfl
@[simp] theorem count_latch (hd : Hart) (c n : Nat) : (count hd c n).latch = hd.latch := rfl
@[simp] theorem count_stage (hd : Hart) (c n : Nat) : (count hd c n).stage = hd.stage := rfl
@[simp] theorem count_blocks (hd : Hart) (c n : Nat) : (count hd c n).blocks = hd.blocks := rfl
@[simp] theorem count_facet (hd : Hart) (c n : Nat) : (count hd c n).facet = hd.facet := rfl
@[simp] theorem count_lastMlatch (hd : Hart) (c n : Nat) : (count hd c n).lastMlatch = hd.lastMlatch := rfl
@[simp] theorem count_queue (hd : Hart) (c n : Nat) : (count hd c n).queue = hd.queue := rfl
@[simp] theorem count_epoch (hd : Hart) (c n : Nat) : (count hd c n).epoch = hd.epoch := rfl
@[simp] theorem count_lag (hd : Hart) (c n : Nat) : (count hd c n).lag = hd.lag := rfl
@[simp] theorem count_tlb (hd : Hart) (c n : Nat) : (count hd c n).tlb = hd.tlb := rfl
@[simp] theorem count_tlb2 (hd : Hart) (c n : Nat) : (count hd c n).tlb2 = hd.tlb2 := rfl
@[simp] theorem count_icache (hd : Hart) (c n : Nat) : (count hd c n).icache = hd.icache := rfl
@[simp] theorem count_run (hd : Hart) (c n : Nat) : (count hd c n).run = hd.run := rfl
@[simp] theorem count_trigger (hd : Hart) (c n : Nat) : (count hd c n).trigger = hd.trigger := rfl
@[simp] theorem count_cause (hd : Hart) (c n : Nat) : (count hd c n).cause = hd.cause := rfl
@[simp] theorem count_sends (hd : Hart) (c n : Nat) : (count hd c n).sends = hd.sends := rfl
@[simp] theorem count_slots (hd : Hart) (c n : Nat) : (count hd c n).slots = hd.slots := rfl
@[simp] theorem count_pendingTrap (hd : Hart) (c n : Nat) : (count hd c n).pendingTrap = hd.pendingTrap := rfl
@[simp] theorem count_wloopPending (hd : Hart) (c n : Nat) : (count hd c n).wloopPending = hd.wloopPending := rfl

/-! ## Fields of a hart after a register is written -/

@[simp] theorem putX_pc (hd : Hart) (r : XReg) (v : Word) : (putX hd r v).pc = hd.pc := by unfold putX; split <;> rfl
@[simp] theorem putX_priv (hd : Hart) (r : XReg) (v : Word) : (putX hd r v).priv = hd.priv := by unfold putX; split <;> rfl
@[simp] theorem putX_csr (hd : Hart) (r : XReg) (v : Word) : (putX hd r v).csr = hd.csr := by unfold putX; split <;> rfl
@[simp] theorem putX_trap (hd : Hart) (r : XReg) (v : Word) : (putX hd r v).trap = hd.trap := by unfold putX; split <;> rfl
@[simp] theorem putX_perf (hd : Hart) (r : XReg) (v : Word) : (putX hd r v).perf = hd.perf := by unfold putX; split <;> rfl
@[simp] theorem putX_farmid (hd : Hart) (r : XReg) (v : Word) : (putX hd r v).farmid = hd.farmid := by unfold putX; split <;> rfl
@[simp] theorem putX_ctxid (hd : Hart) (r : XReg) (v : Word) : (putX hd r v).ctxid = hd.ctxid := by unfold putX; split <;> rfl
@[simp] theorem putX_v (hd : Hart) (r : XReg) (v : Word) : (putX hd r v).v = hd.v := by unfold putX; split <;> rfl
@[simp] theorem putX_w (hd : Hart) (r : XReg) (v : Word) : (putX hd r v).w = hd.w := by unfold putX; split <;> rfl
@[simp] theorem putX_latch (hd : Hart) (r : XReg) (v : Word) : (putX hd r v).latch = hd.latch := by unfold putX; split <;> rfl
@[simp] theorem putX_stage (hd : Hart) (r : XReg) (v : Word) : (putX hd r v).stage = hd.stage := by unfold putX; split <;> rfl
@[simp] theorem putX_blocks (hd : Hart) (r : XReg) (v : Word) : (putX hd r v).blocks = hd.blocks := by unfold putX; split <;> rfl
@[simp] theorem putX_facet (hd : Hart) (r : XReg) (v : Word) : (putX hd r v).facet = hd.facet := by unfold putX; split <;> rfl
@[simp] theorem putX_lastMlatch (hd : Hart) (r : XReg) (v : Word) : (putX hd r v).lastMlatch = hd.lastMlatch := by unfold putX; split <;> rfl
@[simp] theorem putX_queue (hd : Hart) (r : XReg) (v : Word) : (putX hd r v).queue = hd.queue := by unfold putX; split <;> rfl
@[simp] theorem putX_epoch (hd : Hart) (r : XReg) (v : Word) : (putX hd r v).epoch = hd.epoch := by unfold putX; split <;> rfl
@[simp] theorem putX_lag (hd : Hart) (r : XReg) (v : Word) : (putX hd r v).lag = hd.lag := by unfold putX; split <;> rfl
@[simp] theorem putX_tlb (hd : Hart) (r : XReg) (v : Word) : (putX hd r v).tlb = hd.tlb := by unfold putX; split <;> rfl
@[simp] theorem putX_tlb2 (hd : Hart) (r : XReg) (v : Word) : (putX hd r v).tlb2 = hd.tlb2 := by unfold putX; split <;> rfl
@[simp] theorem putX_icache (hd : Hart) (r : XReg) (v : Word) : (putX hd r v).icache = hd.icache := by unfold putX; split <;> rfl
@[simp] theorem putX_run (hd : Hart) (r : XReg) (v : Word) : (putX hd r v).run = hd.run := by unfold putX; split <;> rfl
@[simp] theorem putX_trigger (hd : Hart) (r : XReg) (v : Word) : (putX hd r v).trigger = hd.trigger := by unfold putX; split <;> rfl
@[simp] theorem putX_cause (hd : Hart) (r : XReg) (v : Word) : (putX hd r v).cause = hd.cause := by unfold putX; split <;> rfl
@[simp] theorem putX_sends (hd : Hart) (r : XReg) (v : Word) : (putX hd r v).sends = hd.sends := by unfold putX; split <;> rfl
@[simp] theorem putX_slots (hd : Hart) (r : XReg) (v : Word) : (putX hd r v).slots = hd.slots := by unfold putX; split <;> rfl
@[simp] theorem putX_pendingTrap (hd : Hart) (r : XReg) (v : Word) : (putX hd r v).pendingTrap = hd.pendingTrap := by unfold putX; split <;> rfl
@[simp] theorem putX_wloopPending (hd : Hart) (r : XReg) (v : Word) : (putX hd r v).wloopPending = hd.wloopPending := by unfold putX; split <;> rfl
@[simp] theorem nameLast_x (hd : Hart) (r : XReg) : (nameLast hd r).x = hd.x := by unfold nameLast; split <;> rfl
@[simp] theorem nameLast_pc (hd : Hart) (r : XReg) : (nameLast hd r).pc = hd.pc := by unfold nameLast; split <;> rfl
@[simp] theorem nameLast_priv (hd : Hart) (r : XReg) : (nameLast hd r).priv = hd.priv := by unfold nameLast; split <;> rfl
@[simp] theorem nameLast_trap (hd : Hart) (r : XReg) : (nameLast hd r).trap = hd.trap := by unfold nameLast; split <;> rfl
@[simp] theorem nameLast_perf (hd : Hart) (r : XReg) : (nameLast hd r).perf = hd.perf := by unfold nameLast; split <;> rfl
@[simp] theorem nameLast_farmid (hd : Hart) (r : XReg) : (nameLast hd r).farmid = hd.farmid := by unfold nameLast; split <;> rfl
@[simp] theorem nameLast_ctxid (hd : Hart) (r : XReg) : (nameLast hd r).ctxid = hd.ctxid := by unfold nameLast; split <;> rfl
@[simp] theorem nameLast_v (hd : Hart) (r : XReg) : (nameLast hd r).v = hd.v := by unfold nameLast; split <;> rfl
@[simp] theorem nameLast_w (hd : Hart) (r : XReg) : (nameLast hd r).w = hd.w := by unfold nameLast; split <;> rfl
@[simp] theorem nameLast_latch (hd : Hart) (r : XReg) : (nameLast hd r).latch = hd.latch := by unfold nameLast; split <;> rfl
@[simp] theorem nameLast_stage (hd : Hart) (r : XReg) : (nameLast hd r).stage = hd.stage := by unfold nameLast; split <;> rfl
@[simp] theorem nameLast_blocks (hd : Hart) (r : XReg) : (nameLast hd r).blocks = hd.blocks := by unfold nameLast; split <;> rfl
@[simp] theorem nameLast_facet (hd : Hart) (r : XReg) : (nameLast hd r).facet = hd.facet := by unfold nameLast; split <;> rfl
@[simp] theorem nameLast_lastMlatch (hd : Hart) (r : XReg) : (nameLast hd r).lastMlatch = hd.lastMlatch := by unfold nameLast; split <;> rfl
@[simp] theorem nameLast_queue (hd : Hart) (r : XReg) : (nameLast hd r).queue = hd.queue := by unfold nameLast; split <;> rfl
@[simp] theorem nameLast_epoch (hd : Hart) (r : XReg) : (nameLast hd r).epoch = hd.epoch := by unfold nameLast; split <;> rfl
@[simp] theorem nameLast_lag (hd : Hart) (r : XReg) : (nameLast hd r).lag = hd.lag := by unfold nameLast; split <;> rfl
@[simp] theorem nameLast_tlb (hd : Hart) (r : XReg) : (nameLast hd r).tlb = hd.tlb := by unfold nameLast; split <;> rfl
@[simp] theorem nameLast_tlb2 (hd : Hart) (r : XReg) : (nameLast hd r).tlb2 = hd.tlb2 := by unfold nameLast; split <;> rfl
@[simp] theorem nameLast_icache (hd : Hart) (r : XReg) : (nameLast hd r).icache = hd.icache := by unfold nameLast; split <;> rfl
@[simp] theorem nameLast_run (hd : Hart) (r : XReg) : (nameLast hd r).run = hd.run := by unfold nameLast; split <;> rfl
@[simp] theorem nameLast_trigger (hd : Hart) (r : XReg) : (nameLast hd r).trigger = hd.trigger := by unfold nameLast; split <;> rfl
@[simp] theorem nameLast_cause (hd : Hart) (r : XReg) : (nameLast hd r).cause = hd.cause := by unfold nameLast; split <;> rfl
@[simp] theorem nameLast_sends (hd : Hart) (r : XReg) : (nameLast hd r).sends = hd.sends := by unfold nameLast; split <;> rfl
@[simp] theorem nameLast_slots (hd : Hart) (r : XReg) : (nameLast hd r).slots = hd.slots := by unfold nameLast; split <;> rfl
@[simp] theorem nameLast_pendingTrap (hd : Hart) (r : XReg) : (nameLast hd r).pendingTrap = hd.pendingTrap := by unfold nameLast; split <;> rfl
@[simp] theorem nameLast_wloopPending (hd : Hart) (r : XReg) : (nameLast hd r).wloopPending = hd.wloopPending := by unfold nameLast; split <;> rfl
@[simp] theorem setX_pc (hd : Hart) (r : XReg) (v : Word) : (setX hd r v).pc = hd.pc := by simp [setX]
@[simp] theorem setX_priv (hd : Hart) (r : XReg) (v : Word) : (setX hd r v).priv = hd.priv := by simp [setX]
@[simp] theorem setX_trap (hd : Hart) (r : XReg) (v : Word) : (setX hd r v).trap = hd.trap := by simp [setX]
@[simp] theorem setX_perf (hd : Hart) (r : XReg) (v : Word) : (setX hd r v).perf = hd.perf := by simp [setX]
@[simp] theorem setX_farmid (hd : Hart) (r : XReg) (v : Word) : (setX hd r v).farmid = hd.farmid := by simp [setX]
@[simp] theorem setX_ctxid (hd : Hart) (r : XReg) (v : Word) : (setX hd r v).ctxid = hd.ctxid := by simp [setX]
@[simp] theorem setX_v (hd : Hart) (r : XReg) (v : Word) : (setX hd r v).v = hd.v := by simp [setX]
@[simp] theorem setX_w (hd : Hart) (r : XReg) (v : Word) : (setX hd r v).w = hd.w := by simp [setX]
@[simp] theorem setX_latch (hd : Hart) (r : XReg) (v : Word) : (setX hd r v).latch = hd.latch := by simp [setX]
@[simp] theorem setX_stage (hd : Hart) (r : XReg) (v : Word) : (setX hd r v).stage = hd.stage := by simp [setX]
@[simp] theorem setX_blocks (hd : Hart) (r : XReg) (v : Word) : (setX hd r v).blocks = hd.blocks := by simp [setX]
@[simp] theorem setX_facet (hd : Hart) (r : XReg) (v : Word) : (setX hd r v).facet = hd.facet := by simp [setX]
@[simp] theorem setX_lastMlatch (hd : Hart) (r : XReg) (v : Word) : (setX hd r v).lastMlatch = hd.lastMlatch := by simp [setX]
@[simp] theorem setX_queue (hd : Hart) (r : XReg) (v : Word) : (setX hd r v).queue = hd.queue := by simp [setX]
@[simp] theorem setX_epoch (hd : Hart) (r : XReg) (v : Word) : (setX hd r v).epoch = hd.epoch := by simp [setX]
@[simp] theorem setX_lag (hd : Hart) (r : XReg) (v : Word) : (setX hd r v).lag = hd.lag := by simp [setX]
@[simp] theorem setX_tlb (hd : Hart) (r : XReg) (v : Word) : (setX hd r v).tlb = hd.tlb := by simp [setX]
@[simp] theorem setX_tlb2 (hd : Hart) (r : XReg) (v : Word) : (setX hd r v).tlb2 = hd.tlb2 := by simp [setX]
@[simp] theorem setX_icache (hd : Hart) (r : XReg) (v : Word) : (setX hd r v).icache = hd.icache := by simp [setX]
@[simp] theorem setX_run (hd : Hart) (r : XReg) (v : Word) : (setX hd r v).run = hd.run := by simp [setX]
@[simp] theorem setX_trigger (hd : Hart) (r : XReg) (v : Word) : (setX hd r v).trigger = hd.trigger := by simp [setX]
@[simp] theorem setX_cause (hd : Hart) (r : XReg) (v : Word) : (setX hd r v).cause = hd.cause := by simp [setX]
@[simp] theorem setX_sends (hd : Hart) (r : XReg) (v : Word) : (setX hd r v).sends = hd.sends := by simp [setX]
@[simp] theorem setX_slots (hd : Hart) (r : XReg) (v : Word) : (setX hd r v).slots = hd.slots := by simp [setX]
@[simp] theorem setX_pendingTrap (hd : Hart) (r : XReg) (v : Word) : (setX hd r v).pendingTrap = hd.pendingTrap := by simp [setX]
@[simp] theorem setX_wloopPending (hd : Hart) (r : XReg) (v : Word) : (setX hd r v).wloopPending = hd.wloopPending := by simp [setX]
@[simp] theorem putV_x (hd : Hart) (b p l x : Nat) : (putV hd b p l x).x = hd.x := by unfold putV; split <;> rfl
@[simp] theorem putV_pc (hd : Hart) (b p l x : Nat) : (putV hd b p l x).pc = hd.pc := by unfold putV; split <;> rfl
@[simp] theorem putV_priv (hd : Hart) (b p l x : Nat) : (putV hd b p l x).priv = hd.priv := by unfold putV; split <;> rfl
@[simp] theorem putV_trap (hd : Hart) (b p l x : Nat) : (putV hd b p l x).trap = hd.trap := by unfold putV; split <;> rfl
@[simp] theorem putV_perf (hd : Hart) (b p l x : Nat) : (putV hd b p l x).perf = hd.perf := by unfold putV; split <;> rfl
@[simp] theorem putV_farmid (hd : Hart) (b p l x : Nat) : (putV hd b p l x).farmid = hd.farmid := by unfold putV; split <;> rfl
@[simp] theorem putV_ctxid (hd : Hart) (b p l x : Nat) : (putV hd b p l x).ctxid = hd.ctxid := by unfold putV; split <;> rfl
@[simp] theorem putV_w (hd : Hart) (b p l x : Nat) : (putV hd b p l x).w = hd.w := by unfold putV; split <;> rfl
@[simp] theorem putV_latch (hd : Hart) (b p l x : Nat) : (putV hd b p l x).latch = hd.latch := by unfold putV; split <;> rfl
@[simp] theorem putV_stage (hd : Hart) (b p l x : Nat) : (putV hd b p l x).stage = hd.stage := by unfold putV; split <;> rfl
@[simp] theorem putV_blocks (hd : Hart) (b p l x : Nat) : (putV hd b p l x).blocks = hd.blocks := by unfold putV; split <;> rfl
@[simp] theorem putV_facet (hd : Hart) (b p l x : Nat) : (putV hd b p l x).facet = hd.facet := by unfold putV; split <;> rfl
@[simp] theorem putV_lastMlatch (hd : Hart) (b p l x : Nat) : (putV hd b p l x).lastMlatch = hd.lastMlatch := by unfold putV; split <;> rfl
@[simp] theorem putV_queue (hd : Hart) (b p l x : Nat) : (putV hd b p l x).queue = hd.queue := by unfold putV; split <;> rfl
@[simp] theorem putV_epoch (hd : Hart) (b p l x : Nat) : (putV hd b p l x).epoch = hd.epoch := by unfold putV; split <;> rfl
@[simp] theorem putV_lag (hd : Hart) (b p l x : Nat) : (putV hd b p l x).lag = hd.lag := by unfold putV; split <;> rfl
@[simp] theorem putV_tlb (hd : Hart) (b p l x : Nat) : (putV hd b p l x).tlb = hd.tlb := by unfold putV; split <;> rfl
@[simp] theorem putV_tlb2 (hd : Hart) (b p l x : Nat) : (putV hd b p l x).tlb2 = hd.tlb2 := by unfold putV; split <;> rfl
@[simp] theorem putV_icache (hd : Hart) (b p l x : Nat) : (putV hd b p l x).icache = hd.icache := by unfold putV; split <;> rfl
@[simp] theorem putV_run (hd : Hart) (b p l x : Nat) : (putV hd b p l x).run = hd.run := by unfold putV; split <;> rfl
@[simp] theorem putV_trigger (hd : Hart) (b p l x : Nat) : (putV hd b p l x).trigger = hd.trigger := by unfold putV; split <;> rfl
@[simp] theorem putV_cause (hd : Hart) (b p l x : Nat) : (putV hd b p l x).cause = hd.cause := by unfold putV; split <;> rfl
@[simp] theorem putV_sends (hd : Hart) (b p l x : Nat) : (putV hd b p l x).sends = hd.sends := by unfold putV; split <;> rfl
@[simp] theorem putV_slots (hd : Hart) (b p l x : Nat) : (putV hd b p l x).slots = hd.slots := by unfold putV; split <;> rfl
@[simp] theorem putV_pendingTrap (hd : Hart) (b p l x : Nat) : (putV hd b p l x).pendingTrap = hd.pendingTrap := by unfold putV; split <;> rfl
@[simp] theorem putV_wloopPending (hd : Hart) (b p l x : Nat) : (putV hd b p l x).wloopPending = hd.wloopPending := by unfold putV; split <;> rfl
@[simp] theorem putW_x (hd : Hart) (b j c : Nat) : (putW hd b j c).x = hd.x := by unfold putW; split <;> rfl
@[simp] theorem putW_pc (hd : Hart) (b j c : Nat) : (putW hd b j c).pc = hd.pc := by unfold putW; split <;> rfl
@[simp] theorem putW_priv (hd : Hart) (b j c : Nat) : (putW hd b j c).priv = hd.priv := by unfold putW; split <;> rfl
@[simp] theorem putW_trap (hd : Hart) (b j c : Nat) : (putW hd b j c).trap = hd.trap := by unfold putW; split <;> rfl
@[simp] theorem putW_perf (hd : Hart) (b j c : Nat) : (putW hd b j c).perf = hd.perf := by unfold putW; split <;> rfl
@[simp] theorem putW_farmid (hd : Hart) (b j c : Nat) : (putW hd b j c).farmid = hd.farmid := by unfold putW; split <;> rfl
@[simp] theorem putW_ctxid (hd : Hart) (b j c : Nat) : (putW hd b j c).ctxid = hd.ctxid := by unfold putW; split <;> rfl
@[simp] theorem putW_v (hd : Hart) (b j c : Nat) : (putW hd b j c).v = hd.v := by unfold putW; split <;> rfl
@[simp] theorem putW_latch (hd : Hart) (b j c : Nat) : (putW hd b j c).latch = hd.latch := by unfold putW; split <;> rfl
@[simp] theorem putW_stage (hd : Hart) (b j c : Nat) : (putW hd b j c).stage = hd.stage := by unfold putW; split <;> rfl
@[simp] theorem putW_blocks (hd : Hart) (b j c : Nat) : (putW hd b j c).blocks = hd.blocks := by unfold putW; split <;> rfl
@[simp] theorem putW_facet (hd : Hart) (b j c : Nat) : (putW hd b j c).facet = hd.facet := by unfold putW; split <;> rfl
@[simp] theorem putW_lastMlatch (hd : Hart) (b j c : Nat) : (putW hd b j c).lastMlatch = hd.lastMlatch := by unfold putW; split <;> rfl
@[simp] theorem putW_queue (hd : Hart) (b j c : Nat) : (putW hd b j c).queue = hd.queue := by unfold putW; split <;> rfl
@[simp] theorem putW_epoch (hd : Hart) (b j c : Nat) : (putW hd b j c).epoch = hd.epoch := by unfold putW; split <;> rfl
@[simp] theorem putW_lag (hd : Hart) (b j c : Nat) : (putW hd b j c).lag = hd.lag := by unfold putW; split <;> rfl
@[simp] theorem putW_tlb (hd : Hart) (b j c : Nat) : (putW hd b j c).tlb = hd.tlb := by unfold putW; split <;> rfl
@[simp] theorem putW_tlb2 (hd : Hart) (b j c : Nat) : (putW hd b j c).tlb2 = hd.tlb2 := by unfold putW; split <;> rfl
@[simp] theorem putW_icache (hd : Hart) (b j c : Nat) : (putW hd b j c).icache = hd.icache := by unfold putW; split <;> rfl
@[simp] theorem putW_run (hd : Hart) (b j c : Nat) : (putW hd b j c).run = hd.run := by unfold putW; split <;> rfl
@[simp] theorem putW_trigger (hd : Hart) (b j c : Nat) : (putW hd b j c).trigger = hd.trigger := by unfold putW; split <;> rfl
@[simp] theorem putW_cause (hd : Hart) (b j c : Nat) : (putW hd b j c).cause = hd.cause := by unfold putW; split <;> rfl
@[simp] theorem putW_sends (hd : Hart) (b j c : Nat) : (putW hd b j c).sends = hd.sends := by unfold putW; split <;> rfl
@[simp] theorem putW_slots (hd : Hart) (b j c : Nat) : (putW hd b j c).slots = hd.slots := by unfold putW; split <;> rfl
@[simp] theorem putW_pendingTrap (hd : Hart) (b j c : Nat) : (putW hd b j c).pendingTrap = hd.pendingTrap := by unfold putW; split <;> rfl
@[simp] theorem putW_wloopPending (hd : Hart) (b j c : Nat) : (putW hd b j c).wloopPending = hd.wloopPending := by unfold putW; split <;> rfl
@[simp] theorem addFlags_x (hd : Hart) (f : FlagSet) : (addFlags hd f).x = hd.x := rfl
@[simp] theorem addFlags_pc (hd : Hart) (f : FlagSet) : (addFlags hd f).pc = hd.pc := rfl
@[simp] theorem addFlags_priv (hd : Hart) (f : FlagSet) : (addFlags hd f).priv = hd.priv := rfl
@[simp] theorem addFlags_trap (hd : Hart) (f : FlagSet) : (addFlags hd f).trap = hd.trap := rfl
@[simp] theorem addFlags_perf (hd : Hart) (f : FlagSet) : (addFlags hd f).perf = hd.perf := rfl
@[simp] theorem addFlags_farmid (hd : Hart) (f : FlagSet) : (addFlags hd f).farmid = hd.farmid := rfl
@[simp] theorem addFlags_ctxid (hd : Hart) (f : FlagSet) : (addFlags hd f).ctxid = hd.ctxid := rfl
@[simp] theorem addFlags_v (hd : Hart) (f : FlagSet) : (addFlags hd f).v = hd.v := rfl
@[simp] theorem addFlags_w (hd : Hart) (f : FlagSet) : (addFlags hd f).w = hd.w := rfl
@[simp] theorem addFlags_latch (hd : Hart) (f : FlagSet) : (addFlags hd f).latch = hd.latch := rfl
@[simp] theorem addFlags_stage (hd : Hart) (f : FlagSet) : (addFlags hd f).stage = hd.stage := rfl
@[simp] theorem addFlags_blocks (hd : Hart) (f : FlagSet) : (addFlags hd f).blocks = hd.blocks := rfl
@[simp] theorem addFlags_facet (hd : Hart) (f : FlagSet) : (addFlags hd f).facet = hd.facet := rfl
@[simp] theorem addFlags_lastMlatch (hd : Hart) (f : FlagSet) : (addFlags hd f).lastMlatch = hd.lastMlatch := rfl
@[simp] theorem addFlags_queue (hd : Hart) (f : FlagSet) : (addFlags hd f).queue = hd.queue := rfl
@[simp] theorem addFlags_epoch (hd : Hart) (f : FlagSet) : (addFlags hd f).epoch = hd.epoch := rfl
@[simp] theorem addFlags_lag (hd : Hart) (f : FlagSet) : (addFlags hd f).lag = hd.lag := rfl
@[simp] theorem addFlags_tlb (hd : Hart) (f : FlagSet) : (addFlags hd f).tlb = hd.tlb := rfl
@[simp] theorem addFlags_tlb2 (hd : Hart) (f : FlagSet) : (addFlags hd f).tlb2 = hd.tlb2 := rfl
@[simp] theorem addFlags_icache (hd : Hart) (f : FlagSet) : (addFlags hd f).icache = hd.icache := rfl
@[simp] theorem addFlags_run (hd : Hart) (f : FlagSet) : (addFlags hd f).run = hd.run := rfl
@[simp] theorem addFlags_trigger (hd : Hart) (f : FlagSet) : (addFlags hd f).trigger = hd.trigger := rfl
@[simp] theorem addFlags_cause (hd : Hart) (f : FlagSet) : (addFlags hd f).cause = hd.cause := rfl
@[simp] theorem addFlags_sends (hd : Hart) (f : FlagSet) : (addFlags hd f).sends = hd.sends := rfl
@[simp] theorem addFlags_slots (hd : Hart) (f : FlagSet) : (addFlags hd f).slots = hd.slots := rfl
@[simp] theorem addFlags_pendingTrap (hd : Hart) (f : FlagSet) : (addFlags hd f).pendingTrap = hd.pendingTrap := rfl
@[simp] theorem addFlags_wloopPending (hd : Hart) (f : FlagSet) : (addFlags hd f).wloopPending = hd.wloopPending := rfl

/-! ## Scalar registers read back (R156, R160) -/

/-- What a register reads as after a write; x0 stays zero. -/
theorem readX_setX (hd : Hart) (r q : XReg) (v : Word) :
    readX (setX hd r v) q = if q = 0 then 0 else if q = r then v else readX hd q := by
  unfold setX nameLast putX readX
  by_cases hq : q = 0
  · simp [hq]
  · by_cases hr : r = 0
    · subst hr; simp [hq]
    · by_cases e : q = r
      · subst e; simp [hq]
      · have : (r : Nat) ≠ (q : Nat) := fun h => e (Fin.ext h.symm)
        simp [hq, hr, e, Vector.getElem_set_ne, this]

@[simp] theorem readX_zero (hd : Hart) : readX hd 0 = 0 := rfl

@[simp] theorem readX_commitAt (hd : Hart) (pc : Word) (r : XReg) : readX (commitAt hd pc) r = readX hd r := rfl

/-- The last written register is named by every write but one to x0. -/
theorem setX_csr (hd : Hart) (r : XReg) (v : Word) :
    (setX hd r v).csr = { hd.csr with xlast := if r = 0 then hd.csr.xlast else word r.val } := by
  unfold setX nameLast
  split <;> simp

/-- The registers that an instruction without a result leaves. -/
@[simp] theorem setX_zero (hd : Hart) (v : Word) : setX hd 0 v = hd := by simp [setX, nameLast, putX]

end Machine

end Sys2Proof
end

