-- ==== Sys2Proof/Laws/Access.lean ====
section
/-! SUPPORT. What the checks of an access change: cached translations, the A and D bits of page-table entries, and the
model's count of free values; and the place of an aligned access. -/

namespace Sys2Proof

namespace Machine

/-- From s to t, only caches, page-table entries and the writes of them, and the count of free values changed. -/
structure AccessFrame (s t : State) : Prop where
  state : t = { s with harts := t.harts, mem := t.mem, fresh := t.fresh, walks := t.walks }
  harts : ∀ g, hartOf t g = { hartOf s g with tlb := (hartOf t g).tlb, tlb2 := (hartOf t g).tlb2 }
  mem   : MemFrame s.mem t.mem

theorem AccessFrame.refl (s : State) : AccessFrame s s := ⟨rfl, fun _ => rfl, .refl _⟩

theorem AccessFrame.trans {s t u : State} (h : AccessFrame s t) (k : AccessFrame t u) : AccessFrame s u := by
  refine ⟨?_, fun g => ?_, h.mem.trans k.mem⟩
  · rw [k.state, h.state]
  · rw [k.harts g, h.harts g]

theorem AccessFrame.cur {s t : State} (h : AccessFrame s t) : t.cur = s.cur := by rw [h.state]

theorem AccessFrame.dev {s t : State} (h : AccessFrame s t) : t.dev = s.dev := by rw [h.state]

theorem AccessFrame.sched {s t : State} (h : AccessFrame s t) : t.sched = s.sched := by rw [h.state]

theorem AccessFrame.wf {s t : State} (h : AccessFrame s t) : Memory.wf s.mem = true → Memory.wf t.mem = true := h.mem.wf

/-- Looking for a leaf changes what its ways to look change, and performs writes of page-table entries. -/
theorem findLeaf_frame (k : Kind) (find : State → Except (Option BankNote) Leaf × State)
    (hf : ∀ s, AccessFrame s (find s).2) (n : Nat) (s : State) : AccessFrame s (findLeaf k find n s).2 := by
  induction n generalizing s with
  | zero => exact hf s
  | succ n ih =>
    have f := hf s
    unfold findLeaf
    split
    · rename_i e; rwa [e] at f
    · rename_i e
      rw [e] at f
      split
      · exact f
      · refine f.trans (AccessFrame.trans ?_ (ih _))
        exact ⟨rfl, fun _ => rfl, performWant_frame _ _ _⟩

/-- A leaf that no change concerns is found at once. -/
theorem findLeaf_done (k : Kind) (find : State → Except (Option BankNote) Leaf × State) (n : Nat) (s : State)
    (e : ∀ l, (find s).1 = .ok l → changedLeaf (find s).2 k l = none) : findLeaf k find n s = find s := by
  cases n with
  | zero => rfl
  | succ n =>
    unfold findLeaf
    split
    · rename_i h; rw [h]
    · rename_i l s' h
      have e := e l (by rw [h])
      rw [h] at e
      simp only at e
      rw [e, h]

theorem walkOf_frame (s : State) (ctx : BitVec 16) (k : Kind) (va : Nat) : AccessFrame s (walkOf s ctx k va).2 :=
  findLeaf_frame k _ (fun s => .refl s) 6 s

theorem chooseLeaf_frame (va : Nat) (now : Except (Option BankNote) Leaf) (ls : List Leaf) (s : State) :
    AccessFrame s (chooseLeaf s va now ls).2 := by
  induction ls generalizing s with
  | nil => exact .refl s
  | cons l ls ih =>
    unfold chooseLeaf
    split
    · exact ih s
    · have f : AccessFrame s { s with fresh := s.fresh + 1 } := ⟨rfl, fun _ => rfl, .refl _⟩
      simp only []
      split
      · exact f
      · exact f.trans (ih _)

theorem translate_frame (s : State) (h : HartId) (ctx : BitVec 16) (k : Kind) (va : Nat) :
    AccessFrame s (translate s h ctx k va).2 :=
  findLeaf_frame k _ (fun s => chooseLeaf_frame _ (walkTable s ctx va) _ s) 6 s

theorem touch_frame (s : State) (k : Kind) (l : Leaf) : AccessFrame s (touch s k l) := by
  unfold touch
  split
  · exact .refl s
  · split
    · exact .refl s
    · exact ⟨rfl, fun _ => rfl, commitCells_frame _ _ _⟩

theorem cacheHart_frame (s : State) (h : HartId) (va : Nat) (e : TlbEntry) (w : Vector (List WalkEntry) 32) :
    AccessFrame s { modHart s h (cacheHart · va e) with walks := w } := by
  refine ⟨rfl, fun g => ?_, .refl _⟩
  show hartOf (modHart s h (cacheHart · va e)) g = _
  have : hartOf { modHart s h (cacheHart · va e) with walks := w } g = hartOf (modHart s h (cacheHart · va e)) g := rfl
  rw [this, hartOf_modHart]
  split <;> rfl

theorem remember_frame (s : State) (h : HartId) (ctx : BitVec 16) (k : Kind) (va : Nat) (l : Leaf) :
    AccessFrame s (remember s h ctx k va l) := by
  unfold remember
  split
  · exact .refl s
  · simp only []
    split
    · exact (touch_frame s k l).trans (cacheHart_frame _ h va _ _)
    · exact (touch_frame s k l).trans (cacheHart_frame _ h va _ (touch s k l).walks)

theorem rememberAll_frame (h : HartId) (ctx : BitVec 16) (k : Kind) (ms : List Mapped) (s : State) :
    AccessFrame s (rememberAll s h ctx k ms) := by
  induction ms generalizing s with
  | nil => exact .refl s
  | cons m ms ih =>
    obtain ⟨r, l⟩ := m
    cases l with
    | none => exact ih s
    | some l => exact (remember_frame s h ctx k _ l).trans (ih _)

theorem translateRuns_frame (h : HartId) (ctx : BitVec 16) (k : Kind) (rs : List (Nat × Nat)) (s : State) :
    AccessFrame s (translateRuns s h ctx k rs).2 := by
  induction rs generalizing s with
  | nil => exact .refl s
  | cons r rs ih =>
    unfold translateRuns
    simp only []
    split
    · have := ih s
      split <;> simp_all
    · have f := translate_frame s h ctx k r.1
      split
      · rename_i e; rw [e] at f; exact f
      · rename_i l s' e
        rw [e] at f
        have g := ih s'
        split <;> (rename_i e; rw [e] at g; exact f.trans g)

/-- Everything that the checks of an access change. -/
theorem checkAs_frame (s : State) (h : HartId) (ctx : BitVec 16) (priv : Bool) (k : Kind) (a : Int) (n : Nat) :
    AccessFrame s (checkAs s h ctx priv k a n).2 := by
  unfold checkAs
  split
  · exact .refl s
  · split
    · exact .refl s
    · simp only []
      split
      · exact .refl s
      · have f := translateRuns_frame h ctx k (runs a.toNat n) s
        split
        · rename_i e; rw [e] at f; exact f
        · rename_i ms s' e
          rw [e] at f
          split
          · exact f
          · split
            · exact f
            · exact f.trans (rememberAll_frame h ctx k ms s')

theorem checkAtomicAs_frame (s : State) (h : HartId) (ctx : BitVec 16) (priv : Bool) (a : Int) (n : Nat) :
    AccessFrame s (checkAtomicAs s h ctx priv a n).2 := by
  unfold checkAtomicAs
  split
  · exact .refl s
  · have f := checkAs_frame s h ctx priv .store a n
    split
    · rename_i e
      rw [e] at f
      split <;> exact f
    · exact f

/-! ## The checks of an instruction, which follow the hart's posted reductions -/

/-- From s to t, posted reductions of the hart were performed and recorded as well. -/
structure CheckFrame (s t : State) : Prop where
  state : t = { s with harts := t.harts, mem := t.mem, fresh := t.fresh, walks := t.walks
                       dev := { s.dev with banks := t.dev.banks } }
  harts : ∀ g, hartOf t g = { hartOf s g with tlb := (hartOf t g).tlb, tlb2 := (hartOf t g).tlb2, perf := (hartOf t g).perf }
  wf    : Memory.wf s.mem = true → Memory.wf t.mem = true

theorem CheckFrame.refl (s : State) : CheckFrame s s := ⟨rfl, fun _ => rfl, id⟩

theorem CheckFrame.trans {s t u : State} (h : CheckFrame s t) (k : CheckFrame t u) : CheckFrame s u := by
  refine ⟨?_, fun g => ?_, k.wf ∘ h.wf⟩
  · rw [k.state, h.state]
  · rw [k.harts g, h.harts g]

theorem AccessFrame.checks {s t : State} (f : AccessFrame s t) : CheckFrame s t := by
  refine ⟨?_, fun g => ?_, f.wf⟩
  · have := f.dev
    rw [f.state]
  · rw [f.harts g]

theorem CheckFrame.cur {s t : State} (h : CheckFrame s t) : t.cur = s.cur := by rw [h.state]

theorem CheckFrame.sched {s t : State} (h : CheckFrame s t) : t.sched = s.sched := by rw [h.state]

/-- A change of memory that keeps its canonical form. -/
theorem CheckFrame.ofMem (s : State) (m : Mem) (wf : Memory.wf s.mem = true → Memory.wf m = true) :
    CheckFrame s { s with mem := m } := ⟨rfl, fun _ => rfl, wf⟩

theorem recordError_checks (s : State) (b : Nat) (e : BankError) : CheckFrame s (recordError s b e) := by
  unfold recordError
  split
  · split
    · exact ⟨rfl, fun _ => rfl, id⟩
    · exact .refl s
  · exact .refl s

theorem recordNote_checks (s : State) (h : HartId) (n : Option BankNote) : CheckFrame s (recordNote s h n) := by
  unfold recordNote
  split
  · exact .refl s
  · exact recordError_checks s _ _
  · exact recordError_checks s _ _

theorem countRemote_checks (s : State) (h : HartId) (ps : List Piece) : CheckFrame s (countRemote s h ps) := by
  unfold countRemote
  split
  · refine ⟨rfl, fun g => ?_, id⟩
    rw [hartOf_modHart]
    split <;> rfl
  · exact .refl s

theorem performRed_checks (s : State) (p : Posted) (e : RedElem) : CheckFrame s (performRed s p e).2 := by
  unfold performRed
  simp only []
  have f := (checkAtomicAs_frame s p.hart p.ctx p.priv e.addr (etBytes p.et)).checks
  split
  · rename_i h
    rw [h] at f
    exact f.trans (recordNote_checks _ _ _)
  · rename_i h
    rw [h] at f
    split
    · exact f.trans ((CheckFrame.ofMem _ _ (atomicUpdate_frame _ _ _ _ _ _ _).wf).trans (countRemote_checks _ _ _))
    · exact f

theorem finishRed_checks (es : List RedElem) (s : State) (p : Posted) : CheckFrame s (finishRed s p es).2 := by
  induction es generalizing s p with
  | nil => exact .refl s
  | cons e es ih => exact (performRed_checks s p e).trans (ih _ _)

theorem settleRed_checks (ps : List Piece) (s : State) (p : Posted) : CheckFrame s (settleRed ps s p) := by
  unfold settleRed
  simp only []
  split
  · exact .refl s
  · exact (finishRed_checks _ s p).trans (CheckFrame.ofMem _ _ id)

/-- Everything that performing a hart's posted reductions on some bytes changes. -/
theorem settleReds_checks (s : State) (h : HartId) (ps : List Piece) : CheckFrame s (settleReds s h ps) := by
  unfold settleReds
  generalize s.mem.posted.filter _ = l
  induction l generalizing s with
  | nil => exact .refl s
  | cons p l ih => exact (settleRed_checks ps s p).trans (ih _)

/-- Everything that the checks of an access by an instruction change. -/
theorem check_frame (s : State) (h : HartId) (k : Kind) (a : Int) (n : Nat) : CheckFrame s (check s h k a n).2 := by
  have f := (checkAs_frame s h (hartOf s h).ctxid (hartOf s h).priv k a n).checks
  unfold check
  generalize checkAs s h (hartOf s h).ctxid (hartOf s h).priv k a n = r at f
  obtain ⟨r, t⟩ := r
  cases r with
  | error _ => exact f
  | ok ps => exact f.trans (settleReds_checks t h ps)

theorem check_frame_of {s s' : State} {h : HartId} {k : Kind} {a : Int} {n : Nat} {r : Except Fail (List Piece)}
    (e : check s h k a n = (r, s')) : CheckFrame s s' := by
  have := check_frame s h k a n
  rwa [e] at this

/-- Without posted reductions nothing is performed before an access. -/
theorem settleReds_nil (s : State) (h : HartId) (ps : List Piece) (e : ∀ p ∈ s.mem.posted, p.hart ≠ h) :
    settleReds s h ps = s := by
  have : s.mem.posted.filter (fun p => p.hart == h) = [] := by simpa using e
  simp [settleReds, this]

theorem behindReds_nil (h : HartId) (r : Except Fail (List Piece) × State) (e : ∀ p ∈ r.2.mem.posted, p.hart ≠ h) :
    behindReds h r = r := by
  obtain ⟨r, t⟩ := r
  cases r with
  | error _ => rfl
  | ok ps => simp [behindReds, settleReds_nil t h ps e]

/-- A hart without posted reductions makes an access as its checks leave it. -/
theorem check_eq (s : State) (h : HartId) (k : Kind) (a : Int) (n : Nat) (e : ∀ p ∈ s.mem.posted, p.hart ≠ h) :
    check s h k a n = checkAs s h (hartOf s h).ctxid (hartOf s h).priv k a n := by
  refine behindReds_nil h _ ?_
  have f := (checkAs_frame s h (hartOf s h).ctxid (hartOf s h).priv k a n).mem.eq
  rw [f]
  exact e

theorem checkAtomic_eq (s : State) (h : HartId) (ctx : BitVec 16) (priv : Bool) (a : Int) (n : Nat)
    (e : ∀ p ∈ s.mem.posted, p.hart ≠ h) : checkAtomic s h ctx priv a n = checkAtomicAs s h ctx priv a n := by
  refine behindReds_nil h _ ?_
  rw [(checkAtomicAs_frame s h ctx priv a n).mem.eq]
  exact e

/-- An instruction's checks succeed exactly with the pieces of the checks alone. -/
theorem check_ok {s s' : State} {h : HartId} {k : Kind} {a : Int} {n : Nat} {ps : List Piece}
    (e : check s h k a n = (.ok ps, s')) :
    ∃ t, checkAs s h (hartOf s h).ctxid (hartOf s h).priv k a n = (.ok ps, t) ∧ s' = settleReds t h ps := by
  unfold check at e
  generalize checkAs s h (hartOf s h).ctxid (hartOf s h).priv k a n = r at e
  obtain ⟨r, t⟩ := r
  cases r with
  | error _ => simp [behindReds] at e
  | ok qs =>
    simp only [behindReds, Prod.mk.injEq, Except.ok.injEq] at e
    obtain ⟨rfl, rfl⟩ := e
    exact ⟨t, rfl, rfl⟩

/-! ## Early reads given up -/

@[simp] theorem forgetPieces_cur (s : State) (h : HartId) (ps : List Piece) : (forgetPieces s h ps).cur = s.cur := rfl
@[simp] theorem forgetPieces_harts (s : State) (h : HartId) (ps : List Piece) : (forgetPieces s h ps).harts = s.harts := rfl
@[simp] theorem forgetPieces_sched (s : State) (h : HartId) (ps : List Piece) : (forgetPieces s h ps).sched = s.sched := rfl
@[simp] theorem forgetPieces_dev (s : State) (h : HartId) (ps : List Piece) : (forgetPieces s h ps).dev = s.dev := rfl
@[simp] theorem forgetPieces_hartOf (s : State) (h : HartId) (ps : List Piece) (g : HartId) : hartOf (forgetPieces s h ps) g = hartOf s g := rfl
@[simp] theorem forgetPieces_posted (s : State) (h : HartId) (ps : List Piece) : (forgetPieces s h ps).mem.posted = s.mem.posted := rfl
@[simp] theorem acquireOn_cur (s : State) (h : HartId) (p : Path) : (acquireOn s h p).cur = s.cur := rfl
@[simp] theorem acquireOn_harts (s : State) (h : HartId) (p : Path) : (acquireOn s h p).harts = s.harts := rfl
@[simp] theorem acquireOn_sched (s : State) (h : HartId) (p : Path) : (acquireOn s h p).sched = s.sched := rfl
@[simp] theorem acquireOn_dev (s : State) (h : HartId) (p : Path) : (acquireOn s h p).dev = s.dev := rfl
@[simp] theorem acquireOn_hartOf (s : State) (h : HartId) (p : Path) (g : HartId) : hartOf (acquireOn s h p) g = hartOf s g := rfl
@[simp] theorem acquireOn_posted (s : State) (h : HartId) (p : Path) : (acquireOn s h p).mem.posted = s.mem.posted := rfl
@[simp] theorem acquirePieces_cur (s : State) (h : HartId) (ps : List Piece) : (acquirePieces s h ps).cur = s.cur := rfl
@[simp] theorem acquirePieces_harts (s : State) (h : HartId) (ps : List Piece) : (acquirePieces s h ps).harts = s.harts := rfl
@[simp] theorem acquirePieces_sched (s : State) (h : HartId) (ps : List Piece) : (acquirePieces s h ps).sched = s.sched := rfl
@[simp] theorem acquirePieces_dev (s : State) (h : HartId) (ps : List Piece) : (acquirePieces s h ps).dev = s.dev := rfl
@[simp] theorem acquirePieces_hartOf (s : State) (h : HartId) (ps : List Piece) (g : HartId) : hartOf (acquirePieces s h ps) g = hartOf s g := rfl
@[simp] theorem acquirePieces_posted (s : State) (h : HartId) (ps : List Piece) : (acquirePieces s h ps).mem.posted = s.mem.posted := rfl
@[simp] theorem forgetPaths_cur (s : State) (h : HartId) (p : Path → Bool) : (forgetPaths s h p).cur = s.cur := rfl
@[simp] theorem forgetPaths_harts (s : State) (h : HartId) (p : Path → Bool) : (forgetPaths s h p).harts = s.harts := rfl
@[simp] theorem forgetPaths_sched (s : State) (h : HartId) (p : Path → Bool) : (forgetPaths s h p).sched = s.sched := rfl
@[simp] theorem forgetPaths_dev (s : State) (h : HartId) (p : Path → Bool) : (forgetPaths s h p).dev = s.dev := rfl
@[simp] theorem forgetPaths_hartOf (s : State) (h : HartId) (p : Path → Bool) (g : HartId) : hartOf (forgetPaths s h p) g = hartOf s g := rfl
@[simp] theorem forgetPaths_posted (s : State) (h : HartId) (p : Path → Bool) : (forgetPaths s h p).mem.posted = s.mem.posted := rfl
@[simp] theorem forgetAll_cur (s : State) (h : HartId) : (forgetAll s h).cur = s.cur := rfl
@[simp] theorem forgetAll_harts (s : State) (h : HartId) : (forgetAll s h).harts = s.harts := rfl
@[simp] theorem forgetAll_sched (s : State) (h : HartId) : (forgetAll s h).sched = s.sched := rfl
@[simp] theorem forgetAll_dev (s : State) (h : HartId) : (forgetAll s h).dev = s.dev := rfl
@[simp] theorem forgetAll_hartOf (s : State) (h : HartId) (g : HartId) : hartOf (forgetAll s h) g = hartOf s g := rfl
@[simp] theorem forgetAll_posted (s : State) (h : HartId) : (forgetAll s h).mem.posted = s.mem.posted := rfl

/-- Giving up early reads changes nothing when there are none. -/
theorem forgetting_nil (s : State) (h : HartId) (p : Nat → Bool) (e : s.mem.early = []) :
    { s with mem := forget s.mem h p } = s := by rw [forget_nil _ _ _ e]

/-! ## The place of an aligned access -/

/-- An access within one 1 KiB block is one run. -/
theorem runs_one (a n : Nat) (h0 : n ≠ 0) (h : a % 1024 + n ≤ 1024) : runs a n = [(a, n)] := by
  have e : min n (1024 - a % 1024) = n := by omega
  simp [runs, runsOf, h0, e]

theorem translateRuns_runs (h : HartId) (ctx : BitVec 16) (k : Kind) (rs : List (Nat × Nat)) (s : State)
    (ms : List Mapped) (e : (translateRuns s h ctx k rs).1 = .ok ms) : ms.map (·.1) = rs := by
  induction rs generalizing s ms with
  | nil => simp [translateRuns] at e; subst e; rfl
  | cons r rs ih =>
    unfold translateRuns at e
    simp only [] at e
    split at e
    · split at e
      · rename_i ms' s' e'
        have := ih s ms' (by rw [e'])
        simp at e
        subst e
        simp [this]
      · simp at e
    · split at e
      · simp at e
      · rename_i l s' _
        split at e
        · rename_i ms' s'' e'
          have := ih s' ms' (by rw [e'])
          simp at e
          subst e
          simp [this]
        · simp at e

theorem pieceOf_run (s : State) (ctx : BitVec 16) (m : Mapped) :
    (pieceOf s ctx m).va = m.1.1 ∧ (pieceOf s ctx m).len = m.1.2 := by
  obtain ⟨⟨a, n⟩, l⟩ := m
  cases l with
  | some l => exact ⟨rfl, rfl⟩
  | none =>
    unfold pieceOf
    simp only []
    split <;> exact ⟨rfl, rfl⟩

/-- The pieces of an access are its runs, in order. -/
theorem checkAs_runs (s s' : State) (h : HartId) (ctx : BitVec 16) (priv : Bool) (k : Kind) (a : Int) (n : Nat)
    (ps : List Piece) (e : checkAs s h ctx priv k a n = (.ok ps, s')) :
    0 ≤ a ∧ ps.map (fun p => (p.va, p.len)) = runs a.toNat n := by
  unfold checkAs at e
  split at e
  · simp at e
  · rename_i ha
    refine ⟨by omega, ?_⟩
    split at e
    · simp at e
    · simp only [] at e
      split at e
      · simp at e
      · split at e
        · simp at e
        · rename_i ms s1 em
          split at e
          · simp at e
          · split at e
            · simp at e
            · simp only [Prod.mk.injEq, Except.ok.injEq] at e
              obtain ⟨e, -⟩ := e
              subst e
              have := translateRuns_runs h ctx k _ s ms (by rw [em])
              rw [← this, List.map_map]
              apply List.map_congr_left
              intro m _
              simp [pieceOf_run]

/-- A naturally aligned access of 1, 2, 4, 8 or 64 bytes is one piece. -/
theorem check_aligned (s s' : State) (h : HartId) (k : Kind) (a : Int) (n : Nat) (ps : List Piece)
    (hn : n = 1 ∨ n = 2 ∨ n = 4 ∨ n = 8 ∨ n = 64) (ha : a % n = 0) (e : check s h k a n = (.ok ps, s')) :
    ∃ p, ps = [p] ∧ p.va = a.toNat ∧ p.len = n := by
  obtain ⟨t, e, -⟩ := check_ok e
  obtain ⟨h0, hr⟩ := checkAs_runs s t h _ _ k a n ps e
  have hm : a.toNat % n = 0 := by
    rcases hn with rfl | rfl | rfl | rfl | rfl <;> omega
  rw [runs_one a.toNat n (by omega) (by rcases hn with rfl | rfl | rfl | rfl | rfl <;> omega)] at hr
  match ps, hr with
  | [p], hr =>
    simp at hr
    exact ⟨p, rfl, hr.1, hr.2⟩
  | _ :: _ :: _, hr => simp at hr

end Machine

end Sys2Proof
end

