-- ==== Sys2Proof/Laws/Commit.lean ====
section
/-! SUPPORT. Commitment in the terms of claims, and the queue when it is empty. -/

namespace Sys2Proof

namespace Safety

open Machine

@[simp] theorem me_modHart (s : State) (f : Hart → Hart) : me (modHart s s.cur f) = f (me s) := by simp [me]

/-- An update that commits one instruction with a result. -/
theorem committed_modHart (s : State) (h : HartId) (pc : Word) (rd : XReg) (v : Word) (f : Hart → Hart) (e : h = s.cur)
    (hf : f (me s) = setX (commitAt (me s) pc) rd v) : Committed s (modHart s h f) pc rd v := by
  subst e
  have e : me (modHart s s.cur f) = setX (commitAt (me s) pc) rd v := by rw [me_modHart, hf]
  constructor
  · rw [e]; simp only [withMe, modHart]; rw [← hf]; rfl
  · rw [e]
    have h1 := setX_csr (commitAt (me s) pc) rd v
    generalize hs : setX (commitAt (me s) pc) rd v = b at *
    have : b = { commitAt (me s) pc with x := b.x, csr := b.csr } := by
      subst hs; unfold setX nameLast putX; split <;> rfl
    rw [this, h1]
    simp [commitAt, countPerf]
  · intro r; rw [e]; simp [readX_setX]
  · intro k; rw [e]; simp [commitAt, countPerf, counterAfter, countOne, word]

/-- The same without a result. -/
theorem committed_commitAt (s : State) (h : HartId) (pc : Word) (f : Hart → Hart) (e : h = s.cur)
    (hf : f (me s) = commitAt (me s) pc) : Committed s (modHart s h f) pc 0 0 :=
  committed_modHart s h pc 0 0 f e (by simpa using hf)

/-- When a test does not hold nothing is waited for. -/
theorem settledWhile_done (s : State) (h : HartId) (busy : State → Bool) (k : State → State) (e : busy s = false) :
    settledWhile s h busy k = k s := by
  unfold settledWhile
  cases (hartOf s h).queue.length <;> simp [runWhile, e]

/-- With an empty queue nothing is waited for. -/
theorem settledWhile_empty (s : State) (h : HartId) (busy : State → Bool) (k : State → State)
    (e : (hartOf s h).queue = []) : settledWhile s h busy k = k s := by simp [settledWhile, e, runWhile]

theorem settledBy_empty (s : State) (h : HartId) (busy : Entry → Bool) (k : State → State) (e : (hartOf s h).queue = []) :
    settledBy s h busy k = k s := settledWhile_empty s h _ k e

theorem drained_empty (s : State) (h : HartId) (k : State → State) (e : (hartOf s h).queue = []) : drained s h k = k s :=
  settledBy_empty s h _ k e

theorem settledX_empty (s : State) (h : HartId) (rs : List XReg) (k : State → State) (e : (hartOf s h).queue = []) :
    settledX s h rs k = k s := settledBy_empty s h _ k e

theorem settledMem_empty (s : State) (h : HartId) (rs : List XReg) (k : State → State) (e : (hartOf s h).queue = []) :
    settledMem s h rs k = k s := settledBy_empty s h _ k e

theorem settledV_empty (s : State) (h : HartId) (rs : List XReg) (b n : Nat) (k : State → State)
    (e : (hartOf s h).queue = []) : settledV s h rs b n k = k s := settledBy_empty s h _ k e

theorem settledW_empty (s : State) (h : HartId) (k : State → State) (e : (hartOf s h).queue = []) :
    settledW s h k = k s := settledBy_empty s h _ k e

theorem settledAccess_empty (s : State) (h : HartId) (rs : List XReg) (rel : Bool) (n : Nat) (addr : Hart → Int)
    (k : State → State) (e : (hartOf s h).queue = []) : settledAccess s h rs rel n addr k = k s := by
  unfold settledAccess
  rw [settledX_empty s h rs _ e, settledWhile_empty s h _ k e]

theorem settledPaths_empty (s : State) (h : HartId) (p : Path → Bool) (k : State → State) (e : (hartOf s h).queue = []) :
    settledPaths s h p k = k s := settledWhile_empty s h _ k e

/-- No pending entry, no access of one. -/
theorem anyAhead_empty (s : State) (h : HartId) (test : Path → Option Piece → Bool) (e : (hartOf s h).queue = []) :
    anyAhead s h test = false := by simp [anyAhead, e, anyInQueue]

/-- When no pending entry passes the test nothing is waited for. -/
theorem settledBy_done (s : State) (h : HartId) (busy : Entry → Bool) (k : State → State)
    (e : (hartOf s h).queue.any busy = false) : settledBy s h busy k = k s := settledWhile_done s h _ k e

theorem settledX_done (s : State) (h : HartId) (rs : List XReg) (k : State → State)
    (e : pendingX (hartOf s h) rs = false) : settledX s h rs k = k s := settledBy_done s h _ k e

end Safety

end Sys2Proof
end

