-- ==== Sys2Proof/Laws/Encode.lean ====
section
/-! SUPPORT. The fields of the words that the encoder makes (R69, R77, R91), and bytes of words (R3). -/

namespace Sys2Proof

@[simp] theorem xr_val (r : XReg) : xr r.val = r := by
  simp [xr, Nat.mod_eq_of_lt r.isLt]

@[simp] theorem vr_val (r : VReg) : vr r.val = r := by
  simp [vr, Nat.mod_eq_of_lt r.isLt]

@[simp] theorem wr_val (r : WReg) : wr r.val = r := by
  simp [wr, Nat.mod_eq_of_lt r.isLt]

@[simp] theorem rmOf_val (r : Rm) : rmOf r.val = r := by
  simp [rmOf, Nat.mod_eq_of_lt r.isLt]

@[simp] theorem scopeOf_code (s : Scope) : scopeOf s.code = some s := by cases s <;> rfl

@[simp] theorem orderOf_code (o : Order) : orderOf o.code = o := by cases o <;> rfl

theorem Scope.code_lt (s : Scope) : s.code < 5 := by cases s <;> decide

theorem Order.code_lt (o : Order) : o.code < 4 := by cases o <;> decide

/-! ## 64-bit words -/

/-- The fields of a word are those it was made of (R91). -/
theorem vfields_word64 (f : VFields) (h1 : f.op8 < 256) (h2 : f.unit < 8) (h3 : f.vd < 64) (h4 : f.va < 64)
    (h5 : f.vb < 64) (h6 : f.vc < 64) (h7 : f.ws < 16) (h8 : f.form < 4) (h9 : f.rm < 8) (h10 : f.u < 2)
    (h11 : f.ud < 4) (h12 : f.imm < 1024) : vfields (word64 f) = f := by
  obtain ⟨op8, unit, vd, va, vb, vc, ws, form, rm, u, ud, imm⟩ := f
  simp only [vfields, word64, fld, VFields.mk.injEq] at *
  refine ⟨?_, ?_, ?_, ?_, ?_, ?_, ?_, ?_, ?_, ?_, ?_, ?_⟩ <;> omega

/-- Such a word is eight bytes long (R69). -/
theorem word64_length (f : VFields) : lengthOf (word64 f) = 8 := by
  have : word64 f % 4 = 3 ∧ word64 f / 4 % 32 = 31 := by simp only [word64]; omega
  simp [lengthOf, this]

theorem word64_lt (f : VFields) (h1 : f.op8 < 256) (h2 : f.unit < 8) (h3 : f.vd < 64) (h4 : f.va < 64)
    (h5 : f.vb < 64) (h6 : f.vc < 64) (h7 : f.ws < 16) (h8 : f.form < 4) (h9 : f.rm < 8) (h10 : f.u < 2)
    (h11 : f.ud < 4) (h12 : f.imm < 1024) : word64 f < 2 ^ 64 := by
  simp only [word64]; omega

/-- The fields fit their places (R91). -/
def VFields.InRange (f : VFields) : Prop :=
  f.op8 < 256 ∧ f.unit < 8 ∧ f.vd < 64 ∧ f.va < 64 ∧ f.vb < 64 ∧ f.vc < 64 ∧ f.ws < 16 ∧ f.form < 4 ∧ f.rm < 8
    ∧ f.u < 2 ∧ f.ud < 4 ∧ f.imm < 1024

/-- What a word of fields decodes to is what the fields decode to. -/
theorem round64 (f : VFields) (i : Instr) (hr : f.InRange) (hd : decodeFields f = .ok i) :
    2 ≤ 8 ∧ lengthOf (word64 f) = 8 ∧ word64 f < 2 ^ (8 * 8) ∧ decodeWord 8 (word64 f) = .ok i := by
  obtain ⟨h1, h2, h3, h4, h5, h6, h7, h8, h9, h10, h11, h12⟩ := hr
  refine ⟨by omega, word64_length f, ?_, ?_⟩
  · exact word64_lt f h1 h2 h3 h4 h5 h6 h7 h8 h9 h10 h11 h12
  · simp only [decodeWord, decode64, vfields_word64 f h1 h2 h3 h4 h5 h6 h7 h8 h9 h10 h11 h12]
    exact hd

/-! ## 32-bit words -/

theorem wordSR_fields (major f4 f6 : Nat) (rd ra rb : XReg) (h1 : major < 31) (h2 : f4 < 16) (h3 : f6 < 64) :
    fld (wordSR major f4 rd ra rb f6) 2 5 = major ∧ fld (wordSR major f4 rd ra rb f6) 7 4 = f4
    ∧ fld (wordSR major f4 rd ra rb f6) 11 5 = rd.val ∧ fld (wordSR major f4 rd ra rb f6) 16 5 = ra.val
    ∧ fld (wordSR major f4 rd ra rb f6) 21 5 = rb.val ∧ fld (wordSR major f4 rd ra rb f6) 26 6 = f6 := by
  simp only [wordSR, fld]
  refine ⟨?_, ?_, ?_, ?_, ?_, ?_⟩ <;> omega

theorem wordSI_fields (major f4 : Nat) (rd ra : XReg) (imm : BitVec 11) (h1 : major < 31) (h2 : f4 < 16) :
    fld (wordSI major f4 rd ra imm) 2 5 = major ∧ fld (wordSI major f4 rd ra imm) 7 4 = f4
    ∧ fld (wordSI major f4 rd ra imm) 11 5 = rd.val ∧ fld (wordSI major f4 rd ra imm) 16 5 = ra.val
    ∧ fld (wordSI major f4 rd ra imm) 21 11 = imm.toNat ∧ fld (wordSI major f4 rd ra imm) 21 6 = imm.toNat % 64
    ∧ fld (wordSI major f4 rd ra imm) 27 5 = imm.toNat / 64 := by
  simp only [wordSI, fld]
  refine ⟨?_, ?_, ?_, ?_, ?_, ?_, ?_⟩ <;> omega

theorem wordSU_fields (major : Nat) (rd : XReg) (imm : BitVec 20) (h1 : major < 31) :
    fld (wordSU major rd imm) 2 5 = major ∧ fld (wordSU major rd imm) 7 4 = imm.toNat % 16
    ∧ fld (wordSU major rd imm) 11 5 = rd.val ∧ fld (wordSU major rd imm) 16 16 = imm.toNat / 16 := by
  simp only [wordSU, fld]
  refine ⟨?_, ?_, ?_, ?_⟩ <;> omega

/-- A word with bits [1:0] = 0b11 and [6:2] below 31 is four bytes long (R69). -/
theorem length4 (w : Nat) (h1 : w % 4 = 3) (h2 : fld w 2 5 < 31) : lengthOf w = 4 := by
  have : w / 4 % 32 ≠ 31 := by simp only [fld] at h2; omega
  simp [lengthOf, h1, this]

/-- A word with other bits [1:0] is two bytes long (R69). -/
theorem length2 (w : Nat) (h1 : w % 4 ≠ 3) : lengthOf w = 2 := by simp [lengthOf, h1]

/-! ## Bytes (R3) -/

@[simp] theorem leBytes_length (n w : Nat) : (leBytes n w).length = n := by
  induction n generalizing w with
  | zero => rfl
  | succ n ih => simp [leBytes, ih]

/-- The value of the n bytes of a number. -/
theorem leValue_leBytes (n w : Nat) : leValue (leBytes n w) = w % 2 ^ (8 * n) := by
  induction n generalizing w with
  | zero => simp [leBytes, leValue, Nat.mod_one]
  | succ n ih =>
    have : 2 ^ (8 * (n + 1)) = 256 * 2 ^ (8 * n) := by rw [Nat.mul_add, Nat.pow_add]; ring
    simp only [leBytes, leValue, ih, this, BitVec.toNat_ofNat]
    rw [Nat.mod_mul]

theorem leValue_lt (bs : List Byte) : leValue bs < 2 ^ (8 * bs.length) := by
  induction bs with
  | nil => simp [leValue]
  | cons b bs ih =>
    have : 2 ^ (8 * (bs.length + 1)) = 256 * 2 ^ (8 * bs.length) := by rw [Nat.mul_add, Nat.pow_add]; ring
    have := b.isLt
    simp only [leValue, List.length_cons]
    omega

theorem leBytes_take2 (n w : Nat) (h : 2 ≤ n) : leValue ((leBytes n w).take 2) = w % 2 ^ 16 := by
  obtain ⟨m, rfl⟩ := Nat.exists_eq_add_of_le' h
  simp [leBytes, leValue]
  omega

/-- The length that a word's first parcel gives is the word's. -/
theorem lengthOf_mod (w : Nat) : lengthOf (w % 2 ^ 16) = lengthOf w := by
  have h1 : w % 2 ^ 16 % 4 = w % 4 := by omega
  have h2 : w % 2 ^ 16 / 4 % 32 = w / 4 % 32 := by omega
  simp only [lengthOf, h1, h2]

/-- What the decoder reads from a word laid out as the hardware stores it, with anything after it. -/
theorem decodeBytes_leBytes (i : Instr) (len w : Nat) (rest : List Byte) (h0 : 2 ≤ len) (h1 : lengthOf w = len)
    (h2 : w < 2 ^ (8 * len)) (h3 : decodeWord len w = .ok i) :
    decodeBytes (leBytes len w ++ rest) = .ok (i, len, rest) := by
  have a : ((leBytes len w ++ rest).take 2) = (leBytes len w).take 2 := by
    rw [List.take_append_of_le_length (by simpa using h0)]
  have b : (leBytes len w ++ rest).take len = leBytes len w := by
    rw [List.take_append_of_le_length (by simp)]; simp
  have c : (leBytes len w ++ rest).drop len = rest := by
    rw [List.drop_append_of_le_length (by simp)]; simp
  have l : ¬ (leBytes len w ++ rest).length < 2 := by simp; omega
  have l2 : ¬ (leBytes len w ++ rest).length < len := by simp
  simp only [decodeBytes, l, if_false, a, leBytes_take2 len w h0, lengthOf_mod, h1, l2, b, leValue_leBytes,
    Nat.mod_eq_of_lt h2, h3, c]

end Sys2Proof
end

