-- ==== Sys2Proof/Laws/PerInstr.lean ====
section
/-! SUPPORT. Facts about every instruction as syntax, one lemma for each constructor. -/

set_option linter.unusedSimpArgs false
set_option linter.unreachableTactic false
set_option linter.unusedVariables false

namespace Sys2Proof

namespace Laws.RoundTrip

/-- The word of a well-formed instruction has the length that its first parcel gives, and decodes to it (R69, R73). -/
def Statement (i : Instr) : Prop :=
  i.wellFormed = true → ∀ len w, encode i = some (len, w) →
    2 ≤ len ∧ lengthOf w = len ∧ w < 2 ^ (8 * len) ∧ decodeWord len w = .ok i

theorem ldb (rd : XReg) (ra : XReg) (imm : BitVec 11) : Statement (.ldb rd ra imm) := by
  rintro hw len w h
  cases h
  obtain ⟨h1, h2, h3, h4, h5, h6, h7⟩ := wordSI_fields 0 0 rd ra imm (by decide) (by decide)
  refine ⟨by decide, length4 _ (by simp only [wordSI]; omega) (by omega), by simp only [wordSI]; omega, ?_⟩
  simp [decodeWord, decode32, need, h1, h2, h3, h4, h5, h6, h7]

theorem ldh (rd : XReg) (ra : XReg) (imm : BitVec 11) : Statement (.ldh rd ra imm) := by
  rintro hw len w h
  cases h
  obtain ⟨h1, h2, h3, h4, h5, h6, h7⟩ := wordSI_fields 0 1 rd ra imm (by decide) (by decide)
  refine ⟨by decide, length4 _ (by simp only [wordSI]; omega) (by omega), by simp only [wordSI]; omega, ?_⟩
  simp [decodeWord, decode32, need, h1, h2, h3, h4, h5, h6, h7]

theorem ldw (rd : XReg) (ra : XReg) (imm : BitVec 11) : Statement (.ldw rd ra imm) := by
  rintro hw len w h
  cases h
  obtain ⟨h1, h2, h3, h4, h5, h6, h7⟩ := wordSI_fields 0 2 rd ra imm (by decide) (by decide)
  refine ⟨by decide, length4 _ (by simp only [wordSI]; omega) (by omega), by simp only [wordSI]; omega, ?_⟩
  simp [decodeWord, decode32, need, h1, h2, h3, h4, h5, h6, h7]

theorem ldd (rd : XReg) (ra : XReg) (imm : BitVec 11) : Statement (.ldd rd ra imm) := by
  rintro hw len w h
  cases h
  obtain ⟨h1, h2, h3, h4, h5, h6, h7⟩ := wordSI_fields 0 3 rd ra imm (by decide) (by decide)
  refine ⟨by decide, length4 _ (by simp only [wordSI]; omega) (by omega), by simp only [wordSI]; omega, ?_⟩
  simp [decodeWord, decode32, need, h1, h2, h3, h4, h5, h6, h7]

theorem ldbn (rd : XReg) (ra : XReg) (imm : BitVec 11) : Statement (.ldbn rd ra imm) := by
  rintro hw len w h
  cases h
  obtain ⟨h1, h2, h3, h4, h5, h6, h7⟩ := wordSI_fields 0 4 rd ra imm (by decide) (by decide)
  refine ⟨by decide, length4 _ (by simp only [wordSI]; omega) (by omega), by simp only [wordSI]; omega, ?_⟩
  simp [decodeWord, decode32, need, h1, h2, h3, h4, h5, h6, h7]

theorem ldhn (rd : XReg) (ra : XReg) (imm : BitVec 11) : Statement (.ldhn rd ra imm) := by
  rintro hw len w h
  cases h
  obtain ⟨h1, h2, h3, h4, h5, h6, h7⟩ := wordSI_fields 0 5 rd ra imm (by decide) (by decide)
  refine ⟨by decide, length4 _ (by simp only [wordSI]; omega) (by omega), by simp only [wordSI]; omega, ?_⟩
  simp [decodeWord, decode32, need, h1, h2, h3, h4, h5, h6, h7]

theorem ldwn (rd : XReg) (ra : XReg) (imm : BitVec 11) : Statement (.ldwn rd ra imm) := by
  rintro hw len w h
  cases h
  obtain ⟨h1, h2, h3, h4, h5, h6, h7⟩ := wordSI_fields 0 6 rd ra imm (by decide) (by decide)
  refine ⟨by decide, length4 _ (by simp only [wordSI]; omega) (by omega), by simp only [wordSI]; omega, ?_⟩
  simp [decodeWord, decode32, need, h1, h2, h3, h4, h5, h6, h7]

theorem stb (rb : XReg) (ra : XReg) (imm : BitVec 11) : Statement (.stb rb ra imm) := by
  rintro hw len w h
  cases h
  obtain ⟨h1, h2, h3, h4, h5, h6, h7⟩ := wordSI_fields 1 0 rb ra imm (by decide) (by decide)
  refine ⟨by decide, length4 _ (by simp only [wordSI]; omega) (by omega), by simp only [wordSI]; omega, ?_⟩
  simp [decodeWord, decode32, need, h1, h2, h3, h4, h5, h6, h7]

theorem sth (rb : XReg) (ra : XReg) (imm : BitVec 11) : Statement (.sth rb ra imm) := by
  rintro hw len w h
  cases h
  obtain ⟨h1, h2, h3, h4, h5, h6, h7⟩ := wordSI_fields 1 1 rb ra imm (by decide) (by decide)
  refine ⟨by decide, length4 _ (by simp only [wordSI]; omega) (by omega), by simp only [wordSI]; omega, ?_⟩
  simp [decodeWord, decode32, need, h1, h2, h3, h4, h5, h6, h7]

theorem stw (rb : XReg) (ra : XReg) (imm : BitVec 11) : Statement (.stw rb ra imm) := by
  rintro hw len w h
  cases h
  obtain ⟨h1, h2, h3, h4, h5, h6, h7⟩ := wordSI_fields 1 2 rb ra imm (by decide) (by decide)
  refine ⟨by decide, length4 _ (by simp only [wordSI]; omega) (by omega), by simp only [wordSI]; omega, ?_⟩
  simp [decodeWord, decode32, need, h1, h2, h3, h4, h5, h6, h7]

theorem std (rb : XReg) (ra : XReg) (imm : BitVec 11) : Statement (.std rb ra imm) := by
  rintro hw len w h
  cases h
  obtain ⟨h1, h2, h3, h4, h5, h6, h7⟩ := wordSI_fields 1 3 rb ra imm (by decide) (by decide)
  refine ⟨by decide, length4 _ (by simp only [wordSI]; omega) (by omega), by simp only [wordSI]; omega, ?_⟩
  simp [decodeWord, decode32, need, h1, h2, h3, h4, h5, h6, h7]

theorem addi (rd : XReg) (ra : XReg) (imm : BitVec 11) : Statement (.addi rd ra imm) := by
  rintro hw len w h
  cases h
  obtain ⟨h1, h2, h3, h4, h5, h6, h7⟩ := wordSI_fields 2 0 rd ra imm (by decide) (by decide)
  refine ⟨by decide, length4 _ (by simp only [wordSI]; omega) (by omega), by simp only [wordSI]; omega, ?_⟩
  simp [decodeWord, decode32, need, h1, h2, h3, h4, h5, h6, h7]

theorem andi (rd : XReg) (ra : XReg) (imm : BitVec 11) : Statement (.andi rd ra imm) := by
  rintro hw len w h
  cases h
  obtain ⟨h1, h2, h3, h4, h5, h6, h7⟩ := wordSI_fields 2 1 rd ra imm (by decide) (by decide)
  refine ⟨by decide, length4 _ (by simp only [wordSI]; omega) (by omega), by simp only [wordSI]; omega, ?_⟩
  simp [decodeWord, decode32, need, h1, h2, h3, h4, h5, h6, h7]

theorem ori (rd : XReg) (ra : XReg) (imm : BitVec 11) : Statement (.ori rd ra imm) := by
  rintro hw len w h
  cases h
  obtain ⟨h1, h2, h3, h4, h5, h6, h7⟩ := wordSI_fields 2 2 rd ra imm (by decide) (by decide)
  refine ⟨by decide, length4 _ (by simp only [wordSI]; omega) (by omega), by simp only [wordSI]; omega, ?_⟩
  simp [decodeWord, decode32, need, h1, h2, h3, h4, h5, h6, h7]

theorem xori (rd : XReg) (ra : XReg) (imm : BitVec 11) : Statement (.xori rd ra imm) := by
  rintro hw len w h
  cases h
  obtain ⟨h1, h2, h3, h4, h5, h6, h7⟩ := wordSI_fields 2 3 rd ra imm (by decide) (by decide)
  refine ⟨by decide, length4 _ (by simp only [wordSI]; omega) (by omega), by simp only [wordSI]; omega, ?_⟩
  simp [decodeWord, decode32, need, h1, h2, h3, h4, h5, h6, h7]

theorem shli (rd : XReg) (ra : XReg) (sh : BitVec 6) : Statement (.shli rd ra sh) := by
  rintro hw len w h
  cases h
  obtain ⟨h1, h2, h3, h4, h5, h6, h7⟩ := wordSI_fields 2 4 rd ra (sh.setWidth 11) (by decide) (by decide)
  refine ⟨by decide, length4 _ (by simp only [wordSI]; omega) (by omega), by simp only [wordSI]; omega, ?_⟩
  have e1 : (sh.setWidth 11).toNat % 64 = sh.toNat := by simp; omega
  have e2 : (sh.setWidth 11).toNat / 64 = 0 := by simp; omega
  rw [e1] at h6
  rw [e2] at h7
  simp [decodeWord, decode32, need, h1, h2, h3, h4, h5, h6, h7]

theorem shri (rd : XReg) (ra : XReg) (sh : BitVec 6) : Statement (.shri rd ra sh) := by
  rintro hw len w h
  cases h
  obtain ⟨h1, h2, h3, h4, h5, h6, h7⟩ := wordSI_fields 2 5 rd ra (sh.setWidth 11) (by decide) (by decide)
  refine ⟨by decide, length4 _ (by simp only [wordSI]; omega) (by omega), by simp only [wordSI]; omega, ?_⟩
  have e1 : (sh.setWidth 11).toNat % 64 = sh.toNat := by simp; omega
  have e2 : (sh.setWidth 11).toNat / 64 = 0 := by simp; omega
  rw [e1] at h6
  rw [e2] at h7
  simp [decodeWord, decode32, need, h1, h2, h3, h4, h5, h6, h7]

theorem shai (rd : XReg) (ra : XReg) (sh : BitVec 6) : Statement (.shai rd ra sh) := by
  rintro hw len w h
  cases h
  obtain ⟨h1, h2, h3, h4, h5, h6, h7⟩ := wordSI_fields 2 6 rd ra (sh.setWidth 11) (by decide) (by decide)
  refine ⟨by decide, length4 _ (by simp only [wordSI]; omega) (by omega), by simp only [wordSI]; omega, ?_⟩
  have e1 : (sh.setWidth 11).toNat % 64 = sh.toNat := by simp; omega
  have e2 : (sh.setWidth 11).toNat / 64 = 0 := by simp; omega
  rw [e1] at h6
  rw [e2] at h7
  simp [decodeWord, decode32, need, h1, h2, h3, h4, h5, h6, h7]

theorem slti (rd : XReg) (ra : XReg) (imm : BitVec 11) : Statement (.slti rd ra imm) := by
  rintro hw len w h
  cases h
  obtain ⟨h1, h2, h3, h4, h5, h6, h7⟩ := wordSI_fields 2 7 rd ra imm (by decide) (by decide)
  refine ⟨by decide, length4 _ (by simp only [wordSI]; omega) (by omega), by simp only [wordSI]; omega, ?_⟩
  simp [decodeWord, decode32, need, h1, h2, h3, h4, h5, h6, h7]

theorem sltni (rd : XReg) (ra : XReg) (imm : BitVec 11) : Statement (.sltni rd ra imm) := by
  rintro hw len w h
  cases h
  obtain ⟨h1, h2, h3, h4, h5, h6, h7⟩ := wordSI_fields 2 8 rd ra imm (by decide) (by decide)
  refine ⟨by decide, length4 _ (by simp only [wordSI]; omega) (by omega), by simp only [wordSI]; omega, ?_⟩
  simp [decodeWord, decode32, need, h1, h2, h3, h4, h5, h6, h7]

theorem add (rd : XReg) (ra : XReg) (rb : XReg) : Statement (.add rd ra rb) := by
  rintro hw len w h
  cases h
  obtain ⟨h1, h2, h3, h4, h5, h6⟩ := wordSR_fields 3 0 0 rd ra rb (by decide) (by decide) (by decide)
  refine ⟨by decide, length4 _ (by simp only [wordSR]; omega) (by omega), by simp only [wordSR]; omega, ?_⟩
  simp [decodeWord, decode32, need, h1, h2, h3, h4, h5, h6]

theorem sub (rd : XReg) (ra : XReg) (rb : XReg) : Statement (.sub rd ra rb) := by
  rintro hw len w h
  cases h
  obtain ⟨h1, h2, h3, h4, h5, h6⟩ := wordSR_fields 3 1 0 rd ra rb (by decide) (by decide) (by decide)
  refine ⟨by decide, length4 _ (by simp only [wordSR]; omega) (by omega), by simp only [wordSR]; omega, ?_⟩
  simp [decodeWord, decode32, need, h1, h2, h3, h4, h5, h6]

theorem and (rd : XReg) (ra : XReg) (rb : XReg) : Statement (.and rd ra rb) := by
  rintro hw len w h
  cases h
  obtain ⟨h1, h2, h3, h4, h5, h6⟩ := wordSR_fields 3 2 0 rd ra rb (by decide) (by decide) (by decide)
  refine ⟨by decide, length4 _ (by simp only [wordSR]; omega) (by omega), by simp only [wordSR]; omega, ?_⟩
  simp [decodeWord, decode32, need, h1, h2, h3, h4, h5, h6]

theorem or (rd : XReg) (ra : XReg) (rb : XReg) : Statement (.or rd ra rb) := by
  rintro hw len w h
  cases h
  obtain ⟨h1, h2, h3, h4, h5, h6⟩ := wordSR_fields 3 3 0 rd ra rb (by decide) (by decide) (by decide)
  refine ⟨by decide, length4 _ (by simp only [wordSR]; omega) (by omega), by simp only [wordSR]; omega, ?_⟩
  simp [decodeWord, decode32, need, h1, h2, h3, h4, h5, h6]

theorem xor (rd : XReg) (ra : XReg) (rb : XReg) : Statement (.xor rd ra rb) := by
  rintro hw len w h
  cases h
  obtain ⟨h1, h2, h3, h4, h5, h6⟩ := wordSR_fields 3 4 0 rd ra rb (by decide) (by decide) (by decide)
  refine ⟨by decide, length4 _ (by simp only [wordSR]; omega) (by omega), by simp only [wordSR]; omega, ?_⟩
  simp [decodeWord, decode32, need, h1, h2, h3, h4, h5, h6]

theorem shl (rd : XReg) (ra : XReg) (rb : XReg) : Statement (.shl rd ra rb) := by
  rintro hw len w h
  cases h
  obtain ⟨h1, h2, h3, h4, h5, h6⟩ := wordSR_fields 3 5 0 rd ra rb (by decide) (by decide) (by decide)
  refine ⟨by decide, length4 _ (by simp only [wordSR]; omega) (by omega), by simp only [wordSR]; omega, ?_⟩
  simp [decodeWord, decode32, need, h1, h2, h3, h4, h5, h6]

theorem shr (rd : XReg) (ra : XReg) (rb : XReg) : Statement (.shr rd ra rb) := by
  rintro hw len w h
  cases h
  obtain ⟨h1, h2, h3, h4, h5, h6⟩ := wordSR_fields 3 6 0 rd ra rb (by decide) (by decide) (by decide)
  refine ⟨by decide, length4 _ (by simp only [wordSR]; omega) (by omega), by simp only [wordSR]; omega, ?_⟩
  simp [decodeWord, decode32, need, h1, h2, h3, h4, h5, h6]

theorem sha (rd : XReg) (ra : XReg) (rb : XReg) : Statement (.sha rd ra rb) := by
  rintro hw len w h
  cases h
  obtain ⟨h1, h2, h3, h4, h5, h6⟩ := wordSR_fields 3 7 0 rd ra rb (by decide) (by decide) (by decide)
  refine ⟨by decide, length4 _ (by simp only [wordSR]; omega) (by omega), by simp only [wordSR]; omega, ?_⟩
  simp [decodeWord, decode32, need, h1, h2, h3, h4, h5, h6]

theorem slt (rd : XReg) (ra : XReg) (rb : XReg) : Statement (.slt rd ra rb) := by
  rintro hw len w h
  cases h
  obtain ⟨h1, h2, h3, h4, h5, h6⟩ := wordSR_fields 3 8 0 rd ra rb (by decide) (by decide) (by decide)
  refine ⟨by decide, length4 _ (by simp only [wordSR]; omega) (by omega), by simp only [wordSR]; omega, ?_⟩
  simp [decodeWord, decode32, need, h1, h2, h3, h4, h5, h6]

theorem sltn (rd : XReg) (ra : XReg) (rb : XReg) : Statement (.sltn rd ra rb) := by
  rintro hw len w h
  cases h
  obtain ⟨h1, h2, h3, h4, h5, h6⟩ := wordSR_fields 3 9 0 rd ra rb (by decide) (by decide) (by decide)
  refine ⟨by decide, length4 _ (by simp only [wordSR]; omega) (by omega), by simp only [wordSR]; omega, ?_⟩
  simp [decodeWord, decode32, need, h1, h2, h3, h4, h5, h6]

theorem min (rd : XReg) (ra : XReg) (rb : XReg) : Statement (.min rd ra rb) := by
  rintro hw len w h
  cases h
  obtain ⟨h1, h2, h3, h4, h5, h6⟩ := wordSR_fields 3 10 0 rd ra rb (by decide) (by decide) (by decide)
  refine ⟨by decide, length4 _ (by simp only [wordSR]; omega) (by omega), by simp only [wordSR]; omega, ?_⟩
  simp [decodeWord, decode32, need, h1, h2, h3, h4, h5, h6]

theorem max (rd : XReg) (ra : XReg) (rb : XReg) : Statement (.max rd ra rb) := by
  rintro hw len w h
  cases h
  obtain ⟨h1, h2, h3, h4, h5, h6⟩ := wordSR_fields 3 11 0 rd ra rb (by decide) (by decide) (by decide)
  refine ⟨by decide, length4 _ (by simp only [wordSR]; omega) (by omega), by simp only [wordSR]; omega, ?_⟩
  simp [decodeWord, decode32, need, h1, h2, h3, h4, h5, h6]

theorem minn (rd : XReg) (ra : XReg) (rb : XReg) : Statement (.minn rd ra rb) := by
  rintro hw len w h
  cases h
  obtain ⟨h1, h2, h3, h4, h5, h6⟩ := wordSR_fields 3 12 0 rd ra rb (by decide) (by decide) (by decide)
  refine ⟨by decide, length4 _ (by simp only [wordSR]; omega) (by omega), by simp only [wordSR]; omega, ?_⟩
  simp [decodeWord, decode32, need, h1, h2, h3, h4, h5, h6]

theorem maxn (rd : XReg) (ra : XReg) (rb : XReg) : Statement (.maxn rd ra rb) := by
  rintro hw len w h
  cases h
  obtain ⟨h1, h2, h3, h4, h5, h6⟩ := wordSR_fields 3 13 0 rd ra rb (by decide) (by decide) (by decide)
  refine ⟨by decide, length4 _ (by simp only [wordSR]; omega) (by omega), by simp only [wordSR]; omega, ?_⟩
  simp [decodeWord, decode32, need, h1, h2, h3, h4, h5, h6]

theorem mul (rd : XReg) (ra : XReg) (rb : XReg) : Statement (.mul rd ra rb) := by
  rintro hw len w h
  cases h
  obtain ⟨h1, h2, h3, h4, h5, h6⟩ := wordSR_fields 5 0 0 rd ra rb (by decide) (by decide) (by decide)
  refine ⟨by decide, length4 _ (by simp only [wordSR]; omega) (by omega), by simp only [wordSR]; omega, ?_⟩
  simp [decodeWord, decode32, need, h1, h2, h3, h4, h5, h6]

theorem mulh (rd : XReg) (ra : XReg) (rb : XReg) : Statement (.mulh rd ra rb) := by
  rintro hw len w h
  cases h
  obtain ⟨h1, h2, h3, h4, h5, h6⟩ := wordSR_fields 5 1 0 rd ra rb (by decide) (by decide) (by decide)
  refine ⟨by decide, length4 _ (by simp only [wordSR]; omega) (by omega), by simp only [wordSR]; omega, ?_⟩
  simp [decodeWord, decode32, need, h1, h2, h3, h4, h5, h6]

theorem mulhn (rd : XReg) (ra : XReg) (rb : XReg) : Statement (.mulhn rd ra rb) := by
  rintro hw len w h
  cases h
  obtain ⟨h1, h2, h3, h4, h5, h6⟩ := wordSR_fields 5 2 0 rd ra rb (by decide) (by decide) (by decide)
  refine ⟨by decide, length4 _ (by simp only [wordSR]; omega) (by omega), by simp only [wordSR]; omega, ?_⟩
  simp [decodeWord, decode32, need, h1, h2, h3, h4, h5, h6]

theorem div (rd : XReg) (ra : XReg) (rb : XReg) : Statement (.div rd ra rb) := by
  rintro hw len w h
  cases h
  obtain ⟨h1, h2, h3, h4, h5, h6⟩ := wordSR_fields 5 3 0 rd ra rb (by decide) (by decide) (by decide)
  refine ⟨by decide, length4 _ (by simp only [wordSR]; omega) (by omega), by simp only [wordSR]; omega, ?_⟩
  simp [decodeWord, decode32, need, h1, h2, h3, h4, h5, h6]

theorem divn (rd : XReg) (ra : XReg) (rb : XReg) : Statement (.divn rd ra rb) := by
  rintro hw len w h
  cases h
  obtain ⟨h1, h2, h3, h4, h5, h6⟩ := wordSR_fields 5 4 0 rd ra rb (by decide) (by decide) (by decide)
  refine ⟨by decide, length4 _ (by simp only [wordSR]; omega) (by omega), by simp only [wordSR]; omega, ?_⟩
  simp [decodeWord, decode32, need, h1, h2, h3, h4, h5, h6]

theorem rem (rd : XReg) (ra : XReg) (rb : XReg) : Statement (.rem rd ra rb) := by
  rintro hw len w h
  cases h
  obtain ⟨h1, h2, h3, h4, h5, h6⟩ := wordSR_fields 5 5 0 rd ra rb (by decide) (by decide) (by decide)
  refine ⟨by decide, length4 _ (by simp only [wordSR]; omega) (by omega), by simp only [wordSR]; omega, ?_⟩
  simp [decodeWord, decode32, need, h1, h2, h3, h4, h5, h6]

theorem remn (rd : XReg) (ra : XReg) (rb : XReg) : Statement (.remn rd ra rb) := by
  rintro hw len w h
  cases h
  obtain ⟨h1, h2, h3, h4, h5, h6⟩ := wordSR_fields 5 6 0 rd ra rb (by decide) (by decide) (by decide)
  refine ⟨by decide, length4 _ (by simp only [wordSR]; omega) (by omega), by simp only [wordSR]; omega, ?_⟩
  simp [decodeWord, decode32, need, h1, h2, h3, h4, h5, h6]

theorem beq (ra : XReg) (rb : XReg) (off : BitVec 11) : Statement (.beq ra rb off) := by
  rintro hw len w h
  cases h
  obtain ⟨h1, h2, h3, h4, h5, h6, h7⟩ := wordSI_fields 6 0 ra rb off (by decide) (by decide)
  refine ⟨by decide, length4 _ (by simp only [wordSI]; omega) (by omega), by simp only [wordSI]; omega, ?_⟩
  simp [decodeWord, decode32, need, h1, h2, h3, h4, h5, h6, h7]

theorem bne (ra : XReg) (rb : XReg) (off : BitVec 11) : Statement (.bne ra rb off) := by
  rintro hw len w h
  cases h
  obtain ⟨h1, h2, h3, h4, h5, h6, h7⟩ := wordSI_fields 6 1 ra rb off (by decide) (by decide)
  refine ⟨by decide, length4 _ (by simp only [wordSI]; omega) (by omega), by simp only [wordSI]; omega, ?_⟩
  simp [decodeWord, decode32, need, h1, h2, h3, h4, h5, h6, h7]

theorem blt (ra : XReg) (rb : XReg) (off : BitVec 11) : Statement (.blt ra rb off) := by
  rintro hw len w h
  cases h
  obtain ⟨h1, h2, h3, h4, h5, h6, h7⟩ := wordSI_fields 6 2 ra rb off (by decide) (by decide)
  refine ⟨by decide, length4 _ (by simp only [wordSI]; omega) (by omega), by simp only [wordSI]; omega, ?_⟩
  simp [decodeWord, decode32, need, h1, h2, h3, h4, h5, h6, h7]

theorem bge (ra : XReg) (rb : XReg) (off : BitVec 11) : Statement (.bge ra rb off) := by
  rintro hw len w h
  cases h
  obtain ⟨h1, h2, h3, h4, h5, h6, h7⟩ := wordSI_fields 6 3 ra rb off (by decide) (by decide)
  refine ⟨by decide, length4 _ (by simp only [wordSI]; omega) (by omega), by simp only [wordSI]; omega, ?_⟩
  simp [decodeWord, decode32, need, h1, h2, h3, h4, h5, h6, h7]

theorem bltn (ra : XReg) (rb : XReg) (off : BitVec 11) : Statement (.bltn ra rb off) := by
  rintro hw len w h
  cases h
  obtain ⟨h1, h2, h3, h4, h5, h6, h7⟩ := wordSI_fields 6 4 ra rb off (by decide) (by decide)
  refine ⟨by decide, length4 _ (by simp only [wordSI]; omega) (by omega), by simp only [wordSI]; omega, ?_⟩
  simp [decodeWord, decode32, need, h1, h2, h3, h4, h5, h6, h7]

theorem bgen (ra : XReg) (rb : XReg) (off : BitVec 11) : Statement (.bgen ra rb off) := by
  rintro hw len w h
  cases h
  obtain ⟨h1, h2, h3, h4, h5, h6, h7⟩ := wordSI_fields 6 5 ra rb off (by decide) (by decide)
  refine ⟨by decide, length4 _ (by simp only [wordSI]; omega) (by omega), by simp only [wordSI]; omega, ?_⟩
  simp [decodeWord, decode32, need, h1, h2, h3, h4, h5, h6, h7]

theorem jal (rd : XReg) (imm : BitVec 20) : Statement (.jal rd imm) := by
  rintro hw len w h
  cases h
  obtain ⟨h1, h2, h3, h4⟩ := wordSU_fields 7 rd imm (by decide)
  refine ⟨by decide, length4 _ (by simp only [wordSU]; omega) (by omega), by simp only [wordSU]; omega, ?_⟩
  have e : imm.toNat / 16 * 16 + imm.toNat % 16 = imm.toNat := by omega
  simp [decodeWord, decode32, need, h1, h2, h3, h4, e]

theorem jalr (rd : XReg) (ra : XReg) (imm : BitVec 11) : Statement (.jalr rd ra imm) := by
  rintro hw len w h
  cases h
  obtain ⟨h1, h2, h3, h4, h5, h6, h7⟩ := wordSI_fields 8 0 rd ra imm (by decide) (by decide)
  refine ⟨by decide, length4 _ (by simp only [wordSI]; omega) (by omega), by simp only [wordSI]; omega, ?_⟩
  simp [decodeWord, decode32, need, h1, h2, h3, h4, h5, h6, h7]

theorem lhi (rd : XReg) (imm : BitVec 20) : Statement (.lhi rd imm) := by
  rintro hw len w h
  cases h
  obtain ⟨h1, h2, h3, h4⟩ := wordSU_fields 9 rd imm (by decide)
  refine ⟨by decide, length4 _ (by simp only [wordSU]; omega) (by omega), by simp only [wordSU]; omega, ?_⟩
  have e : imm.toNat / 16 * 16 + imm.toNat % 16 = imm.toNat := by omega
  simp [decodeWord, decode32, need, h1, h2, h3, h4, e]

theorem apc (rd : XReg) (imm : BitVec 20) : Statement (.apc rd imm) := by
  rintro hw len w h
  cases h
  obtain ⟨h1, h2, h3, h4⟩ := wordSU_fields 10 rd imm (by decide)
  refine ⟨by decide, length4 _ (by simp only [wordSU]; omega) (by omega), by simp only [wordSU]; omega, ?_⟩
  have e : imm.toNat / 16 * 16 + imm.toNat % 16 = imm.toNat := by omega
  simp [decodeWord, decode32, need, h1, h2, h3, h4, e]

theorem csrr (rd : XReg) (csr : BitVec 11) : Statement (.csrr rd csr) := by
  rintro hw len w h
  cases h
  obtain ⟨h1, h2, h3, h4, h5, h6, h7⟩ := wordSI_fields 11 0 rd 0 csr (by decide) (by decide)
  refine ⟨by decide, length4 _ (by simp only [wordSI]; omega) (by omega), by simp only [wordSI]; omega, ?_⟩
  simp [decodeWord, decode32, need, h1, h2, h3, h4, h5, h6, h7]

theorem csrw (rd : XReg) (ra : XReg) (csr : BitVec 11) : Statement (.csrw rd ra csr) := by
  rintro hw len w h
  cases h
  obtain ⟨h1, h2, h3, h4, h5, h6, h7⟩ := wordSI_fields 11 1 rd ra csr (by decide) (by decide)
  refine ⟨by decide, length4 _ (by simp only [wordSI]; omega) (by omega), by simp only [wordSI]; omega, ?_⟩
  simp [decodeWord, decode32, need, h1, h2, h3, h4, h5, h6, h7]

theorem csrs (rd : XReg) (ra : XReg) (csr : BitVec 11) : Statement (.csrs rd ra csr) := by
  rintro hw len w h
  cases h
  obtain ⟨h1, h2, h3, h4, h5, h6, h7⟩ := wordSI_fields 11 2 rd ra csr (by decide) (by decide)
  refine ⟨by decide, length4 _ (by simp only [wordSI]; omega) (by omega), by simp only [wordSI]; omega, ?_⟩
  simp [decodeWord, decode32, need, h1, h2, h3, h4, h5, h6, h7]

theorem csrc (rd : XReg) (ra : XReg) (csr : BitVec 11) : Statement (.csrc rd ra csr) := by
  rintro hw len w h
  cases h
  obtain ⟨h1, h2, h3, h4, h5, h6, h7⟩ := wordSI_fields 11 3 rd ra csr (by decide) (by decide)
  refine ⟨by decide, length4 _ (by simp only [wordSI]; omega) (by omega), by simp only [wordSI]; omega, ?_⟩
  simp [decodeWord, decode32, need, h1, h2, h3, h4, h5, h6, h7]

theorem amoadd (rd : XReg) (ra : XReg) (rb : XReg) (sc : Scope) (ord : Order) : Statement (.amoadd rd ra rb sc ord) := by
  rintro hw len w h
  cases h
  have hs := sc.code_lt
  have ho := ord.code_lt
  obtain ⟨h1, h2, h3, h4, h5, h6⟩ := wordSR_fields 12 (ord.code * 4) (0 * 8 + sc.code) rd ra rb (by decide) (by omega) (by omega)
  refine ⟨by decide, length4 _ (by simp only [wordAmo, wordSR]; omega) (by simp only [wordAmo]; omega), by simp only [wordAmo, wordSR]; omega, ?_⟩
  have e1 : (0 * 8 + sc.code) % 8 = sc.code := by omega
  have e2 : (0 * 8 + sc.code) / 8 = 0 := by omega
  have e3 : ord.code * 4 % 4 = 0 := by omega
  have e4 : ord.code * 4 / 4 = ord.code := by omega
  simp only [decodeWord, decode32, wordAmo, h1, h2, h3, h4, h5, h6, e1, e2, e3, e4, scopeOf_code, orderOf_code, xr_val]
  simp [need]

theorem amoswap (rd : XReg) (ra : XReg) (rb : XReg) (sc : Scope) (ord : Order) : Statement (.amoswap rd ra rb sc ord) := by
  rintro hw len w h
  cases h
  have hs := sc.code_lt
  have ho := ord.code_lt
  obtain ⟨h1, h2, h3, h4, h5, h6⟩ := wordSR_fields 12 (ord.code * 4) (1 * 8 + sc.code) rd ra rb (by decide) (by omega) (by omega)
  refine ⟨by decide, length4 _ (by simp only [wordAmo, wordSR]; omega) (by simp only [wordAmo]; omega), by simp only [wordAmo, wordSR]; omega, ?_⟩
  have e1 : (1 * 8 + sc.code) % 8 = sc.code := by omega
  have e2 : (1 * 8 + sc.code) / 8 = 1 := by omega
  have e3 : ord.code * 4 % 4 = 0 := by omega
  have e4 : ord.code * 4 / 4 = ord.code := by omega
  simp only [decodeWord, decode32, wordAmo, h1, h2, h3, h4, h5, h6, e1, e2, e3, e4, scopeOf_code, orderOf_code, xr_val]
  simp [need]

theorem amocas (rd : XReg) (ra : XReg) (rb : XReg) (sc : Scope) (ord : Order) : Statement (.amocas rd ra rb sc ord) := by
  rintro hw len w h
  cases h
  have hs := sc.code_lt
  have ho := ord.code_lt
  obtain ⟨h1, h2, h3, h4, h5, h6⟩ := wordSR_fields 12 (ord.code * 4) (2 * 8 + sc.code) rd ra rb (by decide) (by omega) (by omega)
  refine ⟨by decide, length4 _ (by simp only [wordAmo, wordSR]; omega) (by simp only [wordAmo]; omega), by simp only [wordAmo, wordSR]; omega, ?_⟩
  have e1 : (2 * 8 + sc.code) % 8 = sc.code := by omega
  have e2 : (2 * 8 + sc.code) / 8 = 2 := by omega
  have e3 : ord.code * 4 % 4 = 0 := by omega
  have e4 : ord.code * 4 / 4 = ord.code := by omega
  simp only [decodeWord, decode32, wordAmo, h1, h2, h3, h4, h5, h6, e1, e2, e3, e4, scopeOf_code, orderOf_code, xr_val]
  simp [need]

theorem amomax (rd : XReg) (ra : XReg) (rb : XReg) (sc : Scope) (ord : Order) : Statement (.amomax rd ra rb sc ord) := by
  rintro hw len w h
  cases h
  have hs := sc.code_lt
  have ho := ord.code_lt
  obtain ⟨h1, h2, h3, h4, h5, h6⟩ := wordSR_fields 12 (ord.code * 4) (3 * 8 + sc.code) rd ra rb (by decide) (by omega) (by omega)
  refine ⟨by decide, length4 _ (by simp only [wordAmo, wordSR]; omega) (by simp only [wordAmo]; omega), by simp only [wordAmo, wordSR]; omega, ?_⟩
  have e1 : (3 * 8 + sc.code) % 8 = sc.code := by omega
  have e2 : (3 * 8 + sc.code) / 8 = 3 := by omega
  have e3 : ord.code * 4 % 4 = 0 := by omega
  have e4 : ord.code * 4 / 4 = ord.code := by omega
  simp only [decodeWord, decode32, wordAmo, h1, h2, h3, h4, h5, h6, e1, e2, e3, e4, scopeOf_code, orderOf_code, xr_val]
  simp [need]

theorem amomin (rd : XReg) (ra : XReg) (rb : XReg) (sc : Scope) (ord : Order) : Statement (.amomin rd ra rb sc ord) := by
  rintro hw len w h
  cases h
  have hs := sc.code_lt
  have ho := ord.code_lt
  obtain ⟨h1, h2, h3, h4, h5, h6⟩ := wordSR_fields 12 (ord.code * 4) (4 * 8 + sc.code) rd ra rb (by decide) (by omega) (by omega)
  refine ⟨by decide, length4 _ (by simp only [wordAmo, wordSR]; omega) (by simp only [wordAmo]; omega), by simp only [wordAmo, wordSR]; omega, ?_⟩
  have e1 : (4 * 8 + sc.code) % 8 = sc.code := by omega
  have e2 : (4 * 8 + sc.code) / 8 = 4 := by omega
  have e3 : ord.code * 4 % 4 = 0 := by omega
  have e4 : ord.code * 4 / 4 = ord.code := by omega
  simp only [decodeWord, decode32, wordAmo, h1, h2, h3, h4, h5, h6, e1, e2, e3, e4, scopeOf_code, orderOf_code, xr_val]
  simp [need]

theorem amoand (rd : XReg) (ra : XReg) (rb : XReg) (sc : Scope) (ord : Order) : Statement (.amoand rd ra rb sc ord) := by
  rintro hw len w h
  cases h
  have hs := sc.code_lt
  have ho := ord.code_lt
  obtain ⟨h1, h2, h3, h4, h5, h6⟩ := wordSR_fields 12 (ord.code * 4) (5 * 8 + sc.code) rd ra rb (by decide) (by omega) (by omega)
  refine ⟨by decide, length4 _ (by simp only [wordAmo, wordSR]; omega) (by simp only [wordAmo]; omega), by simp only [wordAmo, wordSR]; omega, ?_⟩
  have e1 : (5 * 8 + sc.code) % 8 = sc.code := by omega
  have e2 : (5 * 8 + sc.code) / 8 = 5 := by omega
  have e3 : ord.code * 4 % 4 = 0 := by omega
  have e4 : ord.code * 4 / 4 = ord.code := by omega
  simp only [decodeWord, decode32, wordAmo, h1, h2, h3, h4, h5, h6, e1, e2, e3, e4, scopeOf_code, orderOf_code, xr_val]
  simp [need]

theorem amoor (rd : XReg) (ra : XReg) (rb : XReg) (sc : Scope) (ord : Order) : Statement (.amoor rd ra rb sc ord) := by
  rintro hw len w h
  cases h
  have hs := sc.code_lt
  have ho := ord.code_lt
  obtain ⟨h1, h2, h3, h4, h5, h6⟩ := wordSR_fields 12 (ord.code * 4) (6 * 8 + sc.code) rd ra rb (by decide) (by omega) (by omega)
  refine ⟨by decide, length4 _ (by simp only [wordAmo, wordSR]; omega) (by simp only [wordAmo]; omega), by simp only [wordAmo, wordSR]; omega, ?_⟩
  have e1 : (6 * 8 + sc.code) % 8 = sc.code := by omega
  have e2 : (6 * 8 + sc.code) / 8 = 6 := by omega
  have e3 : ord.code * 4 % 4 = 0 := by omega
  have e4 : ord.code * 4 / 4 = ord.code := by omega
  simp only [decodeWord, decode32, wordAmo, h1, h2, h3, h4, h5, h6, e1, e2, e3, e4, scopeOf_code, orderOf_code, xr_val]
  simp [need]

theorem fence (sc : Scope) : Statement (.fence sc) := by
  rintro hw len w h
  cases h
  obtain ⟨h1, h2, h3, h4, h5, h6⟩ := wordSR_fields 13 0 sc.code 0 0 0 (by decide) (by decide) (by have := sc.code_lt; omega)
  refine ⟨by decide, length4 _ (by simp only [wordSR]; omega) (by omega), by have := sc.code_lt; simp only [wordSR]; omega, ?_⟩
  have e1 : sc.code % 8 = sc.code := by have := sc.code_lt; omega
  have e2 : sc.code / 8 = 0 := by have := sc.code_lt; omega
  simp [decodeWord, decode32, need, h1, h2, h3, h4, h5, h6, e1, e2]

theorem fenceX (before : BitVec 6) (after : BitVec 6) (sc : Scope) : Statement (.fenceX before after sc) := by
  rintro hw len w h
  have ⟨hl, he⟩ : len = 4 ∧ w = (3 + 13 * 2 ^ 2 + 1 * 2 ^ 7 + sc.code * 2 ^ 17 + after.toNat * 2 ^ 20 + before.toNat * 2 ^ 26) := by cases h; exact ⟨rfl, rfl⟩
  subst hl
  have e0 : fld w 2 5 = 13 := by have := sc.code_lt; simp only [fld]; omega
  have e1 : fld w 7 4 = 1 := by have := sc.code_lt; simp only [fld]; omega
  have e2 : fld w 17 3 = sc.code := by have := sc.code_lt; simp only [fld]; omega
  have e3 : fld w 11 6 = 0 := by have := sc.code_lt; simp only [fld]; omega
  have e4 : fld w 26 6 = before.toNat := by have := sc.code_lt; simp only [fld]; omega
  have e5 : fld w 20 6 = after.toNat := by have := sc.code_lt; simp only [fld]; omega
  simp only [Instr.wellFormed, Bool.and_eq_true, bne_iff_ne] at hw
  have z1 : before.toNat ≠ 0 := fun z => hw.1 (BitVec.eq_of_toNat_eq (by simpa using z))
  have z2 : after.toNat ≠ 0 := fun z => hw.2 (BitVec.eq_of_toNat_eq (by simpa using z))
  refine ⟨by decide, length4 _ (by omega) (by omega), by have := sc.code_lt; omega, ?_⟩
  simp [decodeWord, decode32, need, e0, e1, e2, e3, e4, e5, z1, z2]

theorem cwait (rd : XReg) (ra : XReg) (rb : XReg) (sc : Scope) : Statement (.cwait rd ra rb sc) := by
  rintro hw len w h
  cases h
  obtain ⟨h1, h2, h3, h4, h5, h6⟩ := wordSR_fields 13 2 sc.code rd ra rb (by decide) (by decide) (by have := sc.code_lt; omega)
  refine ⟨by decide, length4 _ (by simp only [wordSR]; omega) (by omega), by have := sc.code_lt; simp only [wordSR]; omega, ?_⟩
  have e1 : sc.code % 8 = sc.code := by have := sc.code_lt; omega
  have e2 : sc.code / 8 = 0 := by have := sc.code_lt; omega
  simp [decodeWord, decode32, need, h1, h2, h3, h4, h5, h6, e1, e2]

theorem cwaitWake (h : Nat) : Statement (.cwaitWake h) := by
  rintro - len w h
  cases h

theorem fbar : Statement (.fbar) := by
  rintro hw len w h
  cases h
  exact ⟨by decide, by decide, by decide, by simp [decodeWord, decode32, wordSR, fld, need]⟩

theorem sys (imm : BitVec 11) : Statement (.sys imm) := by
  rintro hw len w h
  cases h
  obtain ⟨h1, h2, h3, h4, h5, h6, h7⟩ := wordSI_fields 14 0 0 0 imm (by decide) (by decide)
  refine ⟨by decide, length4 _ (by simp only [wordSI]; omega) (by omega), by simp only [wordSI]; omega, ?_⟩
  simp [decodeWord, decode32, need, h1, h2, h3, h4, h5, h6, h7]

theorem eret : Statement (.eret) := by
  rintro hw len w h
  cases h
  exact ⟨by decide, by decide, by decide, by simp [decodeWord, decode32, wordSR, fld, need]⟩

theorem idle : Statement (.idle) := by
  rintro hw len w h
  cases h
  exact ⟨by decide, by decide, by decide, by simp [decodeWord, decode32, wordSR, fld, need]⟩

theorem idleTimeout (h : Nat) : Statement (.idleTimeout h) := by
  rintro - len w h
  cases h

theorem brk (imm : BitVec 11) : Statement (.brk imm) := by
  rintro hw len w h
  cases h
  obtain ⟨h1, h2, h3, h4, h5, h6, h7⟩ := wordSI_fields 14 3 0 0 imm (by decide) (by decide)
  refine ⟨by decide, length4 _ (by simp only [wordSI]; omega) (by omega), by simp only [wordSI]; omega, ?_⟩
  simp [decodeWord, decode32, need, h1, h2, h3, h4, h5, h6, h7]

theorem yield : Statement (.yield) := by
  rintro hw len w h
  cases h
  exact ⟨by decide, by decide, by decide, by simp [decodeWord, decode32, wordSR, fld, need]⟩

theorem endHart : Statement (.endHart) := by
  rintro hw len w h
  cases h
  exact ⟨by decide, by decide, by decide, by simp [decodeWord, decode32, wordSR, fld, need]⟩

theorem trig : Statement (.trig) := by
  rintro hw len w h
  cases h
  exact ⟨by decide, by decide, by decide, by simp [decodeWord, decode32, wordSR, fld, need]⟩

theorem strip (rd : XReg) : Statement (.strip rd) := by
  rintro hw len w h
  cases h
  obtain ⟨h1, h2, h3, h4, h5, h6⟩ := wordSR_fields 14 7 0 rd 0 0 (by decide) (by decide) (by decide)
  refine ⟨by decide, length4 _ (by simp only [wordSR]; omega) (by omega), by simp only [wordSR]; omega, ?_⟩
  simp [decodeWord, decode32, need, h1, h2, h3, h4, h5, h6]

theorem launch (rd : XReg) (ra : XReg) : Statement (.launch rd ra) := by
  rintro hw len w h
  cases h
  obtain ⟨h1, h2, h3, h4, h5, h6⟩ := wordSR_fields 14 8 0 rd ra 0 (by decide) (by decide) (by decide)
  refine ⟨by decide, length4 _ (by simp only [wordSR]; omega) (by omega), by simp only [wordSR]; omega, ?_⟩
  simp [decodeWord, decode32, need, h1, h2, h3, h4, h5, h6]

theorem icinv (ra : XReg) (rb : XReg) : Statement (.icinv ra rb) := by
  rintro hw len w h
  cases h
  obtain ⟨h1, h2, h3, h4, h5, h6⟩ := wordSR_fields 14 9 0 0 ra rb (by decide) (by decide) (by decide)
  refine ⟨by decide, length4 _ (by simp only [wordSR]; omega) (by omega), by simp only [wordSR]; omega, ?_⟩
  simp [decodeWord, decode32, need, h1, h2, h3, h4, h5, h6]

theorem tlbinv (ra : XReg) (rb : XReg) : Statement (.tlbinv ra rb) := by
  rintro hw len w h
  cases h
  obtain ⟨h1, h2, h3, h4, h5, h6⟩ := wordSR_fields 14 10 0 0 ra rb (by decide) (by decide) (by decide)
  refine ⟨by decide, length4 _ (by simp only [wordSR]; omega) (by omega), by simp only [wordSR]; omega, ?_⟩
  simp [decodeWord, decode32, need, h1, h2, h3, h4, h5, h6]

theorem xbind (rd : XReg) (ra : XReg) : Statement (.xbind rd ra) := by
  rintro hw len w h
  cases h
  obtain ⟨h1, h2, h3, h4, h5, h6⟩ := wordSR_fields 15 0 0 rd ra 0 (by decide) (by decide) (by decide)
  refine ⟨by decide, length4 _ (by simp only [wordSR]; omega) (by omega), by simp only [wordSR]; omega, ?_⟩
  simp [decodeWord, decode32, need, h1, h2, h3, h4, h5, h6]

theorem xunpin (ra : XReg) : Statement (.xunpin ra) := by
  rintro hw len w h
  cases h
  obtain ⟨h1, h2, h3, h4, h5, h6⟩ := wordSR_fields 15 1 0 0 ra 0 (by decide) (by decide) (by decide)
  refine ⟨by decide, length4 _ (by simp only [wordSR]; omega) (by omega), by simp only [wordSR]; omega, ?_⟩
  simp [decodeWord, decode32, need, h1, h2, h3, h4, h5, h6]

theorem xpark (ra : XReg) (v : VReg) : Statement (.xpark ra v) := by
  rintro hw len w h
  cases h
  obtain ⟨h1, h2, h3, h4, h5, h6⟩ := wordSR_fields 15 2 v.val 0 ra 0 (by decide) (by decide) (by omega)
  refine ⟨by decide, length4 _ (by simp only [wordSR]; omega) (by omega), by simp only [wordSR]; omega, ?_⟩
  simp [decodeWord, decode32, need, h1, h2, h3, h4, h5, h6]

theorem xparkResume (h : Nat) : Statement (.xparkResume h) := by
  rintro - len w h
  cases h

theorem xwake (rd : XReg) (v : VReg) : Statement (.xwake rd v) := by
  rintro hw len w h
  cases h
  obtain ⟨h1, h2, h3, h4, h5, h6⟩ := wordSR_fields 15 3 v.val rd 0 0 (by decide) (by decide) (by omega)
  refine ⟨by decide, length4 _ (by simp only [wordSR]; omega) (by omega), by simp only [wordSR]; omega, ?_⟩
  simp [decodeWord, decode32, need, h1, h2, h3, h4, h5, h6]

theorem xwakeW (rd : XReg) (v : VReg) : Statement (.xwakeW rd v) := by
  rintro hw len w h
  cases h
  obtain ⟨h1, h2, h3, h4, h5, h6⟩ := wordSR_fields 15 4 v.val rd 0 0 (by decide) (by decide) (by omega)
  refine ⟨by decide, length4 _ (by simp only [wordSR]; omega) (by omega), by simp only [wordSR]; omega, ?_⟩
  simp [decodeWord, decode32, need, h1, h2, h3, h4, h5, h6]

theorem xwakeWWake (h : Nat) : Statement (.xwakeWWake h) := by
  rintro - len w h
  cases h

theorem xsend (v : VReg) (ra : XReg) (rb : XReg) : Statement (.xsend v ra rb) := by
  rintro hw len w h
  cases h
  obtain ⟨h1, h2, h3, h4, h5, h6⟩ := wordSR_fields 15 5 v.val 0 ra rb (by decide) (by decide) (by omega)
  refine ⟨by decide, length4 _ (by simp only [wordSR]; omega) (by omega), by simp only [wordSR]; omega, ?_⟩
  simp [decodeWord, decode32, need, h1, h2, h3, h4, h5, h6]

theorem xsendResume (h : Nat) : Statement (.xsendResume h) := by
  rintro - len w h
  cases h

theorem xrecv (rd : XReg) (v : VReg) : Statement (.xrecv rd v) := by
  rintro hw len w h
  cases h
  obtain ⟨h1, h2, h3, h4, h5, h6⟩ := wordSR_fields 15 6 v.val rd 0 0 (by decide) (by decide) (by omega)
  refine ⟨by decide, length4 _ (by simp only [wordSR]; omega) (by omega), by simp only [wordSR]; omega, ?_⟩
  simp [decodeWord, decode32, need, h1, h2, h3, h4, h5, h6]

theorem ertw (ra : XReg) (rb : XReg) : Statement (.ertw ra rb) := by
  rintro hw len w h
  cases h
  obtain ⟨h1, h2, h3, h4, h5, h6⟩ := wordSR_fields 15 7 0 0 ra rb (by decide) (by decide) (by decide)
  refine ⟨by decide, length4 _ (by simp only [wordSR]; omega) (by omega), by simp only [wordSR]; omega, ?_⟩
  simp [decodeWord, decode32, need, h1, h2, h3, h4, h5, h6]

theorem setvli (rd : XReg) (ra : XReg) (vt : BitVec 14) : Statement (.setvli rd ra vt) := by
  rintro hw len w h
  have ⟨hl, he⟩ : len = 4 ∧ w = (3 + 16 * 2 ^ 2 + vt.toNat / 2048 * 2 ^ 8 + rd.val * 2 ^ 11 + ra.val * 2 ^ 16 + vt.toNat % 2048 * 2 ^ 21) := by cases h; exact ⟨rfl, rfl⟩
  subst hl
  have h1 := rd.isLt
  have h2 := ra.isLt
  obtain ⟨q, hq⟩ : ∃ q, vt.toNat / 2048 = q := ⟨_, rfl⟩
  obtain ⟨r, hr⟩ : ∃ r, vt.toNat % 2048 = r := ⟨_, rfl⟩
  have h3 : q < 8 := by omega
  have h4 : r < 2048 := by omega
  have z : r + 2048 * q = vt.toNat := by omega
  rw [hq, hr] at he
  have ⟨t, ht, hw1⟩ : ∃ t < 2048, w = t + 2048 * (rd.val + 32 * ra.val + 1024 * r) := ⟨67 + 256 * q, by omega, by omega⟩
  have e0 : fld w 2 5 = 16 := by simp only [fld]; omega
  have e1 : fld w 7 1 = 0 := by simp only [fld]; omega
  have e2 : fld w 11 5 = rd.val := by clear he hq; simp only [fld]; omega
  have e3 : fld w 16 5 = ra.val := by clear he hq; simp only [fld]; omega
  have e4 : fld w 21 11 = r := by clear he hq; simp only [fld]; omega
  have e5 : fld w 8 3 = q := by simp only [fld]; omega
  refine ⟨by decide, length4 _ (by omega) (by omega), by omega, ?_⟩
  simp [decodeWord, decode32, need, e0, e1, e2, e3, e4, e5, z]

theorem setvl (rd : XReg) (ra : XReg) (rb : XReg) : Statement (.setvl rd ra rb) := by
  rintro hw len w h
  cases h
  obtain ⟨h1, h2, h3, h4, h5, h6⟩ := wordSR_fields 16 1 0 rd ra rb (by decide) (by decide) (by decide)
  refine ⟨by decide, length4 _ (by simp only [wordSR]; omega) (by omega), by simp only [wordSR]; omega, ?_⟩
  have e1 : fld (wordSR 16 1 rd ra rb 0) 7 1 = 1 := by simp only [wordSR, fld]; omega
  have e2 : fld (wordSR 16 1 rd ra rb 0) 8 3 = 0 := by simp only [wordSR, fld]; omega
  simp [decodeWord, decode32, need, h1, h2, h3, h4, h5, h6, e1, e2]

theorem clasp (count : BitVec 3) (slots : Slots) : Statement (.clasp count slots) := by
  rintro hw len w h
  have ⟨hl, he⟩ : len = 4 ∧ w = (3 + 30 * 2 ^ 2 + count.toNat * 2 ^ 7 + slots.s1.toNat * 2 ^ 10 + slots.s2.toNat * 2 ^ 13 + slots.s3.toNat * 2 ^ 16 + slots.s4.toNat * 2 ^ 19 + slots.s5.toNat * 2 ^ 22 + slots.s6.toNat * 2 ^ 25) := by cases h; exact ⟨rfl, rfl⟩
  subst hl
  have e0 : fld w 2 5 = 30 := by simp only [fld]; omega
  have e1 : fld w 7 3 = count.toNat := by simp only [fld]; omega
  have e2 : fld w 28 4 = 0 := by simp only [fld]; omega
  have e3 : fld w 10 3 = slots.s1.toNat := by simp only [fld]; omega
  have e4 : fld w 13 3 = slots.s2.toNat := by simp only [fld]; omega
  have e5 : fld w 16 3 = slots.s3.toNat := by simp only [fld]; omega
  have e6 : fld w 19 3 = slots.s4.toNat := by simp only [fld]; omega
  have e7 : fld w 22 3 = slots.s5.toNat := by simp only [fld]; omega
  have e8 : fld w 25 3 = slots.s6.toNat := by simp only [fld]; omega
  refine ⟨by decide, length4 _ (by omega) (by omega), by omega, ?_⟩
  simp [decodeWord, decode32, need, e0, e1, e2, e3, e4, e5, e6, e7, e8]

theorem cAdd (rd : XReg) (rs : XReg) : Statement (.cAdd rd rs) := by
  rintro hw len w h
  simp only [Instr.wellFormed, Bool.or_eq_true, bne_iff_ne] at hw
  cases h
  have e0 : (wordC 0 0 rd rs.val) ≠ 0 := by simp only [wordC]; omega
  have e1 : fld (wordC 0 0 rd rs.val) 0 2 = 0 := by simp only [wordC, fld]; omega
  have e2 : fld (wordC 0 0 rd rs.val) 2 3 = 0 := by simp only [wordC, fld]; omega
  have e3 : fld (wordC 0 0 rd rs.val) 5 5 = rd.val := by simp only [wordC, fld]; omega
  have e4 : fld (wordC 0 0 rd rs.val) 10 6 = rs.val := by simp only [wordC, fld]; omega
  have e5 : fld (wordC 0 0 rd rs.val) 15 1 = 0 := by simp only [wordC, fld]; omega
  have e6 : fld (wordC 0 0 rd rs.val) 10 5 = rs.val := by simp only [wordC, fld]; omega
  refine ⟨by decide, length2 _ (by simp only [wordC]; omega), by simp only [wordC]; omega, ?_⟩
  simp [decodeWord, decode16, need, e0, e1, e2, e3, e4, e5, e6]

theorem cSub (rd : XReg) (rs : XReg) : Statement (.cSub rd rs) := by
  rintro hw len w h
  cases h
  have e0 : (wordC 0 1 rd rs.val) ≠ 0 := by simp only [wordC]; omega
  have e1 : fld (wordC 0 1 rd rs.val) 0 2 = 0 := by simp only [wordC, fld]; omega
  have e2 : fld (wordC 0 1 rd rs.val) 2 3 = 1 := by simp only [wordC, fld]; omega
  have e3 : fld (wordC 0 1 rd rs.val) 5 5 = rd.val := by simp only [wordC, fld]; omega
  have e4 : fld (wordC 0 1 rd rs.val) 10 6 = rs.val := by simp only [wordC, fld]; omega
  have e5 : fld (wordC 0 1 rd rs.val) 15 1 = 0 := by simp only [wordC, fld]; omega
  have e6 : fld (wordC 0 1 rd rs.val) 10 5 = rs.val := by simp only [wordC, fld]; omega
  refine ⟨by decide, length2 _ (by simp only [wordC]; omega), by simp only [wordC]; omega, ?_⟩
  simp [decodeWord, decode16, need, e0, e1, e2, e3, e4, e5, e6]

theorem cAnd (rd : XReg) (rs : XReg) : Statement (.cAnd rd rs) := by
  rintro hw len w h
  cases h
  have e0 : (wordC 0 2 rd rs.val) ≠ 0 := by simp only [wordC]; omega
  have e1 : fld (wordC 0 2 rd rs.val) 0 2 = 0 := by simp only [wordC, fld]; omega
  have e2 : fld (wordC 0 2 rd rs.val) 2 3 = 2 := by simp only [wordC, fld]; omega
  have e3 : fld (wordC 0 2 rd rs.val) 5 5 = rd.val := by simp only [wordC, fld]; omega
  have e4 : fld (wordC 0 2 rd rs.val) 10 6 = rs.val := by simp only [wordC, fld]; omega
  have e5 : fld (wordC 0 2 rd rs.val) 15 1 = 0 := by simp only [wordC, fld]; omega
  have e6 : fld (wordC 0 2 rd rs.val) 10 5 = rs.val := by simp only [wordC, fld]; omega
  refine ⟨by decide, length2 _ (by simp only [wordC]; omega), by simp only [wordC]; omega, ?_⟩
  simp [decodeWord, decode16, need, e0, e1, e2, e3, e4, e5, e6]

theorem cOr (rd : XReg) (rs : XReg) : Statement (.cOr rd rs) := by
  rintro hw len w h
  cases h
  have e0 : (wordC 0 3 rd rs.val) ≠ 0 := by simp only [wordC]; omega
  have e1 : fld (wordC 0 3 rd rs.val) 0 2 = 0 := by simp only [wordC, fld]; omega
  have e2 : fld (wordC 0 3 rd rs.val) 2 3 = 3 := by simp only [wordC, fld]; omega
  have e3 : fld (wordC 0 3 rd rs.val) 5 5 = rd.val := by simp only [wordC, fld]; omega
  have e4 : fld (wordC 0 3 rd rs.val) 10 6 = rs.val := by simp only [wordC, fld]; omega
  have e5 : fld (wordC 0 3 rd rs.val) 15 1 = 0 := by simp only [wordC, fld]; omega
  have e6 : fld (wordC 0 3 rd rs.val) 10 5 = rs.val := by simp only [wordC, fld]; omega
  refine ⟨by decide, length2 _ (by simp only [wordC]; omega), by simp only [wordC]; omega, ?_⟩
  simp [decodeWord, decode16, need, e0, e1, e2, e3, e4, e5, e6]

theorem cXor (rd : XReg) (rs : XReg) : Statement (.cXor rd rs) := by
  rintro hw len w h
  cases h
  have e0 : (wordC 0 4 rd rs.val) ≠ 0 := by simp only [wordC]; omega
  have e1 : fld (wordC 0 4 rd rs.val) 0 2 = 0 := by simp only [wordC, fld]; omega
  have e2 : fld (wordC 0 4 rd rs.val) 2 3 = 4 := by simp only [wordC, fld]; omega
  have e3 : fld (wordC 0 4 rd rs.val) 5 5 = rd.val := by simp only [wordC, fld]; omega
  have e4 : fld (wordC 0 4 rd rs.val) 10 6 = rs.val := by simp only [wordC, fld]; omega
  have e5 : fld (wordC 0 4 rd rs.val) 15 1 = 0 := by simp only [wordC, fld]; omega
  have e6 : fld (wordC 0 4 rd rs.val) 10 5 = rs.val := by simp only [wordC, fld]; omega
  refine ⟨by decide, length2 _ (by simp only [wordC]; omega), by simp only [wordC]; omega, ?_⟩
  simp [decodeWord, decode16, need, e0, e1, e2, e3, e4, e5, e6]

theorem cMv (rd : XReg) : Statement (.cMv rd) := by
  rintro hw len w h
  cases h
  have e0 : (wordC 0 5 rd 0) ≠ 0 := by simp only [wordC]; omega
  have e1 : fld (wordC 0 5 rd 0) 0 2 = 0 := by simp only [wordC, fld]; omega
  have e2 : fld (wordC 0 5 rd 0) 2 3 = 5 := by simp only [wordC, fld]; omega
  have e3 : fld (wordC 0 5 rd 0) 5 5 = rd.val := by simp only [wordC, fld]; omega
  have e4 : fld (wordC 0 5 rd 0) 10 6 = 0 := by simp only [wordC, fld]; omega
  refine ⟨by decide, length2 _ (by simp only [wordC]; omega), by simp only [wordC]; omega, ?_⟩
  simp [decodeWord, decode16, need, e0, e1, e2, e3, e4]

theorem cAddi (rd : XReg) (imm : BitVec 6) : Statement (.cAddi rd imm) := by
  rintro hw len w h
  cases h
  have e0 : (wordC 1 0 rd imm.toNat) ≠ 0 := by simp only [wordC]; omega
  have e1 : fld (wordC 1 0 rd imm.toNat) 0 2 = 1 := by simp only [wordC, fld]; omega
  have e2 : fld (wordC 1 0 rd imm.toNat) 2 3 = 0 := by simp only [wordC, fld]; omega
  have e3 : fld (wordC 1 0 rd imm.toNat) 5 5 = rd.val := by simp only [wordC, fld]; omega
  have e4 : fld (wordC 1 0 rd imm.toNat) 10 6 = imm.toNat := by simp only [wordC, fld]; omega
  refine ⟨by decide, length2 _ (by simp only [wordC]; omega), by simp only [wordC]; omega, ?_⟩
  simp [decodeWord, decode16, need, e0, e1, e2, e3, e4]

theorem cShli (rd : XReg) (imm : BitVec 6) : Statement (.cShli rd imm) := by
  rintro hw len w h
  cases h
  have e0 : (wordC 1 1 rd imm.toNat) ≠ 0 := by simp only [wordC]; omega
  have e1 : fld (wordC 1 1 rd imm.toNat) 0 2 = 1 := by simp only [wordC, fld]; omega
  have e2 : fld (wordC 1 1 rd imm.toNat) 2 3 = 1 := by simp only [wordC, fld]; omega
  have e3 : fld (wordC 1 1 rd imm.toNat) 5 5 = rd.val := by simp only [wordC, fld]; omega
  have e4 : fld (wordC 1 1 rd imm.toNat) 10 6 = imm.toNat := by simp only [wordC, fld]; omega
  refine ⟨by decide, length2 _ (by simp only [wordC]; omega), by simp only [wordC]; omega, ?_⟩
  simp [decodeWord, decode16, need, e0, e1, e2, e3, e4]

theorem cLd (rd : XReg) (imm : BitVec 6) : Statement (.cLd rd imm) := by
  rintro hw len w h
  cases h
  have e0 : (wordC 1 2 rd imm.toNat) ≠ 0 := by simp only [wordC]; omega
  have e1 : fld (wordC 1 2 rd imm.toNat) 0 2 = 1 := by simp only [wordC, fld]; omega
  have e2 : fld (wordC 1 2 rd imm.toNat) 2 3 = 2 := by simp only [wordC, fld]; omega
  have e3 : fld (wordC 1 2 rd imm.toNat) 5 5 = rd.val := by simp only [wordC, fld]; omega
  have e4 : fld (wordC 1 2 rd imm.toNat) 10 6 = imm.toNat := by simp only [wordC, fld]; omega
  refine ⟨by decide, length2 _ (by simp only [wordC]; omega), by simp only [wordC]; omega, ?_⟩
  simp [decodeWord, decode16, need, e0, e1, e2, e3, e4]

theorem cSt (rs : XReg) (imm : BitVec 6) : Statement (.cSt rs imm) := by
  rintro hw len w h
  cases h
  have e0 : (wordC 1 3 rs imm.toNat) ≠ 0 := by simp only [wordC]; omega
  have e1 : fld (wordC 1 3 rs imm.toNat) 0 2 = 1 := by simp only [wordC, fld]; omega
  have e2 : fld (wordC 1 3 rs imm.toNat) 2 3 = 3 := by simp only [wordC, fld]; omega
  have e3 : fld (wordC 1 3 rs imm.toNat) 5 5 = rs.val := by simp only [wordC, fld]; omega
  have e4 : fld (wordC 1 3 rs imm.toNat) 10 6 = imm.toNat := by simp only [wordC, fld]; omega
  refine ⟨by decide, length2 _ (by simp only [wordC]; omega), by simp only [wordC]; omega, ?_⟩
  simp [decodeWord, decode16, need, e0, e1, e2, e3, e4]

theorem cBeqz (off : BitVec 11) : Statement (.cBeqz off) := by
  rintro hw len w h
  cases h
  have e0 : wordCB 4 off ≠ 0 := by simp only [wordCB]; omega
  have e1 : fld (wordCB 4 off) 0 2 = 1 := by simp only [wordCB, fld]; omega
  have e2 : fld (wordCB 4 off) 2 3 = 4 := by simp only [wordCB, fld]; omega
  have e3 : fld (wordCB 4 off) 5 11 = off.toNat := by simp only [wordCB, fld]; omega
  refine ⟨by decide, length2 _ (by simp only [wordCB]; omega), by simp only [wordCB]; omega, ?_⟩
  simp [decodeWord, decode16, e0, e1, e2, e3]

theorem cBnez (off : BitVec 11) : Statement (.cBnez off) := by
  rintro hw len w h
  cases h
  have e0 : wordCB 5 off ≠ 0 := by simp only [wordCB]; omega
  have e1 : fld (wordCB 5 off) 0 2 = 1 := by simp only [wordCB, fld]; omega
  have e2 : fld (wordCB 5 off) 2 3 = 5 := by simp only [wordCB, fld]; omega
  have e3 : fld (wordCB 5 off) 5 11 = off.toNat := by simp only [wordCB, fld]; omega
  refine ⟨by decide, length2 _ (by simp only [wordCB]; omega), by simp only [wordCB]; omega, ?_⟩
  simp [decodeWord, decode16, e0, e1, e2, e3]

theorem cJ (off : BitVec 11) : Statement (.cJ off) := by
  rintro hw len w h
  cases h
  have e0 : wordCB 6 off ≠ 0 := by simp only [wordCB]; omega
  have e1 : fld (wordCB 6 off) 0 2 = 1 := by simp only [wordCB, fld]; omega
  have e2 : fld (wordCB 6 off) 2 3 = 6 := by simp only [wordCB, fld]; omega
  have e3 : fld (wordCB 6 off) 5 11 = off.toNat := by simp only [wordCB, fld]; omega
  refine ⟨by decide, length2 _ (by simp only [wordCB]; omega), by simp only [wordCB]; omega, ?_⟩
  simp [decodeWord, decode16, e0, e1, e2, e3]

theorem dispatchQueueResume (h : Nat) : Statement (.dispatchQueueResume h) := by
  rintro - len w h
  cases h

theorem vadd (a : VBin) : Statement (.vadd a) := by
  rintro hw len w h
  obtain ⟨vd, va, b, ws, rm⟩ := a
  cases b <;> cases h <;>
    exact round64 _ _ (by simp only [VFields.InRange, zeroFields, vmemFields, vstageFields, scopyFields, withOffset, Bool.toNat, cond, AmoOp.code, RedOp.code, ScanOp.code, FcOp.code, Scope.code, Order.code]; omega) (by simp [decodeFields, decodeVA, need, zeroFields, decVBin, decVTern, decVUn, decVMv])

theorem vsub (a : VBin) : Statement (.vsub a) := by
  rintro hw len w h
  obtain ⟨vd, va, b, ws, rm⟩ := a
  cases b <;> cases h <;>
    exact round64 _ _ (by simp only [VFields.InRange, zeroFields, vmemFields, vstageFields, scopyFields, withOffset, Bool.toNat, cond, AmoOp.code, RedOp.code, ScanOp.code, FcOp.code, Scope.code, Order.code]; omega) (by simp [decodeFields, decodeVA, need, zeroFields, decVBin, decVTern, decVUn, decVMv])

theorem vrsub (a : VBin) : Statement (.vrsub a) := by
  rintro hw len w h
  obtain ⟨vd, va, b, ws, rm⟩ := a
  cases b <;> cases h <;>
    exact round64 _ _ (by simp only [VFields.InRange, zeroFields, vmemFields, vstageFields, scopyFields, withOffset, Bool.toNat, cond, AmoOp.code, RedOp.code, ScanOp.code, FcOp.code, Scope.code, Order.code]; omega) (by simp [decodeFields, decodeVA, need, zeroFields, decVBin, decVTern, decVUn, decVMv])

theorem vmul (a : VBin) : Statement (.vmul a) := by
  rintro hw len w h
  obtain ⟨vd, va, b, ws, rm⟩ := a
  cases b <;> cases h <;>
    exact round64 _ _ (by simp only [VFields.InRange, zeroFields, vmemFields, vstageFields, scopyFields, withOffset, Bool.toNat, cond, AmoOp.code, RedOp.code, ScanOp.code, FcOp.code, Scope.code, Order.code]; omega) (by simp [decodeFields, decodeVA, need, zeroFields, decVBin, decVTern, decVUn, decVMv])

theorem vmulh (a : VBin) : Statement (.vmulh a) := by
  rintro hw len w h
  obtain ⟨vd, va, b, ws, rm⟩ := a
  cases b <;> cases h <;>
    exact round64 _ _ (by simp only [VFields.InRange, zeroFields, vmemFields, vstageFields, scopyFields, withOffset, Bool.toNat, cond, AmoOp.code, RedOp.code, ScanOp.code, FcOp.code, Scope.code, Order.code]; omega) (by simp [decodeFields, decodeVA, need, zeroFields, decVBin, decVTern, decVUn, decVMv])

theorem vdiv (a : VBin) : Statement (.vdiv a) := by
  rintro hw len w h
  obtain ⟨vd, va, b, ws, rm⟩ := a
  cases b <;> cases h <;>
    exact round64 _ _ (by simp only [VFields.InRange, zeroFields, vmemFields, vstageFields, scopyFields, withOffset, Bool.toNat, cond, AmoOp.code, RedOp.code, ScanOp.code, FcOp.code, Scope.code, Order.code]; omega) (by simp [decodeFields, decodeVA, need, zeroFields, decVBin, decVTern, decVUn, decVMv])

theorem vrem (a : VBin) : Statement (.vrem a) := by
  rintro hw len w h
  obtain ⟨vd, va, b, ws, rm⟩ := a
  cases b <;> cases h <;>
    exact round64 _ _ (by simp only [VFields.InRange, zeroFields, vmemFields, vstageFields, scopyFields, withOffset, Bool.toNat, cond, AmoOp.code, RedOp.code, ScanOp.code, FcOp.code, Scope.code, Order.code]; omega) (by simp [decodeFields, decodeVA, need, zeroFields, decVBin, decVTern, decVUn, decVMv])

theorem vmin (a : VBin) : Statement (.vmin a) := by
  rintro hw len w h
  obtain ⟨vd, va, b, ws, rm⟩ := a
  cases b <;> cases h <;>
    exact round64 _ _ (by simp only [VFields.InRange, zeroFields, vmemFields, vstageFields, scopyFields, withOffset, Bool.toNat, cond, AmoOp.code, RedOp.code, ScanOp.code, FcOp.code, Scope.code, Order.code]; omega) (by simp [decodeFields, decodeVA, need, zeroFields, decVBin, decVTern, decVUn, decVMv])

theorem vmax (a : VBin) : Statement (.vmax a) := by
  rintro hw len w h
  obtain ⟨vd, va, b, ws, rm⟩ := a
  cases b <;> cases h <;>
    exact round64 _ _ (by simp only [VFields.InRange, zeroFields, vmemFields, vstageFields, scopyFields, withOffset, Bool.toNat, cond, AmoOp.code, RedOp.code, ScanOp.code, FcOp.code, Scope.code, Order.code]; omega) (by simp [decodeFields, decodeVA, need, zeroFields, decVBin, decVTern, decVUn, decVMv])

theorem vand (a : VBin) : Statement (.vand a) := by
  rintro hw len w h
  obtain ⟨vd, va, b, ws, rm⟩ := a
  cases b <;> cases h <;>
    exact round64 _ _ (by simp only [VFields.InRange, zeroFields, vmemFields, vstageFields, scopyFields, withOffset, Bool.toNat, cond, AmoOp.code, RedOp.code, ScanOp.code, FcOp.code, Scope.code, Order.code]; omega) (by simp [decodeFields, decodeVA, need, zeroFields, decVBin, decVTern, decVUn, decVMv])

theorem vor (a : VBin) : Statement (.vor a) := by
  rintro hw len w h
  obtain ⟨vd, va, b, ws, rm⟩ := a
  cases b <;> cases h <;>
    exact round64 _ _ (by simp only [VFields.InRange, zeroFields, vmemFields, vstageFields, scopyFields, withOffset, Bool.toNat, cond, AmoOp.code, RedOp.code, ScanOp.code, FcOp.code, Scope.code, Order.code]; omega) (by simp [decodeFields, decodeVA, need, zeroFields, decVBin, decVTern, decVUn, decVMv])

theorem vxor (a : VBin) : Statement (.vxor a) := by
  rintro hw len w h
  obtain ⟨vd, va, b, ws, rm⟩ := a
  cases b <;> cases h <;>
    exact round64 _ _ (by simp only [VFields.InRange, zeroFields, vmemFields, vstageFields, scopyFields, withOffset, Bool.toNat, cond, AmoOp.code, RedOp.code, ScanOp.code, FcOp.code, Scope.code, Order.code]; omega) (by simp [decodeFields, decodeVA, need, zeroFields, decVBin, decVTern, decVUn, decVMv])

theorem vshl (a : VBin) : Statement (.vshl a) := by
  rintro hw len w h
  obtain ⟨vd, va, b, ws, rm⟩ := a
  cases b <;> cases h <;>
    exact round64 _ _ (by simp only [VFields.InRange, zeroFields, vmemFields, vstageFields, scopyFields, withOffset, Bool.toNat, cond, AmoOp.code, RedOp.code, ScanOp.code, FcOp.code, Scope.code, Order.code]; omega) (by simp [decodeFields, decodeVA, need, zeroFields, decVBin, decVTern, decVUn, decVMv])

theorem vshr (a : VBin) : Statement (.vshr a) := by
  rintro hw len w h
  obtain ⟨vd, va, b, ws, rm⟩ := a
  cases b <;> cases h <;>
    exact round64 _ _ (by simp only [VFields.InRange, zeroFields, vmemFields, vstageFields, scopyFields, withOffset, Bool.toNat, cond, AmoOp.code, RedOp.code, ScanOp.code, FcOp.code, Scope.code, Order.code]; omega) (by simp [decodeFields, decodeVA, need, zeroFields, decVBin, decVTern, decVUn, decVMv])

theorem vsha (a : VBin) : Statement (.vsha a) := by
  rintro hw len w h
  obtain ⟨vd, va, b, ws, rm⟩ := a
  cases b <;> cases h <;>
    exact round64 _ _ (by simp only [VFields.InRange, zeroFields, vmemFields, vstageFields, scopyFields, withOffset, Bool.toNat, cond, AmoOp.code, RedOp.code, ScanOp.code, FcOp.code, Scope.code, Order.code]; omega) (by simp [decodeFields, decodeVA, need, zeroFields, decVBin, decVTern, decVUn, decVMv])

theorem vsadd (a : VBin) : Statement (.vsadd a) := by
  rintro hw len w h
  obtain ⟨vd, va, b, ws, rm⟩ := a
  cases b <;> cases h <;>
    exact round64 _ _ (by simp only [VFields.InRange, zeroFields, vmemFields, vstageFields, scopyFields, withOffset, Bool.toNat, cond, AmoOp.code, RedOp.code, ScanOp.code, FcOp.code, Scope.code, Order.code]; omega) (by simp [decodeFields, decodeVA, need, zeroFields, decVBin, decVTern, decVUn, decVMv])

theorem vssub (a : VBin) : Statement (.vssub a) := by
  rintro hw len w h
  obtain ⟨vd, va, b, ws, rm⟩ := a
  cases b <;> cases h <;>
    exact round64 _ _ (by simp only [VFields.InRange, zeroFields, vmemFields, vstageFields, scopyFields, withOffset, Bool.toNat, cond, AmoOp.code, RedOp.code, ScanOp.code, FcOp.code, Scope.code, Order.code]; omega) (by simp [decodeFields, decodeVA, need, zeroFields, decVBin, decVTern, decVUn, decVMv])

theorem vfma (a : VTern) : Statement (.vfma a) := by
  rintro hw len w h
  obtain ⟨vd, va, b, ws, rm⟩ := a
  cases b <;> cases h <;>
    exact round64 _ _ (by simp only [VFields.InRange, zeroFields, vmemFields, vstageFields, scopyFields, withOffset, Bool.toNat, cond, AmoOp.code, RedOp.code, ScanOp.code, FcOp.code, Scope.code, Order.code]; omega) (by simp [decodeFields, decodeVA, need, zeroFields, decVBin, decVTern, decVUn, decVMv])

theorem vfms (a : VTern) : Statement (.vfms a) := by
  rintro hw len w h
  obtain ⟨vd, va, b, ws, rm⟩ := a
  cases b <;> cases h <;>
    exact round64 _ _ (by simp only [VFields.InRange, zeroFields, vmemFields, vstageFields, scopyFields, withOffset, Bool.toNat, cond, AmoOp.code, RedOp.code, ScanOp.code, FcOp.code, Scope.code, Order.code]; omega) (by simp [decodeFields, decodeVA, need, zeroFields, decVBin, decVTern, decVUn, decVMv])

theorem vfnma (a : VTern) : Statement (.vfnma a) := by
  rintro hw len w h
  obtain ⟨vd, va, b, ws, rm⟩ := a
  cases b <;> cases h <;>
    exact round64 _ _ (by simp only [VFields.InRange, zeroFields, vmemFields, vstageFields, scopyFields, withOffset, Bool.toNat, cond, AmoOp.code, RedOp.code, ScanOp.code, FcOp.code, Scope.code, Order.code]; omega) (by simp [decodeFields, decodeVA, need, zeroFields, decVBin, decVTern, decVUn, decVMv])

theorem vfdiv (a : VBin) : Statement (.vfdiv a) := by
  rintro hw len w h
  obtain ⟨vd, va, b, ws, rm⟩ := a
  cases b <;> cases h <;>
    exact round64 _ _ (by simp only [VFields.InRange, zeroFields, vmemFields, vstageFields, scopyFields, withOffset, Bool.toNat, cond, AmoOp.code, RedOp.code, ScanOp.code, FcOp.code, Scope.code, Order.code]; omega) (by simp [decodeFields, decodeVA, need, zeroFields, decVBin, decVTern, decVUn, decVMv])

theorem vfsqrt (a : VUn) : Statement (.vfsqrt a) := by
  rintro hw len w h
  obtain ⟨vd, va, ws, rm⟩ := a
  cases h
  exact round64 _ _ (by simp only [VFields.InRange, zeroFields, vmemFields, vstageFields, scopyFields, withOffset, Bool.toNat, cond, AmoOp.code, RedOp.code, ScanOp.code, FcOp.code, Scope.code, Order.code]; omega) (by simp [decodeFields, decodeVA, need, zeroFields, decVBin, decVTern, decVUn, decVMv])

theorem vfrsqrt (a : VUn) : Statement (.vfrsqrt a) := by
  rintro hw len w h
  obtain ⟨vd, va, ws, rm⟩ := a
  cases h
  exact round64 _ _ (by simp only [VFields.InRange, zeroFields, vmemFields, vstageFields, scopyFields, withOffset, Bool.toNat, cond, AmoOp.code, RedOp.code, ScanOp.code, FcOp.code, Scope.code, Order.code]; omega) (by simp [decodeFields, decodeVA, need, zeroFields, decVBin, decVTern, decVUn, decVMv])

theorem vfexp2 (a : VUn) : Statement (.vfexp2 a) := by
  rintro hw len w h
  obtain ⟨vd, va, ws, rm⟩ := a
  cases h
  exact round64 _ _ (by simp only [VFields.InRange, zeroFields, vmemFields, vstageFields, scopyFields, withOffset, Bool.toNat, cond, AmoOp.code, RedOp.code, ScanOp.code, FcOp.code, Scope.code, Order.code]; omega) (by simp [decodeFields, decodeVA, need, zeroFields, decVBin, decVTern, decVUn, decVMv])

theorem vflog2 (a : VUn) : Statement (.vflog2 a) := by
  rintro hw len w h
  obtain ⟨vd, va, ws, rm⟩ := a
  cases h
  exact round64 _ _ (by simp only [VFields.InRange, zeroFields, vmemFields, vstageFields, scopyFields, withOffset, Bool.toNat, cond, AmoOp.code, RedOp.code, ScanOp.code, FcOp.code, Scope.code, Order.code]; omega) (by simp [decodeFields, decodeVA, need, zeroFields, decVBin, decVTern, decVUn, decVMv])

theorem vwadd (a : VBin) : Statement (.vwadd a) := by
  rintro hw len w h
  obtain ⟨vd, va, b, ws, rm⟩ := a
  cases b <;> cases h <;>
    exact round64 _ _ (by simp only [VFields.InRange, zeroFields, vmemFields, vstageFields, scopyFields, withOffset, Bool.toNat, cond, AmoOp.code, RedOp.code, ScanOp.code, FcOp.code, Scope.code, Order.code]; omega) (by simp [decodeFields, decodeVA, need, zeroFields, decVBin, decVTern, decVUn, decVMv])

theorem vwmul (a : VBin) : Statement (.vwmul a) := by
  rintro hw len w h
  obtain ⟨vd, va, b, ws, rm⟩ := a
  cases b <;> cases h <;>
    exact round64 _ _ (by simp only [VFields.InRange, zeroFields, vmemFields, vstageFields, scopyFields, withOffset, Bool.toNat, cond, AmoOp.code, RedOp.code, ScanOp.code, FcOp.code, Scope.code, Order.code]; omega) (by simp [decodeFields, decodeVA, need, zeroFields, decVBin, decVTern, decVUn, decVMv])

theorem vwfma (a : VTern) : Statement (.vwfma a) := by
  rintro hw len w h
  obtain ⟨vd, va, b, ws, rm⟩ := a
  cases b <;> cases h <;>
    exact round64 _ _ (by simp only [VFields.InRange, zeroFields, vmemFields, vstageFields, scopyFields, withOffset, Bool.toNat, cond, AmoOp.code, RedOp.code, ScanOp.code, FcOp.code, Scope.code, Order.code]; omega) (by simp [decodeFields, decodeVA, need, zeroFields, decVBin, decVTern, decVUn, decVMv])

theorem vcvt (a : VUn) : Statement (.vcvt a) := by
  rintro hw len w h
  obtain ⟨vd, va, ws, rm⟩ := a
  cases h
  exact round64 _ _ (by simp only [VFields.InRange, zeroFields, vmemFields, vstageFields, scopyFields, withOffset, Bool.toNat, cond, AmoOp.code, RedOp.code, ScanOp.code, FcOp.code, Scope.code, Order.code]; omega) (by simp [decodeFields, decodeVA, need, zeroFields, decVBin, decVTern, decVUn, decVMv])

theorem vwcvt (a : VUn) : Statement (.vwcvt a) := by
  rintro hw len w h
  obtain ⟨vd, va, ws, rm⟩ := a
  cases h
  exact round64 _ _ (by simp only [VFields.InRange, zeroFields, vmemFields, vstageFields, scopyFields, withOffset, Bool.toNat, cond, AmoOp.code, RedOp.code, ScanOp.code, FcOp.code, Scope.code, Order.code]; omega) (by simp [decodeFields, decodeVA, need, zeroFields, decVBin, decVTern, decVUn, decVMv])

theorem vncvt (a : VUn) : Statement (.vncvt a) := by
  rintro hw len w h
  obtain ⟨vd, va, ws, rm⟩ := a
  cases h
  exact round64 _ _ (by simp only [VFields.InRange, zeroFields, vmemFields, vstageFields, scopyFields, withOffset, Bool.toNat, cond, AmoOp.code, RedOp.code, ScanOp.code, FcOp.code, Scope.code, Order.code]; omega) (by simp [decodeFields, decodeVA, need, zeroFields, decVBin, decVTern, decVUn, decVMv])

theorem vquant (a : VUn) : Statement (.vquant a) := by
  rintro hw len w h
  obtain ⟨vd, va, ws, rm⟩ := a
  cases h
  exact round64 _ _ (by simp only [VFields.InRange, zeroFields, vmemFields, vstageFields, scopyFields, withOffset, Bool.toNat, cond, AmoOp.code, RedOp.code, ScanOp.code, FcOp.code, Scope.code, Order.code]; omega) (by simp [decodeFields, decodeVA, need, zeroFields, decVBin, decVTern, decVUn, decVMv])

theorem vdequant (a : VUn) : Statement (.vdequant a) := by
  rintro hw len w h
  obtain ⟨vd, va, ws, rm⟩ := a
  cases h
  exact round64 _ _ (by simp only [VFields.InRange, zeroFields, vmemFields, vstageFields, scopyFields, withOffset, Bool.toNat, cond, AmoOp.code, RedOp.code, ScanOp.code, FcOp.code, Scope.code, Order.code]; omega) (by simp [decodeFields, decodeVA, need, zeroFields, decVBin, decVTern, decVUn, decVMv])

theorem vsel (a : VSelArgs) : Statement (.vsel a) := by
  rintro hw len w h
  obtain ⟨vd, va, vb, vc, ws, rm⟩ := a
  cases h
  exact round64 _ _ (by simp only [VFields.InRange, zeroFields, vmemFields, vstageFields, scopyFields, withOffset, Bool.toNat, cond, AmoOp.code, RedOp.code, ScanOp.code, FcOp.code, Scope.code, Order.code]; omega) (by simp [decodeFields, decodeVA, need, zeroFields, decVBin, decVTern, decVUn, decVMv])

theorem vmv (a : VMvArgs) : Statement (.vmv a) := by
  rintro hw len w h
  cases a <;> cases h <;>
    exact round64 _ _ (by simp only [VFields.InRange, zeroFields, vmemFields, vstageFields, scopyFields, withOffset, Bool.toNat, cond, AmoOp.code, RedOp.code, ScanOp.code, FcOp.code, Scope.code, Order.code]; omega) (by simp [decodeFields, decodeVA, need, zeroFields, decVBin, decVTern, decVUn, decVMv])

theorem vgath (a : VVV) : Statement (.vgath a) := by
  rintro hw len w h
  obtain ⟨vd, va, vb, ws, rm⟩ := a
  cases h
  exact round64 _ _ (by simp only [VFields.InRange, zeroFields, vmemFields, vstageFields, scopyFields, withOffset, Bool.toNat, cond, AmoOp.code, RedOp.code, ScanOp.code, FcOp.code, Scope.code, Order.code]; omega) (by simp [decodeFields, decodeVX, need, zeroFields, decVVV, decVVC, decVAmt, decVRed, scanOpOf, ScanOp.code])

theorem vslideup (a : VAmt) : Statement (.vslideup a) := by
  rintro hw len w h
  obtain ⟨vd, va, s, ws, rm⟩ := a
  cases s <;> cases h <;>
    exact round64 _ _ (by simp only [VFields.InRange, zeroFields, vmemFields, vstageFields, scopyFields, withOffset, Bool.toNat, cond, AmoOp.code, RedOp.code, ScanOp.code, FcOp.code, Scope.code, Order.code]; omega) (by simp [decodeFields, decodeVX, need, zeroFields, decVVV, decVVC, decVAmt, decVRed, scanOpOf, ScanOp.code])

theorem vslidedn (a : VAmt) : Statement (.vslidedn a) := by
  rintro hw len w h
  obtain ⟨vd, va, s, ws, rm⟩ := a
  cases s <;> cases h <;>
    exact round64 _ _ (by simp only [VFields.InRange, zeroFields, vmemFields, vstageFields, scopyFields, withOffset, Bool.toNat, cond, AmoOp.code, RedOp.code, ScanOp.code, FcOp.code, Scope.code, Order.code]; omega) (by simp [decodeFields, decodeVX, need, zeroFields, decVVV, decVVC, decVAmt, decVRed, scanOpOf, ScanOp.code])

theorem vcompress (a : VVV) : Statement (.vcompress a) := by
  rintro hw len w h
  obtain ⟨vd, va, vb, ws, rm⟩ := a
  cases h
  exact round64 _ _ (by simp only [VFields.InRange, zeroFields, vmemFields, vstageFields, scopyFields, withOffset, Bool.toNat, cond, AmoOp.code, RedOp.code, ScanOp.code, FcOp.code, Scope.code, Order.code]; omega) (by simp [decodeFields, decodeVX, need, zeroFields, decVVV, decVVC, decVAmt, decVRed, scanOpOf, ScanOp.code])

theorem vexpand (a : VVV) : Statement (.vexpand a) := by
  rintro hw len w h
  obtain ⟨vd, va, vb, ws, rm⟩ := a
  cases h
  exact round64 _ _ (by simp only [VFields.InRange, zeroFields, vmemFields, vstageFields, scopyFields, withOffset, Bool.toNat, cond, AmoOp.code, RedOp.code, ScanOp.code, FcOp.code, Scope.code, Order.code]; omega) (by simp [decodeFields, decodeVX, need, zeroFields, decVVV, decVVC, decVAmt, decVRed, scanOpOf, ScanOp.code])

theorem vfperm (a : VVV) : Statement (.vfperm a) := by
  rintro hw len w h
  obtain ⟨vd, va, vb, ws, rm⟩ := a
  cases h
  exact round64 _ _ (by simp only [VFields.InRange, zeroFields, vmemFields, vstageFields, scopyFields, withOffset, Bool.toNat, cond, AmoOp.code, RedOp.code, ScanOp.code, FcOp.code, Scope.code, Order.code]; omega) (by simp [decodeFields, decodeVX, need, zeroFields, decVVV, decVVC, decVAmt, decVRed, scanOpOf, ScanOp.code])

theorem vredsumO (a : VRed) : Statement (.vredsumO a) := by
  rintro hw len w h
  obtain ⟨dst, va, vb, ws, rm⟩ := a
  cases dst <;> cases h <;>
    exact round64 _ _ (by simp only [VFields.InRange, zeroFields, vmemFields, vstageFields, scopyFields, withOffset, Bool.toNat, cond, AmoOp.code, RedOp.code, ScanOp.code, FcOp.code, Scope.code, Order.code]; omega) (by simp [decodeFields, decodeVX, need, zeroFields, decVVV, decVVC, decVAmt, decVRed, scanOpOf, ScanOp.code])

theorem vredsumT (a : VRed) : Statement (.vredsumT a) := by
  rintro hw len w h
  obtain ⟨dst, va, vb, ws, rm⟩ := a
  cases dst <;> cases h <;>
    exact round64 _ _ (by simp only [VFields.InRange, zeroFields, vmemFields, vstageFields, scopyFields, withOffset, Bool.toNat, cond, AmoOp.code, RedOp.code, ScanOp.code, FcOp.code, Scope.code, Order.code]; omega) (by simp [decodeFields, decodeVX, need, zeroFields, decVVV, decVVC, decVAmt, decVRed, scanOpOf, ScanOp.code])

theorem vredmax (a : VRed) : Statement (.vredmax a) := by
  rintro hw len w h
  obtain ⟨dst, va, vb, ws, rm⟩ := a
  cases dst <;> cases h <;>
    exact round64 _ _ (by simp only [VFields.InRange, zeroFields, vmemFields, vstageFields, scopyFields, withOffset, Bool.toNat, cond, AmoOp.code, RedOp.code, ScanOp.code, FcOp.code, Scope.code, Order.code]; omega) (by simp [decodeFields, decodeVX, need, zeroFields, decVVV, decVVC, decVAmt, decVRed, scanOpOf, ScanOp.code])

theorem vredmin (a : VRed) : Statement (.vredmin a) := by
  rintro hw len w h
  obtain ⟨dst, va, vb, ws, rm⟩ := a
  cases dst <;> cases h <;>
    exact round64 _ _ (by simp only [VFields.InRange, zeroFields, vmemFields, vstageFields, scopyFields, withOffset, Bool.toNat, cond, AmoOp.code, RedOp.code, ScanOp.code, FcOp.code, Scope.code, Order.code]; omega) (by simp [decodeFields, decodeVX, need, zeroFields, decVVV, decVVC, decVAmt, decVRed, scanOpOf, ScanOp.code])

theorem vredand (a : VRed) : Statement (.vredand a) := by
  rintro hw len w h
  obtain ⟨dst, va, vb, ws, rm⟩ := a
  cases dst <;> cases h <;>
    exact round64 _ _ (by simp only [VFields.InRange, zeroFields, vmemFields, vstageFields, scopyFields, withOffset, Bool.toNat, cond, AmoOp.code, RedOp.code, ScanOp.code, FcOp.code, Scope.code, Order.code]; omega) (by simp [decodeFields, decodeVX, need, zeroFields, decVVV, decVVC, decVAmt, decVRed, scanOpOf, ScanOp.code])

theorem vredor (a : VRed) : Statement (.vredor a) := by
  rintro hw len w h
  obtain ⟨dst, va, vb, ws, rm⟩ := a
  cases dst <;> cases h <;>
    exact round64 _ _ (by simp only [VFields.InRange, zeroFields, vmemFields, vstageFields, scopyFields, withOffset, Bool.toNat, cond, AmoOp.code, RedOp.code, ScanOp.code, FcOp.code, Scope.code, Order.code]; omega) (by simp [decodeFields, decodeVX, need, zeroFields, decVVV, decVVC, decVAmt, decVRed, scanOpOf, ScanOp.code])

theorem vscan (a : VScanArgs) : Statement (.vscan a) := by
  rintro hw len w h
  obtain ⟨vd, va, op, ws, rm⟩ := a
  cases op <;> cases h <;>
    exact round64 _ _ (by simp only [VFields.InRange, zeroFields, vmemFields, vstageFields, scopyFields, withOffset, Bool.toNat, cond, AmoOp.code, RedOp.code, ScanOp.code, FcOp.code, Scope.code, Order.code]; omega) (by simp [decodeFields, decodeVX, need, zeroFields, decVVV, decVVC, decVAmt, decVRed, scanOpOf, ScanOp.code])

theorem vmovc (a : VAmt) : Statement (.vmovc a) := by
  rintro hw len w h
  obtain ⟨vd, va, s, ws, rm⟩ := a
  cases s <;> cases h <;>
    exact round64 _ _ (by simp only [VFields.InRange, zeroFields, vmemFields, vstageFields, scopyFields, withOffset, Bool.toNat, cond, AmoOp.code, RedOp.code, ScanOp.code, FcOp.code, Scope.code, Order.code]; omega) (by simp [decodeFields, decodeVX, need, zeroFields, decVVV, decVVC, decVAmt, decVRed, scanOpOf, ScanOp.code])

theorem vmovr (a : VAmt) : Statement (.vmovr a) := by
  rintro hw len w h
  obtain ⟨vd, va, s, ws, rm⟩ := a
  cases s <;> cases h <;>
    exact round64 _ _ (by simp only [VFields.InRange, zeroFields, vmemFields, vstageFields, scopyFields, withOffset, Bool.toNat, cond, AmoOp.code, RedOp.code, ScanOp.code, FcOp.code, Scope.code, Order.code]; omega) (by simp [decodeFields, decodeVX, need, zeroFields, decVVV, decVVC, decVAmt, decVRed, scanOpOf, ScanOp.code])

theorem vcsw (a : VCswArgs) : Statement (.vcsw a) := by
  rintro hw len w h
  obtain ⟨vd, va, vb, inv, k, j, ws, rm⟩ := a
  have e1 : (j.toNat + 16 * k.toNat + 256 * inv.toNat) % 16 = j.toNat := by omega
  have e2 : (j.toNat + 16 * k.toNat + 256 * inv.toNat) / 16 % 16 = k.toNat := by omega
  have e3 : (j.toNat + 16 * k.toNat + 256 * inv.toNat) / 256 = inv.toNat := by omega
  have e4 : inv.toNat < 2 := inv.toNat_lt
  cases h
  refine round64 _ _ (by simp only [VFields.InRange, zeroFields]; omega) ?_
  have e5 : BitVec.ofNat 4 ((j.toNat + 16 * k.toNat + 256 * inv.toNat) / 16) = k := by
    apply BitVec.eq_of_toNat_eq; rw [BitVec.toNat_ofNat]; omega
  have e6 : BitVec.ofNat 4 (j.toNat + 16 * k.toNat + 256 * inv.toNat) = j := by
    apply BitVec.eq_of_toNat_eq; rw [BitVec.toNat_ofNat]; omega
  have e7 : j.toNat + 16 * k.toNat + 256 * inv.toNat < 512 := by omega
  simp only [decodeFields, decodeVX, need, zeroFields, e3, e5, e6, e7]
  cases inv <;> simp

theorem vnormk (a : VNormkArgs) : Statement (.vnormk a) := by
  rintro hw len w h
  obtain ⟨vd, va, k, ws, rm⟩ := a
  cases h
  exact round64 _ _ (by simp only [VFields.InRange, zeroFields, vmemFields, vstageFields, scopyFields, withOffset, Bool.toNat, cond, AmoOp.code, RedOp.code, ScanOp.code, FcOp.code, Scope.code, Order.code]; omega) (by simp [decodeFields, decodeVX, need, zeroFields, decVVV, decVVC, decVAmt, decVRed, scanOpOf, ScanOp.code])

theorem vld (m : VMem) : Statement (.vld m) := by
  rintro hw len w h
  obtain ⟨vd, xs, imm, stream, ws, rm⟩ := m
  cases stream <;> cases h <;>
    exact round64 _ _ (by simp only [VFields.InRange, zeroFields, vmemFields, vstageFields, scopyFields, withOffset, Bool.toNat, cond, AmoOp.code, RedOp.code, ScanOp.code, FcOp.code, Scope.code, Order.code]; omega) (by simp [decodeFields, decodeVM, need, zeroFields, vmemOf, vmemFields, amoOpOf, AmoOp.code, redOpOf, RedOp.code, scopeOf, Scope.code, orderOf, Order.code])

theorem vlds (m : VMem) (xt : XReg) : Statement (.vlds m xt) := by
  rintro hw len w h
  obtain ⟨vd, xs, imm, stream, ws, rm⟩ := m
  cases stream <;> cases h <;>
    exact round64 _ _ (by simp only [VFields.InRange, zeroFields, vmemFields, vstageFields, scopyFields, withOffset, Bool.toNat, cond, AmoOp.code, RedOp.code, ScanOp.code, FcOp.code, Scope.code, Order.code]; omega) (by simp [decodeFields, decodeVM, need, zeroFields, vmemOf, vmemFields, amoOpOf, AmoOp.code, redOpOf, RedOp.code, scopeOf, Scope.code, orderOf, Order.code])

theorem vldx (m : VMem) (vb : VReg) : Statement (.vldx m vb) := by
  rintro hw len w h
  obtain ⟨vd, xs, imm, stream, ws, rm⟩ := m
  cases stream <;> cases h <;>
    exact round64 _ _ (by simp only [VFields.InRange, zeroFields, vmemFields, vstageFields, scopyFields, withOffset, Bool.toNat, cond, AmoOp.code, RedOp.code, ScanOp.code, FcOp.code, Scope.code, Order.code]; omega) (by simp [decodeFields, decodeVM, need, zeroFields, vmemOf, vmemFields, amoOpOf, AmoOp.code, redOpOf, RedOp.code, scopeOf, Scope.code, orderOf, Order.code])

theorem vldseg (m : VMem) (n : BitVec 6) : Statement (.vldseg m n) := by
  rintro hw len w h
  obtain ⟨vd, xs, imm, stream, ws, rm⟩ := m
  simp only [Instr.wellFormed, Bool.and_eq_true, decide_eq_true_eq] at hw
  have e : 2 ≤ n.toNat ∧ n.toNat ≤ 8 := by simpa [BitVec.le_def] using hw
  cases stream <;> cases h <;>
    exact round64 _ _ (by simp only [VFields.InRange, zeroFields, vmemFields, Bool.toNat, cond]; omega) (by simp [decodeFields, decodeVM, need, zeroFields, vmemOf, vmemFields, amoOpOf, AmoOp.code, redOpOf, RedOp.code, scopeOf, Scope.code, orderOf, Order.code, e])

theorem vst (m : VMem) (u : Bool) : Statement (.vst m u) := by
  rintro hw len w h
  obtain ⟨vd, xs, imm, stream, ws, rm⟩ := m
  cases stream <;> cases u <;> cases h <;>
    exact round64 _ _ (by simp only [VFields.InRange, zeroFields, vmemFields, vstageFields, scopyFields, withOffset, Bool.toNat, cond, AmoOp.code, RedOp.code, ScanOp.code, FcOp.code, Scope.code, Order.code]; omega) (by simp [decodeFields, decodeVM, need, zeroFields, vmemOf, vmemFields, amoOpOf, AmoOp.code, redOpOf, RedOp.code, scopeOf, Scope.code, orderOf, Order.code])

theorem vsts (m : VMem) (xt : XReg) (u : Bool) : Statement (.vsts m xt u) := by
  rintro hw len w h
  obtain ⟨vd, xs, imm, stream, ws, rm⟩ := m
  cases stream <;> cases u <;> cases h <;>
    exact round64 _ _ (by simp only [VFields.InRange, zeroFields, vmemFields, vstageFields, scopyFields, withOffset, Bool.toNat, cond, AmoOp.code, RedOp.code, ScanOp.code, FcOp.code, Scope.code, Order.code]; omega) (by simp [decodeFields, decodeVM, need, zeroFields, vmemOf, vmemFields, amoOpOf, AmoOp.code, redOpOf, RedOp.code, scopeOf, Scope.code, orderOf, Order.code])

theorem vstx (m : VMem) (vb : VReg) (u : Bool) : Statement (.vstx m vb u) := by
  rintro hw len w h
  obtain ⟨vd, xs, imm, stream, ws, rm⟩ := m
  cases stream <;> cases u <;> cases h <;>
    exact round64 _ _ (by simp only [VFields.InRange, zeroFields, vmemFields, vstageFields, scopyFields, withOffset, Bool.toNat, cond, AmoOp.code, RedOp.code, ScanOp.code, FcOp.code, Scope.code, Order.code]; omega) (by simp [decodeFields, decodeVM, need, zeroFields, vmemOf, vmemFields, amoOpOf, AmoOp.code, redOpOf, RedOp.code, scopeOf, Scope.code, orderOf, Order.code])

theorem vstPair (a : VPairArgs) : Statement (.vstPair a) := by
  rintro hw len w h
  obtain ⟨vd, xs, xt, xc, stream, ws, rm⟩ := a
  cases stream <;> cases h <;>
    exact round64 _ _ (by simp only [VFields.InRange, zeroFields, vmemFields, vstageFields, scopyFields, withOffset, Bool.toNat, cond, AmoOp.code, RedOp.code, ScanOp.code, FcOp.code, Scope.code, Order.code]; omega) (by simp [decodeFields, decodeVM, need, zeroFields, vmemOf, vmemFields, amoOpOf, AmoOp.code, redOpOf, RedOp.code, scopeOf, Scope.code, orderOf, Order.code])

theorem vgl (m : VMem) (vb : VReg) : Statement (.vgl m vb) := by
  rintro hw len w h
  obtain ⟨vd, xs, imm, stream, ws, rm⟩ := m
  cases stream <;> cases h <;>
    exact round64 _ _ (by simp only [VFields.InRange, zeroFields, vmemFields, vstageFields, scopyFields, withOffset, Bool.toNat, cond, AmoOp.code, RedOp.code, ScanOp.code, FcOp.code, Scope.code, Order.code]; omega) (by simp [decodeFields, decodeVM, need, zeroFields, vmemOf, vmemFields, amoOpOf, AmoOp.code, redOpOf, RedOp.code, scopeOf, Scope.code, orderOf, Order.code])

theorem vsc (m : VMem) (vb : VReg) (wd : WReg) : Statement (.vsc m vb wd) := by
  rintro hw len w h
  obtain ⟨vd, xs, imm, stream, ws, rm⟩ := m
  cases stream <;> cases h <;>
    exact round64 _ _ (by simp only [VFields.InRange, zeroFields, vmemFields, vstageFields, scopyFields, withOffset, Bool.toNat, cond, AmoOp.code, RedOp.code, ScanOp.code, FcOp.code, Scope.code, Order.code]; omega) (by simp [decodeFields, decodeVM, need, zeroFields, vmemOf, vmemFields, amoOpOf, AmoOp.code, redOpOf, RedOp.code, scopeOf, Scope.code, orderOf, Order.code])

theorem vamo (a : VAmoArgs) : Statement (.vamo a) := by
  rintro hw len w h
  obtain ⟨vd, va, xs, vb, op, sc, ord, stream, ws, rm⟩ := a
  have hs := sc.code_lt
  have ho := ord.code_lt
  have ha : op.code < 16 := by cases op <;> decide
  have hb : amoOpOf op.code = some op := by cases op <;> rfl
  have e1 : (op.code + 16 * sc.code + 128 * ord.code) % 16 = op.code := by omega
  have e2 : (op.code + 16 * sc.code + 128 * ord.code) / 16 % 8 = sc.code := by omega
  have e3 : (op.code + 16 * sc.code + 128 * ord.code) / 128 = ord.code := by omega
  have e4 : op.code + 16 * sc.code + 128 * ord.code < 512 := by omega
  have e5 : stream.toNat < 2 := stream.toNat_lt
  cases h
  refine round64 _ _ (by simp only [VFields.InRange, zeroFields]; omega) ?_
  have e6 : (stream.toNat == 1) = stream := by cases stream <;> rfl
  simp [decodeFields, decodeVM, need, zeroFields, e1, e2, e3, e4, e5, e6, hb]

theorem vsred (a : VSredArgs) : Statement (.vsred a) := by
  rintro hw len w h
  obtain ⟨va, xs, vb, op, sc, stream, ws, rm⟩ := a
  cases op <;> cases sc <;> cases stream <;> cases h <;>
    exact round64 _ _ (by simp only [VFields.InRange, zeroFields, vmemFields, vstageFields, scopyFields, withOffset, Bool.toNat, cond, AmoOp.code, RedOp.code, ScanOp.code, FcOp.code, Scope.code, Order.code]; omega) (by simp [decodeFields, decodeVM, need, zeroFields, vmemOf, vmemFields, amoOpOf, AmoOp.code, redOpOf, RedOp.code, scopeOf, Scope.code, orderOf, Order.code])

theorem vsredElementPerform (n : Nat) : Statement (.vsredElementPerform n) := by
  rintro - len w h
  cases h

theorem vcopy (a : VCopyArgs) : Statement (.vcopy a) := by
  rintro hw len w h
  obtain ⟨xs, xt, xn, xc, sc, stream, ws, rm⟩ := a
  cases sc <;> cases stream <;> cases h <;>
    exact round64 _ _ (by simp only [VFields.InRange, zeroFields, vmemFields, vstageFields, scopyFields, withOffset, Bool.toNat, cond, AmoOp.code, RedOp.code, ScanOp.code, FcOp.code, Scope.code, Order.code]; omega) (by simp [decodeFields, decodeVM, need, zeroFields, vmemOf, vmemFields, amoOpOf, AmoOp.code, redOpOf, RedOp.code, scopeOf, Scope.code, orderOf, Order.code])

theorem vcopyCounterIncrement (n : Nat) : Statement (.vcopyCounterIncrement n) := by
  rintro - len w h
  cases h

theorem sld (m : VStage) : Statement (.sld m) := by
  rintro hw len w h
  obtain ⟨vd, xs, imm, ws, rm⟩ := m
  cases h
  exact round64 _ _ (by simp only [VFields.InRange, zeroFields, vmemFields, vstageFields, scopyFields, withOffset, Bool.toNat, cond, AmoOp.code, RedOp.code, ScanOp.code, FcOp.code, Scope.code, Order.code]; omega) (by simp [decodeFields, decodeVS, need, zeroFields, vstageOf, vstageFields, scopyOf, scopyFields, amoOpOf, AmoOp.code, fcOpOf, FcOp.code])

theorem sst (m : VStage) : Statement (.sst m) := by
  rintro hw len w h
  obtain ⟨vd, xs, imm, ws, rm⟩ := m
  cases h
  exact round64 _ _ (by simp only [VFields.InRange, zeroFields, vmemFields, vstageFields, scopyFields, withOffset, Bool.toNat, cond, AmoOp.code, RedOp.code, ScanOp.code, FcOp.code, Scope.code, Order.code]; omega) (by simp [decodeFields, decodeVS, need, zeroFields, vstageOf, vstageFields, scopyOf, scopyFields, amoOpOf, AmoOp.code, fcOpOf, FcOp.code])

theorem sldx (m : VStage) (vb : VReg) : Statement (.sldx m vb) := by
  rintro hw len w h
  obtain ⟨vd, xs, imm, ws, rm⟩ := m
  cases h
  exact round64 _ _ (by simp only [VFields.InRange, zeroFields, vmemFields, vstageFields, scopyFields, withOffset, Bool.toNat, cond, AmoOp.code, RedOp.code, ScanOp.code, FcOp.code, Scope.code, Order.code]; omega) (by simp [decodeFields, decodeVS, need, zeroFields, vstageOf, vstageFields, scopyOf, scopyFields, amoOpOf, AmoOp.code, fcOpOf, FcOp.code])

theorem sstx (m : VStage) (vb : VReg) : Statement (.sstx m vb) := by
  rintro hw len w h
  obtain ⟨vd, xs, imm, ws, rm⟩ := m
  cases h
  exact round64 _ _ (by simp only [VFields.InRange, zeroFields, vmemFields, vstageFields, scopyFields, withOffset, Bool.toNat, cond, AmoOp.code, RedOp.code, ScanOp.code, FcOp.code, Scope.code, Order.code]; omega) (by simp [decodeFields, decodeVS, need, zeroFields, vstageOf, vstageFields, scopyOf, scopyFields, amoOpOf, AmoOp.code, fcOpOf, FcOp.code])

theorem scopy (a : ScopyArgs) : Statement (.scopy a) := by
  rintro hw len w h
  obtain ⟨xs, xt, xn, out, swz, ws, rm⟩ := a
  cases out <;> cases swz <;> cases h <;>
    exact round64 _ _ (by simp only [VFields.InRange, zeroFields, vmemFields, vstageFields, scopyFields, withOffset, Bool.toNat, cond, AmoOp.code, RedOp.code, ScanOp.code, FcOp.code, Scope.code, Order.code]; omega) (by simp [decodeFields, decodeVS, need, zeroFields, vstageOf, vstageFields, scopyOf, scopyFields, amoOpOf, AmoOp.code, fcOpOf, FcOp.code])

theorem scopyX (a : ScopyArgs) (vb : VReg) : Statement (.scopyX a vb) := by
  rintro hw len w h
  obtain ⟨xs, xt, xn, out, swz, ws, rm⟩ := a
  cases out <;> cases swz <;> cases h <;>
    exact round64 _ _ (by simp only [VFields.InRange, zeroFields, vmemFields, vstageFields, scopyFields, withOffset, Bool.toNat, cond, AmoOp.code, RedOp.code, ScanOp.code, FcOp.code, Scope.code, Order.code]; omega) (by simp [decodeFields, decodeVS, need, zeroFields, vstageOf, vstageFields, scopyOf, scopyFields, amoOpOf, AmoOp.code, fcOpOf, FcOp.code])

theorem samo (a : SamoArgs) : Statement (.samo a) := by
  rintro hw len w h
  obtain ⟨vd, va, xs, vb, op, ws, rm⟩ := a
  cases op <;> cases h <;>
    exact round64 _ _ (by simp only [VFields.InRange, zeroFields, vmemFields, vstageFields, scopyFields, withOffset, Bool.toNat, cond, AmoOp.code, RedOp.code, ScanOp.code, FcOp.code, Scope.code, Order.code]; omega) (by simp [decodeFields, decodeVS, need, zeroFields, vstageOf, vstageFields, scopyOf, scopyFields, amoOpOf, AmoOp.code, fcOpOf, FcOp.code])

theorem bld (m : VStage) : Statement (.bld m) := by
  rintro hw len w h
  obtain ⟨vd, xs, imm, ws, rm⟩ := m
  cases h
  exact round64 _ _ (by simp only [VFields.InRange, zeroFields, vmemFields, vstageFields, scopyFields, withOffset, Bool.toNat, cond, AmoOp.code, RedOp.code, ScanOp.code, FcOp.code, Scope.code, Order.code]; omega) (by simp [decodeFields, decodeVS, need, zeroFields, vstageOf, vstageFields, scopyOf, scopyFields, amoOpOf, AmoOp.code, fcOpOf, FcOp.code])

theorem bst (m : VStage) : Statement (.bst m) := by
  rintro hw len w h
  obtain ⟨vd, xs, imm, ws, rm⟩ := m
  cases h
  exact round64 _ _ (by simp only [VFields.InRange, zeroFields, vmemFields, vstageFields, scopyFields, withOffset, Bool.toNat, cond, AmoOp.code, RedOp.code, ScanOp.code, FcOp.code, Scope.code, Order.code]; omega) (by simp [decodeFields, decodeVS, need, zeroFields, vstageOf, vstageFields, scopyOf, scopyFields, amoOpOf, AmoOp.code, fcOpOf, FcOp.code])

theorem fcins (a : VVSrc) : Statement (.fcins a) := by
  rintro hw len w h
  obtain ⟨va, vb, ws, rm⟩ := a
  cases h
  exact round64 _ _ (by simp only [VFields.InRange, zeroFields, vmemFields, vstageFields, scopyFields, withOffset, Bool.toNat, cond, AmoOp.code, RedOp.code, ScanOp.code, FcOp.code, Scope.code, Order.code]; omega) (by simp [decodeFields, decodeVS, need, zeroFields, vstageOf, vstageFields, scopyOf, scopyFields, amoOpOf, AmoOp.code, fcOpOf, FcOp.code])

theorem fclook (a : FcLookArgs) : Statement (.fclook a) := by
  rintro hw len w h
  obtain ⟨vd, va, wd, ws, rm⟩ := a
  cases h
  exact round64 _ _ (by simp only [VFields.InRange, zeroFields, vmemFields, vstageFields, scopyFields, withOffset, Bool.toNat, cond, AmoOp.code, RedOp.code, ScanOp.code, FcOp.code, Scope.code, Order.code]; omega) (by simp [decodeFields, decodeVS, need, zeroFields, vstageOf, vstageFields, scopyOf, scopyFields, amoOpOf, AmoOp.code, fcOpOf, FcOp.code])

theorem fcacc (a : VVSrc) (op : FcOp) : Statement (.fcacc a op) := by
  rintro hw len w h
  obtain ⟨va, vb, ws, rm⟩ := a
  cases op <;> cases h <;>
    exact round64 _ _ (by simp only [VFields.InRange, zeroFields, vmemFields, vstageFields, scopyFields, withOffset, Bool.toNat, cond, AmoOp.code, RedOp.code, ScanOp.code, FcOp.code, Scope.code, Order.code]; omega) (by simp [decodeFields, decodeVS, need, zeroFields, vstageOf, vstageFields, scopyOf, scopyFields, amoOpOf, AmoOp.code, fcOpOf, FcOp.code])

theorem fcdrain (a : VUn) : Statement (.fcdrain a) := by
  rintro hw len w h
  obtain ⟨vd, va, ws, rm⟩ := a
  cases h
  exact round64 _ _ (by simp only [VFields.InRange, zeroFields, vmemFields, vstageFields, scopyFields, withOffset, Bool.toNat, cond, AmoOp.code, RedOp.code, ScanOp.code, FcOp.code, Scope.code, Order.code]; omega) (by simp [decodeFields, decodeVS, need, zeroFields, vstageOf, vstageFields, scopyOf, scopyFields, amoOpOf, AmoOp.code, fcOpOf, FcOp.code])

theorem fcclr (ws : WReg) (rm : Rm) : Statement (.fcclr ws rm) := by
  rintro hw len w h
  cases h
  exact round64 _ _ (by simp only [VFields.InRange, zeroFields, vmemFields, vstageFields, scopyFields, withOffset, Bool.toNat, cond, AmoOp.code, RedOp.code, ScanOp.code, FcOp.code, Scope.code, Order.code]; omega) (by simp [decodeFields, decodeVS, need, zeroFields, vstageOf, vstageFields, scopyOf, scopyFields, amoOpOf, AmoOp.code, fcOpOf, FcOp.code])

theorem mmulO (a : MxArgs) : Statement (.mmulO a) := by
  rintro hw len w h
  obtain ⟨vd, va, vb, l, r, form, ws, rm⟩ := a
  cases l <;> cases r <;> cases h <;>
    exact round64 _ _ (by simp only [VFields.InRange, zeroFields, vmemFields, vstageFields, scopyFields, withOffset, Bool.toNat, cond, AmoOp.code, RedOp.code, ScanOp.code, FcOp.code, Scope.code, Order.code]; omega) (by simp [decodeFields, decodeMX, need, zeroFields])

theorem mmulR (a : MxArgs) : Statement (.mmulR a) := by
  rintro hw len w h
  obtain ⟨vd, va, vb, l, r, form, ws, rm⟩ := a
  cases l <;> cases r <;> cases h <;>
    exact round64 _ _ (by simp only [VFields.InRange, zeroFields, vmemFields, vstageFields, scopyFields, withOffset, Bool.toNat, cond, AmoOp.code, RedOp.code, ScanOp.code, FcOp.code, Scope.code, Order.code]; omega) (by simp [decodeFields, decodeMX, need, zeroFields])

theorem mmulSp (a : Mx4Args) : Statement (.mmulSp a) := by
  rintro hw len w h
  obtain ⟨vd, va, vb, vc, l, r, form, ws, rm⟩ := a
  cases l <;> cases r <;> cases h <;>
    exact round64 _ _ (by simp only [VFields.InRange, zeroFields, vmemFields, vstageFields, scopyFields, withOffset, Bool.toNat, cond, AmoOp.code, RedOp.code, ScanOp.code, FcOp.code, Scope.code, Order.code]; omega) (by simp [decodeFields, decodeMX, need, zeroFields])

theorem mmulGrp (a : Mx4Args) : Statement (.mmulGrp a) := by
  rintro hw len w h
  obtain ⟨vd, va, vb, vc, l, r, form, ws, rm⟩ := a
  cases l <;> cases r <;> cases h <;>
    exact round64 _ _ (by simp only [VFields.InRange, zeroFields, vmemFields, vstageFields, scopyFields, withOffset, Bool.toNat, cond, AmoOp.code, RedOp.code, ScanOp.code, FcOp.code, Scope.code, Order.code]; omega) (by simp [decodeFields, decodeMX, need, zeroFields])

theorem mlatch (a : MlatchArgs) : Statement (.mlatch a) := by
  rintro hw len w h
  obtain ⟨vb, xs, form, ws, rm⟩ := a
  cases h
  exact round64 _ _ (by simp only [VFields.InRange, zeroFields, vmemFields, vstageFields, scopyFields, withOffset, Bool.toNat, cond, AmoOp.code, RedOp.code, ScanOp.code, FcOp.code, Scope.code, Order.code]; omega) (by simp [decodeFields, decodeMX, need, zeroFields])

theorem mlatchStage (a : MlatchArgs) : Statement (.mlatchStage a) := by
  rintro hw len w h
  obtain ⟨vb, xs, form, ws, rm⟩ := a
  cases h
  exact round64 _ _ (by simp only [VFields.InRange, zeroFields, vmemFields, vstageFields, scopyFields, withOffset, Bool.toNat, cond, AmoOp.code, RedOp.code, ScanOp.code, FcOp.code, Scope.code, Order.code]; omega) (by simp [decodeFields, decodeMX, need, zeroFields])

theorem mregrow (a : MregrowArgs) : Statement (.mregrow a) := by
  rintro hw len w h
  obtain ⟨vd, va, vb, ud, form, ws, rm⟩ := a
  cases h
  exact round64 _ _ (by simp only [VFields.InRange, zeroFields, vmemFields, vstageFields, scopyFields, withOffset, Bool.toNat, cond, AmoOp.code, RedOp.code, ScanOp.code, FcOp.code, Scope.code, Order.code]; omega) (by simp [decodeFields, decodeMX, need, zeroFields])

theorem wcmpEq (a : WCmpArgs) : Statement (.wcmpEq a) := by
  rintro hw len w h
  obtain ⟨wd, va, b, rm⟩ := a
  cases b <;> cases h <;>
    exact round64 _ _ (by simp only [VFields.InRange, zeroFields, vmemFields, vstageFields, scopyFields, withOffset, Bool.toNat, cond, AmoOp.code, RedOp.code, ScanOp.code, FcOp.code, Scope.code, Order.code]; omega) (by simp [decodeFields, decodeWG, need, zeroFields, decWCmp, woffOf, withOffset])

theorem wcmpNe (a : WCmpArgs) : Statement (.wcmpNe a) := by
  rintro hw len w h
  obtain ⟨wd, va, b, rm⟩ := a
  cases b <;> cases h <;>
    exact round64 _ _ (by simp only [VFields.InRange, zeroFields, vmemFields, vstageFields, scopyFields, withOffset, Bool.toNat, cond, AmoOp.code, RedOp.code, ScanOp.code, FcOp.code, Scope.code, Order.code]; omega) (by simp [decodeFields, decodeWG, need, zeroFields, decWCmp, woffOf, withOffset])

theorem wcmpLt (a : WCmpArgs) : Statement (.wcmpLt a) := by
  rintro hw len w h
  obtain ⟨wd, va, b, rm⟩ := a
  cases b <;> cases h <;>
    exact round64 _ _ (by simp only [VFields.InRange, zeroFields, vmemFields, vstageFields, scopyFields, withOffset, Bool.toNat, cond, AmoOp.code, RedOp.code, ScanOp.code, FcOp.code, Scope.code, Order.code]; omega) (by simp [decodeFields, decodeWG, need, zeroFields, decWCmp, woffOf, withOffset])

theorem wcmpLe (a : WCmpArgs) : Statement (.wcmpLe a) := by
  rintro hw len w h
  obtain ⟨wd, va, b, rm⟩ := a
  cases b <;> cases h <;>
    exact round64 _ _ (by simp only [VFields.InRange, zeroFields, vmemFields, vstageFields, scopyFields, withOffset, Bool.toNat, cond, AmoOp.code, RedOp.code, ScanOp.code, FcOp.code, Scope.code, Order.code]; omega) (by simp [decodeFields, decodeWG, need, zeroFields, decWCmp, woffOf, withOffset])

theorem wcmpGt (a : WCmpArgs) : Statement (.wcmpGt a) := by
  rintro hw len w h
  obtain ⟨wd, va, b, rm⟩ := a
  cases b <;> cases h <;>
    exact round64 _ _ (by simp only [VFields.InRange, zeroFields, vmemFields, vstageFields, scopyFields, withOffset, Bool.toNat, cond, AmoOp.code, RedOp.code, ScanOp.code, FcOp.code, Scope.code, Order.code]; omega) (by simp [decodeFields, decodeWG, need, zeroFields, decWCmp, woffOf, withOffset])

theorem wcmpGe (a : WCmpArgs) : Statement (.wcmpGe a) := by
  rintro hw len w h
  obtain ⟨wd, va, b, rm⟩ := a
  cases b <;> cases h <;>
    exact round64 _ _ (by simp only [VFields.InRange, zeroFields, vmemFields, vstageFields, scopyFields, withOffset, Bool.toNat, cond, AmoOp.code, RedOp.code, ScanOp.code, FcOp.code, Scope.code, Order.code]; omega) (by simp [decodeFields, decodeWG, need, zeroFields, decWCmp, woffOf, withOffset])

theorem wsoftGt (a : WCmpArgs) : Statement (.wsoftGt a) := by
  rintro hw len w h
  obtain ⟨wd, va, b, rm⟩ := a
  cases b <;> cases h <;>
    exact round64 _ _ (by simp only [VFields.InRange, zeroFields, vmemFields, vstageFields, scopyFields, withOffset, Bool.toNat, cond, AmoOp.code, RedOp.code, ScanOp.code, FcOp.code, Scope.code, Order.code]; omega) (by simp [decodeFields, decodeWG, need, zeroFields, decWCmp, woffOf, withOffset])

theorem wsoftLt (a : WCmpArgs) : Statement (.wsoftLt a) := by
  rintro hw len w h
  obtain ⟨wd, va, b, rm⟩ := a
  cases b <;> cases h <;>
    exact round64 _ _ (by simp only [VFields.InRange, zeroFields, vmemFields, vstageFields, scopyFields, withOffset, Bool.toNat, cond, AmoOp.code, RedOp.code, ScanOp.code, FcOp.code, Scope.code, Order.code]; omega) (by simp [decodeFields, decodeWG, need, zeroFields, decWCmp, woffOf, withOffset])

theorem wcomp (a : WW) : Statement (.wcomp a) := by
  rintro hw len w h
  obtain ⟨wd, wa, rm⟩ := a
  cases h
  exact round64 _ _ (by simp only [VFields.InRange, zeroFields, vmemFields, vstageFields, scopyFields, withOffset, Bool.toNat, cond, AmoOp.code, RedOp.code, ScanOp.code, FcOp.code, Scope.code, Order.code]; omega) (by simp [decodeFields, decodeWG, need, zeroFields, decWCmp, woffOf, withOffset])

theorem wmul (a : WWW) : Statement (.wmul a) := by
  rintro hw len w h
  obtain ⟨wd, wa, wb, rm⟩ := a
  cases h
  exact round64 _ _ (by simp only [VFields.InRange, zeroFields, vmemFields, vstageFields, scopyFields, withOffset, Bool.toNat, cond, AmoOp.code, RedOp.code, ScanOp.code, FcOp.code, Scope.code, Order.code]; omega) (by simp [decodeFields, decodeWG, need, zeroFields, decWCmp, woffOf, withOffset])

theorem wmin (a : WWW) : Statement (.wmin a) := by
  rintro hw len w h
  obtain ⟨wd, wa, wb, rm⟩ := a
  cases h
  exact round64 _ _ (by simp only [VFields.InRange, zeroFields, vmemFields, vstageFields, scopyFields, withOffset, Bool.toNat, cond, AmoOp.code, RedOp.code, ScanOp.code, FcOp.code, Scope.code, Order.code]; omega) (by simp [decodeFields, decodeWG, need, zeroFields, decWCmp, woffOf, withOffset])

theorem wmax (a : WWW) : Statement (.wmax a) := by
  rintro hw len w h
  obtain ⟨wd, wa, wb, rm⟩ := a
  cases h
  exact round64 _ _ (by simp only [VFields.InRange, zeroFields, vmemFields, vstageFields, scopyFields, withOffset, Bool.toNat, cond, AmoOp.code, RedOp.code, ScanOp.code, FcOp.code, Scope.code, Order.code]; omega) (by simp [decodeFields, decodeWG, need, zeroFields, decWCmp, woffOf, withOffset])

theorem wmv (a : WW) : Statement (.wmv a) := by
  rintro hw len w h
  obtain ⟨wd, wa, rm⟩ := a
  cases h
  exact round64 _ _ (by simp only [VFields.InRange, zeroFields, vmemFields, vstageFields, scopyFields, withOffset, Bool.toNat, cond, AmoOp.code, RedOp.code, ScanOp.code, FcOp.code, Scope.code, Order.code]; omega) (by simp [decodeFields, decodeWG, need, zeroFields, decWCmp, woffOf, withOffset])

theorem wfromv (wd : WReg) (va : VReg) (rm : Rm) : Statement (.wfromv wd va rm) := by
  rintro hw len w h
  cases h
  exact round64 _ _ (by simp only [VFields.InRange, zeroFields, vmemFields, vstageFields, scopyFields, withOffset, Bool.toNat, cond, AmoOp.code, RedOp.code, ScanOp.code, FcOp.code, Scope.code, Order.code]; omega) (by simp [decodeFields, decodeWG, need, zeroFields, decWCmp, woffOf, withOffset])

theorem wtov (vd : VReg) (wa : WReg) (rm : Rm) : Statement (.wtov vd wa rm) := by
  rintro hw len w h
  cases h
  exact round64 _ _ (by simp only [VFields.InRange, zeroFields, vmemFields, vstageFields, scopyFields, withOffset, Bool.toNat, cond, AmoOp.code, RedOp.code, ScanOp.code, FcOp.code, Scope.code, Order.code]; omega) (by simp [decodeFields, decodeWG, need, zeroFields, decWCmp, woffOf, withOffset])

theorem wbr (wa : WReg) (off : BitVec 22) (rm : Rm) : Statement (.wbr wa off rm) := by
  rintro hw len w h
  have e1 : off.toNat / 4096 * 4096 + off.toNat / 64 % 64 * 64 + off.toNat % 64 = off.toNat := by omega
  cases h
  exact round64 _ _ (by simp only [VFields.InRange, zeroFields, withOffset]; omega)
    (by simp [decodeFields, decodeWG, need, zeroFields, woffOf, withOffset, e1])

theorem wsel (wa : WReg) (rm : Rm) : Statement (.wsel wa rm) := by
  rintro hw len w h
  cases h
  exact round64 _ _ (by simp only [VFields.InRange, zeroFields, vmemFields, vstageFields, scopyFields, withOffset, Bool.toNat, cond, AmoOp.code, RedOp.code, ScanOp.code, FcOp.code, Scope.code, Order.code]; omega) (by simp [decodeFields, decodeWG, need, zeroFields, decWCmp, woffOf, withOffset])

theorem wloop (wd : WReg) (wa : WReg) (off : BitVec 22) (rm : Rm) : Statement (.wloop wd wa off rm) := by
  rintro hw len w h
  have e1 : off.toNat / 4096 * 4096 + off.toNat / 64 % 64 * 64 + off.toNat % 64 = off.toNat := by omega
  cases h
  exact round64 _ _ (by simp only [VFields.InRange, zeroFields, withOffset]; omega)
    (by simp [decodeFields, decodeWG, need, zeroFields, woffOf, withOffset, e1])

theorem wloopDecide (h : Nat) : Statement (.wloopDecide h) := by
  rintro - len w h
  cases h

theorem wblend (a : WBlendArgs) : Statement (.wblend a) := by
  rintro hw len w h
  obtain ⟨vd, ws, va, vb, rm⟩ := a
  cases h
  exact round64 _ _ (by simp only [VFields.InRange, zeroFields, vmemFields, vstageFields, scopyFields, withOffset, Bool.toNat, cond, AmoOp.code, RedOp.code, ScanOp.code, FcOp.code, Scope.code, Order.code]; omega) (by simp [decodeFields, decodeWG, need, zeroFields, decWCmp, woffOf, withOffset])

theorem wgradB (a : WGradBArgs) : Statement (.wgradB a) := by
  rintro hw len w h
  obtain ⟨vd, va, vb, vc, rm⟩ := a
  cases h
  exact round64 _ _ (by simp only [VFields.InRange, zeroFields, vmemFields, vstageFields, scopyFields, withOffset, Bool.toNat, cond, AmoOp.code, RedOp.code, ScanOp.code, FcOp.code, Scope.code, Order.code]; omega) (by simp [decodeFields, decodeWG, need, zeroFields, decWCmp, woffOf, withOffset])

theorem wgradS (vd : VReg) (va : VReg) (ws : WReg) (rm : Rm) : Statement (.wgradS vd va ws rm) := by
  rintro hw len w h
  cases h
  exact round64 _ _ (by simp only [VFields.InRange, zeroFields, vmemFields, vstageFields, scopyFields, withOffset, Bool.toNat, cond, AmoOp.code, RedOp.code, ScanOp.code, FcOp.code, Scope.code, Order.code]; omega) (by simp [decodeFields, decodeWG, need, zeroFields, decWCmp, woffOf, withOffset])

theorem wmaxr (xd : XReg) (wa : WReg) (rm : Rm) : Statement (.wmaxr xd wa rm) := by
  rintro hw len w h
  cases h
  exact round64 _ _ (by simp only [VFields.InRange, zeroFields, vmemFields, vstageFields, scopyFields, withOffset, Bool.toNat, cond, AmoOp.code, RedOp.code, ScanOp.code, FcOp.code, Scope.code, Order.code]; omega) (by simp [decodeFields, decodeWG, need, zeroFields, decWCmp, woffOf, withOffset])

theorem wpop (xd : XReg) (wa : WReg) (rm : Rm) : Statement (.wpop xd wa rm) := by
  rintro hw len w h
  cases h
  exact round64 _ _ (by simp only [VFields.InRange, zeroFields, vmemFields, vstageFields, scopyFields, withOffset, Bool.toNat, cond, AmoOp.code, RedOp.code, ScanOp.code, FcOp.code, Scope.code, Order.code]; omega) (by simp [decodeFields, decodeWG, need, zeroFields, decWCmp, woffOf, withOffset])

theorem vstN (xd : XReg) (va : VReg) (ws : WReg) (rm : Rm) : Statement (.vstN xd va ws rm) := by
  rintro hw len w h
  cases h
  exact round64 _ _ (by simp only [VFields.InRange, zeroFields, vmemFields, vstageFields, scopyFields, withOffset, Bool.toNat, cond, AmoOp.code, RedOp.code, ScanOp.code, FcOp.code, Scope.code, Order.code]; omega) (by simp [decodeFields, decodeNX, need, zeroFields])

theorem nrel (xs : XReg) (ws : WReg) (rm : Rm) : Statement (.nrel xs ws rm) := by
  rintro hw len w h
  cases h
  exact round64 _ _ (by simp only [VFields.InRange, zeroFields, vmemFields, vstageFields, scopyFields, withOffset, Bool.toNat, cond, AmoOp.code, RedOp.code, ScanOp.code, FcOp.code, Scope.code, Order.code]; omega) (by simp [decodeFields, decodeNX, need, zeroFields])

theorem nrelV (vb : VReg) (ws : WReg) (rm : Rm) : Statement (.nrelV vb ws rm) := by
  rintro hw len w h
  cases h
  exact round64 _ _ (by simp only [VFields.InRange, zeroFields, vmemFields, vstageFields, scopyFields, withOffset, Bool.toNat, cond, AmoOp.code, RedOp.code, ScanOp.code, FcOp.code, Scope.code, Order.code]; omega) (by simp [decodeFields, decodeNX, need, zeroFields])

theorem illegalInstruction (bits : BitVec 64) : Statement (.illegalInstruction bits) := by
  rintro - len w h
  cases h

theorem instructionFetchFault (cause : Nat) (addr : BitVec 64) : Statement (.instructionFetchFault cause addr) := by
  rintro - len w h
  cases h

theorem schedulerDecision (part : Nat) : Statement (.schedulerDecision part) := by
  rintro - len w h
  cases h

theorem decisionTimer (part : Nat) : Statement (.decisionTimer part) := by
  rintro - len w h
  cases h

theorem accessPerformed (part : PerformedPart) (sc : Scope) : Statement (.accessPerformed part sc) := by
  rintro - len w h
  cases h

theorem preemptionSave (h : Nat) (groups : Nat) : Statement (.preemptionSave h groups) := by
  rintro - len w h
  cases h

theorem asyncMachineCheck (h : Nat) (point : CheckPoint) (e : ErrorReport) :
    Statement (.asyncMachineCheck h point e) := by
  rintro - len w h
  cases h

theorem cmcFarmEndTimeout (farm : Nat) : Statement (.cmcFarmEndTimeout farm) := by
  rintro - len w h
  cases h

theorem fetchComplete (entry : Nat) : Statement (.fetchComplete entry) := by
  rintro - len w h
  cases h

theorem tokenArrival (t : TokenMsg) : Statement (.tokenArrival t) := by
  rintro - len w h
  cases h

theorem tokenAck (h : Nat) (n : Nat) : Statement (.tokenAck h n) := by
  rintro - len w h
  cases h

theorem tokenBusy (h : Nat) (n : Nat) : Statement (.tokenBusy h n) := by
  rintro - len w h
  cases h

theorem tokenRefuse (h : Nat) (n : Nat) : Statement (.tokenRefuse h n) := by
  rintro - len w h
  cases h

theorem tokenTimeout (h : Nat) (n : Nat) : Statement (.tokenTimeout h n) := by
  rintro - len w h
  cases h

theorem remoteAccess (pkg : Nat) (pa : Nat) (op : AgentOp) : Statement (.remoteAccess pkg pa op) := by
  rintro - len w h
  cases h

theorem hostAccess (sp : HostSpace) (addr : Nat) (op : AgentOp) : Statement (.hostAccess sp addr op) := by
  rintro - len w h
  cases h

theorem packageReset (i : StartInputs) : Statement (.packageReset i) := by
  rintro - len w h
  cases h

theorem registerWrite (w : Writer) (off : Nat) (size : Nat) (v : BitVec 64) : Statement (.registerWrite w off size v) := by
  rintro - len w h
  cases h

theorem contextTableWrite (w : Writer) (ctx : Nat) (image : List Byte) : Statement (.contextTableWrite w ctx image) := by
  rintro - len w h
  cases h

theorem partitionWrite (w : Writer) (h : Fin 512) (v : BitVec 16) : Statement (.partitionWrite w h v) := by
  rintro - len w h
  cases h

theorem launchDoorbell (v : BitVec 64) : Statement (.launchDoorbell v) := by
  rintro - len w h
  cases h

theorem arithmeticCycle (h : Nat) (c : CycleInfo) : Statement (.arithmeticCycle h c) := by
  rintro - len w h
  cases h

theorem hbmContainedError (e : ErrorReport) (lines : List Nat) (slots : List Nat) : Statement (.hbmContainedError e lines slots) := by
  rintro - len w h
  cases h

theorem poolConfiguration (v : BitVec 64) : Statement (.poolConfiguration v) := by
  rintro - len w h
  cases h

theorem expertArena (v : BitVec 64) : Statement (.expertArena v) := by
  rintro - len w h
  cases h

theorem contextSwitchHold (ctx : BitVec 16) : Statement (.contextSwitchHold ctx) := by
  rintro - len w h
  cases h

theorem contextSwitchRelease (ctx : BitVec 16) : Statement (.contextSwitchRelease ctx) := by
  rintro - len w h
  cases h

theorem linkTrained (l : LinkId) (info : LinkInfo) : Statement (.linkTrained l info) := by
  rintro - len w h
  cases h

theorem tokenRetransmit (h : Nat) (n : Nat) : Statement (.tokenRetransmit h n) := by
  rintro - len w h
  cases h

theorem unreachableTimeout (n : Nat) : Statement (.unreachableTimeout n) := by
  rintro - len w h
  cases h

theorem linkFailure (l : LinkId) : Statement (.linkFailure l) := by
  rintro - len w h
  cases h

theorem linkDisable (l : LinkId) : Statement (.linkDisable l) := by
  rintro - len w h
  cases h

theorem linkRetrain (l : LinkId) : Statement (.linkRetrain l) := by
  rintro - len w h
  cases h

theorem powerWindow (watts : Nat) : Statement (.powerWindow watts) := by
  rintro - len w h
  cases h

theorem fatalError (e : ErrorReport) : Statement (.fatalError e) := by
  rintro - len w h
  cases h

theorem correctedError (e : ErrorReport) : Statement (.correctedError e) := by
  rintro - len w h
  cases h

theorem stackTrained (s : Fin 8) (ok : Bool) : Statement (.stackTrained s ok) := by
  rintro - len w h
  cases h

theorem selfTestComplete (h : Nat) (pass : Bool) (item : BitVec 64) : Statement (.selfTestComplete h pass item) := by
  rintro - len w h
  cases h

theorem clockChangeComplete (h : Nat) (act : BitVec 8) : Statement (.clockChangeComplete h act) := by
  rintro - len w h
  cases h

theorem islandRequest (w : Writer) (h : Nat) (req : BitVec 8) : Statement (.islandRequest w h req) := by
  rintro - len w h
  cases h

theorem poolSweep (v : BitVec 64) : Statement (.poolSweep v) := by
  rintro - len w h
  cases h

theorem refusalClear (v : BitVec 64) : Statement (.refusalClear v) := by
  rintro - len w h
  cases h

theorem idleWake (h : BitVec 9) : Statement (.idleWake h) := by
  rintro - len w h
  cases h

theorem attestationDoorbell (nonce : BitVec 256) : Statement (.attestationDoorbell nonce) := by
  rintro - len w h
  cases h

theorem measurementExtend (r : ExtendRequest) (d : BitVec 256) : Statement (.measurementExtend r d) := by
  rintro - len w h
  cases h

theorem bankStatusWrite (w : Writer) (bank : Fin 64) (status : Option (BitVec 64)) (count : Option (BitVec 64)) : Statement (.bankStatusWrite w bank status count) := by
  rintro - len w h
  cases h

theorem ethPortEnable (w : Writer) (p : Fin 8) : Statement (.ethPortEnable w p) := by
  rintro - len w h
  cases h

theorem ethPortDisable (w : Writer) (p : Fin 8) : Statement (.ethPortDisable w p) := by
  rintro - len w h
  cases h

theorem ethTxTail (w : Writer) (p : Fin 8) (v : BitVec 32) : Statement (.ethTxTail w p v) := by
  rintro - len w h
  cases h

theorem ethRxTail (w : Writer) (p : Fin 8) (v : BitVec 32) : Statement (.ethRxTail w p v) := by
  rintro - len w h
  cases h

theorem ethTxComplete (p : Fin 8) (ok : Bool) : Statement (.ethTxComplete p ok) := by
  rintro - len w h
  cases h

theorem ethFrameReceived (p : Fin 8) (src : BitVec 48) (flow : BitVec 16) (data : List Byte) : Statement (.ethFrameReceived p src flow data) := by
  rintro - len w h
  cases h

theorem ethReceiveTimeout (p : Fin 8) : Statement (.ethReceiveTimeout p) := by
  rintro - len w h
  cases h

theorem ethLinkChange (p : Fin 8) (up : Bool) : Statement (.ethLinkChange p up) := by
  rintro - len w h
  cases h

theorem fetchAdmit : Statement (.fetchAdmit) := by
  rintro - len w h
  cases h

theorem thermalTrip : Statement (.thermalTrip) := by
  rintro - len w h
  cases h

theorem powerOn : Statement (.powerOn) := by
  rintro - len w h
  cases h

theorem startTimeout : Statement (.startTimeout) := by
  rintro - len w h
  cases h

theorem fullService : Statement (.fullService) := by
  rintro - len w h
  cases h

theorem i3cResetRequest : Statement .i3cResetRequest := by
  rintro - len w h
  cases h

theorem sweepComplete : Statement (.sweepComplete) := by
  rintro - len w h
  cases h

theorem quoteReady : Statement (.quoteReady) := by
  rintro - len w h
  cases h

theorem referenceTick : Statement (.referenceTick) := by
  rintro - len w h
  cases h

end Laws.RoundTrip

end Sys2Proof
end

