-- ==== Sys2Proof/Laws/Pool.lean ====
section
/-! SUPPORT. The choice of a slot of the nameless pool (R348), whatever the open pending requests are. -/

namespace Sys2Proof

namespace Machine

/-- The least of a list is there unless the list is empty. -/
theorem leastBy_none {α : Type} {f : α → Nat} {l : List α} (h : leastBy f l = none) : l = [] := by
  cases l with
  | nil => rfl
  | cons a as =>
    simp only [leastBy] at h
    split at h
    · cases h
    · split at h <;> cases h

/-- The least of a list is one of its members. -/
theorem leastBy_mem {α : Type} {f : α → Nat} {l : List α} {a : α} (h : leastBy f l = some a) : a ∈ l := by
  induction l generalizing a with
  | nil => cases h
  | cons b bs ih =>
    simp only [leastBy] at h
    split at h
    · cases h; simp
    · rename_i c hc
      split at h <;> cases h
      · exact List.mem_cons_of_mem _ (ih hc)
      · simp

/-- A slot is chosen when some bank of the stacks has a free row, whatever requests are pending. -/
theorem chooseAmong_isSome {d : Device} {m : Mem} {load : Nat → Nat} {l : List Nat} {st c b : Nat} (hst : st ∈ l) (hc : c < 64)
    (hb : b < 32) (hr : (freeRow d m st c b).isSome = true) : (chooseAmong d m load l).isSome = true := by
  obtain ⟨r, hr⟩ := Option.isSome_iff_exists.mp hr
  unfold chooseAmong
  simp only
  split
  · rename_i h
    have := leastBy_none h
    have hm : (st, c) ∈ l.flatMap fun st => (List.range 64).map fun c => (st, c) :=
      List.mem_flatMap.mpr ⟨st, hst, List.mem_map.mpr ⟨c, List.mem_range.mpr hc, rfl⟩⟩
    have hne : ((List.range 32).filterMap fun b => (freeRow d m st c b).map fun r => (b, r)) ≠ [] := by
      intro h0
      have : (b, r) ∈ (List.range 32).filterMap fun b => (freeRow d m st c b).map fun r => (b, r) :=
        List.mem_filterMap.mpr ⟨b, List.mem_range.mpr hb, by simp [hr]⟩
      rw [h0] at this; cases this
    rw [List.filter_eq_nil_iff] at this
    exact absurd (by simpa using hne) (this (st, c) hm)
  · rename_i p h
    have := (List.mem_filter.mp (leastBy_mem h)).2
    rw [Option.isSome_map]
    cases h2 : leastBy _ ((List.range 32).filterMap fun b => (freeRow d m p.1 p.2 b).map fun r => (b, r)) with
    | some _ => rfl
    | none => rw [leastBy_none h2] at this; cases this

end Machine

end Sys2Proof
end

