-- ==== Sys2Proof/Tests/Slice0.lean ====
section
/-! SUPPORT. Tests: ill-formed terms, words written out from the spec's encodings, one-step tests, and for every statement
with hypotheses a state and operands that meet them. -/

namespace Sys2Proof

namespace Tests

open Machine Safety Claims

-- The kernel evaluations below are done one after another: run side by side they ask for a thread each.
set_option Elab.async false

/-! ## Well-formedness: an ill-formed term for each check -/

theorem smoke_operands_refused :
    [Instr.fenceX 0 1 .hart, .fenceX 1 0 .hart, .cAdd 0 0, .vldseg ⟨0, 0, 0, false, 0, 0⟩ 1, .vldseg ⟨0, 0, 0, false, 0, 0⟩ 9,
      .registerWrite .host 0 3 0, .contextTableWrite .host 1024 (List.replicate 64 0), .contextTableWrite .host 0 [0],
      .instructionFetchFault 0 0, .instructionFetchFault 18 0].all (fun i => !i.wellFormed) = true := by decide +kernel

theorem smoke_numbers_refused :
    [Instr.cwaitWake 512, .idleTimeout 512, .xparkResume 512, .xwakeWWake 512, .xsendResume 512, .dispatchQueueResume 512,
      .wloopDecide 512, .asyncMachineCheck 512 ⟨0, false⟩ ⟨0, 0, 0, none, 0⟩, .preemptionSave 512 0, .tokenAck 512 0, .tokenBusy 512 0,
      .tokenRefuse 512 0, .tokenRetransmit 512 0, .tokenTimeout 512 0, .selfTestComplete 512 true 0, .clockChangeComplete 512 0,
      .islandRequest .host 512 0, .arithmeticCycle 512 ⟨false, 0, 0, 0, 0, 0, false, false, 0⟩, .schedulerDecision 0,
      .schedulerDecision 1024, .decisionTimer 0, .decisionTimer 1024, .fetchComplete 8192, .remoteAccess 640 0 (.read 1),
      .remoteAccess 0 (2 ^ 55) (.read 1)].all (fun i => !i.wellFormed) = true := by decide +kernel

theorem smoke_tokens_refused :
    [Instr.tokenArrival ⟨1024, 0, 0, List.replicate 64 0⟩, .tokenArrival ⟨0, 640, 0, List.replicate 64 0⟩,
      .tokenArrival ⟨0, 0, 0, []⟩, .tokenArrival ⟨0, 0, 0, List.replicate 65 0⟩,
      .tokenArrival ⟨0, 0, 0, List.replicate 4160 0⟩].all (fun i => !i.wellFormed) = true := by decide +kernel

/-! ## Decoding: for every fetched instruction a word put together from the tables of R76 to R107, or given in the spec -/

/-- A word of so many bytes decodes to an instruction. -/
def decodes (n w : Nat) (i : Instr) : Bool :=
  match decodeWord n w with
  | .ok j => j == i
  | .error _ => false

/-- A word of so many bytes is refused. -/
def refuses (n w : Nat) : Bool :=
  match decodeWord n w with
  | .ok _ => false
  | .error _ => true

def memoryWords : List (Nat × Nat × Instr) :=
  [(4, 0xFF0B5003, .ldb 10 11 2040), (4, 0xFF2B5883, .ldh 11 11 2041), (4, 0xFF4B6103, .ldw 12 11 2042),
   (4, 0xFF6B6983, .ldd 13 11 2043), (4, 0xFF8B7203, .ldbn 14 11 2044), (4, 0xFFAB7A83, .ldhn 15 11 2045),
   (4, 0xFFCB8303, .ldwn 16 11 2046), (4, 0x0C89A007, .stb 20 9 100), (4, 0x0CA9A887, .sth 21 9 101),
   (4, 0x0CC9B107, .stw 22 9 102), (4, 0x0CE9B987, .std 23 9 103)]

theorem test_decode_memory : memoryWords.all (fun p => decodes p.1 p.2.1 p.2.2) = true := by decide +kernel

def integerWords : List (Nat × Nat × Instr) :=
  [(4, 0xFFED600B, .addi 12 13 2047), (4, 0xFFCD608B, .andi 12 13 2046), (4, 0xFFAD610B, .ori 12 13 2045),
   (4, 0xFF8D618B, .xori 12 13 2044), (4, 0x07ED620B, .shli 12 13 63), (4, 0x07CD628B, .shri 12 13 62),
   (4, 0x07AD630B, .shai 12 13 61), (4, 0x00AD638B, .slti 12 13 5), (4, 0x00AD640B, .sltni 12 13 5),
   (4, 0x0062080F, .add 1 2 3), (4, 0x0082088F, .sub 1 2 4), (4, 0x00A2090F, .and 1 2 5), (4, 0x00C2098F, .or 1 2 6),
   (4, 0x00E20A0F, .xor 1 2 7), (4, 0x01020A8F, .shl 1 2 8), (4, 0x01220B0F, .shr 1 2 9),
   (4, 0x01420B8F, .sha 1 2 10), (4, 0x01620C0F, .slt 1 2 11), (4, 0x01820C8F, .sltn 1 2 12),
   (4, 0x01A20D0F, .min 1 2 13), (4, 0x01C20D8F, .max 1 2 14), (4, 0x01E20E0F, .minn 1 2 15),
   (4, 0x02020E8F, .maxn 1 2 16), (4, 0x03BEF817, .mul 31 30 29), (4, 0x039EF897, .mulh 31 30 28),
   (4, 0x037EF917, .mulhn 31 30 27), (4, 0x035EF997, .div 31 30 26), (4, 0x033EFA17, .divn 31 30 25),
   (4, 0x031EFA97, .rem 31 30 24), (4, 0x02FEFB17, .remn 31 30 23)]

theorem test_decode_integer : integerWords.all (fun p => decodes p.1 p.2.1 p.2.2) = true := by decide +kernel

def controlWords : List (Nat × Nat × Instr) :=
  [(4, 0xFF8E181B, .beq 3 14 2044), (4, 0xFF8E209B, .bne 4 14 2044), (4, 0xFF8E291B, .blt 5 14 2044),
   (4, 0xFF8E319B, .bge 6 14 2044), (4, 0xFF8E3A1B, .bltn 7 14 2044), (4, 0xFF8E429B, .bgen 8 14 2044),
   (4, 0xABCD0F1F, .jal 1 0xABCDE), (4, 0xFFC10023, .jalr 0 1 2046), (4, 0x12343AA7, .lhi 7 0x12345),
   (4, 0x0003612B, .apc 12 50), (4, 0x0120602F, .csrr 12 9), (4, 0x20C628AF, .csrw 5 6 0x106),
   (4, 0x20C6292F, .csrs 5 6 0x106), (4, 0x20C629AF, .csrc 5 6 0x106), (4, 0x014A6043, .setvli 12 10 0x0A),
   (4, 0x892A6243, .setvli 12 10 0x1449), (4, 0x016A60C3, .setvl 12 10 11),
   (4, 0x0FFA08FB, .clasp 1 ⟨2, 0, 2, 7, 7, 7⟩)]

theorem test_decode_control : controlWords.all (fun p => decodes p.1 p.2.1 p.2.2) = true := by decide +kernel

def orderedWords : List (Nat × Nat × Instr) :=
  [(4, 0x00E62833, .amoadd 5 6 7 .hart .rlx), (4, 0x24E62A33, .amoswap 5 6 7 .circlet .acq),
   (4, 0x48E62C33, .amocas 5 6 7 .package .rel), (4, 0x6CE62E33, .amomax 5 6 7 .domain .ar),
   (4, 0x90E62833, .amomin 5 6 7 .system .rlx), (4, 0xA0E62A33, .amoand 5 6 7 .hart .acq),
   (4, 0xC4E62C33, .amoor 5 6 7 .circlet .rel), (4, 0x08000037, .fence .package),
   (4, 0x090600B7, .fenceX 2 16 .domain), (4, 0x0A0B7937, .cwait 15 11 16 .package), (4, 0x000001B7, .fbar)]

theorem test_decode_ordered : orderedWords.all (fun p => decodes p.1 p.2.1 p.2.2) = true := by decide +kernel

def systemWords : List (Nat × Nat × Instr) :=
  [(4, 0x00A0003B, .sys 5), (4, 0x006001BB, .brk 3), (4, 0x000000BB, .eret), (4, 0x0000013B, .idle),
   (4, 0x0000023B, .yield), (4, 0x000002BB, .endHart), (4, 0x0000033B, .trig), (4, 0x000063BB, .strip 12),
   (4, 0x000A6C3B, .launch 13 10), (4, 0x016A053B, .tlbinv 10 11), (4, 0x016A04BB, .icinv 10 11),
   (4, 0x000C683F, .xbind 13 12), (4, 0x000C00BF, .xunpin 12), (4, 0x280D013F, .xpark 13 10),
   (4, 0x280071BF, .xwake 14 10), (4, 0x2800723F, .xwakeW 14 10), (4, 0x29CD02BF, .xsend 10 13 14),
   (4, 0x2C007B3F, .xrecv 15 11), (4, 0x016A03BF, .ertw 10 11)]

theorem test_decode_system : systemWords.all (fun p => decodes p.1 p.2.1 p.2.2) = true := by decide +kernel

def compactWords : List (Nat × Nat × Instr) :=
  [(2, 0x25A0, .cAdd 13 9), (2, 0x29A4, .cSub 13 10), (2, 0x2DA8, .cAnd 13 11), (2, 0x31AC, .cOr 13 12),
   (2, 0x35B0, .cXor 13 13), (2, 0x0014, .cMv 0), (2, 0x09A1, .cAddi 13 2), (2, 0xFDC5, .cShli 14 63),
   (2, 0xF9E9, .cLd 15 62), (2, 0x060D, .cSt 16 1), (2, 0xFF31, .cBeqz 2041), (2, 0xFF35, .cBnez 2041),
   (2, 0xFF39, .cJ 2041)]

theorem test_decode_compact : compactWords.all (fun p => decodes p.1 p.2.1 p.2.2) = true := by decide +kernel

def elementwiseWords : List (Nat × Nat × Instr) :=
  [(8, 0x000000024850007F, .vadd ⟨20, 8, .v 9, 0, 0⟩), (8, 0x000144700854047F, .vsub ⟨21, 8, .x 7, 1, 1⟩),
   (8, 0xFF4288000858087F, .vrsub ⟨22, 8, .i 1021, 2, 2⟩), (8, 0x00030C02485C0C7F, .vmul ⟨23, 8, .v 9, 3, 3⟩),
   (8, 0x000450700860107F, .vmulh ⟨24, 8, .x 7, 4, 4⟩), (8, 0xFF4594000864147F, .vdiv ⟨25, 8, .i 1021, 5, 5⟩),
   (8, 0x000018024868187F, .vrem ⟨26, 8, .v 9, 6, 0⟩), (8, 0x00015C70086C1C7F, .vmin ⟨27, 8, .x 7, 7, 1⟩),
   (8, 0xFF42A0000870207F, .vmax ⟨28, 8, .i 1021, 8, 2⟩), (8, 0x000324024874247F, .vand ⟨29, 8, .v 9, 9, 3⟩),
   (8, 0x000468700878287F, .vor ⟨30, 8, .x 7, 10, 4⟩), (8, 0xFF45AC00087C2C7F, .vxor ⟨31, 8, .i 1021, 11, 5⟩),
   (8, 0x000030024880307F, .vshl ⟨32, 8, .v 9, 12, 0⟩), (8, 0x000174700884347F, .vshr ⟨33, 8, .x 7, 13, 1⟩),
   (8, 0xFF42B8000888387F, .vsha ⟨34, 8, .i 1021, 14, 2⟩), (8, 0x00033C02488C3C7F, .vsadd ⟨35, 8, .v 9, 15, 3⟩),
   (8, 0x000440700890407F, .vssub ⟨36, 8, .x 7, 0, 4⟩), (8, 0x000001024840447F, .vfma ⟨16, 8, .v 9 16, 0, 0⟩),
   (8, 0x000041E00204487F, .vfms ⟨1, 2, .x 30, 0, 0⟩), (8, 0x000503F0C2044C7F, .vfnma ⟨1, 2, .v 3 63, 0, 5⟩),
   (8, 0x00000000C204507F, .vfdiv ⟨1, 2, .v 3, 0, 0⟩), (8, 0x00003C000614547F, .vfsqrt ⟨5, 6, 15, 0⟩),
   (8, 0x00003C000614587F, .vfrsqrt ⟨5, 6, 15, 0⟩), (8, 0x00003C0006145C7F, .vfexp2 ⟨5, 6, 15, 0⟩),
   (8, 0x00003C000614607F, .vflog2 ⟨5, 6, 15, 0⟩), (8, 0x00000000C220647F, .vwadd ⟨8, 2, .v 3, 0, 0⟩),
   (8, 0x000041F00220687F, .vwmul ⟨8, 2, .x 31, 0, 0⟩), (8, 0x0000018208606C7F, .vwfma ⟨24, 8, .v 8 24, 0, 0⟩),
   (8, 0x000100000614707F, .vcvt ⟨5, 6, 0, 1⟩), (8, 0x000000000840747F, .vwcvt ⟨16, 8, 0, 0⟩),
   (8, 0x000000000614787F, .vncvt ⟨5, 6, 0, 0⟩), (8, 0x0000000006147C7F, .vquant ⟨5, 6, 0, 0⟩),
   (8, 0x000000000614807F, .vdequant ⟨5, 6, 0, 0⟩), (8, 0x00000040C204847F, .vsel ⟨1, 2, 3, 4, 0, 0⟩),
   (8, 0xFFC0C0C00800887F, .vmv (.toX 12 8 1023 0 0)), (8, 0x000040C00020887F, .vmv (.splat 8 12 0 0))]

theorem test_decode_elementwise : elementwiseWords.all (fun p => decodes p.1 p.2.1 p.2.2) = true := by decide +kernel

def crosslaneWords : List (Nat × Nat × Instr) :=
  [(8, 0x00000000C20400FF, .vgath ⟨1, 2, 3, 0, 0⟩), (8, 0x00004050020404FF, .vslideup ⟨1, 2, .x 5, 0, 0⟩),
   (8, 0xFA008000020408FF, .vslidedn ⟨1, 2, .i 1000, 0, 0⟩), (8, 0x0000003002040CFF, .vcompress ⟨1, 2, 3, 0, 0⟩),
   (8, 0x00000030020410FF, .vexpand ⟨1, 2, 3, 0, 0⟩), (8, 0x00000000C20414FF, .vfperm ⟨1, 2, 3, 0, 0⟩),
   (8, 0x0000C090C20018FF, .vredsumO ⟨.x 9, 2, 3, 0, 0⟩), (8, 0x0000000248501CFF, .vredsumT ⟨.v 20, 8, 9, 0, 0⟩),
   (8, 0x00000000C20420FF, .vredmax ⟨.v 1, 2, 3, 0, 0⟩), (8, 0x00000000C20424FF, .vredmin ⟨.v 1, 2, 3, 0, 0⟩),
   (8, 0x00000000C20428FF, .vredand ⟨.v 1, 2, 3, 0, 0⟩), (8, 0x00000000C2042CFF, .vredor ⟨.v 1, 2, 3, 0, 0⟩),
   (8, 0x01000000020430FF, .vscan ⟨1, 2, .or, 0, 0⟩), (8, 0x01C08000020434FF, .vmovc ⟨1, 2, .i 7, 0, 0⟩),
   (8, 0x00004070020438FF, .vmovr ⟨1, 2, .x 7, 0, 0⟩), (8, 0x4400000248503CFF, .vcsw ⟨20, 8, 9, true, 1, 0, 0, 0⟩),
   (8, 0x8FC08000020440FF, .vnormk ⟨1, 2, 575, 0, 0⟩)]

theorem test_decode_crosslane : crosslaneWords.all (fun p => decodes p.1 p.2.1 p.2.2) = true := by decide +kernel

def deviceWords : List (Nat × Nat × Instr) :=
  [(8, 0x0000C0B00020017F, .vld ⟨8, 11, 0, false, 0, 0⟩),
   (8, 0xFFC0C0B30020057F, .vlds ⟨8, 11, 1023, false, 0, 0⟩ 12),
   (8, 0x1000C0B50028097F, .vldx ⟨10, 11, 64, false, 0, 0⟩ 20),
   (8, 0x0010C0B0C0200D7F, .vldseg ⟨8, 11, 0, true, 0, 0⟩ 3),
   (8, 0x0000C0C00024217F, .vst ⟨9, 12, 0, false, 0, 0⟩ false),
   (8, 0x0008C0B7C020257F, .vsts ⟨8, 11, 0, false, 0, 0⟩ 31 true),
   (8, 0x0018C0B80020297F, .vstx ⟨8, 11, 0, true, 0, 0⟩ 32 true),
   (8, 0x0000C0B30D202D7F, .vstPair ⟨8, 11, 12, 13, false, 0, 0⟩),
   (8, 0x0000C0B50020417F, .vgl ⟨8, 11, 0, false, 0, 0⟩ 20),
   (8, 0x0000C0B28330457F, .vsc ⟨12, 11, 0, false, 0, 0⟩ 10 3),
   (8, 0x71C0C0B28920497F, .vamo ⟨8, 9, 11, 10, .minn, .system, .ar, false, 0, 0⟩),
   (8, 0x0800C0B28E004D7F, .vsred ⟨14, 11, 10, .add, .package, false, 0, 0⟩),
   (8, 0x00C0C145565C617F, .vcopy ⟨20, 21, 22, 23, .domain, false, 0, 0⟩)]

theorem test_decode_device : deviceWords.all (fun p => decodes p.1 p.2.1 p.2.2) = true := by decide +kernel

def localWords : List (Nat × Nat × Instr) :=
  [(8, 0x8000C0B0002001FF, .sld ⟨8, 11, 512, 0, 0⟩), (8, 0x0000C0B0002005FF, .sst ⟨8, 11, 0, 0, 0⟩),
   (8, 0x0000C0B2402009FF, .sldx ⟨8, 11, 0, 0, 0⟩ 9), (8, 0x0000C0B240200DFF, .sstx ⟨8, 11, 0, 0, 0⟩ 9),
   (8, 0x0050C0B30D0011FF, .scopy ⟨11, 12, 13, true, true, 0, 0⟩),
   (8, 0x0000C0C2CD2815FF, .scopyX ⟨12, 11, 13, false, false, 0, 0⟩ 10),
   (8, 0x0000C0B28E3019FF, .samo ⟨12, 14, 11, 10, .add, 0, 0⟩), (8, 0x1000C0B0005021FF, .bld ⟨20, 11, 64, 0, 0⟩),
   (8, 0x0000C0B0002025FF, .bst ⟨8, 11, 0, 0, 0⟩), (8, 0x0000C002480041FF, .fcins ⟨8, 9, 0, 0⟩),
   (8, 0x0000C005084045FF, .fclook ⟨16, 8, 5, 0, 0⟩), (8, 0x0080C002480049FF, .fcacc ⟨8, 9, 0, 0⟩ .min),
   (8, 0x0000C00009204DFF, .fcdrain ⟨8, 9, 0, 0⟩), (8, 0x0000C000000051FF, .fcclr 0 0)]

theorem test_decode_local : localWords.all (fun p => decodes p.1 p.2.1 p.2.2) = true := by decide +kernel

def matrixWords : List (Nat × Nat × Instr) :=
  [(8, 0x000000081000027F, .mmulO ⟨0, 16, 32, false, false, 0, 0, 0⟩),
   (8, 0x001000080004067F, .mmulR ⟨1, 0, 32, true, false, 0, 0, 0⟩),
   (8, 0x000003F810080A7F, .mmulSp ⟨2, 16, 32, 63, false, false, 0, 0, 0⟩),
   (8, 0x002003F810080E7F, .mmulGrp ⟨2, 16, 32, 63, false, true, 0, 0, 0⟩),
   (8, 0x0000C0B40000227F, .mlatch ⟨16, 11, 3, 0, 0⟩), (8, 0x0010C0BA0000227F, .mlatchStage ⟨40, 11, 3, 0, 0⟩),
   (8, 0x0000000FF080267F, .mregrow ⟨32, 48, 63, 0, 0, 0, 0⟩)]

theorem test_decode_matrix : matrixWords.all (fun p => decodes p.1 p.2.1 p.2.2) = true := by decide +kernel

def weightsWords : List (Nat × Nat × Instr) :=
  [(8, 0x00000002480402FF, .wcmpEq ⟨1, 8, .v 9, 0⟩), (8, 0x00004060080806FF, .wcmpNe ⟨2, 8, .x 6, 0⟩),
   (8, 0x00000002480C0AFF, .wcmpLt ⟨3, 8, .v 9, 0⟩), (8, 0x0000406008100EFF, .wcmpLe ⟨4, 8, .x 6, 0⟩),
   (8, 0x00000002481412FF, .wcmpGt ⟨5, 8, .v 9, 0⟩), (8, 0x00004060081816FF, .wcmpGe ⟨6, 8, .x 6, 0⟩),
   (8, 0x0000000248041AFF, .wsoftGt ⟨1, 8, .v 9, 0⟩), (8, 0x0000406008041EFF, .wsoftLt ⟨1, 8, .x 6, 0⟩),
   (8, 0x00000000020422FF, .wcomp ⟨1, 2, 0⟩), (8, 0x00000003C20426FF, .wmul ⟨1, 2, 15, 0⟩),
   (8, 0x00000003C2042AFF, .wmin ⟨1, 2, 15, 0⟩), (8, 0x00000003C2042EFF, .wmax ⟨1, 2, 15, 0⟩),
   (8, 0x00000000020432FF, .wmv ⟨1, 2, 0⟩), (8, 0x000000003E0436FF, .wfromv 1 62 0),
   (8, 0x0000000002F43AFF, .wtov 61 2 0), (8, 0x00000002010042FF, .wbr 1 8 0), (8, 0x00000000020046FF, .wsel 2 0),
   (8, 0xFFC003FD83084AFF, .wloop 2 3 4194294 0), (8, 0x00000402CA304EFF, .wblend ⟨12, 1, 10, 11, 0⟩),
   (8, 0x00000040C20452FF, .wgradB ⟨1, 2, 3, 4, 0⟩), (8, 0x00000C00020456FF, .wgradS 1 2 3 0),
   (8, 0x0000014002005AFF, .wmaxr 20 2 0), (8, 0x0000014002005EFF, .wpop 20 2 0),
   (8, 0x0000C0D00800037F, .vstN 13 8 0 0), (8, 0x0000C0D00000077F, .nrel 13 0 0),
   (8, 0x0000C00500000B7F, .nrelV 20 0 0)]

theorem test_decode_weights : weightsWords.all (fun p => decodes p.1 p.2.1 p.2.2) = true := by decide +kernel

/-! Patterns that the tables do not list, or that name a reserved value (R73). -/

theorem test_decode_refuses_16 : [0x422, 0x438, 0x43D, 0x434, 0x8420].all (refuses 2) = true := by decide +kernel

theorem test_decode_refuses_32 :
    [0x13, 0x47, 0x462080F, 0x620F0F, 0x8020A0B, 0xE0620833, 0x14620833, 0x6208B3, 0x14000037, 0x1000B7, 0x40000B7, 0x5BB,
      0x43F, 0x121082F, 0x6209C3, 0x1000007B].all (refuses 4) = true := by decide +kernel

theorem test_decode_refuses_64 :
    [0x3FF, 0x8C7F, 0x60000C204007F, 0x40C204007F, 0x4040C204847F, 0x20434FF, 0xC040C20418FF, 0xC0B040200D7F, 0xC0B240200D7F,
      0x200C0B28920497F, 0x1400C0B28920497F, 0x20C0B00020017F, 0xC2B00020017F, 0x1400000020430FF, 0x24422FF, 0x4000020422FF,
      0xB00020017F].all (refuses 8) = true := by decide +kernel

/-! ## States -/

/-- The machine after power-on with one program placed at 0x10000: hart 0 runs in a farm of one, in context 1, whose
first 1 GiB of addresses are mapped. -/
def demo : State := placeWord State.reset 32 0x0500600B

/-- The same with hart 0 changed. -/
def demoWith (g : Hart → Hart) : State := withMe demo (g (me demo))

/-- The registers x1 to x31 hold these values, from x10 on. -/
def withX (vs : List Word) : State := demoWith fun hd => { hd with x := Vector.ofFn fun r : Fin 32 => vs.getD (r.val - 10) 0 }

/-- Hart 0 in privileged mode. -/
def privileged : State := demoWith fun hd => { hd with priv := true }

def after (o : Host.Outcome State Fault Refusal) : State :=
  match o with
  | .next t => t
  | _ => State.reset

/-- The checks of an access pass with one piece. -/
def onePiece (r : Except Fail (List Piece) × State) : Bool :=
  match r with
  | (.ok [_], _) => true
  | _ => false

/-- The checks of an access fail with a cause. -/
def failsWith (c : Nat) (r : Except Fail (List Piece) × State) : Bool :=
  match r with
  | (.error f, _) => f.cause == c
  | _ => false

/-- The log slot of the current hart takes the record of a trap. -/
def logs (s : State) (i : TrapInfo) : Bool :=
  match readSystem s s.cur (me s).ctxid (logSlot s s.cur (me s).ctxid) 4 with
  | (.ok old, t) => (writeSystems t s.cur (me s).ctxid (trapRecord t s.cur i ((leValue old + 1) % 2 ^ 32))).1 == none
  | _ => false

theorem logWritten_of_logs {s : State} {i : TrapInfo} (h : logs s i = true) : ∃ u, LogWritten s i u := by
  unfold logs at h
  split at h
  · rename_i old t hr
    exact ⟨_, old, t, hr, by
      rw [Prod.ext_iff]
      exact ⟨by simpa using h, rfl⟩⟩
  · cases h

theorem nothingPosted_of {s : State} (h1 : (s.mem.posted.filter fun p => p.hart == s.cur) = [])
    (h2 : (s.mem.counters.filter fun c => c.hart == s.cur) = []) (h3 : (me s).trigger = .no) : NothingPosted s :=
  ⟨h1, h2, fun _ h => by rw [h3] at h; cases h⟩

/-- `demo` with 3 elements of an element type, x registers, and weights in w2 and w3. -/
def small (et vl : Nat) : State :=
  demoWith fun hd => { hd with
    x := Vector.ofFn fun r : Fin 32 => if r.val = 0 then 0 else BitVec.ofNat 64 (0x20000 + 64 * r.val)
    v := Vector.ofFn fun r : Fin 64 => if r.val = 63 then 0 else BitVec.ofNat 9216 ((r.val + 1) * 0x1000000020000000300000004)
    w := (hd.w.set 2 (BitVec.ofNat 18432 0x200040008000)).set 3 (BitVec.ofNat 18432 0x400040004000)
    csr := { hd.csr with vtype := vtypeOf (BitVec.ofNat 64 et), vl := BitVec.ofNat 64 vl } }

/-! ## Accesses that pass their checks whatever other memory holds -/

/-- No poison, and no reduction is posted. -/
abbrev Calm (m : Mem) : Prop := m.poison = [] ∧ m.posted = []

/-- The translation of an address by the page walk alone, when its leaf needs no update. -/
def leafAt (s : State) (k : Kind) (a : Nat) : Option Leaf :=
  match walk s (a % 2 ^ 57) 5 (ctxRoot (ctxImage s (me s).ctxid.toNat)) with
  | .ok l => if usedPte k l = l.pte then some l else none
  | .error _ => none

/-- The place of n bytes at an address, in one run. -/
def placeAt (s : State) (k : Kind) (a n : Nat) : Option Piece := (leafAt s k a).map fun l => pieceOf s (me s).ctxid ((a, n), some l)

/-- An access of one run whose page tables lie below 0x10000, which passes its checks when nothing is poisoned. -/
def easy (s : State) (k : Kind) (a : Int) (n : Nat) : Bool :=
  match leafAt s k a.toNat with
  | none => false
  | some l =>
    let p := pieceOf s (me s).ctxid ((a.toNat, n), some l)
    decide (0 ≤ a) && (canonicalFault a.toNat n).isNone && runs a.toNat n == [(a.toNat, n)] && windowOf a.toNat == .ordinary
      && decide (ctxRoot (ctxImage s (me s).ctxid.toNat) < 16) && l.via.all (fun p => decide (p.2 < 16))
      && ((tlbHits s s.cur (me s).ctxid (a.toNat % 2 ^ 57)).all fun e =>
          sameLeaf (a.toNat % 2 ^ 57) { pte := e.pte, place := none, va := e.va, size := e.size, pa := e.pa } l)
      && ((walkHits s s.cur (me s).ctxid (a.toNat % 2 ^ 57)).all fun w => l.via.contains (w.level, w.table))
      && permits (me s).priv k l.pte && reaches s.dev false p.key && decide (p.key < Config.poolBase)

theorem firstPoison_of {m : Mem} (h : m.poison = []) (r : Reader) (k n : Nat) : firstPoison m r k n = none := by
  simp [firstPoison, h, minOf]

theorem walk_elsewhere {s t : State} (hd : t.dev = s.dev)
    (hr : ∀ table < 16, ∀ i < 512, readPte t table i = readPte s table i) (n : Nat) :
    ∀ (va table : Nat) (l : Leaf), table < 16 → walk s va n table = .ok l → (∀ p ∈ l.via, p.2 < 16) → walk t va n table = .ok l := by
  induction n with
  | zero => intro va table l _ h; cases h
  | succ n ih =>
    intro va table l ht h hl
    have hi : va / 2 ^ (12 + 9 * n) % 512 < 512 := Nat.mod_lt _ (by decide)
    have hf : va / 2 ^ (12 + 9 * n) % 512 / 16 * 16 < 512 := by omega
    have ho : ∀ p, tableOk t p = tableOk s p := fun p => by simp only [tableOk, hd]
    simp only [walk, hd, hr table ht _ hi, hr table ht _ hf, ho] at h ⊢
    have inner : ∀ e : Word, (match walk s va n (ptePpn e) with
        | .ok l' => (.ok { l' with via := (n, ptePpn e) :: l'.via } : Except (Option BankNote) Leaf)
        | .error b => .error b) = .ok l →
        (match walk t va n (ptePpn e) with
        | .ok l' => (.ok { l' with via := (n, ptePpn e) :: l'.via } : Except (Option BankNote) Leaf)
        | .error b => .error b) = .ok l := by
      intro e he
      cases hw : walk s va n (ptePpn e) with
      | error b => simp [hw] at he
      | ok l' =>
        simp only [hw, Except.ok.injEq] at he
        subst he
        have h2 := ih va (ptePpn e) l' (hl (n, ptePpn e) (by simp)) hw fun p hp => hl p (by simp [hp])
        simp [h2]
    split at h
    · cases h
    · split at h
      · split at h
        · cases h
        · split at h
          · cases h
          · split at h
            · simp [*]
            · split at h
              · cases h
              · rename_i c; have q := inner _ h; clear inner ih hr ho h
                simp only [Bool.not_eq_true, Bool.or_eq_false_iff, bne_eq_false_iff_eq] at c
                simp [*] <;> exact q
      · split at h
        · cases h
        · split at h
          · simpa [*] using h
          · split at h
            · cases h
            · split at h
              · cases h
              · split at h
                · simp [*]
                · split at h
                  · cases h
                  · rename_i c; have q := inner _ h; clear inner ih hr ho h
                    simp only [Bool.not_eq_true, Bool.or_eq_false_iff, bne_eq_false_iff_eq] at c
                    simp [*] <;> exact q

/-- A memory that differs from a state's only outside the page tables. -/
def tablesKept (s : State) (m : Mem) : Prop :=
  Calm m ∧ ∀ k < 0x10000, readByte m .package k = readByte s.mem .package k

theorem readBytes_of (m n : Mem) (r : Reader) (j : Nat) : ∀ k, (∀ i, k ≤ i → i < k + j → readByte m r i = readByte n r i) →
    readBytes m r k j = readBytes n r k j := by
  induction j with
  | zero => intro k _; rfl
  | succ j ih =>
    intro k h
    simp only [readBytes]
    rw [h k (Nat.le_refl k) (by omega), ih (k + 1) fun i h1 h2 => h i (by omega) (by omega)]

theorem readPte_kept {s : State} {m : Mem} (hp : Calm s.mem) (hm : tablesKept s m) :
    ∀ table < 16, ∀ i < 512, readPte { s with mem := m } table i = readPte s table i := by
  intro table ht i hi
  simp only [readPte, firstPoison_of hm.1.1, firstPoison_of hp.1]
  rw [readBytes_of m s.mem .package 8 _ fun k h1 h2 => hm.2 k (by omega)]

theorem chooseLeaf_same (s : State) (va : Nat) (l : Leaf) : ∀ ls : List Leaf, (∀ c ∈ ls, sameLeaf va c l = true) →
    chooseLeaf s va (.ok l) ls = (.ok l, s)
  | [], _ => rfl
  | c :: ls, h => by
    simp [chooseLeaf, h c (by simp), Except.toOption, chooseLeaf_same s va l ls fun d hd => h d (by simp [hd])]

theorem translate_easy {s : State} {k : Kind} {a : Nat} {l : Leaf}
    (hw : walk s (a % 2 ^ 57) 5 (ctxRoot (ctxImage s (me s).ctxid.toNat)) = .ok l) (hu : usedPte k l = l.pte)
    (ht : ((tlbHits s s.cur (me s).ctxid (a % 2 ^ 57)).all fun e =>
      sameLeaf (a % 2 ^ 57) { pte := e.pte, place := none, va := e.va, size := e.size, pa := e.pa } l) = true)
    (hc : ((walkHits s s.cur (me s).ctxid (a % 2 ^ 57)).all fun w => l.via.contains (w.level, w.table)) = true) :
    translate s s.cur (me s).ctxid k a = (.ok l, s) := by
  have h0 : walkTable s (me s).ctxid a = .ok l := hw
  have h1 : anyLeaf s.cur (me s).ctxid k a s = (.ok l, s) := by
    simp only [anyLeaf, h0, Except.toOption, Option.map_some, Option.getD_some]
    apply chooseLeaf_same
    intro c h
    simp only [cachedLeaves, List.mem_append, List.mem_map, List.mem_filterMap, List.mem_filter] at h
    rcases h with ⟨e, he, rfl⟩ | ⟨w, ⟨hw1, hw2⟩, _⟩
    · exact List.all_eq_true.mp ht e he.1
    · have := List.all_eq_true.mp hc w hw1
      exact absurd this (by simpa using hw2)
  rw [Machine.translate, findLeaf_done, h1]
  intro m hm
  rw [h1] at hm ⊢
  cases hm
  simp [changedLeaf, hu]

theorem check_easy {s : State} {k : Kind} {a : Int} {n : Nat} (he : easy s k a n = true) (hp : Calm s.mem) :
    ∃ l, walk s (a.toNat % 2 ^ 57) 5 (ctxRoot (ctxImage s (me s).ctxid.toNat)) = .ok l ∧ usedPte k l = l.pte ∧
      (∀ p ∈ l.via, p.2 < 16) ∧ ctxRoot (ctxImage s (me s).ctxid.toNat) < 16 ∧
      check s s.cur k a n = (.ok [pieceOf s (me s).ctxid ((a.toNat, n), some l)], remember s s.cur (me s).ctxid k a.toNat l) := by
  unfold easy leafAt at he
  cases hw : walk s (a.toNat % 2 ^ 57) 5 (ctxRoot (ctxImage s (me s).ctxid.toNat)) with
  | error b => simp only [hw] at he; cases he
  | ok l =>
    by_cases hu : usedPte k l = l.pte
    · simp only [hw, hu, if_true, Bool.and_eq_true, decide_eq_true_eq, Option.isNone_iff_eq_none, beq_iff_eq] at he
      obtain ⟨⟨⟨⟨⟨⟨⟨⟨⟨⟨h0, h1⟩, h2⟩, h3⟩, h4⟩, h5⟩, h6⟩, h7⟩, h8⟩, h9⟩, h10⟩ := he
      refine ⟨l, rfl, hu, fun p hp => by simpa using List.all_eq_true.mp h5 p hp, h4, ?_⟩
      have ht := translate_easy hw hu h6 h7
      have hm : hartOf s s.cur = me s := rfl
      have hx : (windowOf a.toNat == Window.expert) = false := by rw [h3]; rfl
      have hva : (pieceOf s (me s).ctxid ((a.toNat, n), some l)).va = a.toNat := rfl
      have ht1 : targetFaults s s.cur k [pieceOf s (me s).ctxid ((a.toNat, n), some l)] = none := by
        have hb : (decide (Config.poolBase ≤ (pieceOf s (me s).ctxid ((a.toNat, n), some l)).key)) = false := by
          simpa using h10
        simp [targetFaults, hb, hva, hx, h9, firstPoison_of hp.1]
      have hpf : permissionFaults (me s).priv k [((a.toNat, n), some l)] = none := by simp [permissionFaults, h8]
      have hn : check s s.cur k a n = checkAs s s.cur (hartOf s s.cur).ctxid (hartOf s s.cur).priv k a n :=
        check_eq s s.cur k a n (by simp [hp.2])
      simp only [hn, checkAs, if_neg (not_lt.mpr h0), h1, h2, windowFaults, windowFault, h3, translateRuns, hm, ht]
      simp only [reduceCtorEq, if_false, decide_false, Bool.or_self, Bool.false_eq_true, hpf, List.map_cons, List.map_nil, ht1]
      rfl
    · simp only [hw, hu, if_false] at he; cases he

theorem remember_mem (s : State) (h : HartId) (ctx : BitVec 16) (k : Kind) (va : Nat) (l : Leaf) (m : Mem) (hu : usedPte k l = l.pte) :
    remember { s with mem := m } h ctx k va l = { remember s h ctx k va l with mem := m } ∧ (remember s h ctx k va l).mem = s.mem := by
  have ht : ∀ s, touch s k l = s := fun s => by
    unfold touch; split
    · rfl
    · simp [hu]
  unfold remember
  split
  · exact ⟨rfl, rfl⟩
  · simp only [ht]
    split <;> exact ⟨rfl, rfl⟩

/-- A state that differs from another in nothing that the checks of an easy access read, but for memory and caches. -/
def Like (s v : State) : Prop :=
  Calm v.mem ∧ v.cur = s.cur ∧ v.dev = s.dev ∧ (me v).ctxid = (me s).ctxid ∧ (me v).priv = (me s).priv

theorem like_frame {s u : State} (f : AccessFrame s u) : (me u).ctxid = (me s).ctxid ∧ (me u).priv = (me s).priv := by
  have h : me u = { me s with tlb := (me u).tlb, tlb2 := (me u).tlb2 } := by
    have := f.harts u.cur
    simpa only [me, f.cur] using this
  rw [h]; exact ⟨rfl, rfl⟩

theorem check_kept {s : State} {k : Kind} {a : Int} {n : Nat} (he : easy s k a n = true) (hp : Calm s.mem) :
    ∃ p, placeAt s k a.toNat n = some p ∧ ∃ u, u.mem = s.mem ∧ Like s u ∧ check s s.cur k a n = (.ok [p], u) ∧
      ∀ m, tablesKept s m → check { s with mem := m } s.cur k a n = (.ok [p], { u with mem := m }) := by
  obtain ⟨l, hw, hu, hv, hr, hc⟩ := check_easy he hp
  have hq : placeAt s k a.toNat n = some (pieceOf s (me s).ctxid ((a.toNat, n), some l)) := by
    simp only [placeAt, leafAt, hw, hu, if_true, Option.map_some]
  refine ⟨_, hq, remember s s.cur (me s).ctxid k a.toNat l, (remember_mem s _ _ k _ l s.mem hu).2, ?_, hc, fun m hm => ?_⟩
  · have f := remember_frame s s.cur (me s).ctxid k a.toNat l
    exact ⟨by rw [(remember_mem s _ _ k _ l s.mem hu).2]; exact hp, f.cur, f.dev, like_frame f⟩
  · have hw' := walk_elsewhere (s := s) (t := { s with mem := m }) rfl (readPte_kept hp hm) 5 _ _ l hr hw hv
    have he' : easy { s with mem := m } k a n = true := by
      have hl : leafAt { s with mem := m } k a.toNat = leafAt s k a.toNat := by
        show (match walk { s with mem := m } (a.toNat % 2 ^ 57) 5 (ctxRoot (ctxImage s (me s).ctxid.toNat)) with
          | .ok l => if usedPte k l = l.pte then some l else none
          | .error _ => none) = _
        rw [hw']; simp only [leafAt, hw]
      unfold easy at he ⊢
      rw [hl]
      exact he
    obtain ⟨l', h1, _, _, _, h5⟩ := check_easy he' hm.1
    have : l' = l := by
      have h2 : walk { s with mem := m } (a.toNat % 2 ^ 57) 5 (ctxRoot (ctxImage s (me s).ctxid.toNat)) = .ok l' := h1
      rw [hw'] at h2; simpa using h2.symm
    subst this
    refine h5.trans ?_
    rw [show (me { s with mem := m }).ctxid = (me s).ctxid from rfl, (remember_mem s _ _ k _ l' m hu).1]
    rfl

/-- Some accesses are easy one after the other. -/
def easies : State → List (Kind × Int × Nat) → Bool
  | _, [] => true
  | v, (k, a, n) :: t => easy v k a n && easies (check v v.cur k a n).2 t

theorem placeAt_like {s v : State} {k : Kind} {a : Int} {n : Nat} (hl : Like s v) (hm : v.mem = s.mem) (he : easy v k a n = true) :
    placeAt s k a.toNat n = placeAt v k a.toNat n := by
  obtain ⟨l, hw, hu, hv, hr, _⟩ := check_easy he hl.1
  have hi : ctxImage s (me s).ctxid.toNat = ctxImage v (me v).ctxid.toNat := by
    simp only [ctxImage, hl.2.2.1, hl.2.2.2.1]
  have hs := walk_elsewhere (t := s) hl.2.2.1.symm (fun table _ i _ => by simp only [readPte, hm]) 5 _ _ l hr hw hv
  simp only [placeAt, leafAt, hi, hs, hw, hu, if_true, Option.map_some]
  rfl

/-- The state that the checks of some accesses leave, one after the other. -/
def finals : State → List (Kind × Int × Nat) → State
  | v, [] => v
  | v, (k, a, n) :: t => finals (check v v.cur k a n).2 t

/-- The places of easy accesses. -/
def placesOf {α : Type} (s : State) (acc : α → Kind × Int × Nat) (x : α) : List Piece :=
  (placeAt s (acc x).1 (acc x).2.1.toNat (acc x).2.2).toList

/-- Easy accesses pass their checks one after the other, whatever a memory holds that keeps the page tables. -/
theorem passes_easy {α : Type} {s : State} {chk : State → α → Except Fail (List Piece) × State} (acc : α → Kind × Int × Nat)
    {safe : Mem → Prop} (hs : ∀ m, safe m → tablesKept s m) (as : List α)
    (hc : ∀ x ∈ as, ∀ v p u, Like s v → placesOf s acc x = [p] → check v s.cur (acc x).1 (acc x).2.1 (acc x).2.2 = (.ok [p], u) →
      u.dev = s.dev → Calm u.mem → chk v x = (.ok [p], u)) :
    ∀ v, Like s v → v.mem = s.mem → easies v (as.map acc) = true → Passes chk (placesOf s acc) safe as v (finals v (as.map acc)) := by
  induction as with
  | nil => intro v _ _ _; rfl
  | cons x as ih =>
    intro v hl hm he
    simp only [List.map_cons, easies, Bool.and_eq_true] at he
    obtain ⟨p, hp, u, hu, hlu, hcu, hk⟩ := check_kept he.1 hl.1
    rw [hcu] at he
    have hlike : Like s u := ⟨hlu.1, hlu.2.1.trans hl.2.1, hlu.2.2.1.trans hl.2.2.1, hlu.2.2.2.1.trans hl.2.2.2.1,
      hlu.2.2.2.2.trans hl.2.2.2.2⟩
    have ht := ih (fun y hy => hc y (by simp [hy])) u hlike (hu.trans hm) he.2
    have hpl : placesOf s acc x = [p] := by rw [placesOf, placeAt_like hl hm he.1, hp]; rfl
    refine ⟨u, hu, fun m hsm => ?_, ?_⟩
    · have hkm : tablesKept v m := by have := hs m hsm; exact ⟨this.1, by rw [hm]; exact this.2⟩
      have h := hk m hkm
      rw [hpl]
      exact hc x (by simp) _ p _ ⟨hkm.1, hl.2⟩ hpl (by rw [← hl.2.1]; exact h) hlike.2.2.1 hkm.1
    · rw [List.map_cons, finals, hcu]
      exact ht

theorem same_tables {s : State} (h : Calm s.mem) : ∀ m, m = s.mem → tablesKept s m := by
  rintro m rfl; exact ⟨h, fun _ _ => rfl⟩

theorem differs_tables {s : State} {touched : Nat → Prop} (h : Calm s.mem) (ht : ∀ k, touched k → 0x10000 ≤ k) :
    ∀ m, differsAt s touched m → tablesKept s m := by
  rintro m ⟨_, _, hr, hp, hk⟩
  refine ⟨⟨List.eq_nil_iff_forall_not_mem.mpr fun l hl => ?_, hr.trans h.2⟩, fun k hk' => hk k fun h' => absurd (ht k h') (by omega)⟩
  have := hp l hl
  rw [h.1] at this; cases this

/-- The keys of some units lie above the page tables. -/
def aboveTables {α : Type} (ps : α → List Piece) (as : List α) : Bool := as.all fun x => (keysOf (ps x)).all (0x10000 ≤ ·)

theorem above_of {α : Type} {ps : α → List Piece} {as : List α} (h : aboveTables ps as = true) :
    ∀ k, (∃ x ∈ as, k ∈ keysOf (ps x)) → 0x10000 ≤ k := by
  rintro k ⟨x, hx, hk⟩
  simpa using List.all_eq_true.mp (List.all_eq_true.mp h x hx) k hk

theorem like_refl {s : State} (h : Calm s.mem) : Like s s := ⟨h, rfl, rfl, rfl, rfl⟩

theorem checkAtomic_of {s v u : State} {a : Int} {n : Nat} {p : Piece} (hl : Like s v) (ha : a % n = 0)
    (h : check v s.cur .store a n = (.ok [p], u)) (hp : Calm u.mem) :
    checkAtomic v s.cur (me s).ctxid (me s).priv a n = (.ok [p], u) := by
  have hc : checkAs v s.cur (me s).ctxid (me s).priv .store a n = (.ok [p], u) := by
    have hm : hartOf v s.cur = me v := by rw [← hl.2.1]; rfl
    rw [check_eq v s.cur .store a n (by simp [hl.1.2]), hm, hl.2.2.2.1, hl.2.2.2.2] at h
    exact h
  rw [checkAtomic_eq _ _ _ _ _ _ (by simp [hl.1.2])]
  simp [checkAtomicAs, ha, hc, firstPoison_of hp.1]

/-! ## Parcels that the instruction cache and the TLBs hold already -/

/-- The bytes of a parcel at its place. -/
def parcelOf (s : State) (va : Nat) : List Byte := readPieces s s.cur (placeAt s .fetch va 2).toList

/-- A parcel that is fetched without any change. -/
def cached (s : State) (va : Nat) : Bool :=
  match leafAt s .fetch va with
  | none => false
  | some l =>
    let e : TlbEntry :=
      { ctx := (me s).ctxid, part := ctxPart (ctxImage s (me s).ctxid.toNat), va := l.va, size := l.size, pte := usedPte .fetch l, pa := l.pa }
    easy s .fetch va 2 && decide (tlbAdd 32 e (me s).tlb[sliceOf va] = (me s).tlb[sliceOf va]) &&
      decide (tlbAdd 1024 e (me s).tlb2 = (me s).tlb2) &&
      decide (∀ hc : circletOf s.cur < 32, walksAdd (me s).ctxid (va % 2 ^ 57) l.via s.walks[circletOf s.cur] = s.walks[circletOf s.cur]) &&
      decide (tgets none (me s).icache va 2 = (parcelOf s va).map some)

theorem cacheHart_same {hd : Hart} {va : Nat} {e : TlbEntry} (h1 : tlbAdd 32 e hd.tlb[sliceOf va] = hd.tlb[sliceOf va])
    (h2 : tlbAdd 1024 e hd.tlb2 = hd.tlb2) : cacheHart hd va e = hd := by
  unfold cacheHart
  rw [h1, h2]
  simp

theorem modHart_same {s : State} {h : HartId} {f : Hart → Hart} (hf : f (hartOf s h) = hartOf s h) : modHart s h f = s := by
  unfold modHart
  rw [show f s.harts[h] = s.harts[h] from hf]
  simp

theorem fetchParcel_cached {s : State} {va : Nat} (h : cached s va = true) (hp : Calm s.mem) :
    fetchParcel s s.cur va = (.ok (parcelOf s va), s) := by
  unfold cached at h
  split at h
  · cases h
  · rename_i l hl
    simp only [Bool.and_eq_true, decide_eq_true_eq] at h
    obtain ⟨⟨⟨⟨he, h1⟩, h2⟩, h3⟩, h4⟩ := h
    obtain ⟨l', hw, hu, _, _, hc⟩ := check_easy he hp
    have hll : l' = l := by
      simp only [leafAt] at hl
      rw [show va = (va : Int).toNat from rfl, hw] at hl
      simpa [hu] using hl
    subst hll
    have ht : touch s .fetch l' = s := by
      unfold touch; split
      · rfl
      · simp [hu]
    have hr : remember s s.cur (me s).ctxid .fetch va l' = s := by
      unfold remember
      split
      · rfl
      · simp only [ht]
        simp only [modHart_same (f := (cacheHart · va _)) (cacheHart_same h1 h2)]
        split
        · rename_i hc
          rw [h3 hc]
          simp
        · rfl
    have hq : (placeAt s .fetch va 2).toList = [pieceOf s (me s).ctxid ((va, 2), some l')] := by
      simp only [placeAt, hl, Option.map_some, Option.toList_some]
    have hc' : check s s.cur .fetch va 2 = (.ok [pieceOf s (me s).ctxid ((va, 2), some l')], s) := by
      rw [show ((va : Int)).toNat = va from rfl] at hc
      rw [hc, hr]
    rw [check_eq s s.cur .fetch va 2 (by simp [hp.2])] at hc'
    have hv : readPieces s s.cur [pieceOf s (me s).ctxid ((va, 2), some l')] = parcelOf s va := by rw [parcelOf, hq]
    simp only [show hartOf s s.cur = me s from rfl] at hc'
    simp only [fetchParcel, hc', hv, show hartOf s s.cur = me s from rfl, h4, if_true]

/-- The bytes of n parcels. -/
def parcelsOf (s : State) (va : Nat) : Nat → List Byte
  | 0 => []
  | n + 1 => parcelOf s va ++ parcelsOf s (va + 2) n

theorem fetchParcels_cached {s : State} (hp : Calm s.mem) (n : Nat) :
    ∀ va, ((List.range n).all fun i => cached s (va + 2 * i)) = true → fetchParcels s s.cur va n = (.ok (parcelsOf s va n), s) := by
  induction n with
  | zero => intro va _; rfl
  | succ n ih =>
    intro va h
    have h0 := List.all_eq_true.mp h
    have h1 := fetchParcel_cached (by simpa using h0 0 (by simp)) hp
    have h2 := ih (va + 2) (List.all_eq_true.mpr fun i hi => by
      have := h0 (i + 1) (by simp at hi ⊢; omega)
      rwa [show va + 2 * (i + 1) = va + 2 + 2 * i by omega] at this)
    simp only [fetchParcels, h1, h2, parcelsOf]

/-- The word of a cached 64-bit instruction. -/
def wordAt (s : State) (va : Nat) : Nat := leValue (parcelsOf s va 1 ++ parcelsOf s (va + 2) 3)

theorem memberBits_cached {s : State} {va : Nat} (hp : Calm s.mem) (h : ((List.range 4).all fun i => cached s (va + 2 * i)) = true)
    (hl : lengthOf (leValue (parcelsOf s va 1)) = 8) : memberBits s s.cur va = (.ok (wordAt s va), s) := by
  have h0 := List.all_eq_true.mp h
  have h1 := fetchParcels_cached hp 1 va (List.all_eq_true.mpr fun i hi => h0 i (by simp at hi ⊢; omega))
  have h2 := fetchParcels_cached hp 3 (va + 2) (List.all_eq_true.mpr fun i hi => by
    have := h0 (i + 1) (by simp at hi ⊢; omega)
    rwa [show va + 2 * (i + 1) = va + 2 + 2 * i by omega] at this)
  simp only [memberBits, h1, hl, h2, wordAt]

/-! ## Witnesses: scalar instructions -/

theorem witness_IntegerResults :
    integerResult (me (withX [7, 0xFFFFFFFFFFFFFFFF])) (.sha 12 11 10) = some (12, [11, 10], 0xFFFFFFFFFFFFFFFF) ∧
      integerResult (me demo) (.apc 12 50) = some (12, [], 0x42000) ∧
      integerResult (me (withX [7])) (.sub 0 10 10) = some (0, [10, 10], 0) ∧
      pendingX (me (withX [7, 0xFFFFFFFFFFFFFFFF])) [12, 11, 10] = false ∧ pendingX (me demo) [12] = false ∧
      pendingX (me (withX [7])) [0, 10, 10] = false := by decide +kernel

/-- The worked results of R170, and R129's at its corners. -/
theorem witness_IntegerResults_products :
    productResult (me (withX [0xFFFFFFFFFFFFFFF9, 2])) (.div 12 10 11) = some (12, [10, 11], 0xFFFFFFFFFFFFFFFD) ∧
      productResult (me (withX [0xFFFFFFFFFFFFFFF9, 2])) (.rem 12 10 11) = some (12, [10, 11], 0xFFFFFFFFFFFFFFFF) ∧
      productResult (me (withX [0xFFFFFFFFFFFFFFF9, 0])) (.div 12 10 11) = some (12, [10, 11], 0xFFFFFFFFFFFFFFFF) ∧
      productResult (me (withX [0x8000000000000000, 0xFFFFFFFFFFFFFFFF])) (.div 12 10 11) = some (12, [10, 11], 0x8000000000000000) ∧
      pendingX (me (withX [0xFFFFFFFFFFFFFFF9, 2])) [12, 10, 11] = false := by decide +kernel

theorem witness_IntegerResults_compact :
    compactResult (me (demoWith fun hd => { hd with csr := { hd.csr with xlast := 12 }, x := hd.x.set 12 40 })) (.cAddi 13 2) =
        some (13, [12], 42) ∧
      pendingX (me (demoWith fun hd => { hd with csr := { hd.csr with xlast := 12 }, x := hd.x.set 12 40 })) [13, 12] = false := by
  decide +kernel

theorem witness_ControlFlow :
    branchOf (me (withX [1])) (.bne 10 0 0x7F8) = some ([10, 0], 4, -8, true) ∧
      branchOf (me (withX [1])) (.bltn 10 0 5) = some ([10, 0], 4, 5, false) ∧ branchOf (me demo) (.cJ 0x400) = some ([], 2, -1024, true) ∧
      pendingX (me (withX [1])) [10, 0] = false ∧ pendingX (me demo) [1] = false ∧ pendingX (me (withX [0x10001])) [1, 10] = false ∧
      (readX (me (withX [0x10001])) 10 + BitVec.ofInt 64 (0x7FF : BitVec 11).toInt).toNat % 2 = 0 := by decide +kernel

theorem witness_Loads :
    onePiece (check (withX [0x10000]) 0 .load 0x10000 4) = true ∧ (me (withX [0x10000])).queue = [] ∧
      (loadOf (me (withX [0x10000])) (.ldw 12 10 0)).map (fun p => (p.1, p.2.1, p.2.2.1, p.2.2.2.1)) = some (12, 0x10000, 4, 4) ∧
      (loadOf (me (withX [0x10000])) (.cLd 0 0)).map (fun p => p.2.2.2.1) = some 2 := by decide +kernel

theorem witness_Stores :
    onePiece (check (withX [0x1FFFF8]) 0 .store 0x1FFFFF 1) = true ∧
      storeOf (me (withX [0x1FFFF8])) (.stb 10 10 7) = some (10, 0x1FFFFF, 1, 4) ∧ (me (withX [0x1FFFF8])).queue = [] := by
  decide +kernel

theorem witness_ScalarAccessFaults :
    accessOf (me (withX [0x10001])) (.ldh 12 10 0) = some (.load, 0x10001, 2) ∧
      accessOf (me (withX [0x300000000000])) (.std 12 10 0) = some (.store, 0x300000000000, 8) ∧
      failsWith 5 (check (withX [0x300000000000]) 0 .store 0x300000000000 8) = true ∧
      accessOf (me (withX [0x300000000000])) (.cwait 12 10 11 .package) = some (.load, 0x300000000000, 8) := by decide +kernel

theorem witness_Atomics :
    let c := checkAtomic (withX [0x10000, 5]) 0 1 false 0x10000 8
    let t := releaseBefore c.2 0 .ar .V .package
    onePiece c = true ∧
      ((atomicOf (me (withX [0x10000, 5])) (.amocas 12 10 11 .package .ar)).map fun a => (a.2.2.2.2 0, a.2.2.2.2 1)) =
        some (some 5, none) ∧
      t.cur = 0 ∧ farmGone c.2 t 0 = false ∧ anyLost t.dev t.mem 0 (·.path == .V) = false ∧ t.mem.flight = [] ∧
      Memory.wf t.mem = true := by
  decide +kernel

theorem witness_CsrInstructions :
    csrAllowed (me demo) 9 false = true ∧ mustWait demo (.csrr 12 9) = false ∧ csrAllowed (me demo) 1 true = true ∧
      mustWait demo (.csrw 12 10 1) = false ∧ csrAllowed (me privileged) 0x104 true = true ∧
      mustWait privileged (.csrc 0 10 0x104) = false ∧ csrAllowed (me demo) 0x02A true = false := by decide +kernel

theorem witness_VectorConfiguration :
    mustWait demo (.setvli 12 10 0x1449) = false ∧ mustWait demo (.setvl 12 10 11) = false := by decide +kernel

/-- The grants that R188 works out: bf16 in groups of 4, i6 alone, and d8 in blocks of 24. -/
theorem test_setvli :
    (me (after (exec (.setvli 12 10 0x1449) (withX [5003])))).csr.vl = 2304 ∧
      (me (after (exec (.setvli 12 10 0x10) (withX [1001])))).csr.vl = 1000 ∧
      (me (after (exec (.setvli 12 10 0x94) (withX [10])))).csr.vl = 24 ∧
      vtIll (me (after (exec (.setvli 12 10 0x16) (withX [10])))).csr.vtype = true := by decide +kernel

theorem witness_TrapEntries :
    (me demo).priv = false ∧ (me demo).queue = [] ∧ logs demo (callOf (me demo) 16 5) = true ∧
      logs demo (callOf (me demo) 17 3) = true := by decide +kernel

theorem witness_TrapEntries_byForm :
    userTrap (me demo) (.illegalInstruction 0x13) = some (1, 0x13, 0) ∧
      userTrap (me demo) (.instructionFetchFault 15 0x10000) = some (15, 0x10000, 0x84) ∧
      userTrap (me demo) .eret = some (1, 0xBB, 0) ∧ userTrap (me (withX [0x10000])) (.jalr 1 10 1) = some (3, 0x10001, 0) ∧
      userTrap (me demo) (.csrw 0 0 0x104) = some (1, 0x2080 * 0x10000 + 0xAF, 0) ∧
      logs demo (trapOf (me demo) 1 0x13 false) = true ∧ logs demo (trapOf (me demo) 15 0x10000 true) = true := by decide +kernel

theorem witness_TrapEntries_privileged :
    (me privileged).priv = true ∧ (me privileged).queue = [] ∧ (farmOf privileged (me privileged).farmid).isSome = true ∧
      (csrForm (me privileged) (.csrr 5 0x700)).map (fun p => p.1) = some 0x700 ∧ csrAllowed (me privileged) 0x700 false = false := by
  decide +kernel

/-! ## Witnesses: traps, waits, farms -/

/-- Hart 0 in the handler of sys 5, whose record is in memory. -/
def handling : State := after (exec (.sys 5) demo)

theorem witness_EretReturns :
    let s1 := withMe handling (committedHart (me handling) ((me handling).pc + 4))
    let base := logSlot s1 0 1
    let r := readSystem s1 0 1 base 64
    (me handling).priv = true ∧ (me handling).queue = [] ∧ (me handling).trap.estatus.getLsbD 7 = false ∧
      (match r.1 with
        | .ok b => fieldAt b 58 2 == 0 && fieldAt b 56 2 == 0 && fieldAt b 16 8 == 0x10004
        | _ => false) = true ∧
      (match readImages r.2 0 1 (base + 0x100) (me handling).epoch 0 with
        | (.ok es, u) => es.isEmpty && (hartOf u 0).queue.isEmpty
        | _ => false) = true := by decide +kernel

/-- sys 5 of R390: cause 16 with its number, and the handler in privileged mode. -/
theorem test_sys :
    (me handling).pc = 0xFF00000000040000 ∧ (me handling).priv = true ∧ (me handling).trap.epc = 0x10000 ∧
      (me handling).trap.ecause = 16 ∧ (me handling).trap.evalue = 5 := by decide +kernel

theorem test_eret :
    (me (after (exec .eret handling))).pc = 0x10004 ∧ (me (after (exec .eret handling))).priv = false := by decide +kernel

theorem witness_WaitsAndStrips :
    (me privileged).priv = true ∧ (me privileged).queue = [] ∧ (hartOf (after (exec .idle privileged)) 0).run = .waiting .idle ∧
      (hartOf privileged 511).run ≠ .waiting .idle := by decide +kernel

theorem witness_WaitsAndStrips_strip :
    pendingX (me demo) [12] = false ∧ ((farmOf demo 1).map fun f => (f.next, f.launch.record.strips)) = some (0, 1) ∧
      ((farmOf (after (exec (.strip 0) demo)) 1).map fun f => f.next) = some 1 ∧ (me demo).farmid = 1 := by decide +kernel

theorem demo_posts_nothing : NothingPosted demo := nothingPosted_of (by decide +kernel) (by decide +kernel) (by decide +kernel)

/-- `demo` with one store issued. -/
def storing : State := after (exec (.std 10 0 0x100) (withX [7]))

theorem allReach_of {s : State} (h : (s.mem.flight.all fun a => !lost s.dev a) = true) (p : Path → Bool) : allReach s p :=
  fun a ha _ _ => by simpa using List.all_eq_true.mp h a ha

theorem demo_reaches : allReach demo (fun _ => true) := allReach_of (by decide +kernel) _

theorem witness_Fences :
    (me storing).queue = [] ∧ NothingPosted storing ∧ storing.mem.flight.length = 1 ∧ (∀ paths, allReach storing paths) ∧
      (storing.mem.flight.map (·.id)).Nodup :=
  ⟨by decide +kernel, nothingPosted_of (by decide +kernel) (by decide +kernel) (by decide +kernel), by decide +kernel,
    allReach_of (by decide +kernel), by decide +kernel⟩

/-- A store waits to be performed, and fence.p performs it at package scope (R277). -/
theorem test_fence :
    (storing.mem.flight.map fun a => decide (levelFor .package a.path ≤ a.level)) = [false] ∧
      ((after (exec (.fence .package) storing)).mem.flight.all fun a =>
        levelFor .package a.path ≤ a.level) = true := by decide +kernel

theorem witness_CounterWaits :
    let s := withX [0x10000, 2 ^ 32]
    (me s).queue = [] ∧ onePiece (check s 0 .load 0x10000 8) = true ∧ (readX (me s) 10).toNat % 8 = 0 ∧
      (hartOf (after (exec (.cwait 12 10 11 .package) s)) 0).run = .waiting (.cwait 12 10 11 .package) ∧
      (hartOf (after (exec (.cwait 12 10 0 .package) s)) 0).run = .running := by decide +kernel

theorem witness_FarmBarrier :
    (me demo).queue = [] ∧ NothingPosted demo ∧ allReach demo (fun _ => true) ∧
      ((farmOf demo 1).map fun f => (f.arrivals, f.members.length)) = some (0, 1) :=
  ⟨by decide +kernel, demo_posts_nothing, demo_reaches, by decide +kernel⟩

/-- The farm of `demo` with a second hart, number 17. -/
def pair : State :=
  let s := withFarm demo 1 fun f => { f with members := f.members.map (fun m => { m with slot := some 0 }) ++
    [{ hart := some 17, slot := some 1, ended := false, triggered := false, arrived := false, barred := false, sends := [], slots := [], pending := none }] }
  withHart s 17 { me demo with pc := 0x10040 }

theorem witness_FarmBarrier_waits : ((farmOf pair 1).map fun f => (f.arrivals, f.members.length)) = some (0, 2) := by decide +kernel

theorem witness_Trigger :
    (me demo).queue = [] ∧ NothingIssued demo ∧ (me demo).trigger = .no ∧
      ((farmOf demo 1).map fun f => (f.triggered, f.members.map (·.hart), reaches demo.dev false f.launch.done)) =
        some (false, [some 0], true) ∧
      ((farmOf pair 1).map fun f => f.members.map fun m => (m.hart, m.triggered, m.ended)) =
        some [(some 0, false, false), (some 17, false, false)] :=
  ⟨by decide +kernel, ⟨demo_posts_nothing, by decide +kernel⟩, by decide +kernel, by decide +kernel, by decide +kernel⟩

/-- The farm of `pair` when it has triggered, and when all but its first hart have. -/
def tripped (all : Bool) : State := withFarm pair 1 fun f =>
  { f with triggered := all, members := f.members.map fun m => { m with triggered := all || m.slot == some 1 } }

theorem pair_issues_nothing (b : Bool) : NothingIssued (tripped b) := by
  cases b <;> exact ⟨nothingPosted_of (by decide +kernel) (by decide +kernel) (by decide +kernel), by decide +kernel⟩

theorem witness_Trigger_triggered :
    (me (tripped true)).queue = [] ∧ NothingIssued (tripped true) ∧ (me (tripped true)).trigger = .no ∧
      (farmOf (tripped true) 1).map (·.triggered) = some true :=
  ⟨by decide +kernel, pair_issues_nothing true, by decide +kernel, by decide +kernel⟩

theorem witness_HartEnds :
    (me pair).queue = [] ∧ (me pair).sends = [] ∧ NothingIssued pair ∧
      ((farmOf pair 1).map fun f => (f.ending, f.arrivals, f.preempt)) = some (false, 0, false) :=
  ⟨by decide +kernel, by decide +kernel,
    ⟨nothingPosted_of (by decide +kernel) (by decide +kernel) (by decide +kernel), by decide +kernel⟩, by decide +kernel⟩

/-- A farm with an untriggered hart left, a triggered farm, and one that triggers with this end. -/
theorem witness_HartEnds_triggers (b : Bool) :
    (me (tripped b)).queue = [] ∧ (me (tripped b)).sends = [] ∧ NothingIssued (tripped b) ∧ Memory.wf (tripped b).mem = true ∧
      ((farmOf (tripped b) 1).all fun f => !f.ending && f.arrivals == 0 && !f.preempt && f.triggered == b &&
        f.members.map (fun m => (m.hart, m.triggered, m.ended)) == [(some 0, b, false), (some 17, true, false)] &&
        reaches (tripped b).dev false f.launch.done) = true := by
  cases b <;> exact ⟨by decide +kernel, by decide +kernel, pair_issues_nothing _, by decide +kernel, by decide +kernel⟩

/-- `demo` after its only hart has triggered. -/
def triggered : State := after (exec .trig demo)

theorem witness_FarmCompletes :
    (me triggered).queue = [] ∧ (me triggered).sends = [] ∧ NothingIssued triggered ∧ Memory.wf triggered.mem = true ∧
      ((farmOf triggered 1).all fun f => !f.ending && f.triggered && f.arrivals == 0 && f.members.map (·.hart) == [some 0] &&
        reaches triggered.dev false f.launch.done) = true :=
  ⟨by decide +kernel, by decide +kernel,
    ⟨⟨by decide +kernel, by decide +kernel, fun tags h => by
      have : (me triggered).trigger = .done := by decide +kernel
      rw [this] at h; cases h⟩, by decide +kernel⟩, by decide +kernel, by decide +kernel⟩

/-- A farm that had not triggered: `demo`. -/
theorem witness_FarmCompletes_untriggered :
    (me demo).queue = [] ∧ (me demo).sends = [] ∧ NothingIssued demo ∧ Memory.wf demo.mem = true ∧
      ((farmOf demo 1).all fun f => !f.ending && !f.triggered && f.arrivals == 0 && f.members.map (·.hart) == [some 0] &&
        reaches demo.dev false f.launch.done) = true :=
  ⟨by decide +kernel, by decide +kernel, ⟨demo_posts_nothing, by decide +kernel⟩, by decide +kernel, by decide +kernel⟩

/-- The completion word counts 1 at the trigger and 2 at completion (R360). -/
theorem test_completion :
    leValue (readBytes triggered.mem .host 0x20000 8) = 1 ∧
      leValue (readBytes (after (exec .endHart triggered)).mem .host 0x20000 8) = 2 := by decide +kernel

/-! ## Witnesses: queues, tokens and experts -/

/-- `demo` with bytes in memory. -/
def holding (k : Nat) (bs : List Byte) (s : State) : State :=
  { s with mem := { s.mem with cells := storeCells s.mem.cells (cellsAt k bs) } }

/-- A launch record at 0x30000 (R358). -/
def recordBytes (entry farm prio ctx : Nat) (dep : Nat := 0) : List Byte :=
  leBytes 8 entry ++ leBytes 8 77 ++ leBytes 8 dep ++ leBytes 8 0 ++ leBytes 8 0x20008 ++ leBytes 4 3 ++ leBytes 2 farm ++ leBytes 1 prio
    ++ leBytes 1 0 ++ leBytes 2 ctx ++ List.replicate 14 0

def launching (entry ctx : Nat) (dep : Nat := 0) : State := holding 0x30000 (recordBytes entry 1 7 ctx dep) (withX [0x30000])

/-- The check of the record of a launch. -/
def recordCheck (s : State) : Except Fail (List Piece) × State := check { s with mem := released s .system } 0 .load 0x30000 64

theorem witness_Launches :
    let s := launching 0x10000 0
    let u := (recordCheck s).2
    let v := (recordCheck (launching 0x10000 0 0x20010)).2
    (me s).queue = [] ∧ NothingPosted s ∧ allReach s (fun _ => true) ∧ onePiece (recordCheck s) = true ∧
      launchable (recordBytes 0x10000 1 7 0) = true ∧ launchable (recordBytes 0x10001 1 7 0) = false ∧
      launchable (recordBytes 0x10000 1 8 0) = false ∧ (launchFields (recordBytes 0x10000 1 7 2)).ctx = 2 ∧
      ctxValid (ctxImage u 1) = true ∧ onePiece (check u 0 .store 0x20008 8) = true ∧ u.sched.launches = [] ∧
      (launchFields (recordBytes 0x10000 1 7 0 0x20010)).dep = 0x20010 ∧ onePiece (check v 0 .store 0x20008 8) = true ∧
      onePiece (check (check v 0 .store 0x20008 8).2 0 .locate 0x20010 8) = true :=
  ⟨by decide +kernel, nothingPosted_of (by decide +kernel) (by decide +kernel) (by decide +kernel), allReach_of (by decide +kernel) _,
    by decide +kernel⟩

/-- The four answers of R361: accepted, a bad field, another context. -/
theorem test_launch :
    readX (me (after (exec (.launch 13 10) (launching 0x10000 0)))) 13 = 0 ∧
      (after (exec (.launch 13 10) (launching 0x10000 0))).sched.launches.length = 1 ∧
      readX (me (after (exec (.launch 13 10) (launching 0x10001 0)))) 13 = 2 ∧
      readX (me (after (exec (.launch 13 10) (launching 0x10000 2)))) 13 = 3 := by decide +kernel

theorem witness_CacheMaintenance :
    pendingX (me demo) [10, 11] = false ∧ (me privileged).priv = true ∧ (me privileged).queue = [] ∧ NothingPosted privileged ∧
      privileged.mem.counters = [] ∧ privileged.mem.flight = [] :=
  ⟨by decide +kernel, by decide +kernel, by decide +kernel,
    nothingPosted_of (by decide +kernel) (by decide +kernel) (by decide +kernel), by decide +kernel, by decide +kernel⟩

/-- An entry of the expert table for key 5. -/
def expert (st : Residency) (pins : BitVec 32) : ErtEntry :=
  { key := 5, state := st, ctx := 1, far := 0x100000000000, size := 3, pins, base := 0xFF000000000000, frames := [], gen := 1, last := 0 }

/-- `demo` with that entry at index 9, in a package whose far tier holds 100 MiB and whose arena has 4 frames. -/
def experts (st : Residency) (pins : BitVec 32) : State :=
  let s := withX [5, 0x100000013]
  { s with
    sched := { s.sched with ert := [(9, some (expert st pins))] }
    dev := { s.dev with arena := 4, farCaps := s.dev.farCaps.set 0 100, farPorts := s.dev.farPorts.set 0 0xC000000000000064 } }

/-- The same with one pin of the farm on the key. -/
def pinned : State := withFarm (experts .resident 1) 1 fun f => { f with pins := [(5, 1)] }

theorem witness_ExpertBinding :
    pendingX (me (experts .resident 0)) [13, 10] = false ∧ earlyService (experts .resident 0) = false ∧
      ((farmOf (experts .resident 0) 1).map fun f => f.pins.length) = some 0 ∧
      ertFind (experts .resident 0) 1 5 = some (9, expert .resident 0) ∧ ertFind (experts .fetching 0) 1 5 = some (9, expert .fetching 0) ∧
      ertFind (experts .absent 0) 1 5 = some (9, expert .absent 0) ∧ ((farmOf pinned 1).map fun f => tget 0 f.pins 5) = some 1 ∧
      ertFind pinned 1 5 = some (9, expert .resident 1) := by decide +kernel

/-- R416's cases: a base, the ticket of the fetch under way, and a new ticket. -/
theorem test_xbind :
    readX (me (after (exec (.xbind 13 10) (experts .resident 0)))) 13 = 0xFF000000000000 ∧
      readX (me (after (exec (.xbind 13 10) (experts .fetching 0)))) 13 = 0x100000013 ∧
      readX (me (after (exec (.xbind 13 10) (experts .absent 0)))) 13 = 0x200000013 := by decide +kernel

/-- vtype n32, and vl. -/
def tokens (vl : Nat) (s : State) : State :=
  withMe s { me s with csr := { (me s).csr with vtype := vtypeOf 6, vl := BitVec.ofNat 64 vl } }

theorem witness_Parking :
    let s := tokens 3 (experts .fetching 0)
    (me s).queue = [] ∧ vtIll (me s).csr.vtype = false ∧ vtEt (me s).csr.vtype = 6 ∧ vtGrp (me s).csr.vtype = 1 ∧
      ticketEntry s 1 (readX (me s) 11) = some (expert .fetching 0) ∧
      ticketEntry (tokens 3 (experts .resident 0)) 1 (readX (me s) 11) = some (expert .resident 0) ∧
      ((farmOf s 1).map (·.launch.ctx)) = some 1 ∧ (me s).ctxid = 1 ∧
      (hartOf (withMe s { me s with run := .waiting (.xpark 11 8) }) 0).run = .waiting (.xpark 11 8) := by decide +kernel

/-- `tokens` with three tokens parked under the ticket, and ready. -/
def ready : State :=
  let s := after (exec (.xpark 11 8) (tokens 3 (experts .fetching 0)))
  { s with sched := { s.sched with ready := [(1, 0x100000013)], ert := [(9, some (expert .resident 0))] } }

theorem witness_Waking :
    ready.sched.parked.length = 3 ∧ readyFor ready 1 1 = some 0x100000013 ∧ ertAt ready (ticketIndex 0x100000013) = some (expert .resident 0) ∧
      mayPin ready 0 5 = true ∧ readyFor (tokens 3 demo) 1 1 = none ∧
      (hartOf (after (exec (.xwakeW 13 8) (tokens 3 (after (exec (.xpark 11 8) (tokens 3 (experts .fetching 0))))))) 0).run =
        .waiting (.xwakeW 13 8) := by decide +kernel

theorem witness_Sending :
    let s := tokens 1 (withX [0x10000, 0x400003])
    sendOk (readX (me s) 11) = true ∧ (me s).queue = [] ∧ (me s).csr.vstart = 0 ∧ (me s).sends = [] ∧
      (match check s 0 .load 0x10000 64 with
        | (.ok _, _) => true
        | _ => false) = true ∧
      sendOk 0x400280 = false ∧ sendOk 0x10400003 = false := by decide +kernel

/-- A payload that is not aligned, one whose page is not mapped, a full send queue, and a start at vl. -/
theorem witness_Sending_others :
    let s := tokens 1 (withX [0x10001, 0x400003])
    let u := tokens 1 (withX [0x40000000, 0x400003])
    let t := withMe s { me s with sends := List.replicate 256 { dest := 3, pc := 0, xa := 0, index := 0, busy := false, msg := ⟨1, 0, 7, []⟩ } }
    (readX (me s) 10).toNat % 64 ≠ 0 ∧ (me s).sends.length < 256 ∧ 256 ≤ (me t).sends.length ∧ (me t).csr.vl = 1 ∧
      (me (tokens 0 s)).csr.vl.toNat ≤ (me (tokens 0 s)).csr.vstart.toNat ∧
      (match sendFrom u 0 8 0x400003 0x40000000 1 0 with
        | .fault k f _ => k == 0 && f.cause == 4
        | _ => false) = true ∧
      (match sendFrom (tokens 1 (withX [0x10000, 0x400003])) 0 8 0x400003 0x10000 1 0 with
        | .at_ k _ => k == 1
        | _ => false) = true := by decide +kernel

theorem witness_Receiving :
    let s := withMe demo { me demo with csr := { (me demo).csr with vtype := vtypeOf 7 } }
    (me s).queue = [] ∧ vtIll (me s).csr.vtype = false ∧ vtEt (me s).csr.vtype = 7 ∧ 62 % vtGrp (me s).csr.vtype = 0 := by decide +kernel

/-- `experts` in privileged mode with the image of an entry at 0x30000 (R414). -/
def imaging (key size : Nat) : State :=
  let s := holding 0x30000 (leBytes 4 key ++ leBytes 4 0 ++ leBytes 8 0x100000000000 ++ leBytes 4 size ++ leBytes 4 0
    ++ leBytes 8 0xFF000000200000 ++ List.replicate 32 0) (experts .absent 0)
  withMe s { me s with priv := true, x := (me s).x.set 12 0x30000 |>.set 10 8 }

theorem witness_ErtWrites :
    let s := imaging 6 1
    let c := check s 0 .load 0x30000 64
    (me s).priv = true ∧ (me s).queue = [] ∧ onePiece c = true ∧ (readX (me s) 12).toNat % 64 = 0 ∧
      (readX (me s) 10).toNat < 8192 ∧ (writeErt c.2 1 8 (readBytes c.2.mem .host 0x30000 64)).isSome = true ∧
      (writeErt c.2 1 9 (readBytes c.2.mem .host 0x30000 64)).isSome = true ∧
      writeErt (imaging 5 1) 1 8 (readBytes (imaging 5 1).mem .host 0x30000 64) = none ∧
      writeErt (imaging 6 2049) 1 8 (readBytes (imaging 6 2049).mem .host 0x30000 64) = none := by decide +kernel

/-- Privileged, or not: which token and expert instructions trap (R371, R374, R416, R417, R420). -/
theorem witness_TokenAndExpertTraps :
    (me demo).queue = [] ∧ vtIll (me demo).csr.vtype = true ∧ sendOk 0 = false ∧
      ticketEntry (tokens 0 (experts .absent 0)) 1 0x100000012 = none ∧ ertFind demo 1 5 = none ∧
      ((farmOf demo 1).map fun f => tget 0 f.pins 5) = some 0 ∧ 8192 ≤ (readX (me (withX [8192])) 10).toNat := by decide +kernel

/-! ## Witnesses: clasps, arms and the queue -/

/-- A program at 0x10000 in user mode, with a small vector configuration. -/
def program (bytes : List Byte) (lag : Nat) : State :=
  let s := holding 0x10000 bytes demo
  withMe s { me s with lag, csr := { (me s).csr with vtype := vtypeOf 2, vl := 3 }, x := (me s).x.set 11 0x20000 |>.set 12 0x20000 }

/-- The convoy of R50: vld v8, vdiv v9, vst v9; with another word for its second member. -/
def convoyOf (second lag : Nat) : State :=
  program (leBytes 4 0x0FFA08FB ++ leBytes 8 0x0000C0B00020017F ++ leBytes 8 second ++ leBytes 8 0x0000C0C00024217F) lag

def convoy (lag : Nat) : State :=
  convoyOf (word64 { op8 := 5, unit := 0, vd := 9, va := 8, vb := 10, vc := 0, ws := 0, form := 0, rm := 0, u := 0, ud := 0, imm := 0 }) lag

theorem witness_Clasps :
    (match checkClasp (convoy 5) 0 0x10000 1 ⟨2, 0, 2, 7, 7, 7⟩ with
      | (.members is, u) => is.length == 3 && u.cur == 0 && (me u).queue.isEmpty && (me u).lag == 5 &&
          is.all fun i => !pendingX (me u) (postRegs i) && scalarDest i == 0
      | _ => false) = true ∧
      (match checkClasp (convoy 5) 0 0x10000 1 ⟨2, 1, 2, 7, 7, 7⟩ with
        | (.badConvoy k, u) => k == 2 && (hartOf u 0).queue.isEmpty
        | _ => false) = true ∧
      (match checkClasp (convoy 5) 0 0x10000 5 ⟨2, 0, 2, 7, 7, 7⟩ with
        | (.badConvoy k, _) => k == 0
        | _ => false) = true := by decide +kernel

/-- Convoys whose bytes are cached: that of R50, and one whose second member is no instruction. -/
def fetched (legal : Bool) : State :=
  (checkClasp (if legal then convoy 5 else convoyOf 0x00060000C204007F 5) 0 0x10000 1 ⟨2, 0, 2, 7, 7, 7⟩).2

theorem witness_Clasps_cached (b : Bool) (k : Nat) (h1 : 1 ≤ k) (h2 : k ≤ 3) :
    memberBits (fetched b) (fetched b).cur (0x10000 + 4 + 8 * (k - 1)) = (.ok (wordAt (fetched b) (0x10000 + 4 + 8 * (k - 1))), fetched b) := by
  refine memberBits_cached ?_ ?_ ?_
  · cases b <;> decide +kernel
  · cases b <;> interval_cases k <;> decide +kernel
  · cases b <;> interval_cases k <;> decide +kernel

/-- The words of the members. -/
def memberWord (b : Bool) (k : Nat) : Nat := wordAt (fetched b) (0x10000 + 4 + 8 * (k - 1))

/-- `slotFitted`, as a test. -/
def fits (t : Slots) (members k w : Nat) : Bool :=
  if k ≤ members then decide (slotAt t k ≠ 7 ∧ lengthOf w = 8 ∧ w / 2 ^ 7 % 8 = slotAt t k ∧
    ¬ (w / 2 ^ 7 % 8 = 5 ∧ 0x10 ≤ w / 2 ^ 10 % 2 ^ 8 ∧ w / 2 ^ 10 % 2 ^ 8 ≤ 0x12))
  else decide (slotAt t k = 7)

theorem fits_iff (t : Slots) (members k w : Nat) : slotFitted t members k w ↔ fits t members k w = true := by
  unfold slotFitted fits
  split <;> rw [decide_eq_true_iff]

/-- All positions fit; the second does not fit a slot of another unit, nor the fourth one that is not 7; the members decode, or
the second does not. -/
theorem witness_Clasps_positions :
    (∀ b, ∀ k < 7, 1 ≤ k → slotFitted ⟨2, 0, 2, 7, 7, 7⟩ 3 k (memberWord b k)) ∧
      slotFitted ⟨2, 1, 2, 7, 7, 7⟩ 3 1 (memberWord true 1) ∧ ¬ slotFitted ⟨2, 1, 2, 7, 7, 7⟩ 3 2 (memberWord true 2) ∧
      (∀ k < 4, 1 ≤ k → slotFitted ⟨2, 0, 2, 4, 7, 7⟩ 3 k (memberWord true k)) ∧ ¬ slotFitted ⟨2, 0, 2, 4, 7, 7⟩ 3 4 (memberWord true 4) ∧
      ([1, 2, 3].all fun k => (decode64 (memberWord true k)).isOk) = true ∧ (decode64 (memberWord false 1)).isOk = true ∧
      (decode64 (memberWord false 2)).isOk = false := by
  simp only [fits_iff]
  decide +kernel

/-- The members wait in the queue, joined after the first, and the pc is past them. -/
theorem test_clasp :
    (me (after (exec (.clasp 1 ⟨2, 0, 2, 7, 7, 7⟩) (convoy 5)))).queue.map (·.joined) = [false, true, true] ∧
      (me (after (exec (.clasp 1 ⟨2, 0, 2, 7, 7, 7⟩) (convoy 5)))).pc = 0x1001C := by decide +kernel

theorem witness_ArmsAndLoops :
    (me (small 2 3)).queue = [] ∧ weightReadable (me (small 2 3)) 2 ∧ weightReadable (me (small 2 3)) 0 ∧
      ¬ weightReadable (me (small 20 24)) 2 ∧ ¬ weightReadable (me (small 0x70 3)) 0 ∧
      largestCode (me (small 2 3)) 2 = 0x8000 ∧ largestCode (me (small 2 0)) 2 = 0 ∧ (me (small 2 3)).csr.wthr = 0 ∧
      (me (small 2 3)).wloopPending = false ∧ (me (withMe (small 2 3) { me (small 2 3) with lag := 5 })).queue.length < 5 :=
  ⟨by decide +kernel, ⟨by decide +kernel, by decide +kernel, 1, by decide +kernel, by decide +kernel, by decide +kernel⟩,
    ⟨by decide +kernel, by decide +kernel, 1, by decide +kernel, by decide +kernel, by decide +kernel⟩,
    fun h => absurd h.2.1 (by decide +kernel), (by
      intro h
      obtain ⟨_, _, n, hn, _⟩ := h
      have h0 : weightRegs (vtEt (me (small 0x70 3)).csr.vtype) (vtGrp (me (small 0x70 3)).csr.vtype) (vtBl (me (small 0x70 3)).csr.vtype) = none := by
        decide +kernel
      rw [h0] at hn; cases hn),
    by decide +kernel⟩

/-- wbr falls through into an arm with an active weight, and jumps over it with none (R230). -/
theorem test_wbr :
    (me (after (exec (.wbr 2 8 0) (small 2 3)))).pc = 0x10008 ∧ (me (after (exec (.wbr 2 8 0) (small 2 3)))).csr.wctl = 2 ∧
      (me (after (exec (.wbr 2 8 0) (small 2 0)))).pc = 0x10010 ∧ (me (after (exec (.wbr 2 8 0) (small 2 0)))).csr.wctl = 0 := by
  decide +kernel

/-- wloop multiplies by one half and repeats while a weight stays above wthr (R232). -/
theorem test_wloop :
    (me (after (exec (.wloop 2 3 0x3FFFF6 0) (small 2 3)))).pc = 0xFFEC ∧
      (List.range 3).map (weightGet (me (after (exec (.wloop 2 3 0x3FFFF6 0) (small 2 3)))).w 2) = [0x4000, 0x2000, 0x1000] := by
  decide +kernel

/-- A wloop that waits for its entry, whose bytes are at the pc. -/
def looping : State :=
  let s := holding 0x10000 (leBytes 8 0xFFC003FD83084AFF) (small 2 3)
  withMe s { me s with run := .waiting .wloop, wloopPending := true }

theorem witness_ArmsAndLoops_decides :
    (match fetch looping 0 with
      | (.instr i len _, _) => i == .wloop 2 3 0x3FFFF6 0 && len == 8
      | _ => false) = true ∧ (hartOf looping 0).run = .waiting .wloop ∧ (hartOf looping 0).queue = [] ∧
      (me looping).wloopPending = true := by decide +kernel

/-- wpop v-side result pending in x12: an add of x12 waits for it. -/
def waiting : State :=
  after (exec (.wpop 12 2 0) (withMe (small 2 3) { me (small 2 3) with lag := 5 }))

theorem witness_OlderEntriesFirst :
    (me waiting).queue.length = 1 ∧ mustWait waiting (.add 13 12 0) = true ∧ mustWait waiting (.add 13 11 0) = false ∧
      (let r := runWhile 0 (waits 0 (me waiting) (.add 13 12 0)) 1 waiting;
        r.1 = true ∧ r.2.cur = 0 ∧ mustWait r.2 (.add 13 12 0) = false ∧ (me r.2).csr.xlast = (me waiting).csr.xlast ∧
          (me r.2).priv = (me waiting).priv) ∧
      readX (me (after (exec (.add 13 12 0) waiting))) 13 = 3 := by decide +kernel

/-- A vdiv by zero under the trap control waits in the queue of a hart (R187). -/
def dividing : State :=
  let s := withMe (small 2 3) { me (small 2 3) with lag := 5, csr := { (me (small 2 3)).csr with vctl := 0x3F } }
  after (exec (.vdiv ⟨9, 8, .v 63, 0, 0⟩) s)

theorem witness_OlderEntriesFirst_traps :
    mustWait dividing .fbar = true ∧ (runWhile 0 (waits 0 (me dividing) .fbar) 1 dividing).1 = false ∧ (me (after (exec .fbar dividing))).trap.ecause = 8 ∧
      (me (after (exec .fbar dividing))).priv = true := by decide +kernel

/-- A full queue, and one with room. -/
def full (n : Nat) : State :=
  let s := withMe (small 2 3) { me (small 2 3) with lag := 200 }
  withMe s { me s with queue := List.replicate n (captured (me s) (.vadd ⟨9, 8, .v 10, 0, 0⟩)) }

theorem witness_Posting :
    queued (.vmul ⟨9, 8, .v 10, 0, 0⟩) = true ∧ pendingX (me (full 128)) (postRegs (.vmul ⟨9, 8, .v 10, 0, 0⟩)) = false ∧
      (me (full 128)).queue.length = 128 ∧ (me (full 127)).queue.length < (me (full 127)).lag ∧
      (me (after (exec (.vmul ⟨9, 8, .v 10, 0, 0⟩) (full 128)))).run = .waiting .queueFull ∧
      (me (after (exec (.vmul ⟨9, 8, .v 10, 0, 0⟩) (full 127)))).queue.length = 128 := by decide +kernel

theorem witness_Posting_resumes :
    let s := after (exec (.vmul ⟨9, 8, .v 10, 0, 0⟩) (full 128))
    (hartOf s 0).run = .waiting .queueFull ∧ (runFront s 0).1 = true ∧ (hartOf (runFront s 0).2 0).run = .waiting .queueFull := by
  decide +kernel

/-! ## Witnesses: vector-side instructions -/

/-- A form is legal under a configuration. -/
def legal {α : Type} (o : Option (Bool × α)) : Bool := (o.map (·.1)) == some true

/-- The element forms of a state that are legal, on a hart that runs them at once. -/
def elementsRun (s : State) (is : List Instr) : Bool :=
  is.all (fun i => legal (elementForms (me s) i)) && (me s).queue.isEmpty && (me s).lag == 0 && !vtIll (me s).csr.vtype &&
    !earlyService s && decide ((me s).csr.vl.toNat ≤ vlmax (me s).csr.vtype)

theorem witness_VectorElements :
    elementsRun (small 2 3)
      [Instr.vadd ⟨16, 8, .v 9, 0, 0⟩, .vsub ⟨16, 8, .x 9, 0, 0⟩, .vrsub ⟨16, 8, .i 9, 0, 0⟩, .vmul ⟨16, 8, .v 9, 0, 0⟩,
        .vmulh ⟨16, 8, .v 9, 0, 0⟩, .vdiv ⟨16, 8, .v 9, 0, 0⟩, .vrem ⟨16, 8, .v 9, 0, 0⟩, .vmin ⟨16, 8, .v 9, 0, 0⟩,
        .vmax ⟨16, 8, .v 9, 0, 0⟩, .vand ⟨16, 8, .v 9, 0, 0⟩, .vor ⟨16, 8, .v 9, 0, 0⟩, .vxor ⟨16, 8, .v 9, 0, 0⟩,
        .vshl ⟨16, 8, .i 3, 0, 0⟩, .vshr ⟨16, 8, .i 3, 0, 0⟩, .vsha ⟨16, 8, .i 3, 0, 0⟩, .vsadd ⟨16, 8, .v 9, 0, 0⟩,
        .vssub ⟨16, 8, .v 9, 2, 0⟩, .vsel ⟨16, 8, 9, 10, 0, 0⟩, .vmv (.copy 16 8 0 0), .vmv (.splat 16 12 2 0),
        .vmv (.splatImm 16 5 0 0)] = true ∧
      elementsRun (small 0x40A 2)
        [Instr.vadd ⟨16, 8, .x 9, 0, 0⟩, .vsub ⟨16, 8, .v 9, 0, 0⟩, .vrsub ⟨16, 8, .v 9, 0, 0⟩, .vmul ⟨16, 8, .v 9, 0, 0⟩,
          .vmin ⟨16, 8, .v 9, 0, 0⟩, .vmax ⟨16, 8, .v 9, 0, 0⟩, .vfma ⟨16, 8, .v 9 16, 0, 0⟩, .vfms ⟨16, 8, .v 9 16, 0, 0⟩,
          .vfnma ⟨16, 8, .v 9 16, 0, 0⟩, .vfdiv ⟨16, 8, .v 9, 0, 0⟩, .vfsqrt ⟨16, 8, 0, 0⟩, .vfrsqrt ⟨16, 8, 0, 0⟩,
          .vfexp2 ⟨16, 8, 0, 0⟩, .vflog2 ⟨16, 8, 0, 0⟩, .vcvt ⟨16, 8, 0, 0⟩, .wtov 16 2 0, .wblend ⟨16, 2, 8, 9, 0⟩,
          .wgradB ⟨16, 8, 9, 10, 0⟩, .wgradS 16 8 2 0] = true := by decide +kernel

theorem witness_VectorElements_types :
    elementsRun (small 0x1409 2)
        [Instr.vwadd ⟨16, 8, .v 9, 0, 0⟩, .vwmul ⟨16, 8, .v 9, 0, 0⟩, .vwfma ⟨16, 8, .v 9 16, 0, 0⟩, .vwcvt ⟨16, 8, 0, 0⟩] = true ∧
      elementsRun (small 0x120A 2) [.vncvt ⟨16, 8, 0, 0⟩] = true ∧ elementsRun (small 0x1414 32) [.vdequant ⟨16, 8, 0, 0⟩] = true := by
  decide +kernel

/-- `small` with a trap at a division by zero. -/
def dividesByZero : State := withMe (small 2 3) { me (small 2 3) with csr := { (me (small 2 3)).csr with vctl := 0x3F } }

theorem witness_VectorElements_traps :
    runsAtOnce dividesByZero ∧ plainType dividesByZero ∧ dzOf (me dividesByZero) = true ∧
      (binaryForm (me dividesByZero) ⟨16, 8, .v 63, 0, 0⟩ fun _ _ => (0, 0)).1 = true ∧ (me dividesByZero).csr.vrc = 1 ∧
      (me dividesByZero).csr.vstart = 0 ∧ activeAt (me dividesByZero) 0 0 = true ∧ sourceElem (me dividesByZero) (.v 63) 0 0 = 0 ∧
      governor (me dividesByZero) 0 = 0 := by
  simp only [runsAtOnce, plainType]
  decide +kernel

/-- An integer sum, a governed one whose second weight does not exceed wthr, and the bytes after vl. -/
theorem test_vadd :
    let g := withMe (small 2 3) { me (small 2 3) with csr := { (me (small 2 3)).csr with wthr := 0x3000 } }
    (List.range 4).map (tileElem (me (after (exec (.vadd ⟨16, 8, .v 9, 0, 0⟩) (small 2 3)))) 16 0) =
        (List.range 3).map (fun j => (tileElem (me (small 2 3)) 8 0 j + tileElem (me (small 2 3)) 9 0 j) % 2 ^ 32) ++
          [tileElem (me (small 2 3)) 16 0 3] ∧
      tileElem (me (after (exec (.vadd ⟨16, 8, .v 9, 2, 0⟩) g))) 16 0 2 = tileElem (me g) 16 0 2 ∧
      tileElem (me (after (exec (.vadd ⟨16, 8, .v 9, 2, 0⟩) g))) 16 0 1 = (tileElem (me g) 8 0 1 + tileElem (me g) 9 0 1) % 2 ^ 32 := by
  decide +kernel

/-- R128: a widening conversion extends the sign of a signed source, also to an unsigned type. -/
theorem test_vwcvt :
    groupGet (me (after (exec (.vwcvt ⟨16, 8, 0, 0⟩) (withMe (small 0xA00 1) { me (small 0xA00 1) with v := (me (small 0xA00 1)).v.set 8 0xFF })))).v
      16 0 16 = 0xFFFF := by decide +kernel

/-- The cross-lane forms of a state that are legal, on a hart that runs them at once. -/
def crossRun (s : State) (is : List Instr) : Bool :=
  is.all (fun i => legal (crossForms (me s) i)) && (me s).queue.isEmpty && (me s).lag == 0 && !vtIll (me s).csr.vtype &&
    !earlyService s && decide ((me s).csr.vl.toNat ≤ vlmax (me s).csr.vtype ∧ (me s).csr.vl.toNat % vlGrain (me s).csr.vtype = 0)

theorem witness_CrossLaneElements :
    crossRun (small 2 3)
      [Instr.vgath ⟨16, 8, 63, 0, 0⟩, .vslideup ⟨16, 8, .i 1, 0, 0⟩, .vslidedn ⟨16, 8, .x 1, 2, 0⟩, .vcompress ⟨16, 8, 9, 0, 0⟩,
        .vexpand ⟨16, 8, 9, 0, 0⟩, .vredsumO ⟨.v 16, 8, 9, 0, 0⟩, .vredsumT ⟨.v 16, 8, 9, 0, 0⟩, .vredmax ⟨.v 16, 8, 9, 0, 0⟩,
        .vredmin ⟨.v 16, 8, 9, 0, 0⟩, .vredand ⟨.v 16, 8, 9, 0, 0⟩, .vredor ⟨.v 16, 8, 9, 0, 0⟩, .vscan ⟨16, 8, .sum, 0, 0⟩,
        .vmovc ⟨16, 8, .i 0, 0, 0⟩, .vmovr ⟨16, 8, .i 0, 0, 0⟩, .vcsw ⟨16, 8, 9, false, 1, 0, 0, 0⟩] = true ∧
      crossRun (small 0x14 32) [.vfperm ⟨16, 8, 63, 0, 0⟩] = true ∧ crossRun (small 5 3) [.vnormk ⟨16, 8, 2, 0, 0⟩] = true ∧
      crossRun (small 0x280A 32) [.vquant ⟨16, 8, 0, 0⟩] = true := by
  decide +kernel

theorem witness_CrossLaneElements_scalar :
    ([Instr.vredsumO ⟨.x 12, 8, 9, 0, 0⟩, .vredsumT ⟨.x 0, 8, 9, 0, 0⟩, .vredmax ⟨.x 12, 8, 9, 2, 0⟩, .vredmin ⟨.x 12, 8, 9, 0, 0⟩,
      .vredand ⟨.x 12, 8, 9, 0, 0⟩, .vredor ⟨.x 12, 8, 9, 0, 0⟩].all fun i => match reduction i with
        | some (a, _, _, types) => types 2 && decide (governs (me (small 2 3)) a.ws) && decide (heads a.va 1 1) && decide (heads a.vb 1 1)
        | none => false) = true ∧
      runsAtOnce (small 2 3) ∧ plainType (small 2 3) ∧ vtEt (me (small 2 3)).csr.vtype = 2 ∧ vtGrp (me (small 2 3)).csr.vtype = 1 := by
  simp only [runsAtOnce, plainType]
  decide +kernel

/-- The loads of a state that are legal, on a hart that runs them at once. -/
def loadsRun (s : State) (is : List Instr) : Bool :=
  is.all (fun i => legal (loadForms (me s) i)) && (me s).queue.isEmpty && (me s).lag == 0 && !vtIll (me s).csr.vtype &&
    !earlyService s && decide ((me s).csr.vl.toNat ≤ vlmax (me s).csr.vtype ∧ (me s).csr.vl.toNat % vlGrain (me s).csr.vtype = 0)

theorem witness_VectorLoads :
    loadsRun (small 0x402 3)
      [.vld ⟨16, 11, 0, false, 0, 0⟩, .vlds ⟨16, 11, 0, false, 0, 0⟩ 12, .vldx ⟨16, 11, 0, false, 0, 0⟩ 63,
        .vldseg ⟨16, 11, 0, false, 0, 0⟩ 2, .vgl ⟨16, 11, 0, false, 0, 0⟩ 63] = true ∧
      loadsRun (small 0x14 32) [.vld ⟨16, 11, 0, false, 0, 0⟩] = true := by decide +kernel

/-- The form of a load that is legal. -/
def loadForm (s : State) (i : Instr) : LoadForm :=
  match loadForms (me s) i with
  | some (_, F) => F
  | none => rowLoad (me s) 0 0 fun _ => 0

/-- Three elements of a load, one after the other. -/
theorem witness_VectorLoads_passes :
    let s := small 0x402 3
    let F := loadForm s (.vld ⟨16, 11, 4, false, 0, 0⟩)
    let acc (k : Nat) : Kind × Int × Nat := (.load, F.addr k, F.len)
    F.units = [0, 1, 2] ∧ Passes (checkLoad s F) (placesOf s acc) (· = s.mem) F.units s (finals s (F.units.map acc)) ∧
      (F.units.all fun k => (placesOf s acc k).all fun p => !p.nospec) = true := by
  refine ⟨by decide +kernel, ?_, by decide +kernel⟩
  refine passes_easy _ (same_tables (by decide +kernel)) _ (fun x _ v p u _ _ h _ _ => ?_) _ (like_refl (by decide +kernel)) rfl
    (by decide +kernel)
  exact h

/-- A linked element. -/
theorem witness_VectorLoads_linked :
    let s := small 0x402 1
    let F := loadForm s (.vgl ⟨16, 11, 4, false, 0, 0⟩ 63)
    let acc (k : Nat) : Kind × Int × Nat := (.load, F.addr k, F.len)
    F.linked = true ∧ F.units = [0] ∧ tableWf [] s.mem.links = true ∧
      Passes (checkLoad s F) (placesOf s acc) (· = s.mem) F.units s (finals s (F.units.map acc)) := by
  intro s F acc
  refine ⟨by decide +kernel, by decide +kernel, by decide +kernel, ?_⟩
  have hu : F.units = [0] := by decide +kernel
  rw [hu]
  refine passes_easy _ (same_tables (by decide +kernel)) _ (fun x hx v p u _ hp h hd _ => ?_) _ (like_refl (by decide +kernel)) rfl
    (by decide +kernel)
  have hx0 : x = 0 := by simpa using hx
  subst hx0
  have ha : F.addr 0 % F.len = 0 ∧ (0 ≤ F.addr 0 && (canonicalFault (F.addr 0).toNat F.len).isNone &&
      (windowOf (F.addr 0).toNat == .nameless || windowOf (F.addr 0).toNat == .expert)) = false ∧
      ((placesOf s acc 0).all fun p => ownHbm s.dev p.key) = true := by decide +kernel
  have ho : ownHbm u.dev p.key = true := by
    rw [hd]; rw [hp] at ha; simpa using ha.2.2
  show checkLinked v s.cur (F.addr 0) F.len = _
  have h' : check v s.cur .load (F.addr 0) F.len = (.ok [p], u) := h
  simp only [checkLinked, ha.1, ha.2.1, h']
  simp [ho]

/-- `small` with x11 a few bytes below the end of the mapped addresses, or beyond it, and every trap of vctl enabled. -/
def edge (x11 : Word) : State :=
  withMe (small 0x402 3) { me (small 0x402 3) with
    x := (me (small 0x402 3)).x.set 11 x11, csr := { (me (small 0x402 3)).csr with vctl := 0x3F } }

/-- The third element fails, and the load is trimmed. -/
theorem witness_VectorLoads_trims :
    let s := edge 0x3FFFFFF8
    let F := loadForm s (.vld ⟨16, 11, 0, false, 0, 0⟩)
    let acc (k : Nat) : Kind × Int × Nat := (.load, F.addr k, F.len)
    F.units = [0, 1] ++ 2 :: [] ∧ Passes (checkLoad s F) (placesOf s acc) (· = s.mem) [0, 1] s (finals s ([0, 1].map acc)) ∧
      failsWith 4 (checkLoad s F (finals s ([0, 1].map acc)) 2) = true ∧ ((placesOf s acc 1).all fun p => !p.nospec) = true := by
  refine ⟨by decide +kernel, ?_, by decide +kernel, by decide +kernel⟩
  refine passes_easy _ (same_tables (by decide +kernel)) _ (fun x _ v p u _ _ h _ _ => ?_) _ (like_refl (by decide +kernel)) rfl
    (by decide +kernel)
  exact h

/-- The first element of a load and of a store fails. -/
theorem witness_VectorLoads_traps :
    let s := edge 0x40000000
    let i : Instr := .vld ⟨16, 11, 0, false, 0, 0⟩
    (loadForm s i).units.head? = some 0 ∧ (me s).csr.vstart = 0 ∧ governor (me s) 0 = 0 ∧
      ((List.range (me s).csr.vl.toNat).find? fun j => started (me s) j && activeAt (me s) 0 j) = some 0 ∧
      failsWith 4 (checkLoad s (loadForm s i) (issued s i) 0) = true ∧
      failsWith 5 (check (issued s (.vst ⟨16, 11, 0, false, 0, 0⟩ false)) 0 .store 0x40000000 4) = true := by decide +kernel

/-- vl after the trimming load. -/
theorem test_trim : (me (after (exec (.vld ⟨16, 11, 0, false, 0, 0⟩) (edge 0x3FFFFFF8)))).csr.vl = 2 := by decide +kernel

/-- R385, R386: the record of a store that faults at element 2 names it. -/
theorem test_precise_store :
    let t := after (exec (.vst ⟨16, 11, 0, false, 0, 0⟩ false) (edge 0x3FFFFFF8))
    (me t).trap.ecause = 5 ∧ (me t).csr.vstart = 2 ∧ (me t).trap.evalue = 0x40000000 := by
  decide +kernel

/-- The form of a store that is legal, with the addresses of its units. -/
def storeForm (s : State) (i : Instr) : (Nat → Int) × StoreForm :=
  match storeForms (me s) i with
  | some (_, F) => F
  | none => (fun _ => 0, rowStore (me s) 0 0 0 false)

/-- The stores of a state that are legal, on a hart that runs them at once. -/
def storesRun (s : State) (is : List Instr) : Bool :=
  is.all (fun i => legal (storeForms (me s) i)) && (me s).queue.isEmpty && (me s).lag == 0 && !vtIll (me s).csr.vtype &&
    !earlyService s && decide ((me s).csr.vl.toNat ≤ vlmax (me s).csr.vtype ∧ (me s).csr.vl.toNat % vlGrain (me s).csr.vtype = 0)

/-- `small` with the blend policy and w2 as the governing weight. -/
def blending : State := withMe (small 0x40A 2) { me (small 0x40A 2) with csr := { (me (small 0x40A 2)).csr with wctl := 0x12 } }

theorem witness_VectorStores :
    storesRun (small 0x402 3)
      [.vst ⟨16, 11, 0, false, 0, 0⟩ false, .vsts ⟨16, 11, 0, false, 0, 0⟩ 12 true, .vstx ⟨16, 11, 0, false, 2, 0⟩ 63 false] = true ∧
      storesRun (small 0x14 32) [.vst ⟨16, 11, 0, false, 0, 0⟩ false] = true ∧
      storesRun blending [.vst ⟨16, 11, 0, false, 0, 0⟩ false] = true := by decide +kernel

/-- Three elements of a store, one after the other, whatever the bytes that they write held. -/
theorem witness_VectorStores_passes :
    let s := small 0x402 3
    let F := (storeForm s (.vst ⟨16, 11, 4, false, 0, 0⟩ false)).2
    let addr := (storeForm s (.vst ⟨16, 11, 4, false, 0, 0⟩ false)).1
    let acc (k : Nat) : Kind × Int × Nat := (if F.blend then .blend else .store, addr k, F.len)
    F.units = [0, 1, 2] ∧ F.alone = false ∧ F.whole = true ∧
      Passes (fun v k => check v s.cur (if F.blend then .blend else .store) (addr k) F.len) (placesOf s acc)
        (differsAt s fun k => ∃ j ∈ F.units, k ∈ keysOf (placesOf s acc j)) F.units s (finals s (F.units.map acc)) := by
  intro s F addr acc
  refine ⟨by decide +kernel, by decide +kernel, by decide +kernel, ?_⟩
  exact passes_easy acc (differs_tables (by decide +kernel) (above_of (by decide +kernel))) _ (fun x _ v p u _ _ h _ _ => h) _
    (like_refl (by decide +kernel)) rfl (by decide +kernel)

/-- Two blended elements, which share no byte. -/
theorem witness_VectorStores_blends :
    let s := blending
    let F := (storeForm s (.vst ⟨16, 11, 4, false, 0, 0⟩ false)).2
    let addr := (storeForm s (.vst ⟨16, 11, 4, false, 0, 0⟩ false)).1
    let acc (k : Nat) : Kind × Int × Nat := (if F.blend then .blend else .store, addr k, F.len)
    F.units = [0, 1] ∧ F.blend = true ∧ F.whole = true ∧ unitsApart (fun k => keysOf (placesOf s acc k)) F.units ∧
      Passes (fun v k => check v s.cur (if F.blend then .blend else .store) (addr k) F.len) (placesOf s acc)
        (differsAt s fun k => ∃ j ∈ F.units, k ∈ keysOf (placesOf s acc j)) F.units s (finals s (F.units.map acc)) := by
  intro s F addr acc
  refine ⟨by decide +kernel, by decide +kernel, by decide +kernel, by unfold unitsApart; decide +kernel, ?_⟩
  exact passes_easy acc (differs_tables (by decide +kernel) (above_of (by decide +kernel))) _ (fun x _ v p u _ _ h _ _ => h) _
    (like_refl (by decide +kernel)) rfl (by decide +kernel)

/-- The operands of a vst.pair: its tile at v16, its copies at 0x202C0 and 0x20300, and its counter word at 0x20340 or none. -/
def pairArgs (xc : XReg) : VPairArgs := ⟨16, 11, 12, xc, false, 0, 0⟩

/-- The accesses of vst.pair. -/
def pairAccess (s : State) (a : VPairArgs) : PairStep → Kind × Int × Nat
  | .counter => (.store, (readX (me s) a.xc).toNat, 8)
  | .unit u => (.store, pairPlace (me s) a u, packedBytes (me s) (pairCount (me s)))
  | .raise => (.store, (readX (me s) a.xc).toNat, 8)

/-- The accesses of a vst.pair in order. -/
def pairSteps (s : State) (a : VPairArgs) : List PairStep :=
  if a.xc = 0 then (pairUnits (me s) (pairCount (me s))).map .unit
  else .counter :: (pairUnits (me s) (pairCount (me s))).map .unit ++ [.raise]

/-- The keys of a unit, and the first of the counter word. -/
def pairKeys (s : State) (a : VPairArgs) (k : PairUnit) : List Nat := keysOf (placesOf s (pairAccess s a) (.unit k))

/-- See `pairKeys`. -/
def pairWord (s : State) (a : VPairArgs) : Nat := ((placesOf s (pairAccess s a) .raise).map (·.key)).headD 0

theorem pair_passes (s : State) (a : VPairArgs) (hp : Calm s.mem) (hc : (readX (me s) a.xc).toNat % 8 = 0)
    (hu : ((pairUnits (me s) (pairCount (me s))).all fun j => (pairKeys s a j).all (0x10000 ≤ ·)) = true)
    (hw : a.xc ≠ 0 → 0x10000 ≤ pairWord s a) (he : easies s ((pairSteps s a).map (pairAccess s a)) = true) :
    Passes (checkPair s a) (placesOf s (pairAccess s a))
      (differsAt s fun k => (a.xc ≠ 0 ∧ pairWord s a ≤ k ∧ k < pairWord s a + 8) ∨
        ∃ j ∈ pairUnits (me s) (pairCount (me s)), k ∈ pairKeys s a j)
      (pairSteps s a) s (finals s ((pairSteps s a).map (pairAccess s a))) := by
  refine passes_easy _ (differs_tables hp ?_) _ (fun x _ v p u hl _ h _ hq => ?_) _ (like_refl hp) rfl he
  · rintro k (h | ⟨j, hj, hk⟩)
    · exact (hw h.1).trans h.2.1
    · simpa using List.all_eq_true.mp (List.all_eq_true.mp hu j hj) k hk
  · cases x with
    | counter => exact h
    | unit j => exact h
    | raise => exact checkAtomic_of hl (by omega) h hq

theorem witness_VectorStores_pair (xc : XReg) (hx : xc = 0 ∨ xc = 13) :
    let s := small 0x402 1
    let a := pairArgs xc
    runsAtOnce s ∧ plainType s ∧ (me s).csr.vl.toNat ≤ vlmax (me s).csr.vtype ∧ (me s).csr.vstart = 0 ∧ pairFits (me s) a = true ∧
      (pairUnits (me s) (pairCount (me s))).length = 2 ∧ s.mem.flight = [] ∧ Memory.wf s.mem = true ∧
      (readX (me s) a.xc).toNat % 8 = 0 ∧
      ((pairUnits (me s) (pairCount (me s))).all fun j => (pairKeys s a j).all fun k => 0x10000 ≤ k &&
        !(a.xc != 0 && pairWord s a ≤ k && k < pairWord s a + 8)) = true ∧
      (a.xc ≠ 0 → 0x10000 ≤ pairWord s a) ∧ easies s ((pairSteps s a).map (pairAccess s a)) = true := by
  simp only [runsAtOnce, plainType]
  rcases hx with rfl | rfl <;> decide +kernel

theorem witness_VectorStores_pairPasses (xc : XReg) (hx : xc = 0 ∨ xc = 13) :
    Passes (checkPair (small 0x402 1) (pairArgs xc)) (placesOf (small 0x402 1) (pairAccess (small 0x402 1) (pairArgs xc)))
      (differsAt (small 0x402 1) fun k => ((pairArgs xc).xc ≠ 0 ∧ pairWord (small 0x402 1) (pairArgs xc) ≤ k ∧
          k < pairWord (small 0x402 1) (pairArgs xc) + 8) ∨
        ∃ j ∈ pairUnits (me (small 0x402 1)) (pairCount (me (small 0x402 1))), k ∈ pairKeys (small 0x402 1) (pairArgs xc) j)
      (pairSteps (small 0x402 1) (pairArgs xc)) (small 0x402 1)
      (finals (small 0x402 1) ((pairSteps (small 0x402 1) (pairArgs xc)).map (pairAccess (small 0x402 1) (pairArgs xc)))) := by
  refine pair_passes (small 0x402 1) (pairArgs xc) (by decide +kernel) ?_ ?_ ?_ ?_ <;> rcases hx with rfl | rfl <;> decide +kernel

/-- Three words 4 bytes apart, by the indices 16, 12 and 8 of v3. -/
theorem witness_VectorUpdates :
    let s := small 0x402 3
    let addr (j : Nat) : Int := (readX (me s) 11).toNat + indexAt (me s) 3 j
    let els := performedOf (me s) 0
    let acc (j : Nat) : Kind × Int × Nat := (.store, addr j, 4)
    runsAtOnce s ∧ plainType s ∧ (me s).csr.vl.toNat ≤ vlmax (me s).csr.vtype ∧ atomicType (vtEt (me s).csr.vtype) = true ∧
      rowFits (me s) 16 0 = true ∧ heads 8 (vtGrp (me s).csr.vtype) 1 ∧ apart 16 (vtGrp (me s).csr.vtype) 8 (vtGrp (me s).csr.vtype) ∧
      indexFits (me s) 3 (some 16) = true ∧ s.mem.flight = [] ∧ Memory.wf s.mem = true ∧ tableWf [] s.mem.links = true ∧
      weights (me s) 3 ∧ els = [0, 1, 2] ∧
      (∀ j ∈ els, (placesOf s acc j).length = 1 ∧ addr j % 4 = 0) ∧ (∀ j ∈ els, ∀ k ∈ els, k < j → addr k ≠ addr j) ∧
      unitsApart (fun j => keysOf (placesOf s acc j)) els := by
  simp only [runsAtOnce, plainType, unitsApart]
  decide +kernel

/-- Their accesses as atomic updates, and as stores. -/
theorem witness_VectorUpdates_passes :
    let s := small 0x402 3
    let addr (j : Nat) : Int := (readX (me s) 11).toNat + indexAt (me s) 3 j
    let els := performedOf (me s) 0
    let acc (j : Nat) : Kind × Int × Nat := (.store, addr j, 4)
    Passes (fun v j => checkAtomic v s.cur (me s).ctxid (me s).priv (addr j) 4) (placesOf s acc)
        (differsAt s fun k => ∃ j ∈ els, k ∈ keysOf (placesOf s acc j)) els s (finals s (els.map acc)) ∧
      Passes (fun v j => check v s.cur .store (addr j) 4) (placesOf s acc)
        (differsAt s fun k => ∃ j ∈ els, k ∈ keysOf (placesOf s acc j)) els s (finals s (els.map acc)) := by
  intro s addr els acc
  have hs : ∀ m, differsAt s (fun k => ∃ j ∈ els, k ∈ keysOf (placesOf s acc j)) m → tablesKept s m :=
    differs_tables (by decide +kernel) (above_of (by decide +kernel))
  have ha : ∀ j ∈ els, addr j % 4 = 0 := by decide +kernel
  exact ⟨passes_easy acc hs els (fun x hx v p u hl _ h _ hq => checkAtomic_of hl (ha x hx) h hq) s (like_refl (by decide +kernel)) rfl
      (by decide +kernel),
    passes_easy acc hs els (fun x _ v p u _ _ h _ _ => h) s (like_refl (by decide +kernel)) rfl (by decide +kernel)⟩

/-- The row of a vsred, with and without elements. -/
theorem witness_VectorUpdates_reduction :
    rowFits (me (small 0x402 3)) 8 0 = true ∧ indexFits (me (small 0x402 3)) 3 none = true ∧ atomicType 2 = true ∧
      vtEt (me (small 0x402 3)).csr.vtype = 2 ∧ performedOf (me (small 0x402 3)) 0 ≠ [] ∧ performedOf (me (small 0x402 0)) 0 = [] := by
  decide +kernel

/-- The operands of a vcopy of 100 bytes from 0x40000 to 0x30020, with a counter word at 0x20340 or none. -/
def copyArgs (xc : XReg) : VCopyArgs := ⟨11, 12, 14, xc, .package, false, 0, 0⟩

/-- `small` with those operands in its registers. -/
def copying : State :=
  withMe (small 0x402 3) { me (small 0x402 3) with x := ((me (small 0x402 3)).x.set 11 0x30020).set 12 0x40000 |>.set 14 100 }

/-- The accesses of a vcopy. -/
def copyAccess (s : State) (a : VCopyArgs) : CopyStep → Kind × Int × Nat
  | .counter => (.store, (readX (me s) a.xc).toNat, 8)
  | .source b => (.copy, (readX (me s) a.xt).toNat + (b : Int), copyLength (me s) a b)
  | .dest b => (.store, (readX (me s) a.xs).toNat + (b : Int), copyLength (me s) a b)

theorem copy_passes (s : State) (a : VCopyArgs) (steps : List CopyStep) (hp : Calm s.mem)
    (he : easies s (steps.map (copyAccess s a)) = true) :
    Passes (checkCopy s a) (placesOf s (copyAccess s a)) (differsAt s fun _ => False) steps s (finals s (steps.map (copyAccess s a))) := by
  refine passes_easy _ (differs_tables hp fun _ h => h.elim) _ (fun x _ v p u _ _ h _ _ => ?_) _ (like_refl hp) rfl he
  cases x <;> exact h

/-- The accesses of a vcopy in order. -/
def copySteps (s : State) (a : VCopyArgs) : List CopyStep :=
  (if a.xc = 0 then [] else [CopyStep.counter]) ++ (copyStarts (me s) a).flatMap fun b => [.source b, .dest b]

theorem witness_VectorUpdates_copy (xc : XReg) (hx : xc = 0 ∨ xc = 13) :
    runsAtOnce copying ∧ earlyService copying = false ∧ ungoverned (me copying) 0 ∧ (readX (me copying) 14).toNat < 2 ^ 32 ∧
      apart (readX (me copying) 11).toNat 100 (readX (me copying) 12).toNat 100 ∧ (readX (me copying) xc).toNat % 8 = 0 ∧
      copyStarts (me copying) (copyArgs xc) = [0, 32, 64, 96] ∧
      ((copyStarts (me copying) (copyArgs xc)).all fun b => (copyStarts (me copying) (copyArgs xc)).all fun c =>
        (keysOf (placesOf copying (copyAccess copying (copyArgs xc)) (.dest b))).all fun k =>
          !(keysOf (placesOf copying (copyAccess copying (copyArgs xc)) (.source c))).contains k) = true ∧
      Passes (checkCopy copying (copyArgs xc)) (placesOf copying (copyAccess copying (copyArgs xc))) (differsAt copying fun _ => False)
        (copySteps copying (copyArgs xc)) copying (finals copying ((copySteps copying (copyArgs xc)).map (copyAccess copying (copyArgs xc)))) := by
  simp only [runsAtOnce]
  refine ⟨by decide +kernel, by decide +kernel, by decide +kernel, by decide +kernel, by decide +kernel, ?_, ?_, ?_,
    copy_passes copying (copyArgs xc) _ (by decide +kernel) ?_⟩ <;> rcases hx with rfl | rfl <;> decide +kernel

/-- The local forms of a state that are legal. -/
theorem witness_LocalMemory :
    ([Instr.sld ⟨16, 0, 64, 0, 0⟩, .sst ⟨16, 0, 64, 0, 0⟩, .sldx ⟨16, 0, 0, 2, 0⟩ 63, .sstx ⟨16, 0, 0, 0, 0⟩ 63, .bld ⟨16, 0, 0, 0, 0⟩,
        .bst ⟨16, 0, 0, 0, 0⟩].all fun i => legal (localForms (me (small 0x402 3)) i)) = true ∧
      runsAtOnce (small 0x402 3) ∧ plainType (small 0x402 3) ∧ (me (small 0x402 3)).csr.vl.toNat ≤ vlmax (me (small 0x402 3)).csr.vtype ∧
      (me (small 0x402 3)).csr.vl.toNat % vlGrain (me (small 0x402 3)).csr.vtype = 0 ∧ tableWf 0 (me (small 0x402 3)).stage = true ∧
      (rowStore (me (small 0x402 3)) 16 0 0 false).blend = false := by
  simp only [runsAtOnce, plainType]
  decide +kernel

theorem witness_LocalMemory_atomic :
    let hd := me (small 0x402 3)
    let addr (j : Nat) : Int := (readX hd 0).toNat + 8 * indexAt hd 3 j
    let hits := (performedOf hd 0).filter fun j => (stagePlace (addr j) 4).isSome
    atomicType (vtEt hd.csr.vtype) = true ∧ rowFits hd 16 0 = true ∧ heads 8 (vtGrp hd.csr.vtype) 1 ∧
      apart 16 (vtGrp hd.csr.vtype) 8 (vtGrp hd.csr.vtype) ∧ indexFits hd 3 (some 16) = true ∧ hits = [0, 1, 2] ∧
      (∀ j ∈ hits, addr j % 4 = 0) ∧ unitsApart (fun j => (stagePlace (addr j) 4).getD []) hits := by
  simp only [unitsApart]
  decide +kernel

/-- `small` with the descriptor of two rows of 16 bytes in x12. -/
def rowsOf : State := withMe (small 0x402 3) { me (small 0x402 3) with x := (me (small 0x402 3)).x.set 12 0x0002001000000020 }

/-- Rows moved in and out, by stride and by index. -/
theorem witness_LocalMemory_rows (out : Bool) (index : Option VReg) (hi : index = none ∨ index = some 3) :
    let s := rowsOf
    let a : ScopyArgs := ⟨0, 11, 12, out, false, 0, 0⟩
    let rows := (List.range (rowFields (me s) a).1).filter (started (me s))
    let fits := rows.filter fun r => (rowPlace (me s) a r).isSome
    let moved := fits.filter fun r => (rowAddress (me s) a index r).isSome && (rowFields (me s) a).2.1 != 0
    let acc (r : Nat) : Kind × Int × Nat :=
      (if a.out then .store else .copy, (rowAddress (me s) a index r).getD 0, (rowFields (me s) a).2.1)
    runsAtOnce s ∧ earlyService s = false ∧ ungoverned (me s) 0 ∧ tableWf 0 (me s).stage = true ∧ (rowFields (me s) a).1 ≤ 288 ∧
      moved = [0, 1] ∧
      Passes (fun v r => check v s.cur (if a.out then .store else .copy) ((rowAddress (me s) a index r).getD 0) (rowFields (me s) a).2.1)
        (placesOf s acc) (differsAt s fun _ => False) moved s (finals s (moved.map acc)) := by
  intro s a rows fits moved acc
  refine ⟨⟨by decide +kernel, by decide +kernel⟩, by decide +kernel, by decide +kernel, by decide +kernel, ?_, ?_,
    passes_easy acc (differs_tables (by decide +kernel) fun _ h => h.elim) moved (fun x _ v p u _ _ h _ _ => h) s
      (like_refl (by decide +kernel)) rfl ?_⟩ <;> cases out <;> rcases hi with rfl | rfl <;> decide +kernel

theorem witness_LocalMemory_facet :
    let hd := me (small 0x402 3)
    ungoverned hd 0 ∧ facetType (vtEt hd.csr.vtype) = true ∧ rowFits hd 8 2 = true ∧ rowFits hd 16 0 = true ∧
      heads 8 (vtGrp hd.csr.vtype) 1 ∧ heads 9 (vtGrp hd.csr.vtype) 1 ∧ heads 16 (vtGrp hd.csr.vtype) 1 ∧
      apart 16 (vtGrp hd.csr.vtype) 8 (vtGrp hd.csr.vtype) ∧ weights hd 5 := by decide +kernel

/-- `small` with a product shape, and the mask of R259's example in v62. -/
def shaped (et vl shape : Nat) : State :=
  withMe (small et vl) { me (small et vl) with
    v := (me (small et vl)).v.set 62 0x111111, csr := { (me (small et vl)).csr with mshape := BitVec.ofNat 64 shape } }

/-- A state of a matrix instruction is one where its entry runs at once. -/
def productRuns (s : State) : Bool :=
  (me s).queue.isEmpty && (me s).lag == 0 && !vtIll (me s).csr.vtype && !earlyService s &&
    decide ((me s).csr.vl.toNat ≤ vlmax (me s).csr.vtype ∧ (me s).csr.vl.toNat % vlGrain (me s).csr.vtype = 0)

theorem witness_MatrixProducts :
    (productRuns (shaped 0 2 0x101) && legal (productForms (me (shaped 0 2 0x101)) (.mmulO ⟨0, 16, 32, false, false, 0, 0, 0⟩)) &&
        legal (productForms (me (shaped 0 2 0x101)) (.mmulR ⟨0, 0, 32, true, false, 0, 0, 0⟩)) &&
        legal (productForms (me (shaped 0 2 0x101)) (.mmulR ⟨0, 16, 32, false, false, 0, 0, 0⟩)) &&
        productRuns (shaped 0 24 0x60101) &&
        legal (productForms (me (shaped 0 24 0x60101)) (.mmulSp ⟨0, 16, 32, 62, false, false, 0, 0, 0⟩)) &&
        legal (productForms (me (shaped 0 24 0x60101)) (.mmulGrp ⟨0, 16, 32, 63, false, false, 0, 0, 0⟩)) &&
        regrowFits (me (shaped 0 24 0x60101)) ⟨32, 48, 62, 0, 0, 0, 0⟩) = true := by decide +kernel

/-- The first group of a mask without set positions. -/
theorem witness_MatrixProducts_traps :
    let hd := me (shaped 0 24 0x60101)
    productFits hd 0 0 false 0 16 32 1 ∧ sparsePair (vtEt hd.csr.vtype) (vtEt2 hd.csr.vtype) = true ∧ sparseFits hd ∧
      hd.csr.vstart = 0 ∧ 0 < mshapeCols hd ∧ 0 < hd.csr.vl.toNat / 24 ∧ (groupWhere hd 63 true 0 0).length = 0 ∧
      mshapeSparse hd = 6 := by decide +kernel

theorem witness_MatrixProducts_latch :
    let s := shaped 0 2 0x101
    let a : MlatchArgs := ⟨63, 11, 3, 0, 0⟩
    let n := latchLength (me s)
    let acc (r : Nat) : Kind × Int × Nat := (.load, (latchAddress (me s) false a r : Nat), n)
    runsAtOnce s ∧ plainType s ∧ ungoverned (me s) a.ws ∧ a.form = 3 ∧ n = 2 ∧ latchRows (me s) = [0] ∧
      (∀ r ∈ latchRows (me s), latchAddress (me s) false a r % 8 = 0 ∧ latchAddress (me s) true a r % 8 = 0) ∧
      Passes (fun v r => if n = 0 then (.ok [], v) else check v s.cur .load (latchAddress (me s) false a r : Nat) n) (placesOf s acc)
        (· = s.mem) (latchRows (me s)) s (finals s ((latchRows (me s)).map acc)) := by
  intro s a n acc
  have hn : n = 2 := by decide +kernel
  refine ⟨⟨by decide +kernel, by decide +kernel⟩, ⟨by decide +kernel, by decide +kernel⟩, by decide +kernel, rfl, hn, by decide +kernel,
    by decide +kernel, ?_⟩
  refine passes_easy acc (same_tables (by decide +kernel)) _ (fun x _ v p u _ _ h _ _ => ?_) s (like_refl (by decide +kernel)) rfl
    (by decide +kernel)
  show (if n = 0 then _ else _) = _
  rw [if_neg (by rw [hn]; decide)]
  exact h

theorem witness_WeightElements :
    ([Instr.wcmpEq ⟨2, 8, .v 9, 0⟩, .wcmpNe ⟨2, 8, .v 9, 0⟩, .wcmpLt ⟨2, 8, .v 9, 0⟩, .wcmpLe ⟨0, 8, .v 9, 0⟩, .wcmpGt ⟨2, 8, .x 9, 0⟩,
        .wcmpGe ⟨2, 8, .x 9, 0⟩, .wcomp ⟨3, 2, 0⟩, .wmul ⟨15, 2, 2, 0⟩, .wmin ⟨3, 2, 2, 0⟩, .wmax ⟨3, 2, 2, 0⟩, .wmv ⟨3, 2, 0⟩,
        .wsoftGt ⟨2, 8, .v 9, 0⟩, .wsoftLt ⟨2, 8, .x 9, 0⟩].all fun i => legal (weightForms (me (small 2 3)) i)) = true ∧
      ([Instr.wsoftGt ⟨2, 8, .v 9, 0⟩, .wsoftLt ⟨2, 8, .v 9, 0⟩, .wfromv 3 8 0].all fun i => legal (weightForms (me (small 10 2)) i)) = true ∧
      legal (weightForms (me (small 5 3)) (.wfromv 3 8 0)) = true ∧ etFloat (vtEt (me (small 5 3)).csr.vtype) = false ∧
      runsAtOnce (small 2 3) ∧ plainType (small 2 3) ∧ (me (small 2 3)).csr.vl.toNat ≤ vlmax (me (small 2 3)).csr.vtype := by
  simp only [runsAtOnce, plainType]
  decide +kernel

/-- R228: the product of weights, rounded to nearest. -/
theorem test_wmul :
    (List.range 4).map (weightGet (me (after (exec (.wmul ⟨4, 2, 3, 0⟩) (small 2 3)))).w 4) = [0x4000, 0x2000, 0x1000, 0] := by
  decide +kernel

theorem witness_ScalarOfVector :
    runsAtOnce (small 2 3) ∧ vtIll (me (small 2 3)).csr.vtype = false ∧ earlyService (small 2 3) = false ∧
      (me (small 2 3)).csr.wctl.toNat % 16 = 0 ∧ weightGroup (me (small 2 3)) 1 ∧ headsWeights 2 1 ∧ Memory.wf (small 2 3).mem = true ∧
      chooseSlot (small 2 3) 0 = none ∧ bit (me (small 2 3)).csr.vctl 5 = false ∧ bit (me (edge 0)).csr.vctl 5 = true ∧
      chooseSlot { edge 0 with mem := { (edge 0).mem with nextTag := (edge 0).mem.nextTag + 1 } } 0 = none := by
  simp only [weightGroup, headsWeights, runsAtOnce]
  decide +kernel

/-- `small` with one row of each bank in the pool. -/
def pooled : State := { small 2 3 with dev := { (small 2 3).dev with pool := 1 } }

theorem witness_ScalarOfVector_pool : (chooseSlot pooled 0).isSome = true := by
  have h : stacksOf pooled.dev = [0] ∧ inService pooled.dev 0 = true ∧ (freeRow pooled.dev pooled.mem 0 0 0).isSome = true := by
    decide +kernel
  have hl : ((stacksOf pooled.dev).filter (inService pooled.dev)).filter (fun st => getBits (0 : BitVec 9) 0 8 == 0 || bit (0 : BitVec 9) st) = [0] := by
    rw [h.1]; simp [h.2.1, getBits]
  obtain ⟨n, hn⟩ := Option.isSome_iff_exists.mp (chooseAmong_isSome (load := Config.pendingRequests pooled.fresh)
    (List.mem_singleton.mpr rfl) (by decide : 0 < 64) (by decide : 0 < 32) h.2.2)
  simp only [chooseSlot, hl, hn]
  rfl

/-- `pooled` with one slot owned by a context and its name in x5 and in v8. -/
def named (owner : BitVec 16) : State :=
  withMe { pooled with mem := { pooled.mem with owners := [(slotNumber 0 0 0 0, owner)] } }
    { me pooled with
      x := (me pooled).x.set 5 (nameOf (slotNumber 0 0 0 0)), v := (me pooled).v.set 8 ((nameOf (slotNumber 0 0 0 0)).setWidth 9216)
      csr := { (me pooled).csr with vtype := vtypeOf 7, vl := 1 } }

/-- A name that its context owns, one that another context owns, and a number that is no name. -/
theorem witness_ScalarOfVector_named :
    canRelinquish (named 1) [] (readX (me (named 1)) 5).toNat ∧ wellFormedName (named 2) (readX (me (named 2)) 5).toNat ∧
      ¬ canRelinquish (named 2) [] (readX (me (named 2)) 5).toNat ∧ ¬ wellFormedName (named 1) 5 ∧
      canRelinquish (named 1) [] (rowElem (me (named 1)) 8 0) ∧ ¬ canRelinquish (named 2) [] (rowElem (me (named 2)) 8 0) ∧
      vtIll (me (named 1)).csr.vtype = false ∧ vtEt (me (named 1)).csr.vtype = 7 ∧ heads 8 (vtGrp (me (named 1)).csr.vtype) 1 ∧
      (me (named 1)).csr.vl.toNat ≤ vlmax (me (named 1)).csr.vtype ∧ (me (named 1)).queue = [] ∧ (me (named 1)).lag = 0 ∧
      earlyService (named 1) = false ∧ (after (exec (.nrel 5 0 0) (named 1))).mem.owners = [] := by
  simp only [canRelinquish, wellFormedName]
  decide +kernel

/-! ## Witnesses: the package -/

def image : ConfigImage := { avail := 0xFFFFFFFF, hbm := 1, parts := [(3, 7)], pkg := 5, poolP := 2, arenaA := 4, clocks := [(3, 60)],
                             scaleUpEn := 1, farPortEn := 2 }

def inputs (puf filigree : Bool) (i : Option ConfigImage) : StartInputs := ⟨puf, true, i, true, filigree, 11, 22, 33⟩

def withDev (g : Device → Device) : State := { State.reset with dev := g State.reset.dev }

/-- The start counts 0, 2, 3 and 255, which bound the cases of R443. -/
theorem witness_PackageStarts :
    State.reset.dev.starts.toNat % 2 ^ 8 = 0 ∧ (withDev fun d => { d with starts := 2 }).dev.starts.toNat % 2 ^ 8 < 3 ∧
      3 ≤ (withDev fun d => { d with starts := 3 }).dev.starts.toNat % 2 ^ 8 ∧ (inputs true true (some image)).pufOk = true ∧
      (after (exec (.packageReset (inputs false true none)) (withDev fun d => { d with starts := 2 }))).stopped = true ∧
      (after (exec (.packageReset (inputs true true none)) (withDev fun d => { d with starts := 2 }))).dev.starts = 3 := by
  decide +kernel

/-- Early service, as a start leaves it (R443), without its measurements. -/
def early : State := withDev fun d => { d with boot := bootWord 5 2 true 0, avail := 0xFFFFFFFF, interleave := 3, starts := 1 }

theorem witness_ResetAndService :
    early.dev.boot.toNat / 2 ^ 8 % 2 ^ 8 = 5 ∧ State.reset.dev.boot.toNat / 2 ^ 8 % 2 ^ 8 ≠ 5 ∧ early.dev.interleave.getLsbD 1 = true ∧
early.dev.interleave.getLsbD 2 = false ∧ early.dev.failedStacks.getLsbD 1 = false ∧
      (after (exec (.stackTrained 1 true) (after (exec (.stackTrained 1 false) early)))).dev.boot.getLsbD 25 = false ∧ (after (exec .fullService early)).dev.starts = 0 := by decide +kernel

/-- R391, R394, R423: a contained error in one line of the package's own HBM. -/
theorem witness_MachineCheckReports :
    (64 * 3 / 2 ^ 45 = demo.dev.pkg.toNat ∧ 64 * 3 % 2 ^ 45 < 8 * Config.stackBytes) ∧
      (after (exec (.hbmContainedError ⟨33, 1, 1, none, 3⟩ [3] [7, 2 ^ 26]) demo)).mem.poison = [3] := by decide +kernel

theorem test_corrected :
    (after (exec (.correctedError ⟨5, 3, 1, some 0x77, 9⟩) demo)).dev.banks[5] = ⟨0x9800030000000001, 0x77, 9, 1⟩ := by decide +kernel

/-- `demo` in full service, its hart's island at 480 MHz, with two counters enabled. -/
def hot : State :=
  let s := withIsland demo 0 { demo.dev.islands[0] with act := 48, testing := true }
  let s := { s with dev := { s.dev with boot := bootWord 6 1 true 0 } }
  withMe s { me s with perf := { (me s).perf with pevt := (me s).perf.pevt.set 0 0x10001 |>.set 1 0x1 } }

theorem witness_LinkSteps :
    filigreeOn early ∧ ¬ filigreeOn (withDev fun d => { d with boot := bootWord 7 4 true 0 }) ∧ early.dev.boot.getLsbD 0 = false ∧
      hot.dev.boot.getLsbD 0 = true ∧
      early.dev.scaleUp[3].getLsbD 62 = true ∧ early.dev.farPorts[2].getLsbD 62 = true ∧
      (after (exec (.linkTrained (.scaleUp 3) ⟨4, 9, 1, 100, 16, 64⟩) early)).dev.scaleUp[3] = 0xD009000000000000 ∧
      (early.dev.farCaps.set 2 100).toList.sum ≤ 2 ^ 24 ∧ ¬ (early.dev.farCaps.set 2 (2 ^ 24 + 1)).toList.sum ≤ 2 ^ 24 := by
  decide +kernel

theorem witness_ClocksAndTime :
    (hot.sched.farms.flatMap farmHarts).Nodup ∧ hot.dev.powerLimit.toNat % 2 ^ 11 = 0 ∧ hot.dev.boot.toNat / 2 ^ 8 % 2 ^ 8 = 6 ∧
      (after (exec (.powerWindow 1801) hot)).dev.islands[0].act = 47 ∧ (after (exec (.powerWindow 1800) hot)).dev.islands[0].act = 48 ∧
      filigreeOn hot ∧ (47 ≤ 48 ∧ hot.dev.islands[0].req = 0 ∧ 48 ≤ hot.dev.clockMax[0].toNat ∧ hot.dev.boot.getLsbD 1 = false ∧
        hot.dev.boot.getLsbD 2 = false) ∧
      (hartOf hot 0).run ≠ .free ∧ (hartOf hot 1).run = .free ∧ hot.dev.islands[0].testing = true ∧ hot.dev.islands[1].testing = false ∧
      (hartOf (after (exec (.arithmeticCycle 0 ⟨true, 0, 0, 0, 0, 0, false, false, 1⟩) hot)) 0).perf.pcnt[0] = 1 := by decide +kernel

/-- The bytes of a context table image: partition 1, context 1 valid, no ring. -/
def contextBytes : List Byte := leBytes 64 (demoContext 0).toNat

theorem witness_TablesAndQuotes :
    (∀ k < 512, (BitVec.ofNat 512 (leValue contextBytes)).getLsbD k =
      (imageBit k && (leValue contextBytes).testBit k)) ∧ (hartOf demo 1).run = .free ∧ (hartOf demo 0).run ≠ .free ∧
      demo.dev.nonce = none ∧ (after (exec (.attestationDoorbell 5) demo)).dev.nonce = some 5 ∧
      (after (exec (.attestationDoorbell 6) (after (exec (.attestationDoorbell 5) demo)))).dev.nextNonce = some 6 ∧
      (after (exec (.contextTableWrite .host 2 contextBytes) demo)).dev.refusal = 0 ∧
      (after (exec (.contextTableWrite .host 1 contextBytes) demo)).dev.refusal = 0x9000000000200040 := by decide +kernel

theorem witness_RegisterWrites :
    demo.mem.owners = [] ∧ (named 1).mem.owners ≠ [] ∧ demo.sched.ert = [] ∧ inUse demo 1 ∧ ¬ inUse demo 2 ∧
      demo.dev.sweep.getLsbD 63 = false ∧ (after (exec (.poolConfiguration 4096) demo)).dev.pool = 4096 ∧
      (after (exec (.poolConfiguration 4097) demo)).dev.pool = 0x8000000000000000 ∧
      (after (exec (.expertArena 65536) demo)).dev.arena = 65536 := by
  simp only [inUse]
  decide +kernel

/-- An Ethernet port with rings of 16 and 32 descriptors in HBM, before and after it is enabled. -/
def ported : State :=
  withEth demo 2 { demo.dev.eth[2] with
    txbase := 0x40000, rxbase := 0x50000, txsize := 16, rxsize := 32, txtail := 3, txhead := 15, rxtail := 4, rxhead := 31 }

def enabled : State :=
  holding (0x40000 + 32 * 15) (leBytes 8 0x60000 ++ leBytes 4 100 ++ leBytes 4 0x80000000)
    (holding (0x50000 + 32 * 31) (leBytes 8 0x70000 ++ leBytes 4 40 ++ leBytes 4 0x80000000) (after (execEthPortEnable .host 2 ported)))

theorem ringSize_16 : ringSize 16 := ⟨4, by decide, by decide, by decide⟩

theorem ringSize_65536 : ringSize 65536 := ⟨16, by decide, by decide, by decide⟩

theorem not_ringSize_8 : ¬ ringSize 8 := fun ⟨k, h1, _, h3⟩ => by
  have h : (8 : BitVec 32).toNat = 2 ^ 3 := by decide
  rw [h] at h3
  have := Nat.pow_right_injective (le_refl 2) h3
  omega

theorem reachable_of_list {s : State} {k n : Nat} (h : ((List.range n).all fun i => reaches s.dev false (k + i)) = true) :
    reachable s k n := fun a h1 h2 => by
  have := List.all_eq_true.mp h (a - k) (List.mem_range.mpr (by omega))
  rwa [show k + (a - k) = a by omega] at this

theorem unpoisoned_of {s : State} {r : Reader} {k n : Nat} (h : s.mem.poison = []) : unpoisoned s r k n := firstPoison_of h r k n

theorem witness_EthernetPorts :
    ported.dev.eth[2].ctl.getLsbD 0 = false ∧ enabled.dev.eth[2].ctl.getLsbD 0 = true ∧
      enabled.dev.eth[2].live = some (0x40000, 0x50000, 16, 32, false) ∧ enabled.dev.eth[2].waiting = [] ∧
      (after (exec (.ethFrameReceived 2 1 2 []) (withEth enabled 2 { enabled.dev.eth[2] with live := none }))).dev.eth[2].waiting.length = 1 ∧
      reachable enabled (0x50000 + 32 * 31) 32 ∧ unpoisoned enabled .package (0x50000 + 32 * 31) 32 ∧ reachable enabled 0x70000 40 ∧
      descriptorField enabled (descriptorAt enabled 0x50000 32 31) 8 4 = 40 ∧ reachable enabled 0x60000 100 ∧
      descriptorField enabled (descriptorAt enabled 0x40000 16 15) 8 4 = 100 :=
  ⟨by decide +kernel, by decide +kernel, by decide +kernel, by decide +kernel, by decide +kernel, reachable_of_list (by decide +kernel),
    unpoisoned_of (by decide +kernel),
    reachable_of_list (by decide +kernel), by decide +kernel, reachable_of_list (by decide +kernel), by decide +kernel⟩

/-- A frame of 40 bytes fits and advances the head past the ring's end; one of 41 does not (R459). -/
theorem test_frames :
    (after (exec (.ethFrameReceived 2 1 2 (List.replicate 40 7)) enabled)).dev.eth[2].rxhead = 0 ∧
      (after (exec (.ethFrameReceived 2 1 2 (List.replicate 41 7)) enabled)).dev.eth[2].status = 1 ∧
      (after (exec (.ethTxComplete 2 true) enabled)).dev.eth[2].txhead = 0 := by decide +kernel

/-! ## Witnesses: scheduling, requests, pre-emption -/

/-- The package with context 1 and all harts of partition 1 available, and one launch of context 1 queued. -/
def queueing (size : Nat) : State :=
  let l : Launch := { record := launchFields (recordBytes 0x10000 size 7 1), ctx := 1, part := 1, done := 0x20008, dep := none, depExpert := false
                      order := 9, eff := 7, passed := 0, sized := false }
  let s := holding 0x20008 (leBytes 8 0) demo
  { s with
    sched := { s.sched with launches := [l], farms := [] }
    harts := s.harts.set 0 resetHart
    dev := { s.dev with avail := 0xFFFFFFFF, parts := Vector.replicate 512 1 } }

theorem witness_SchedulerDecisions :
    (queueing 2).dev.interval.toNat % 2 ^ 32 = 0 ∧ (queueing 2).sched.farms = [] ∧ (queueing 2).sched.holds = [] ∧
      (((List.finRange 512).filter fun h : HartId =>
        decide ((1 : BitVec 10) ≠ 0 ∧ (queueing 2).dev.parts[h] = 1 ∧ (queueing 2).dev.avail.getLsbD h.val = true)).length) = 32 ∧
      reaches (queueing 2).dev false 0x20008 = true ∧ pickHarts (queueing 2) 1 2 = some [0, 1] := by decide +kernel

/-- R36, R360: a farm of 33 harts never fits 32 and ends with the size error. -/
theorem test_decision :
    leValue (readBytes (after (exec (.schedulerDecision 1) (queueing 33))).mem .host 0x20008 8) = 0x10002 := by decide +kernel

/-- `demo` with a pre-emption of its farm ordered by a hold (R456). -/
def held : State := after (execContextSwitchHold 1 demo)

theorem witness_HostRequests :
    ¬ switching demo ∧ switching held ∧ (demo.sched.farms.filter fun f => f.launch.ctx == 1 && whole f).length = 1 ∧
      (freeSaveSlots demo 1 1).length = 1 ∧ (freeSaveSlots demo 1 9).length = 8 ∧
      (demo.sched.farms.filter fun f => f.launch.ctx == 2 && whole f) = [] := by
  simp only [switching]
  decide +kernel

/-- A record of context 1 at 0x30000, and the doorbell value that names it. -/
def ringing (entry ctx : Nat) : State := holding 0x30000 (recordBytes entry 1 7 ctx) demo

theorem witness_HostRequests_doorbell :
    encodedKey (ringing 0x10000 1) 0x30000 = 0x30000 ∧ reaches (ringing 0x10000 1).dev false 0x30000 = true ∧
      (ringing 0x10000 1).mem.poison = [] ∧ launchable (readBytes (ringing 0x10000 1).mem .package 0x30000 64) = true ∧
      (ctxImage (ringing 0x10000 1) 1).getLsbD 304 = true ∧ (contextPlace (ringing 0x10000 1) 1 .store 0x20008).1 = some 0x20008 ∧
      firstPoison { (ringing 0x10000 1).mem with poison := [0x30000 / 64] } .package 0x30000 64 = some 0x30000 ∧
      (launchFields (readBytes (ringing 0x10000 1).mem .package 0x30000 64)).dep = 0 ∧
      (after (exec (.launchDoorbell 0x30000) (ringing 0x10000 1))).dev.launch = 0x100000000 ∧
      (after (exec (.launchDoorbell 0x30000) (ringing 0x10001 1))).dev.launch = 0x100000002 ∧
      (after (exec (.launchDoorbell 0x30000) (ringing 0x10000 0))).dev.launch = 0x100000003 := by decide +kernel

/-- Places of so many bytes pass their checks, one after the other. -/
def okPlaces (s : State) (h : HartId) (ctx : BitVec 16) : List (Nat × Nat) → Bool
  | [] => true
  | (a, n) :: t => match checkAs s h ctx true .store a n with
    | (.error _, _) => false
    | (.ok _, s) => okPlaces s h ctx t

theorem writeSystems_of_okPlaces {s : State} {h : HartId} {ctx : BitVec 16} {ws : List (Nat × List Byte)}
    (hp : okPlaces s h ctx (ws.map fun p => (p.1, p.2.length)) = true) : (writeSystems s h ctx ws).1 = none := by
  have key : ∃ r t, placeSystems s h ctx ws = (.ok r, t) := by
    induction ws generalizing s with
    | nil => exact ⟨[], s, rfl⟩
    | cons w ws ih =>
      simp only [List.map_cons, okPlaces] at hp
      split at hp
      · cases hp
      · rename_i ps t hc
        obtain ⟨r, u, hr⟩ := ih hp
        exact ⟨(ps, w.2) :: r, u, by simp [placeSystems, hc, hr]⟩
  obtain ⟨r, t, hk⟩ := key
  simp [writeSystems, hk]

theorem saveImages_length (n : Nat) : (saveImages n []).length = 16384 := by simp [saveImages, fillBytes]

theorem witness_PreemptionAndChecks :
    ((farmOf held 1).map fun f => (f.preempt, f.ending)) = some (true, false) ∧
      ((farmOf held 1).map fun f => f.members.map fun m => (m.hart, m.slot)) = some [(some 0, some 0)] ∧
      (me held).priv = false ∧ (me held).pendingTrap = none ∧ (me held).queue = [] ∧ (me held).run ≠ .waiting .idle ∧
      NothingIssued { held with cur := 0 } ∧
      (writeSystems { held with fresh := held.fresh + 16512 } 0 1
        (saveWrites (imageField (ctxImage held 1) 192 64) 0 held.fresh (me held) [] none)).1 = none := by
  refine ⟨by decide +kernel, by decide +kernel, by decide +kernel, by decide +kernel, by decide +kernel, by decide +kernel,
    ⟨nothingPosted_of (by decide +kernel) (by decide +kernel) (by decide +kernel), by decide +kernel⟩, writeSystems_of_okPlaces ?_⟩
  rw [saveWrites, List.map_append, List.map_singleton, saveImages_length]
  decide +kernel

theorem witness_PreemptionAndChecks_checks :
    logs (checkNoted demo ⟨2, 3, 2, some 0x1234, 99⟩) (checkInfo (me demo) ⟨2, 3, 2, some 0x1234, 99⟩) = true ∧
      logs (checkNoted demo ⟨2, 3, 2, some 0x1234, 99⟩) (scalarTrap (me demo) 15 0x1234) = true ∧ (me demo).run = .running ∧
      ((farmOf demo 1).map (·.ending)) = some false ∧ (me privileged).priv = true ∧
      (me (after (exec (.asyncMachineCheck 0 ⟨0, true⟩ ⟨2, 3, 2, some 0x1234, 99⟩) demo))).trap.epc = 0x10000 ∧
      ((farmOf (after (exec (.asyncMachineCheck 0 ⟨0, false⟩ ⟨2, 3, 2, some 0x1234, 99⟩) demo)) 1).map (·.ending)) = some true ∧
      leValue (readBytes (after (exec (.cmcFarmEndTimeout 1) (after (exec (.asyncMachineCheck 0 ⟨0, false⟩ ⟨2, 3, 2, some 0x1234, 99⟩) demo)))).mem
        .host 0x20000 8) = 0xF000002 := by decide +kernel

/-- An entry being fetched waits for frames at the head of the fetch queue. -/
def fetching : State :=
  let s := experts .fetching 0
  { s with sched := { s.sched with fetchQueue := [9] } }

/-- The same once its frames are taken, and that state with every stack out of service (R22). -/
def admitted : State := after (exec .fetchAdmit fetching)

def stackless : State := { admitted with dev := { admitted.dev with boot := admitted.dev.boot &&& 0xFFFFFFFF00FFFFFF } }

theorem witness_ExpertFetches :
    fetching.sched.fetchQueue = [9] ∧ fetching.sched.fetching = [] ∧ ertAt fetching 9 = some (expert .fetching 0) ∧
      (freeFrames fetching).length = 4 ∧ evictable fetching = [] ∧ admitted.sched.fetching = [9] ∧
      ((ertAt admitted 9).map fun e => (e.far, e.size, e.frames)) = some (0x100000000000, 3, [0]) ∧ Inv admitted ∧
      admitted.mem.flight = [] ∧
      ((List.range 3).all fun p => reaches admitted.dev false (0x100000000000 + 4096 * p) &&
        reaches admitted.dev true (arenaBase admitted.dev + p * 4096)) = true ∧
      reaches stackless.dev false 0x100000000000 = true ∧ reaches stackless.dev true (arenaBase stackless.dev) = false := by
  unfold Safety.Inv
  decide +kernel

/-- A token of hart 0 that is on its way, and one that arrives for context 1, whose ring has 4,096 slots at 0x100000. -/
def token : SendToken := { dest := 3, pc := 0x10000, xa := 0x400003, index := 0, msg := ⟨1, 0, 7, List.replicate 64 1⟩, busy := false }

def sending : State :=
  let s := withMe demo { me demo with sends := [token] }
  { s with dev := { s.dev with contexts := tset 0 s.dev.contexts 1
                                 (demoContext 0 + BitVec.ofNat 512 (0x100000 * 2 ^ 320 + 1 * 2 ^ 384)) } }

theorem witness_TokenAnswers :
    (hartOf sending 0).sends[0]? = some token ∧ logs sending (callOf (me sending) 16 0) = true ∧
      (ctxImage sending 1).getLsbD 304 = true ∧ imageField (ctxImage sending 1) 320 64 = 0x100000 ∧
      (ringRuns sending 1 (runs 0x100000 128)).1.isSome = true ∧ (ringOf sending 1).fill = 0 ∧
      (after (exec (.tokenArrival ⟨1, 0, 7, List.replicate 64 1⟩) sending)).answer = [1] ∧
      (after (exec (.tokenArrival ⟨1, 0, 7, List.replicate 128 1⟩) sending)).answer = [3] ∧
      (after (exec (.tokenRefuse 0 0) sending)).harts[0].cause = 14 := by decide +kernel

theorem untriggered_of {s : State} (h : ((List.finRange 512).all fun k => (hartOf s k).trigger == .no) = true) : untriggered s :=
  fun k tags hk => by
    have := List.all_eq_true.mp h k (List.mem_finRange k)
    rw [hk] at this
    cases this

/-- `demo` with writes in flight and counters of copies due. -/
def flyingWith (fl : List Access) (cs : List CopyCounter) : State :=
  { demo with mem := { demo.mem with flight := fl, counters := cs, nextId := 2 } }

/-- A write of two bytes on the path V. -/
def writeOf (id k tag : Nat) (whole : Bool) : Access :=
  { id, hart := 0, path := .V, cells := [(k, 7), (k + 1, 8)], level := 0, tag, unit := 0, order := .ascending, whole }

/-- A write that is not lost, whole or byte by byte, one that is lost, and two of which one comes first. -/
theorem witness_AccessesPerformed (whole : Bool) :
    untriggered (flyingWith [writeOf 0 0x10000 5 whole] []) ∧ Inv (flyingWith [writeOf 0 0x10000 5 whole] []) ∧
      lost demo.dev (writeOf 0 0x10000 5 whole) = false ∧ reaches demo.dev false 0x10001 = true ∧
      ((writeOf 0 0x10000 5 whole).cells.map (·.1)).Nodup ∧ (writeOf 0 0x10000 5 whole).level < levelFor .hart .V ∧
      5 ≤ levelFor .system .V ∧ levelFor .package .V < 5 ∧
      lost demo.dev (writeOf 0 0xF000000000 5 whole) = true ∧ reaches demo.dev false 0xF000000001 = false ∧
      comesFirst (writeOf 0 0x10001 4 whole) (writeOf 1 0x10000 5 whole) ∧
      (after (exec (.accessPerformed (.write 0 1) .system) (flyingWith [writeOf 0 0x10000 5 true] []))).mem.flight = [] ∧
      leValue (readBytes (after (exec (.accessPerformed (.write 0 1) .system) (flyingWith [writeOf 0 0x10000 5 false] []))).mem .host 0x10000 2)
        = 0x8 * 2 ^ 8 + leValue (readBytes demo.mem .host 0x10000 1) := by
  unfold Safety.Inv
  refine ⟨untriggered_of ?_, ?_, ?_, ?_, ?_, ?_, ?_, ?_, ?_, ?_,
    ⟨rfl, .inr ⟨(by decide : 4 < 5), (by decide : 0 < 2), .inl rfl, (0x10001, 7), .head _, ?_⟩⟩, ?_, ?_⟩ <;> cases whole <;> decide +kernel

/-- A copy's counter that is due and reached, and one that is not. -/
theorem witness_AccessesPerformed_counter :
    let s := flyingWith [] [⟨0, 3, 0x10000, .package⟩, ⟨0, 4, 0xF000000000, .package⟩]
    untriggered s ∧ Inv s ∧ s.mem.flight = [] ∧ s.mem.counters[0]? = some ⟨0, 3, 0x10000, .package⟩ ∧
      s.mem.counters[1]? = some ⟨0, 4, 0xF000000000, .package⟩ ∧ reaches s.dev false 0x10000 = true ∧
      reaches s.dev false 0xF000000000 = false ∧ farmOf { s with sched := { s.sched with farms := [] } } (me s).farmid = none := by
  unfold Safety.Inv
  exact ⟨untriggered_of (by decide +kernel), by decide +kernel⟩

def reducing : State := after (execVsred ⟨8, 11, 63, .add, .package, false, 0, 0⟩ (small 0x402 1))

theorem witness_AccessesPerformed_reduction :
    (reducing.mem.posted.map fun p => (p.elems.length, p.failed.isNone)) = [(1, true)] ∧ reducing.mem.flight = [] ∧
      untriggered reducing ∧ Inv reducing ∧ onePiece (checkAtomic reducing 0 1 false (0x20000 + 64 * 11) 4) = true := by
  unfold Safety.Inv
  exact ⟨by decide +kernel, by decide +kernel, untriggered_of (by decide +kernel), by decide +kernel, by decide +kernel⟩

theorem witness_AgentAccesses :
    0x20000 / 2 ^ 45 = demo.dev.pkg.toNat ∧ reachable demo 0x20000 64 ∧ (∀ r, unpoisoned demo r 0x20000 64) ∧
      reaches demo.dev false 0xF000000000 = false ∧ 8 * Config.stackBytes < 0x8000000000 + 1 ∧
      firstPoison { demo.mem with poison := [0x20000 / 64] } .host 0x20000 64 = some 0x20000 :=
  ⟨by decide +kernel, reachable_of_list (by decide +kernel), fun _ => unpoisoned_of (by decide +kernel), by decide +kernel,
    by decide +kernel, by decide +kernel⟩

/-! ## Witnesses: checks that fail, limits, and words read ahead -/

/-- `privileged` with an ERT index in x10 and an image address in x12. -/
def imageAt (a : Word) : State := withMe privileged { me privileged with x := (me privileged).x.set 10 8 |>.set 12 a }

theorem witness_ScalarAccessFaults_others :
    (atomicOf (me (withX [0x10001, 5])) (.amoadd 12 10 11 .package .rlx)).isSome = true ∧
      failsWith 5 (checkAtomic (withX [0x300000000000]) 0 1 false 0x300000000000 8) = true ∧
      (readX (me (withX [0x30001])) 10).toNat % 64 ≠ 0 ∧
      failsWith 4 (check { withX [0x300000000000] with mem := released (withX [0x300000000000]) .system } 0 .load 0x300000000000 64) = true ∧
      (me (imageAt 0x30001)).priv = true ∧ (me (imageAt 0x30001)).queue = [] ∧ (readX (me (imageAt 0x30001)) 12).toNat % 64 ≠ 0 ∧
      failsWith 4 (check (imageAt 0x300000000000) 0 .load 0x300000000000 64) = true := by decide +kernel

theorem witness_ScalarAccessFaults_launch :
    NothingPosted (withX [0x300000000000]) ∧ allReach (withX [0x300000000000]) (fun _ => true) :=
  ⟨nothingPosted_of (by decide +kernel) (by decide +kernel) (by decide +kernel), allReach_of (by decide +kernel) _⟩

/-- The farm of a state with 256 other keys on its pin list. -/
def crowded (s : State) : State := withFarm s 1 fun f => { f with pins := (List.range 256).map fun k => (k + 100, 1) }

theorem witness_TokenAndExpertTraps_limit :
    ((farmOf (crowded (experts .resident 0)) 1).map fun f => (f.pins.length, tget 0 f.pins 5)) = some (256, 0) ∧
      (me (crowded (experts .resident 0))).queue = [] ∧ ertFind (crowded (experts .resident 0)) 1 5 = some (9, expert .resident 0) ∧
      earlyService (crowded (experts .resident 0)) = false ∧ (me (crowded ready)).queue = [] ∧
      readyFor (crowded ready) 1 1 = some 0x100000013 ∧ ertAt (crowded ready) (ticketIndex 0x100000013) = some (expert .resident 0) ∧
      vtIll (me (crowded ready)).csr.vtype = false ∧ vtEt (me (crowded ready)).csr.vtype = 6 ∧
      ((farmOf (crowded ready) 1).map fun f => (f.pins.length, tget 0 f.pins 5)) = some (256, 0) := by decide +kernel

/-- R416: the farm's 257th key is not pinned. -/
theorem test_pin_limit :
    (me (after (exec (.xbind 13 10) (crowded (experts .resident 0))))).trap.ecause = 1 ∧
      (me (after (exec (.xwake 13 8) (crowded ready)))).trap.ecause = 1 := by decide +kernel

/-- `ready` with 289 tokens, one more than VLMAX, and with the ticket's own pin. -/
def many : State :=
  let p : Parked := { circlet := 0, farm := 1, ticket := 0x100000013, token := 7 }
  { ready with sched := { ready.sched with parked := List.replicate 289 p } }

def ticketed : State :=
  { ready with sched := { ready.sched with ticketPins := [(1, 0x100000013)], ert := [(9, some (expert .resident 1))] } }

/-- After a pop a token is left, or the last one is gone; then the ticket's own pin goes (R373, R415). -/
theorem witness_Waking_last :
    (after (exec (.xwake 13 8) many)).sched.parked.length = 1 ∧ (after (exec (.xwake 13 8) many)).sched.ready = [(1, 0x100000013)] ∧
      (after (exec (.xwake 13 8) ready)).sched.parked = [] ∧ (after (exec (.xwake 13 8) ticketed)).sched.ready = [] ∧
      (after (exec (.xwake 13 8) ticketed)).sched.ticketPins = [] ∧
      (ertAt (after (exec (.xwake 13 8) ticketed)) 9).map (·.pins) = some 1 := by decide +kernel

/-- A member that is no instruction: found by the check, and trapped at its own PC (R99). -/
theorem witness_Clasps_illegal :
    (match checkClasp (fetched false) 0 (me (fetched false)).pc.toNat 1 ⟨2, 0, 2, 7, 7, 7⟩ with
      | (.illegal a w, u) => a == 0x1000C && w == 0x00060000C204007F && (hartOf u 0).queue.isEmpty
      | _ => false) = true ∧
      (me (after (exec (.clasp 1 ⟨2, 0, 2, 7, 7, 7⟩) (fetched false)))).trap.epc = 0x1000C ∧
      (me (after (exec (.clasp 1 ⟨2, 0, 2, 7, 7, 7⟩) (fetched false)))).trap.ecause = 1 := by decide +kernel

theorem witness_Posting_moves :
    (hartOf demo 0).run ≠ .free ∧ (hartOf demo 0).run ≠ .stopped ∧ (hartOf demo 0).pendingTrap = none ∧ (hartOf demo 5).run = .free := by
  decide +kernel

/-- The doorbell while busy reads 1, and while it does not. -/
theorem witness_HostRequests_busy :
    ({ demo with dev := { demo.dev with launch := 1 <<< 63 } } : State).dev.launch.getLsbD 63 = true ∧
      (ringing 0x10000 1).dev.launch.getLsbD 63 = false := by decide +kernel

/-- A tied machine check at a hart in privileged mode, in a farm and without one. -/
theorem witness_PreemptionAndChecks_tied :
    (me privileged).run = .running ∧ (me privileged).priv = true ∧ (farmOf privileged (me privileged).farmid).isSome = true ∧
      farmOf { privileged with sched := { privileged.sched with farms := [] } } (me privileged).farmid = none ∧
      (after (exec (.asyncMachineCheck 0 ⟨0, true⟩ ⟨0, 3, 2, some 0x1234, 99⟩) privileged)).dev.banks[0].status.toNat % 2 ^ 16 = 8 := by
  decide +kernel

/-- A word that is read ahead, and one of the pool that is not. -/
theorem witness_AccessesPerformed_read :
    (hartOf demo 0).run ≠ .free ∧ wordReads demo 0 (8 * 0x2000) = true ∧ wordReads demo 0 (8 * (Config.poolBase / 8)) = false ∧
      (hartOf demo 5).run = .free := by decide +kernel

/-- What is read ahead stays while the word changes, and an instruction reads it (R269, R273). -/
theorem test_read_ahead :
    let s := after (exec (.accessPerformed (.read 0 0x4000) .hart) (withX [0x20000]))
    let t := holding 0x20000 [5] s
    readX (me (after (exec (.ldb 12 10 0) t))) 12 = 0 ∧
      readX (me (after (exec (.ldb 12 10 0) (after (exec (.fence .hart) t))))) 12 = 5 := by decide +kernel

/-- A copy's counter that is due on a poisoned word. -/
theorem witness_AccessesPerformed_poison :
    let s := flyingWith [] [⟨0, 3, 0x10000, .package⟩]
    let t := { s with mem := { s.mem with poison := [0x10000 / 64] }, sched := { s.sched with farms := [] } }
    untriggered t ∧ t.mem.flight = [] ∧ t.mem.counters[0]? = some ⟨0, 3, 0x10000, .package⟩ ∧ reaches t.dev false 0x10000 = true ∧
      unpoisonedFrom t ⟨0, 3, 0x10000, .package⟩ 0x10000 ∧ farmOf t (hartOf t 0).farmid = none ∧
      counterPoison s ⟨0, 3, 0x10000, .package⟩ = none :=
  ⟨untriggered_of (by decide +kernel), by decide +kernel, by decide +kernel, by decide +kernel, by unfold unpoisonedFrom; decide +kernel,
    by decide +kernel, by decide +kernel⟩

theorem witness_AgentAccesses_unserved :
    0x20000 + opBytes (.read 8) ≤ 8 * Config.stackBytes ∧ reaches stackless.dev false 0x20000 = false ∧
      (after (exec (.hostAccess .hbm 0x20000 (.read 8)) stackless)).dev.banks[46].addr = 0x20000 := by decide +kernel

/-- A transmit descriptor in hand when its port is disabled completes, and the port has then stopped (R458). -/
theorem test_port_disabled :
    let s := after (exec (.ethPortDisable .host 2) enabled)
    s.dev.eth[2].ctl.getLsbD 0 = false ∧ s.dev.eth[2].live.isSome = true ∧
      (after (exec (.ethTxComplete 2 true) s)).dev.eth[2].txhead = 0 ∧ (after (exec (.ethTxComplete 2 true) s)).dev.eth[2].live = none := by
  decide +kernel

theorem witness_VectorUpdates_release : ∀ p ∈ (small 0x402 1).mem.posted, p.hart ≠ (small 0x402 1).cur := by decide +kernel

/-! ## Witnesses: decoding, steps and reset -/

def parcelBytes (r : Except (Nat × Nat) (List Byte) × State) : Option (List Byte) :=
  match r with
  | (.ok bs, _) => some bs
  | _ => none

def parcelFault (r : Except (Nat × Nat) (List Byte) × State) : Option (Nat × Nat) :=
  match r with
  | (.error f, _) => some f
  | _ => none

theorem witness_DecodeEncode :
    Instr.wellFormed (.apc 31 0x3FFFFF) = true ∧ (encode (.apc 31 0x3FFFFF)).isSome = true ∧
      Instr.wellFormed (.cAdd 1 31) = true ∧ (encode (.cAdd 1 31)).map (·.1) = some 2 := by decide +kernel

theorem witness_DecodeCanonical : decodeBytes [0x0B, 0x60, 0x00, 0x05, 0xFF] = .ok (.addi 12 0 40, 4, [0xFF]) := by decide +kernel

theorem witness_StepsAreSafe : Safety.Inv State.reset ∧ Safety.Inv demo := by
  unfold Safety.Inv
  decide +kernel

/-- A hart that fetches a 32-bit instruction. -/
theorem witness_StepRunsDecoded : turnOf demo demo ∧ fetches demo := by
  have h : demo.stopped = false ∧ (me demo).run = .running ∧ (me demo).pendingTrap = none := by decide +kernel
  exact ⟨.inl ⟨rfl, rfl⟩, h.1, h.2.1, .inl h.2.2⟩

theorem witness_StepRunsDecoded_bytes :
    (me demo).pc = 0x10000 ∧ parcelBytes (fetchParcels demo 0 0x10000 1) = some [0x0B, 0x60] ∧ lengthOf 0x600B = 4 ∧
      parcelBytes (fetchParcels (fetchParcels demo 0 0x10000 1).2 0 0x10002 1) = some [0x00, 0x05] ∧
      decodeBytes [0x0B, 0x60, 0x00, 0x05] = .ok (.addi 12 0 40, 4, []) := by decide +kernel

def atPc (s : State) (pc : Word) : State := modHart s s.cur fun hd => { hd with pc }

/-- 64-bit patterns everywhere, and one that ends a page. -/
def longWords : State :=
  let s := placeWord State.reset 64 0x007F007F007F007F
  { s with mem := { s.mem with cells := storeCells s.mem.cells (cellsAt 0x3FFFFFFE [0x7F, 0]) } }

/-- A parcel that cannot be fetched, a pattern that is no instruction, and an unaligned 64-bit instruction with and
without its second parcel. -/
theorem witness_StepRunsDecoded_fetch :
    parcelFault (fetchParcels (atPc demo 0x40000000) 0 0x40000000 1) = some (4, 0x40000000) ∧
      parcelBytes (fetchParcels (atPc demo 0x10004) 0 0x10004 1) = some [0, 0] ∧ lengthOf 0 = 2 ∧
      decodeBytes [0, 0] = .error .zeroParcel ∧
      parcelBytes (fetchParcels longWords 0 0x10002 1) = some [0x7F, 0] ∧ lengthOf 0x7F = 8 ∧
      parcelBytes (fetchParcels longWords 0 0x10004 1) = some [0x7F, 0] ∧
      parcelBytes (fetchParcels longWords 0 0x3FFFFFFE 1) = some [0x7F, 0] ∧
      parcelFault (fetchParcels longWords 0 0x40000000 1) = some (4, 0x40000000) := by decide +kernel

/-- A scheduled hart's turn on a stopped package, at a wait, and with a latched trap. -/
theorem witness_StepRunsDecoded_turns :
    turnOf { demo with agenda := [.hart 3] } { demo with agenda := [], cur := 3 } ∧
      (me (modHart demo 0 fun hd => { hd with run := .waiting .idle })).run ≠ .running ∧
      ((me (modHart demo 0 fun hd =>
        { hd with pendingTrap := some { bank := 0, unit := 0, code := 2, addr := none, syn := 0 } })).pendingTrap).isSome = true ∧
      (me demo).priv = false :=
  ⟨.inr ⟨3, [], rfl, rfl⟩, by decide +kernel⟩

end Tests

end Sys2Proof
end

/-! PROOFS. The scalar instructions that write a result: their words (R77), their values as the tables of the statements give
them over exact integers (R168 to R170, R179), and the commitment of the form they share. -/

namespace Sys2Proof

namespace ScalarResults

open Machine Safety Claims

/-! ## Words (R77, R80) -/

/-- An SR word with f6 zero is the one the statements write from its bits [6:0]. -/
theorem wordSR_eq_srWord (major f4 : Nat) (rd ra rb : XReg) :
    wordSR major f4 rd ra rb 0 = srWord (3 + major * 4) f4 rd ra rb := by simp [wordSR, srWord]

/-- An SI or SB word likewise. -/
theorem wordSI_eq_siWord (major f4 : Nat) (r1 r2 : XReg) (imm : BitVec 11) :
    wordSI major f4 r1 r2 imm = siWord (3 + major * 4) f4 r1 r2 imm.toNat := rfl

/-- A shift amount stands zero-extended in the 11-bit field (R80). -/
theorem wordSI_shift_eq_siWord (major f4 : Nat) (rd ra : XReg) (sh : BitVec 6) :
    wordSI major f4 rd ra (sh.setWidth 11) = siWord (3 + major * 4) f4 rd ra sh.toNat := by
  rw [wordSI_eq_siWord, BitVec.toNat_setWidth_of_le (by decide)]

/-- The encoder gives the words that the statements write out. -/
theorem encode_of_codeOf {i : Instr} {w : Nat} (h : codeOf i = some w) : encode i = some (4, w) := by
  cases i with
  | add rd ra rb | sub rd ra rb | and rd ra rb | or rd ra rb | xor rd ra rb | shl rd ra rb | shr rd ra rb | sha rd ra rb
  | slt rd ra rb | sltn rd ra rb | min rd ra rb | max rd ra rb | minn rd ra rb | maxn rd ra rb
  | mul rd ra rb | mulh rd ra rb | mulhn rd ra rb | div rd ra rb | divn rd ra rb | rem rd ra rb | remn rd ra rb
  | setvl rd ra rb =>
    cases h; exact congrArg (fun w => some (4, w)) (wordSR_eq_srWord _ _ rd ra rb)
  | addi r1 r2 imm | andi r1 r2 imm | ori r1 r2 imm | xori r1 r2 imm | slti r1 r2 imm | sltni r1 r2 imm
  | beq r1 r2 imm | bne r1 r2 imm | blt r1 r2 imm | bge r1 r2 imm | bltn r1 r2 imm | bgen r1 r2 imm =>
    cases h; exact congrArg (fun w => some (4, w)) (wordSI_eq_siWord _ _ r1 r2 imm)
  | shli rd ra sh | shri rd ra sh | shai rd ra sh =>
    cases h; exact congrArg (fun w => some (4, w)) (wordSI_shift_eq_siWord _ _ rd ra sh)
  | lhi | apc | setvli => cases h; rfl
  | _ => cases h

/-! ## Values over exact integers (R129, R168 to R170) -/

theorem add_eq_ofInt (a b : Word) : a + b = BitVec.ofInt 64 (a.toInt + b.toInt) := by
  rw [BitVec.ofInt_add, BitVec.ofInt_toInt, BitVec.ofInt_toInt]

theorem sub_eq_ofInt (a b : Word) : a - b = BitVec.ofInt 64 (a.toInt - b.toInt) := by
  rw [Int.sub_eq_add_neg, BitVec.ofInt_add, BitVec.ofInt_neg, BitVec.ofInt_toInt, BitVec.ofInt_toInt, BitVec.sub_eq_add_neg]

theorem mul_eq_ofInt (a b : Word) : a * b = BitVec.ofInt 64 (a.toInt * b.toInt) := by
  rw [BitVec.ofInt_mul, BitVec.ofInt_toInt, BitVec.ofInt_toInt]

/-- An immediate is added as the integer it stands for (R78). -/
theorem add_sext_eq_ofInt {n : Nat} (a : Word) (imm : BitVec n) :
    a + sext imm = BitVec.ofInt 64 (a.toInt + imm.toInt) := by
  rw [BitVec.ofInt_add, BitVec.ofInt_toInt]; rfl

theorem shiftLeft_eq_ofNat (a : Word) (n : Nat) : a <<< n = BitVec.ofNat 64 (a.toNat * 2 ^ n) := by
  apply BitVec.eq_of_toNat_eq
  simp [BitVec.toNat_shiftLeft, Nat.shiftLeft_eq]

theorem ushiftRight_eq_ofNat (a : Word) (n : Nat) : a >>> n = BitVec.ofNat 64 (a.toNat / 2 ^ n) := by
  rw [← Nat.shiftRight_eq_div_pow, ← BitVec.toNat_ushiftRight, BitVec.ofNat_toNat, BitVec.setWidth_eq]

theorem sshiftRight_eq_ofInt (a : Word) (n : Nat) : a.sshiftRight n = BitVec.ofInt 64 (a.toInt / 2 ^ n) := by
  rw [BitVec.sshiftRight, Int.shiftRight_eq_div_pow]; norm_cast

theorem boolWord_slt (a b : Word) : boolWord (a.slt b) = if a.toInt < b.toInt then 1 else 0 := by
  simp [boolWord, BitVec.slt]

theorem boolWord_ult (a b : Word) : boolWord (a.ult b) = if a.toNat < b.toNat then 1 else 0 := by
  simp [boolWord, BitVec.ult]

/-- Sign extension keeps the integer that an immediate stands for (R78). -/
theorem toInt_sext {n : Nat} (imm : BitVec n) (hn : n ≤ 64) : (sext imm).toInt = imm.toInt :=
  BitVec.toInt_signExtend_of_le hn

theorem boolWord_slt_sext (a : Word) (imm : BitVec 11) :
    boolWord (a.slt (sext imm)) = if a.toInt < imm.toInt then 1 else 0 := by
  rw [boolWord_slt, toInt_sext imm (by decide)]

theorem ite_slt_eq_min (a b : Word) : (if a.slt b then a else b) = BitVec.ofInt 64 (min a.toInt b.toInt) := by
  simp [BitVec.slt, min_def_lt, apply_ite (BitVec.ofInt 64)]

theorem ite_slt_eq_max (a b : Word) : (if a.slt b then b else a) = BitVec.ofInt 64 (max a.toInt b.toInt) := by
  simp [BitVec.slt, max_def_lt, apply_ite (BitVec.ofInt 64)]

theorem ite_ult_eq_min (a b : Word) : (if a.ult b then a else b) = BitVec.ofNat 64 (min a.toNat b.toNat) := by
  simp [BitVec.ult, min_def_lt, apply_ite (BitVec.ofNat 64)]

theorem ite_ult_eq_max (a b : Word) : (if a.ult b then b else a) = BitVec.ofNat 64 (max a.toNat b.toNat) := by
  simp [BitVec.ult, max_def_lt, apply_ite (BitVec.ofNat 64)]

/-- The upper immediate is 4096 times the integer it stands for (R78, R169). -/
theorem upperValue_eq_ofInt (imm : BitVec 20) : upperValue imm = BitVec.ofInt 64 (imm.toInt * 4096) := by
  have h : (imm ++ (0 : BitVec 12)).toInt = imm.toInt * 4096 := by
    rw [mul_comm]; exact BitVec.toInt_append_zero
  rw [← h]; rfl

/-- apc adds it to its own PC, an unsigned address (R169). -/
theorem add_upperValue_eq_ofInt (pc : Word) (imm : BitVec 20) :
    pc + upperValue imm = BitVec.ofInt 64 (pc.toNat + imm.toInt * 4096) := by
  rw [upperValue_eq_ofInt, BitVec.ofInt_add, BitVec.ofInt_natCast, BitVec.ofNat_toNat, BitVec.setWidth_eq]

/-- The two ways to say that a divisor is zero. -/
theorem eq_zero_iff_toInt (b : Word) : b = 0 ↔ b.toInt = 0 := by rw [← BitVec.toInt_inj]; rfl

theorem eq_zero_iff_toNat (b : Word) : b = 0 ↔ b.toNat = 0 := BitVec.toNat_eq

/-- The signed quotient; the only one that overflows, -2^63 by -1, wraps to the dividend (R129). -/
theorem quotient_eq (a b : Word) : quotient a b =
    if b.toInt = 0 then 0xFFFFFFFFFFFFFFFF
    else if a.toInt = -2 ^ 63 ∧ b.toInt = -1 then 0x8000000000000000
    else BitVec.ofInt 64 (a.toInt.tdiv b.toInt) := by
  simp only [quotient, eq_zero_iff_toInt]
  split
  · rfl
  · split
    · next h => rw [h.1, h.2]; rfl
    · rfl

/-- The signed remainder, zero where the quotient overflows (R129). -/
theorem remainderS_eq (a b : Word) : remainderS a b =
    if b.toInt = 0 then a
    else if a.toInt = -2 ^ 63 ∧ b.toInt = -1 then 0
    else BitVec.ofInt 64 (a.toInt.tmod b.toInt) := by
  simp only [remainderS, eq_zero_iff_toInt]
  split
  · rfl
  · split
    · next h => rw [h.1, h.2]; rfl
    · rfl

theorem quotientN_eq (a b : Word) : quotientN a b =
    if b.toNat = 0 then 0xFFFFFFFFFFFFFFFF else BitVec.ofNat 64 (a.toNat / b.toNat) := by
  simp only [quotientN, eq_zero_iff_toNat]; rfl

theorem remainderN_eq (a b : Word) : remainderN a b =
    if b.toNat = 0 then a else BitVec.ofNat 64 (a.toNat % b.toNat) := by
  simp only [remainderN, eq_zero_iff_toNat]

/-! ## The form that the instructions share (R42, R167) -/

/-- With no write to its registers pending, the form commits at once, with the result computed on the hart as it is. -/
theorem committed_scalarResult (s : State) (rs : List XReg) (rd : XReg) (len : Nat) (f : Hart → Word)
    (hp : pendingX (me s) (rd :: rs) = false) :
    Committed s (scalarResult s rs rd len f) ((me s).pc + word len) rd (f (me s)) := by
  rw [scalarResult, settledX_done s s.cur (rd :: rs) _ hp]
  exact committed_modHart s s.cur _ rd _ _ rfl rfl

/-- The instruction has that form: len bytes long, it reads rs and writes v to rd. -/
def Computes (i : Instr) (s : State) (len : Nat) (rd : XReg) (rs : List XReg) (v : Word) : Prop :=
  ∃ f : Hart → Word, exec i s = .next (scalarResult s rs rd len f) ∧ f (me s) = v

theorem Computes.commits {i : Instr} {s : State} {len : Nat} {rd : XReg} {rs : List XReg} {v : Word}
    (h : Computes i s len rd rs v) (hp : pendingX (me s) (rd :: rs) = false) :
    ∃ t, exec i s = .next t ∧ Committed s t ((me s).pc + word len) rd v := by
  obtain ⟨f, he, rfl⟩ := h
  exact ⟨_, he, committed_scalarResult s rs rd len f hp⟩

/-! ## The tables, instruction by instruction -/

section Tables

variable {i : Instr} {rd : XReg} {rs : List XReg} {v : Word}

theorem codeOf_isSome_of_integerResult {hd : Hart} (h : integerResult hd i = some (rd, rs, v)) : ∃ w, codeOf i = some w := by
  cases i with
  | add | sub | and | or | xor | shl | shr | sha | slt | sltn | min | max | minn | maxn
  | addi | andi | ori | xori | shli | shri | shai | slti | sltni | lhi | apc => exact ⟨_, rfl⟩
  | _ => cases h

theorem codeOf_isSome_of_productResult {hd : Hart} (h : productResult hd i = some (rd, rs, v)) : ∃ w, codeOf i = some w := by
  cases i with
  | mul | mulh | mulhn | div | divn | rem | remn => exact ⟨_, rfl⟩
  | _ => cases h

theorem computes_of_integerResult {s : State} (h : integerResult (me s) i = some (rd, rs, v)) :
    Computes i s 4 rd rs v := by
  cases i with
  | add => cases h; exact ⟨_, rfl, add_eq_ofInt _ _⟩
  | sub => cases h; exact ⟨_, rfl, sub_eq_ofInt _ _⟩
  | and | or | xor => cases h; exact ⟨_, rfl, rfl⟩
  | shl | shli => cases h; exact ⟨_, rfl, shiftLeft_eq_ofNat _ _⟩
  | shr | shri => cases h; exact ⟨_, rfl, ushiftRight_eq_ofNat _ _⟩
  | sha | shai => cases h; exact ⟨_, rfl, sshiftRight_eq_ofInt _ _⟩
  | slt => cases h; exact ⟨_, rfl, boolWord_slt _ _⟩
  | sltn | sltni => cases h; exact ⟨_, rfl, boolWord_ult _ _⟩
  | min => cases h; exact ⟨_, rfl, ite_slt_eq_min _ _⟩
  | max => cases h; exact ⟨_, rfl, ite_slt_eq_max _ _⟩
  | minn => cases h; exact ⟨_, rfl, ite_ult_eq_min _ _⟩
  | maxn => cases h; exact ⟨_, rfl, ite_ult_eq_max _ _⟩
  | addi => cases h; exact ⟨_, rfl, add_sext_eq_ofInt _ _⟩
  | andi | ori | xori => cases h; exact ⟨_, rfl, rfl⟩
  | slti => cases h; exact ⟨_, rfl, boolWord_slt_sext _ _⟩
  | lhi => cases h; exact ⟨_, rfl, upperValue_eq_ofInt _⟩
  | apc => cases h; exact ⟨_, rfl, add_upperValue_eq_ofInt _ _⟩
  | _ => cases h

theorem computes_of_productResult {s : State} (h : productResult (me s) i = some (rd, rs, v)) :
    Computes i s 4 rd rs v := by
  cases i with
  | mul => cases h; exact ⟨_, rfl, mul_eq_ofInt _ _⟩
  | mulh | mulhn => cases h; exact ⟨_, rfl, rfl⟩
  | div => cases h; exact ⟨_, rfl, quotient_eq _ _⟩
  | divn => cases h; exact ⟨_, rfl, quotientN_eq _ _⟩
  | rem => cases h; exact ⟨_, rfl, remainderS_eq _ _⟩
  | remn => cases h; exact ⟨_, rfl, remainderN_eq _ _⟩
  | _ => cases h

theorem computes_of_compactResult {s : State} (h : compactResult (me s) i = some (rd, rs, v)) :
    Computes i s 2 rd rs v := by
  cases i with
  | cAdd => cases h; exact ⟨_, rfl, add_eq_ofInt _ _⟩
  | cSub => cases h; exact ⟨_, rfl, sub_eq_ofInt _ _⟩
  | cAnd | cOr | cXor | cMv => cases h; exact ⟨_, rfl, rfl⟩
  | cAddi => cases h; exact ⟨_, rfl, add_sext_eq_ofInt _ _⟩
  | cShli => cases h; exact ⟨_, rfl, shiftLeft_eq_ofNat _ _⟩
  | _ => cases h

end Tables

/-- Settles O1: each table's instruction has the shared form, which commits the value the table gives; the
words are the encoder's. -/
theorem integerResults : Obligations.IntegerResults := by
  unfold Obligations.IntegerResults
  refine ⟨fun i s rd rs v h => ?_, fun i s rd rs v h hp => (computes_of_compactResult h).commits hp⟩
  have hcode : ∃ w, codeOf i = some w := h.elim codeOf_isSome_of_integerResult codeOf_isSome_of_productResult
  have hcomp : Computes i s 4 rd rs v := h.elim computes_of_integerResult computes_of_productResult
  obtain ⟨w, hw⟩ := hcode
  exact ⟨⟨w, hw, encode_of_codeOf hw⟩, hcomp.commits⟩

end ScalarResults

end Sys2Proof

/-! PROOFS. Vector configuration (R188): what setvl and setvli store in vtype, the length that they grant, and the hart that
they leave. -/

namespace Sys2Proof

namespace VectorConfiguration

open Machine Safety Claims

/-! ## The value stored and the length granted (R183, R188) -/

/-- A value that sets no bit above vtype's type fields: neither vill nor one of the reserved bits 14 to 62. -/
theorem reservedClear_iff (v : Word) : bit v 63 = false ∧ getBits v 14 49 = 0 ↔ v.toNat < 2 ^ 14 := by
  have hv : v.toNat < 2 ^ 64 := v.isLt
  have hbit : bit v 63 = decide (v.toNat / 2 ^ 63 % 2 = 1) := Nat.testBit_eq_decide_div_mod_eq
  have hfield : getBits v 14 49 = v.toNat / 2 ^ 14 % 2 ^ 49 := congrArg (· % 2 ^ 49) (Nat.shiftRight_eq_div_pow _ _)
  rw [hbit, hfield, decide_eq_false_iff_not]
  omega

/-- A write keeps a legal value, and stores vill alone for any other (R188). -/
theorem vtypeOf_eq (v : Word) :
    vtypeOf v = if vtEt v < 22 ∧ vtEt2 v < 22 ∧ v.toNat < 2 ^ 14 then v else vill := by
  have hill : (bit v 63 || getBits v 14 49 != 0 || !etLegal (vtEt v) || !etLegal (vtEt2 v)) = true ↔
      ¬ (vtEt v < 22 ∧ vtEt2 v < 22 ∧ v.toNat < 2 ^ 14) := by
    rw [← reservedClear_iff]
    simp only [etLegal, Bool.or_eq_true, Bool.not_eq_true', bne_iff_ne, decide_eq_false_iff_not, ← Bool.not_eq_true (bit v 63)]
    tauto
  rw [vtypeOf, if_congr hill rfl rfl, ite_not]

/-- An illegal configuration and an AVL of zero grant nothing alike. -/
theorem vlGrant_eq (vt : Word) (avl : Nat) :
    vlGrant vt avl = if vtIll vt ∨ avl = 0 then 0 else if avl < vlGrain vt then vlGrain vt
      else min avl (vlmax vt) / vlGrain vt * vlGrain vt := by
  rw [ite_or]; rfl

/-! ## The hart after the instruction (R156, R167, R438) -/

/-- The model's commitment of one instruction is the one that the statements write out. -/
theorem commitAt_eq_committedHart (hd : Hart) (pc : Word) : commitAt hd pc = committedHart hd pc := rfl

/-- So is the commitment of one that writes a result. -/
theorem setX_commitAt_eq_resultHart (hd : Hart) (pc : Word) (rd : XReg) (v : Word) :
    setX (commitAt hd pc) rd v = resultHart hd pc rd v := by
  rw [commitAt_eq_committedHart]
  by_cases h : rd = 0
  · subst h; rw [setX_zero]; rfl
  · simp only [setX, putX, nameLast, resultHart, if_neg h]; rfl

/-- A legal configuration or vill is stored with its grant, which is the result too; the new epoch separates the queue
entries before it from those after it. -/
theorem setvlHart_eq (hd : Hart) (rd ra : XReg) (v : Word) :
    setvlHart hd rd ra v =
      resultHart { hd with
          csr := { hd.csr with vtype := vtypeOf v, vl := word (vlGrant (vtypeOf v) (readX hd ra).toNat) }
          epoch := hd.epoch + 1 }
        (hd.pc + 4) rd (word (vlGrant (vtypeOf v) (readX hd ra).toNat)) :=
  setX_commitAt_eq_resultHart _ _ _ _

/-! ## The form that both instructions share -/

/-- The instruction configures the hart from the value v, once no pending entry will write one of the registers rs that it
names, and waits for nothing else. -/
structure Configures (i : Instr) (s : State) (rd ra : XReg) (rs : List XReg) (v : Word) : Prop where
  code : ∃ w, codeOf i = some w
  runs : ∃ f : Hart → Word, f (me s) = v ∧
    exec i s = .next (settledX s s.cur rs fun t => modHart t s.cur fun hd => setvlHart hd rd ra (f hd))
  waits : mustWait s i = pendingX (me s) rs

theorem configures_setvli (s : State) (rd ra : XReg) (imm : BitVec 14) :
    Configures (.setvli rd ra imm) s rd ra [rd, ra] (BitVec.ofNat 64 imm.toNat) :=
  ⟨⟨_, rfl⟩, ⟨fun _ => imm.setWidth 64, (BitVec.ofNat_toNat 64 imm).symm, rfl⟩, rfl⟩

theorem configures_setvl (s : State) (rd ra rb : XReg) :
    Configures (.setvl rd ra rb) s rd ra [rd, ra, rb] (readX (me s) rb) :=
  ⟨⟨_, rfl⟩, ⟨fun hd => readX hd rb, rfl, rfl⟩, rfl⟩

/-- With nothing to wait for, the instruction configures the current hart as it is, and changes nothing else. -/
theorem Configures.exec_eq {i : Instr} {s : State} {rd ra : XReg} {rs : List XReg} {v : Word}
    (h : Configures i s rd ra rs v) (hw : mustWait s i = false) :
    exec i s = .next (withMe s (setvlHart (me s) rd ra v)) := by
  obtain ⟨f, rfl, he⟩ := h.runs
  have hp : pendingX (me s) rs = false := h.waits.symm.trans hw
  rw [he, settledX_done s s.cur rs _ hp]
  rfl

/-- Settles O8: both instructions have the shared form, which stores vtype and its grant as R188 gives them. -/
theorem vectorConfiguration : Obligations.VectorConfiguration := by
  unfold Obligations.VectorConfiguration
  intro i s rd ra v hi hw
  obtain ⟨rs, hc⟩ : ∃ rs, Configures i s rd ra rs v := by
    rcases hi with ⟨imm, rfl, rfl⟩ | ⟨rb, rfl, rfl⟩
    · exact ⟨_, configures_setvli s rd ra imm⟩
    · exact ⟨_, configures_setvl s rd ra rb⟩
  obtain ⟨w, hcode⟩ := hc.code
  refine ⟨⟨w, hcode, ScalarResults.encode_of_codeOf hcode⟩, ?_⟩
  rw [hc.exec_eq hw, setvlHart_eq, vlGrant_eq, vtypeOf_eq]
  rfl

end VectorConfiguration

end Sys2Proof
